-- ==== Sys2Proof/Word.lean ====
section
/-! DEFINITION. The word types of the block and their plainest shapes (`00_scope.md` R7, R12). -/

namespace Sys2Proof

/-- An effective or physical address, a register, or a page-table word: 32 bits (R7 `XLEN`). -/
abbrev Word := BitVec 32

/-- The unit of the physical and the effective address space (R45). -/
abbrev Byte := BitVec 8

/-- The value side of a typed access, right-aligned and zero-extended (R36 `D`, `RSP.DATA`). -/
abbrev DWord := BitVec 64

end Sys2Proof
end

