-- ==== Sys2Proof/Syntax.lean ====
section
/-! DEFINITION. The commands of the block, one constructor per row of the opcode map (`30_encoding.md` R129). -/

namespace Sys2Proof

/-- The two ports a command can arrive on (R129, R387): `g` is the guest's, `h` the tool's. -/
inductive Port where
  | g
  | h
deriving DecidableEq, Repr

/-- The `sp` field, requested address space (R122).  `reserved` is the code 0b11: the row still
matches (R129) and the command then aborts with `BAD_SPACE`. -/
inductive Space where
  | effective
  | physical
  | virtual
  | reserved
deriving DecidableEq, Repr

/-- One command.  The address and data operands are not in the command word: they stand in the
request registers of the command's port (R123, R124). -/
inductive Instr where
  | read8
  | read16
  | read32
  | read64
  | write8
  | write16
  | write32
  | write64
  | readOpcode
  | tryReadInst
  | dclClear
  | dclStore
  | dclInvalidate
  | dclFlush
  | dclTouch
  | dmaLcToMem (blocks : BitVec 16)
  | dmaMemToLc (blocks : BitVec 16)
  | sdrUpdated
  | dbatUpdated
  | ibatUpdated
  | tlbInvalidateEntry
  | jitTranslate
  | getTranslated
  | optRam8
  | optRam16
  | optRam32
  | optRam64
  | optMmio8
  | optMmio16
  | optMmio32
  | optMmio64
  | optGather
  | hostRead8 (sp : Space)
  | hostRead16 (sp : Space)
  | hostRead32 (sp : Space)
  | hostRead64 (sp : Space)
  | hostTryRead8 (sp : Space)
  | hostTryRead16 (sp : Space)
  | hostTryRead32 (sp : Space)
  | hostTryRead64 (sp : Space)
  | hostWrite8 (sp : Space)
  | hostWrite16 (sp : Space)
  | hostWrite32 (sp : Space)
  | hostWrite64 (sp : Space)
  | hostTryWrite8 (sp : Space)
  | hostTryWrite16 (sp : Space)
  | hostTryWrite32 (sp : Space)
  | hostTryWrite64 (sp : Space)
  | hostIsRam (sp : Space)
  | hostIsIram (sp : Space)
  | hostGetString (sp : Space) (max : BitVec 16)
  | hostGetU16String (sp : Space) (max : BitVec 16)
  | stateSave
  | stateRestore
deriving DecidableEq, Repr

end Sys2Proof
end

