-- ==== Sys2Proof/WellFormed.lean ====
section
/-! DEFINITION. Which command terms are well formed: the one check the fields of a command allow is
that a requested address space is one of the three the source names (`30_encoding.md` R122). -/

namespace Sys2Proof

/-- `sp` is Effective, Physical or Virtual (R122); the code 0b11 is reserved. -/
def Space.isLegal : Space → Bool
  | .effective => true
  | .physical => true
  | .virtual => true
  | .reserved => false

/-- A command is well formed when its address space, if it has one, is legal (R122).  An ill-formed
command still decodes (its row matches, R129) and still has a meaning: it aborts (R384 `BAD_SPACE`). -/
def Instr.wellFormed : Instr → Bool
  | .read8 | .read16 | .read32 | .read64 => true
  | .write8 | .write16 | .write32 | .write64 => true
  | .readOpcode | .tryReadInst => true
  | .dclClear | .dclStore | .dclInvalidate | .dclFlush | .dclTouch => true
  | .dmaLcToMem _ | .dmaMemToLc _ => true
  | .sdrUpdated | .dbatUpdated | .ibatUpdated | .tlbInvalidateEntry => true
  | .jitTranslate | .getTranslated => true
  | .optRam8 | .optRam16 | .optRam32 | .optRam64 => true
  | .optMmio8 | .optMmio16 | .optMmio32 | .optMmio64 | .optGather => true
  | .hostRead8 sp | .hostRead16 sp | .hostRead32 sp | .hostRead64 sp => sp.isLegal
  | .hostTryRead8 sp | .hostTryRead16 sp | .hostTryRead32 sp | .hostTryRead64 sp => sp.isLegal
  | .hostWrite8 sp | .hostWrite16 sp | .hostWrite32 sp | .hostWrite64 sp => sp.isLegal
  | .hostTryWrite8 sp | .hostTryWrite16 sp | .hostTryWrite32 sp | .hostTryWrite64 sp => sp.isLegal
  | .hostIsRam sp | .hostIsIram sp => sp.isLegal
  | .hostGetString sp _ | .hostGetU16String sp _ => sp.isLegal
  | .stateSave | .stateRestore => true

end Sys2Proof
end

