-- ==== Sys2Proof/Decode.lean ====
section
/-! DEFINITION. The command word: its fields, the decoder, the encoder, and the opcode map
(`30_encoding.md` R120 to R123, R129, R130). -/

namespace Sys2Proof

/-! ### Fields of `CMD` (R120) -/

/-- `CMD[31:26]`, the operation. -/
def cmdOp (w : Word) : BitVec 6 := w.extractLsb' 26 6

/-- `CMD[25:24]`, the access width. -/
def cmdSz (w : Word) : BitVec 2 := w.extractLsb' 24 2

/-- `CMD[23:22]`, the requested address space. -/
def cmdSp (w : Word) : BitVec 2 := w.extractLsb' 22 2

/-- `CMD[21:16]`, must be zero. -/
def cmdZero (w : Word) : BitVec 6 := w.extractLsb' 16 6

/-- `CMD[15:0]`, the count. -/
def cmdImm (w : Word) : BitVec 16 := w.extractLsb' 0 16

/-- The codes of the `sp` field (R122). -/
def Space.ofCode (c : BitVec 2) : Space :=
  if c = 0#2 then .effective
  else if c = 1#2 then .physical
  else if c = 2#2 then .virtual
  else .reserved

/-- The code of an address space in the `sp` field (R122). -/
def Space.code : Space → BitVec 2
  | .effective => 0#2
  | .physical => 1#2
  | .virtual => 2#2
  | .reserved => 3#2

/-- Why a word selects no row of the opcode map (R130).  Each of these is an illegal command. -/
inductive DecodeError where
  /-- `op` is none of the assigned values. -/
  | unknownOp
  /-- A non-zero `sz` on a command without a width. -/
  | widthNotZero
  /-- A non-zero `sp` on a command without a space. -/
  | spaceNotZero
  /-- A non-zero `zero` field. -/
  | zeroFieldNotZero
  /-- A non-zero `imm` on a command without a count. -/
  | countNotZero
deriving DecidableEq, Repr

/-- Answer `i` unless one of the listed conditions holds; the first that does names the refusal. -/
def checkedDecode (checks : List (Bool × DecodeError)) (i : Instr) : Except DecodeError Instr :=
  match checks.find? (·.1) with
  | some c => .error c.2
  | none => .ok i

/-- `sz` must be 0 (R121). -/
def needsNoWidth (w : Word) : Bool × DecodeError := (cmdSz w != 0#2, .widthNotZero)

/-- `sp` must be 0 (R122). -/
def needsNoSpace (w : Word) : Bool × DecodeError := (cmdSp w != 0#2, .spaceNotZero)

/-- The `zero` field must be 0 (R120). -/
def needsZeroField (w : Word) : Bool × DecodeError := (cmdZero w != 0#6, .zeroFieldNotZero)

/-- `imm` must be 0 (R123). -/
def needsNoCount (w : Word) : Bool × DecodeError := (cmdImm w != 0#16, .countNotZero)

/-- Choose by the width field (R121): 8, 16, 32 or 64 bits. -/
def byWidth {α : Type} (w : Word) (x8 x16 x32 x64 : α) : α :=
  if cmdSz w = 0#2 then x8
  else if cmdSz w = 1#2 then x16
  else if cmdSz w = 2#2 then x32
  else x64

/-- A command with no field of its own. -/
def decodePlain (w : Word) (i : Instr) : Except DecodeError Instr :=
  checkedDecode [needsNoWidth w, needsNoSpace w, needsZeroField w, needsNoCount w] i

/-- A port G command with a width. -/
def decodeSized (w : Word) (i8 i16 i32 i64 : Instr) : Except DecodeError Instr :=
  checkedDecode [needsNoSpace w, needsZeroField w, needsNoCount w] (byWidth w i8 i16 i32 i64)

/-- A port G command with a count. -/
def decodeCounted (w : Word) (f : BitVec 16 → Instr) : Except DecodeError Instr :=
  checkedDecode [needsNoWidth w, needsNoSpace w, needsZeroField w] (f (cmdImm w))

/-- A port H command with a width and an address space. -/
def decodeSpacedSized (w : Word) (f8 f16 f32 f64 : Space → Instr) : Except DecodeError Instr :=
  checkedDecode [needsZeroField w, needsNoCount w] (byWidth w f8 f16 f32 f64 (Space.ofCode (cmdSp w)))

/-- A port H command with an address space. -/
def decodeSpaced (w : Word) (f : Space → Instr) : Except DecodeError Instr :=
  checkedDecode [needsNoWidth w, needsZeroField w, needsNoCount w] (f (Space.ofCode (cmdSp w)))

/-- A port H command with an address space and a count. -/
def decodeSpacedCounted (w : Word) (f : Space → BitVec 16 → Instr) : Except DecodeError Instr :=
  checkedDecode [needsNoWidth w, needsZeroField w] (f (Space.ofCode (cmdSp w)) (cmdImm w))

/-- The decoder (R129, R130): total, every word is a row's command or a refusal by name. -/
def decode (w : Word) : Except DecodeError Instr :=
  match cmdOp w with
  | 0x01#6 => decodeSized w .read8 .read16 .read32 .read64
  | 0x02#6 => decodeSized w .write8 .write16 .write32 .write64
  | 0x03#6 => decodePlain w .readOpcode
  | 0x04#6 => decodePlain w .tryReadInst
  | 0x08#6 => decodePlain w .dclClear
  | 0x09#6 => decodePlain w .dclStore
  | 0x0A#6 => decodePlain w .dclInvalidate
  | 0x0B#6 => decodePlain w .dclFlush
  | 0x0C#6 => decodePlain w .dclTouch
  | 0x0E#6 => decodeCounted w .dmaLcToMem
  | 0x0F#6 => decodeCounted w .dmaMemToLc
  | 0x10#6 => decodePlain w .sdrUpdated
  | 0x11#6 => decodePlain w .dbatUpdated
  | 0x12#6 => decodePlain w .ibatUpdated
  | 0x13#6 => decodePlain w .tlbInvalidateEntry
  | 0x18#6 => decodePlain w .jitTranslate
  | 0x19#6 => decodePlain w .getTranslated
  | 0x1A#6 => decodeSized w .optRam8 .optRam16 .optRam32 .optRam64
  | 0x1B#6 => decodeSized w .optMmio8 .optMmio16 .optMmio32 .optMmio64
  | 0x1C#6 => decodePlain w .optGather
  | 0x20#6 => decodeSpacedSized w .hostRead8 .hostRead16 .hostRead32 .hostRead64
  | 0x21#6 => decodeSpacedSized w .hostTryRead8 .hostTryRead16 .hostTryRead32 .hostTryRead64
  | 0x22#6 => decodeSpacedSized w .hostWrite8 .hostWrite16 .hostWrite32 .hostWrite64
  | 0x23#6 => decodeSpacedSized w .hostTryWrite8 .hostTryWrite16 .hostTryWrite32 .hostTryWrite64
  | 0x24#6 => decodeSpaced w .hostIsRam
  | 0x25#6 => decodeSpaced w .hostIsIram
  | 0x26#6 => decodeSpacedCounted w .hostGetString
  | 0x27#6 => decodeSpacedCounted w .hostGetU16String
  | 0x30#6 => decodePlain w .stateSave
  | 0x31#6 => decodePlain w .stateRestore
  | _ => .error .unknownOp

/-! ### Encoder: the `match` column of R129 with the free fields filled in -/

/-- A row's `match` with a count in `imm` (R123). -/
def withCount (row : Word) (n : BitVec 16) : Word := row ||| n.setWidth 32

/-- A row's `match` with an address space in `sp` (R122). -/
def withSpace (row : Word) (sp : Space) : Word := row ||| (sp.code.setWidth 32 <<< 22)

/-- The command word of an instruction (R129). -/
def encode : Instr → Word
  | .read8 => 0x04000000#32
  | .read16 => 0x05000000#32
  | .read32 => 0x06000000#32
  | .read64 => 0x07000000#32
  | .write8 => 0x08000000#32
  | .write16 => 0x09000000#32
  | .write32 => 0x0A000000#32
  | .write64 => 0x0B000000#32
  | .readOpcode => 0x0C000000#32
  | .tryReadInst => 0x10000000#32
  | .dclClear => 0x20000000#32
  | .dclStore => 0x24000000#32
  | .dclInvalidate => 0x28000000#32
  | .dclFlush => 0x2C000000#32
  | .dclTouch => 0x30000000#32
  | .dmaLcToMem n => withCount 0x38000000#32 n
  | .dmaMemToLc n => withCount 0x3C000000#32 n
  | .sdrUpdated => 0x40000000#32
  | .dbatUpdated => 0x44000000#32
  | .ibatUpdated => 0x48000000#32
  | .tlbInvalidateEntry => 0x4C000000#32
  | .jitTranslate => 0x60000000#32
  | .getTranslated => 0x64000000#32
  | .optRam8 => 0x68000000#32
  | .optRam16 => 0x69000000#32
  | .optRam32 => 0x6A000000#32
  | .optRam64 => 0x6B000000#32
  | .optMmio8 => 0x6C000000#32
  | .optMmio16 => 0x6D000000#32
  | .optMmio32 => 0x6E000000#32
  | .optMmio64 => 0x6F000000#32
  | .optGather => 0x70000000#32
  | .hostRead8 sp => withSpace 0x80000000#32 sp
  | .hostRead16 sp => withSpace 0x81000000#32 sp
  | .hostRead32 sp => withSpace 0x82000000#32 sp
  | .hostRead64 sp => withSpace 0x83000000#32 sp
  | .hostTryRead8 sp => withSpace 0x84000000#32 sp
  | .hostTryRead16 sp => withSpace 0x85000000#32 sp
  | .hostTryRead32 sp => withSpace 0x86000000#32 sp
  | .hostTryRead64 sp => withSpace 0x87000000#32 sp
  | .hostWrite8 sp => withSpace 0x88000000#32 sp
  | .hostWrite16 sp => withSpace 0x89000000#32 sp
  | .hostWrite32 sp => withSpace 0x8A000000#32 sp
  | .hostWrite64 sp => withSpace 0x8B000000#32 sp
  | .hostTryWrite8 sp => withSpace 0x8C000000#32 sp
  | .hostTryWrite16 sp => withSpace 0x8D000000#32 sp
  | .hostTryWrite32 sp => withSpace 0x8E000000#32 sp
  | .hostTryWrite64 sp => withSpace 0x8F000000#32 sp
  | .hostIsRam sp => withSpace 0x90000000#32 sp
  | .hostIsIram sp => withSpace 0x94000000#32 sp
  | .hostGetString sp n => withCount (withSpace 0x98000000#32 sp) n
  | .hostGetU16String sp n => withCount (withSpace 0x9C000000#32 sp) n
  | .stateSave => 0xC0000000#32
  | .stateRestore => 0xC4000000#32

/-- The port a command is accepted on (R129): the host surface and the snapshot commands on H, every
other command on G. -/
def Instr.port : Instr → Port
  | .read8 | .read16 | .read32 | .read64 => .g
  | .write8 | .write16 | .write32 | .write64 => .g
  | .readOpcode | .tryReadInst => .g
  | .dclClear | .dclStore | .dclInvalidate | .dclFlush | .dclTouch => .g
  | .dmaLcToMem _ | .dmaMemToLc _ => .g
  | .sdrUpdated | .dbatUpdated | .ibatUpdated | .tlbInvalidateEntry => .g
  | .jitTranslate | .getTranslated => .g
  | .optRam8 | .optRam16 | .optRam32 | .optRam64 => .g
  | .optMmio8 | .optMmio16 | .optMmio32 | .optMmio64 | .optGather => .g
  | .hostRead8 _ | .hostRead16 _ | .hostRead32 _ | .hostRead64 _ => .h
  | .hostTryRead8 _ | .hostTryRead16 _ | .hostTryRead32 _ | .hostTryRead64 _ => .h
  | .hostWrite8 _ | .hostWrite16 _ | .hostWrite32 _ | .hostWrite64 _ => .h
  | .hostTryWrite8 _ | .hostTryWrite16 _ | .hostTryWrite32 _ | .hostTryWrite64 _ => .h
  | .hostIsRam _ | .hostIsIram _ => .h
  | .hostGetString _ _ | .hostGetU16String _ _ => .h
  | .stateSave | .stateRestore => .h

/-- The `match` and `mask` columns of the opcode map (R129), in the table's order.  The decoder does
not read this list: it is the map as the spec prints it, for statements about the decoder. -/
def opcodeMap : List (Word × Word) :=
  [(0x04000000#32, 0xFFFFFFFF#32), (0x05000000#32, 0xFFFFFFFF#32), (0x06000000#32, 0xFFFFFFFF#32),
   (0x07000000#32, 0xFFFFFFFF#32), (0x08000000#32, 0xFFFFFFFF#32), (0x09000000#32, 0xFFFFFFFF#32),
   (0x0A000000#32, 0xFFFFFFFF#32), (0x0B000000#32, 0xFFFFFFFF#32), (0x0C000000#32, 0xFFFFFFFF#32),
   (0x10000000#32, 0xFFFFFFFF#32), (0x20000000#32, 0xFFFFFFFF#32), (0x24000000#32, 0xFFFFFFFF#32),
   (0x28000000#32, 0xFFFFFFFF#32), (0x2C000000#32, 0xFFFFFFFF#32), (0x30000000#32, 0xFFFFFFFF#32),
   (0x38000000#32, 0xFFFF0000#32), (0x3C000000#32, 0xFFFF0000#32), (0x40000000#32, 0xFFFFFFFF#32),
   (0x44000000#32, 0xFFFFFFFF#32), (0x48000000#32, 0xFFFFFFFF#32), (0x4C000000#32, 0xFFFFFFFF#32),
   (0x60000000#32, 0xFFFFFFFF#32), (0x64000000#32, 0xFFFFFFFF#32), (0x68000000#32, 0xFFFFFFFF#32),
   (0x69000000#32, 0xFFFFFFFF#32), (0x6A000000#32, 0xFFFFFFFF#32), (0x6B000000#32, 0xFFFFFFFF#32)] ++
  [(0x6C000000#32, 0xFFFFFFFF#32), (0x6D000000#32, 0xFFFFFFFF#32), (0x6E000000#32, 0xFFFFFFFF#32),
   (0x6F000000#32, 0xFFFFFFFF#32), (0x70000000#32, 0xFFFFFFFF#32), (0x80000000#32, 0xFF3FFFFF#32),
   (0x81000000#32, 0xFF3FFFFF#32), (0x82000000#32, 0xFF3FFFFF#32), (0x83000000#32, 0xFF3FFFFF#32),
   (0x84000000#32, 0xFF3FFFFF#32), (0x85000000#32, 0xFF3FFFFF#32), (0x86000000#32, 0xFF3FFFFF#32),
   (0x87000000#32, 0xFF3FFFFF#32), (0x88000000#32, 0xFF3FFFFF#32), (0x89000000#32, 0xFF3FFFFF#32),
   (0x8A000000#32, 0xFF3FFFFF#32), (0x8B000000#32, 0xFF3FFFFF#32), (0x8C000000#32, 0xFF3FFFFF#32),
   (0x8D000000#32, 0xFF3FFFFF#32), (0x8E000000#32, 0xFF3FFFFF#32), (0x8F000000#32, 0xFF3FFFFF#32),
   (0x90000000#32, 0xFF3FFFFF#32), (0x94000000#32, 0xFF3FFFFF#32), (0x98000000#32, 0xFF3F0000#32),
   (0x9C000000#32, 0xFF3F0000#32), (0xC0000000#32, 0xFFFFFFFF#32), (0xC4000000#32, 0xFFFFFFFF#32)]

/-- A word selects a row when `w & mask = match` (R129). -/
def selectsRow (w : Word) (row : Word × Word) : Bool := w &&& row.2 == row.1

/-- The host's view of the decoder: the command read from a word given as a number.  A command is
one 32-bit word (R120); there is no second word and no byte order to choose. -/
def decodeTableWord (nbits w : Nat) : Option Instr :=
  if nbits ≤ 32 ∧ w < 2 ^ 32 then
    match decode (BitVec.ofNat 32 w) with
    | .ok i => some i
    | .error _ => none
  else none

end Sys2Proof
end

