-- ==== Sys2Proof/Config.lean ====
section
/-! DEFINITION. The configuration record of the block (`00_scope.md` R8 to R10; "Open parameters" of
`92_eei_decisions.md`), the reference platform RP0, and the one value the spec leaves free. -/

namespace Sys2Proof

/-- A physical range (base, size).  It holds `pa` when `pa - base < size` modulo 2^32 (R81). -/
structure Region where
  base : Word
  size : Nat
deriving DecidableEq, Repr

/-- The parameters of a platform (R8, R9).  They are fixed at construction and never change (R412). -/
structure Config where
  /-- `BAT_INDEX_SHIFT`, written `S` (R8). -/
  s : Nat
  /-- `N_BAT`: BAT register pairs per side (R9). -/
  nBat : Nat
  /-- `TLB_SETS`: sets of each page-table cache (R9). -/
  tlbSets : Nat
  /-- `PAGE_PROT_ENFORCE` (R9, R183). -/
  pageProtEnforce : Bool
  /-- `FAKE_BAT_EN` (R214). -/
  fakeBatEn : Bool
  /-- `FAKE_BAT_START` (R214). -/
  fakeBatStart : Word
  /-- `FAKE_BAT_LEN` (R214). -/
  fakeBatLen : Nat
  /-- `RAM_REGIONS` (R81). -/
  ramRegions : List Region
  /-- `MMIO_RANGES` (R81). -/
  mmioRanges : List Region
  /-- `LC_BASE` (R96). -/
  lcBase : Word
  /-- `LC_SIZE` (R96). -/
  lcSize : Nat
  /-- `GATHER_PIPE_PA` (R96, R350). -/
  gatherPipePa : Word
  /-- `STR_TERMINATOR` (R9, R330).  DESIGN CHOICE (log entry 19): 16 bits, the width of a string element; R9, R330
  and D20 give it no width.  An element is compared with it zero-extended, so a string of bytes never ends on a
  terminator above 0xFF. -/
  strTerminator : BitVec 16
deriving DecidableEq, Repr

/-- The reference platform RP0 of R10, every other parameter at its default (R9).
DESIGN CHOICE: the configuration `State.reset` starts with (log entry 2). -/
def Config.rp0 : Config where
  s := 15
  nBat := 4
  tlbSets := 128
  pageProtEnforce := true
  fakeBatEn := false
  fakeBatStart := 0#32
  fakeBatLen := 0
  ramRegions := [⟨0x00000000#32, 0x01800000⟩, ⟨0xE0000000#32, 0x00004000⟩]
  mmioRanges := [⟨0x0C000000#32, 0x01000000⟩]
  lcBase := 0xE0000000#32
  lcSize := 0x00004000
  gatherPipePa := 0x0C008000#32
  strTerminator := 0#16

/-- FREE VALUE.  What a memory-mapped-I/O handler answers (R83: an oracle that may return any value;
U10): a value with no body, of the number of handler calls made before it, the address and the width
in bytes.  Log entry 5. -/
opaque Config.mmioValue : Nat → Word → Nat → DWord

end Sys2Proof
end

