-- ==== Sys2Proof/Machine/State.lean ====
section
/-! DEFINITION. The state of the machine (`10_state.md`): the block's own state, the processor state
it reads, the backing store, the port registers, the inputs, and the record of what it sent out. -/

namespace Sys2Proof.Machine

/-- An array held by its entries that differ from a default, in one canonical form: keys strictly
rising and no entry equal to the default (`Sparse.WF`), so that equal arrays are equal lists. -/
abbrev Sparse (α : Type) := List (Nat × α)

/-- An array of `w`-bit words whose unlisted entries are 0. -/
abbrev Cells (w : Nat) := Sparse (BitVec w)

/-- `PhysMem` (R80): bytes by physical address.  An unlisted byte of RAM reads as 0
(DESIGN CHOICE, log entry 4; R411 lets a model start with all bytes zero). -/
abbrev Memory := List Host.Cell

/-- The translation side (R17): instruction or data. -/
inductive Side where
  | instruction
  | data
deriving DecidableEq, Repr

/-- One way of a page-table cache set (R33, R140). -/
structure Way where
  /-- `valid` (1 bit). -/
  valid : Bool
  /-- `tag`: the effective page number `ea[31:12]`. -/
  tag : BitVec 20
  /-- `pte1`: a copy of word 1 of the page-table entry. -/
  pte1 : Word
deriving DecidableEq, Repr

/-- One set of a page-table cache (R33): two ways and the bit `recent` (`true`: way 1). -/
structure TlbSet where
  way0 : Way
  way1 : Way
  recent : Bool
deriving DecidableEq, Repr

/-- A way as reset leaves it (R47): invalid, all fields 0. -/
def Way.empty : Way := ⟨false, 0#20, 0#32⟩

/-- A set as reset leaves it (R47). -/
def TlbSet.empty : TlbSet := ⟨Way.empty, Way.empty, false⟩

/-- A page-table cache: sets by number; an unlisted set is as reset leaves it. -/
abbrev Tlb := Sparse TlbSet

/-- One BAT register pair: upper and lower word (R42). -/
structure BatPair where
  upper : Word
  lower : Word
deriving DecidableEq, Repr

/-- The processor state the block reads live and never writes (R40 to R43).  There are `N_BAT` pairs
a side; slots at and above `N_BAT` belong to no register of the platform and no rule reads them. -/
structure Cpu where
  /-- `MSR.IR`. -/
  msrIr : Bool
  /-- `MSR.DR`. -/
  msrDr : Bool
  /-- `MSR.PR`: user state when set. -/
  msrPr : Bool
  /-- `SR[0..15]`. -/
  sr : Vector Word 16
  /-- `BATU[I][i]`, `BATL[I][i]`. -/
  ibat : Vector BatPair 8
  /-- `BATU[D][i]`, `BATL[D][i]`. -/
  dbat : Vector BatPair 8
  /-- `SDR1`. -/
  sdr1 : Word
deriving DecidableEq, Repr

/-- `RSP.STATUS` (R127).  Codes 5 to 14 are never produced and have no constructor (U8). -/
inductive Status where
  | ok
  | absent
  | dsi
  | isi
  | busError
  | abort
deriving DecidableEq, Repr

/-- `RSP.FLAGS` (R128). -/
structure Flags where
  translated : Bool
  fromBat : Bool
  wi : Bool
  mmio : Bool
deriving DecidableEq, Repr

/-- The request registers of a port (R36).  `pending` is the model's own: a command has been
presented and not yet accepted (R389; log entry 3). -/
structure Request where
  pending : Bool
  /-- `CMD`. -/
  cmd : Word
  /-- `A`. -/
  a : Word
  /-- `B`. -/
  b : Word
  /-- `D`. -/
  d : DWord
  /-- `SNAP_IN`. -/
  snapIn : Cells 32
deriving DecidableEq, Repr

/-- The response registers of a port (R36). -/
structure Response where
  /-- `RSP.STATUS`. -/
  status : Status
  /-- `RSP.FLAGS`. -/
  flags : Flags
  /-- `RSP.DATA`. -/
  data : DWord
  /-- `RSP.ADDR`. -/
  addr : Word
  /-- `RSP.LEN`. -/
  len : BitVec 16
  /-- `RSP.STR`: 65535 elements of 16 bits. -/
  str : Cells 16
  /-- `SNAP_OUT`. -/
  snapOut : Cells 32
deriving DecidableEq, Repr

/-- All four flags 0. -/
def Flags.none : Flags := ⟨false, false, false, false⟩

/-- Every response register 0 (R36, R47; the status code 0 is `OK`, R127). -/
def Response.zero : Response where
  status := .ok
  flags := Flags.none
  data := 0#64
  addr := 0#32
  len := 0#16
  str := []
  snapOut := []

/-- Request registers that hold 0 and no presented command. -/
def Request.zero : Request where
  pending := false
  cmd := 0#32
  a := 0#32
  b := 0#32
  d := 0#64
  snapIn := []

/-- One port: its own request and response registers (R36). -/
structure PortRegs where
  req : Request
  rsp : Response
deriving DecidableEq, Repr

/-- `FAULT.KIND` (R131). -/
inductive FaultKind where
  | dsi
  | isi
deriving DecidableEq, Repr

/-- `FAULT.CAUSE` (R131, R373).  Codes 0 and 5 to 7 are never sent and have no constructor (U8). -/
inductive FaultCause where
  | pageMiss
  | protection
  | directStore
  | noExecute
deriving DecidableEq, Repr

/-- A fault message to the processor-state component (R131). -/
structure FaultMsg where
  kind : FaultKind
  write : Bool
  cause : FaultCause
  ea : Word
deriving DecidableEq, Repr

/-- What the block sends out (R83, R379): fault messages and handler calls.  `n` is the width of a
handler call in bytes. -/
inductive Event where
  | fault (msg : FaultMsg)
  | mmioRead (pa : Word) (n : Nat) (value : DWord)
  | mmioWrite (pa : Word) (n : Nat) (value : DWord)
deriving DecidableEq, Repr

/-- Why the block aborted (R384).  The spec does not report it; a model may keep it for diagnosis. -/
inductive AbortReason where
  | illegalCommand
  | badSpace
  | wrongPort
  | misalignedFetch
  | badSnapshot
deriving DecidableEq, Repr

/-- The machine: the block, what it borrows (R30), its ports, its inputs, and its output trace. -/
structure State where
  /-- The platform parameters (R9); no step changes them (R412). -/
  cfg : Config
  /-- The processor state, read live (R30 b). -/
  cpu : Cpu
  /-- The input `cpu_parked` (R389). -/
  cpuParked : Bool
  /-- The model's own: a reset is requested and is released by the next step (R410; log entry 3). -/
  resetRequested : Bool
  /-- Port G. -/
  g : PortRegs
  /-- Port H. -/
  h : PortRegs
  /-- `IBAT_TABLE` (R31): descriptors by index; an unlisted entry is 0, unmapped. -/
  ibatTable : Cells 32
  /-- `DBAT_TABLE` (R32). -/
  dbatTable : Cells 32
  /-- `ITLB` (R33). -/
  itlb : Tlb
  /-- `DTLB` (R33). -/
  dtlb : Tlb
  /-- `PT_BASE` (R34). -/
  ptBase : Word
  /-- `PT_HASHMASK` (R34). -/
  ptHashMask : BitVec 19
  /-- `FATAL` (R35). -/
  fatal : Bool
  /-- The model's own: the reason of the first abort since reset, for diagnosis (R384). -/
  abortReason : Option AbortReason
  /-- `PhysMem`, the backing store (R80; R30 c). -/
  mem : Memory
  /-- The model's own: handler calls made so far, the argument of the free value `Config.mmioValue`. -/
  handlerCalls : Nat
  /-- The output trace, oldest first (R83, R379). -/
  trace : List Event
deriving DecidableEq, Repr

/-- Why the machine stops with a fault.  There is no constructor: every condition the spec names
ends in a response (`OK`, `ABSENT`, `DSI`, `ISI`, `BUS_ERROR`, `ABORT`; R370), so no step of this
machine faults. -/
inductive Fault where
deriving DecidableEq, Repr

/-- Why the model gives no next state. -/
inductive Refusal where
  /-- Raised by `exec` for a command whose meaning is not written (none is left).  Safe: the model
  stops where the block goes on. -/
  | notModelled (mnemonic : String)
  /-- Raised by `step` for an ill-formed configuration (U13: "refuse").  Safe: the spec says that a
  model refuses it. -/
  | illFormedConfig
deriving DecidableEq, Repr

/-- The processor registers of `State.reset`: all 0 (R411; DESIGN CHOICE, log entry 1). -/
def Cpu.zero : Cpu where
  msrIr := false
  msrDr := false
  msrPr := false
  sr := Vector.replicate 16 0#32
  ibat := Vector.replicate 8 ⟨0#32, 0#32⟩
  dbat := Vector.replicate 8 ⟨0#32, 0#32⟩
  sdr1 := 0#32

/-- The machine right after reset (R47, R410), with the state the block does not own at zero, which
R411 allows: both BAT tables all zeros, `PT_BASE` = 0, `PT_HASHMASK` = 0x3FF. -/
def State.reset : State where
  cfg := Config.rp0
  cpu := Cpu.zero
  cpuParked := false
  resetRequested := false
  g := ⟨Request.zero, Response.zero⟩
  h := ⟨Request.zero, Response.zero⟩
  ibatTable := []
  dbatTable := []
  itlb := []
  dtlb := []
  ptBase := 0#32
  ptHashMask := 0x3FF#19
  fatal := false
  abortReason := none
  mem := []
  handlerCalls := 0
  trace := []

end Sys2Proof.Machine
end

