-- ==== Sys2Proof/Machine/Bits.lean ====
section
/-! DEFINITION. Register and address fields (`30_encoding.md` R132 to R140) and the codes of the response
and of the fault message (R127, R128, R131). -/

namespace Sys2Proof.Machine

/-! ### Effective address (R138) -/

/-- `ea[11:0]`. -/
def eaOffset (ea : Word) : BitVec 12 := ea.extractLsb' 0 12

/-- `page_index` = `ea[27:12]`. -/
def eaPageIndex (ea : Word) : BitVec 16 := ea.extractLsb' 12 16

/-- `API` = `ea[27:22]`. -/
def eaApi (ea : Word) : BitVec 6 := ea.extractLsb' 22 6

/-- The segment-register selector `ea[31:28]`. -/
def eaSelector (ea : Word) : BitVec 4 := ea.extractLsb' 28 4

/-- The effective page number `ea[31:12]`, the tag of R140. -/
def eaPage (ea : Word) : BitVec 20 := ea.extractLsb' 12 20

/-- `(frame << 12) | offset` (R186). -/
def frameAddress (frame : BitVec 20) (offset : BitVec 12) : Word := frame ++ offset

/-! ### BAT registers (R132, R133) -/

/-- `BEPI` = `BATU[31:17]`. -/
def batuBepi (u : Word) : BitVec 15 := u.extractLsb' 17 15

/-- `zext_15(BL)`, `BL` = `BATU[12:2]`. -/
def batuMask (u : Word) : BitVec 15 := (u.extractLsb' 2 11).setWidth 15

/-- `Vs` = `BATU[1]`. -/
def batuVs (u : Word) : Bool := u.getLsbD 1

/-- `Vp` = `BATU[0]`. -/
def batuVp (u : Word) : Bool := u.getLsbD 0

/-- `BRPN` = `BATL[31:17]`. -/
def batlBrpn (l : Word) : BitVec 15 := l.extractLsb' 17 15

/-- `W | I` of `WIMG`: bits 6 and 5, in `BATL` (R133) and in page-table word 1 (R137) alike. -/
def wimgWi (w : Word) : Bool := w.getLsbD 6 || w.getLsbD 5

/-! ### BAT-table descriptor (R139) -/

/-- `MAPPED`, bit 0. -/
def descMapped (d : Word) : Bool := d.getLsbD 0

/-- `PHYSICAL`, bit 1. -/
def descPhysical (d : Word) : Bool := d.getLsbD 1

/-- `WI`, bit 2. -/
def descWi (d : Word) : Bool := d.getLsbD 2

/-- `BAT_OFFSET_MASK` = 2^S - 1 (R8). -/
def batOffsetMask (s : Nat) : Word := BitVec.ofNat 32 (2 ^ s - 1)

/-- `BAT_RESULT_MASK` = `~(2^S - 1)` (R8, R139). -/
def batResultMask (s : Nat) : Word := ~~~(batOffsetMask s)

/-- The BAT result `(d & BAT_RESULT_MASK) | (ea & BAT_OFFSET_MASK)` (R173). -/
def batAddress (s : Nat) (d ea : Word) : Word := (d &&& batResultMask s) ||| (ea &&& batOffsetMask s)

/-! ### Segment register (R134) -/

/-- `T`, bit 31: direct-store segment. -/
def srT (sr : Word) : Bool := sr.getLsbD 31

/-- `Ks`, bit 30. -/
def srKs (sr : Word) : Bool := sr.getLsbD 30

/-- `Kp`, bit 29. -/
def srKp (sr : Word) : Bool := sr.getLsbD 29

/-- `N`, bit 28: no-execute segment. -/
def srN (sr : Word) : Bool := sr.getLsbD 28

/-- `VSID` = `SR[23:0]`. -/
def srVsid (sr : Word) : BitVec 24 := sr.extractLsb' 0 24

/-! ### `SDR1` (R135) and its latched form (R34) -/

/-- `PT_BASE` = `SDR1[31:16] << 16`. -/
def sdr1PtBase (sdr1 : Word) : Word := (sdr1.extractLsb' 16 16) ++ 0#16

/-- `PT_HASHMASK` = `(SDR1[8:0] << 10) | 0x3FF`. -/
def sdr1HashMask (sdr1 : Word) : BitVec 19 := (sdr1.extractLsb' 0 9) ++ 0x3FF#10

/-! ### Page-table entry (R136, R137) -/

/-- `RPN` = `w1[31:12]`. -/
def pteRpn (w1 : Word) : BitVec 20 := w1.extractLsb' 12 20

/-- `R`, bit 8. -/
def pteR (w1 : Word) : Bool := w1.getLsbD 8

/-- `C`, bit 7. -/
def pteC (w1 : Word) : Bool := w1.getLsbD 7

/-- `PP` = `w1[1:0]`. -/
def ptePp (w1 : Word) : BitVec 2 := w1.extractLsb' 0 2

/-- Word 0 of the entry looked for (R174 `want`): `V` = 1, the VSID, the hash number `H`, the API. -/
def pteWant (vsid : BitVec 24) (secondary : Bool) (api : BitVec 6) : Word :=
  1#1 ++ vsid ++ BitVec.ofBool secondary ++ api

/-! ### Codes on the ports -/

/-- `RSP.STATUS` codes (R127). -/
def Status.code : Status → BitVec 4
  | .ok => 0#4
  | .absent => 1#4
  | .dsi => 2#4
  | .isi => 3#4
  | .busError => 4#4
  | .abort => 15#4

/-- `FAULT.KIND` codes (R131). -/
def FaultKind.code : FaultKind → BitVec 1
  | .dsi => 0#1
  | .isi => 1#1

/-- `FAULT.CAUSE` codes (R131, R373). -/
def FaultCause.code : FaultCause → BitVec 3
  | .pageMiss => 1#3
  | .protection => 2#3
  | .directStore => 3#3
  | .noExecute => 4#3

end Sys2Proof.Machine
end

