-- ==== Sys2Proof/Machine/Platform.lean ====
section
/-! DEFINITION. The platform predicates (`20_memory.md` R81, R84, R96) and the well-formedness of a
configuration (`93_implementation_defined.md` U13). -/

namespace Sys2Proof.Machine

/-- `pa - base < size`, modulo 2^32, unsigned (R81). -/
def inRegion (r : Region) (pa : Word) : Bool := (pa - r.base).toNat < r.size

/-- All the bytes `pa`, …, `pa + n - 1` lie in the region: the offset of the first one leaves room
for `n`, or the region is the whole space. -/
def regionHolds (r : Region) (pa : Word) (n : Nat) : Bool :=
  2 ^ 32 ≤ r.size || (pa - r.base).toNat + n ≤ r.size

/-- The `n` bytes at `pa` lie in one region of the list (R84).  Two regions that touch are not merged: bytes across
their seam lie in no region (DESIGN CHOICE, log entry 22: U13 leaves it to the model). -/
def inOne (rs : List Region) (pa : Word) (n : Nat) : Bool := rs.any fun r => regionHolds r pa n

/-- `is_ram(pa)` (R81). -/
def isRam (c : Config) (pa : Word) : Bool := c.ramRegions.any fun r => inRegion r pa

/-- `is_mmio(pa)` (R81). -/
def isMmio (c : Config) (pa : Word) : Bool := c.mmioRanges.any fun r => inRegion r pa

/-- `is_ram_block(b)`: the whole 128 KiB block is RAM of one region (R81). -/
def isRamBlock (c : Config) (b : BitVec 15) : Bool := inOne c.ramRegions (b ++ 0#17) 0x20000

/-- Where the physical dispatch sends an access (R84). -/
inductive Target where
  | ram
  | mmio
deriving DecidableEq, Repr

/-- The physical dispatch (R84): RAM when all `n` bytes are in one RAM region, else a handler when
all are in one MMIO range, else none: `BUS`. -/
def route (c : Config) (pa : Word) (n : Nat) : Option Target :=
  if inOne c.ramRegions pa n then some .ram
  else if inOne c.mmioRanges pa n then some .mmio
  else none

/-- The 32 bytes at the line-aligned address `lc` lie in the locked cache, the test of R286 as
written; a locked cache of no bytes holds none. -/
def inLockedCache (c : Config) (lc : Word) : Bool :=
  c.lcSize != 0 && c.lcBase ≤ lc && lc + 31#32 ≤ c.lcBase + BitVec.ofNat 32 c.lcSize - 1#32

/-! ### Well-formed configurations (U13) -/

/-- Two ranges share an address. -/
def regionsMeet (r q : Region) : Bool :=
  r.size != 0 && q.size != 0 && (inRegion r q.base || inRegion q r.base)

/-- The 128 KiB granule of a BAT block and of the fake run (R214). -/
def batGranule : Nat := 0x20000

/-- The fake run is aligned, not empty, and does not wrap (R214). -/
def fakeRunOk (c : Config) : Bool :=
  !c.fakeBatEn ||
    (c.fakeBatStart.toNat % batGranule == 0 && c.fakeBatLen % batGranule == 0 &&
      0 < c.fakeBatLen && c.fakeBatStart.toNat + c.fakeBatLen ≤ 2 ^ 32)

/-- The locked cache lies inside one RAM region (R9, R96, U13). -/
def lockedCacheOk (c : Config) : Bool := c.lcSize == 0 || inOne c.ramRegions c.lcBase c.lcSize

/-- `TLB_SETS` is a power of two between 1 and 2^20 (U13). -/
def tlbSetsOk (n : Nat) : Bool := (List.range 21).any fun k => n == 2 ^ k

/-- No range is larger than the address space. -/
def sizesOk (rs : List Region) : Bool := rs.all fun r => r.size ≤ 2 ^ 32

/-- A configuration the model accepts (R81, R214, U13). -/
def configOk (c : Config) : Bool :=
  12 ≤ c.s && c.s ≤ 17 && (c.nBat == 4 || c.nBat == 8) && tlbSetsOk c.tlbSets &&
    c.ramRegions.all (fun r => c.mmioRanges.all fun q => !regionsMeet r q) &&
    sizesOk c.ramRegions && sizesOk c.mmioRanges && lockedCacheOk c && fakeRunOk c

end Sys2Proof.Machine
end

