-- ==== Sys2Proof/Machine/Sparse.lean ====
section
/-! DEFINITION. Reading and writing an array held by its non-default entries: memory, the BAT tables,
the page-table caches, the snapshot and string registers all use these operations. -/

namespace Sys2Proof.Machine

/-- The entry at `a`; the default `d` where none is listed. -/
def Sparse.get {α : Type} (d : α) : Sparse α → Nat → α
  | [], _ => d
  | (k, v) :: m, a => if k = a then v else Sparse.get d m a

/-- Write `v` at `a`, keeping the canonical form: writing the default removes the entry. -/
def Sparse.set {α : Type} [DecidableEq α] (d : α) : Sparse α → Nat → α → Sparse α
  | [], a, v => if v = d then [] else [(a, v)]
  | (k, x) :: m, a, v =>
    if a < k then (if v = d then (k, x) :: m else (a, v) :: (k, x) :: m)
    else if a = k then (if v = d then m else (a, v) :: m)
    else (k, x) :: Sparse.set d m a v

/-- The canonical form: keys strictly rising, no entry equal to the default. -/
abbrev Sparse.WF {α : Type} [DecidableEq α] (d : α) (m : Sparse α) : Prop :=
  m.Pairwise (fun p q => p.1 < q.1) ∧ ∀ p ∈ m, p.2 ≠ d

/-- Apply `f` to every entry (`f` keeps the default), dropping entries that become the default. -/
def Sparse.mapValues {α : Type} [DecidableEq α] (d : α) (f : α → α) (m : Sparse α) : Sparse α :=
  (List.map (fun p => (p.1, f p.2)) m).filter fun p => p.2 ≠ d

/-- The array whose entries 0 to `n - 1` are `f 0`, …, `f (n - 1)`. -/
def Sparse.ofFun {α : Type} [DecidableEq α] (d : α) (n : Nat) (f : Nat → α) : Sparse α :=
  ((List.range n).map fun i => (i, f i)).filter fun p => p.2 ≠ d

/-- The array whose leading entries are the listed values. -/
def Sparse.ofListFrom {α : Type} [DecidableEq α] (d : α) : Nat → List α → Sparse α
  | _, [] => []
  | k, v :: vs => if v = d then Sparse.ofListFrom d (k + 1) vs else (k, v) :: Sparse.ofListFrom d (k + 1) vs

/-- Lay the entries of `new` over `old`: where both list a key, `new` wins. -/
def Sparse.overlay {α : Type} : Sparse α → Sparse α → Sparse α
  | [], old => old
  | (k, v) :: new, old =>
    old.takeWhile (fun p => p.1 < k) ++ (k, v) :: Sparse.overlay new (old.dropWhile (fun p => p.1 ≤ k))

/-! ### Memory as such an array of bytes -/

/-- The canonical form of the backing store. -/
abbrev Memory.wf (m : Memory) : Prop := Sparse.WF 0#8 m

/-- The byte at a physical address (R80). -/
def Memory.byte (m : Memory) (pa : Word) : Byte := Sparse.get 0#8 m pa.toNat

/-- Write one byte at a physical address. -/
def Memory.putByte (m : Memory) (pa : Word) (v : Byte) : Memory := Sparse.set 0#8 m pa.toNat v

/-- The byte addresses `pa`, `pa + 1`, …, `pa + n - 1`, modulo 2^32 (R13). -/
def byteRun (pa : Word) (n : Nat) : List Word := (List.range n).map fun i => pa + BitVec.ofNat 32 i

/-- Append one byte at the low end of a big-endian value (R82). -/
def beAppend (acc : DWord) (b : Byte) : DWord := (acc <<< 8) ||| b.setWidth 64

/-- The big-endian number in a list of bytes, most significant first (R82). -/
def beValue (bs : List Byte) : DWord := bs.foldl beAppend 0#64

/-- The byte rule R82 puts at offset `i` of an `n`-byte value: `v[8(n-i)-1 : 8(n-i-1)]`. -/
def beByte (n : Nat) (v : DWord) (i : Nat) : Byte := (v >>> (8 * (n - 1 - i))).setWidth 8

/-- The bytes of an `n`-byte value, most significant first (R82). -/
def beBytes (n : Nat) (v : DWord) : List Byte := (List.range n).map (beByte n v)

/-- The big-endian value of `n` bytes at `pa` (R82). -/
def Memory.readBE (m : Memory) (pa : Word) (n : Nat) : DWord := beValue ((byteRun pa n).map m.byte)

/-- Write bytes at the listed addresses, in order. -/
def Memory.putBytes (m : Memory) (ws : List (Word × Byte)) : Memory :=
  ws.foldl (fun m w => m.putByte w.1 w.2) m

/-- Write the `n`-byte value `v` at `pa`, most significant byte first (R82). -/
def Memory.writeBE (m : Memory) (pa : Word) (n : Nat) (v : DWord) : Memory :=
  m.putBytes ((byteRun pa n).zip (beBytes n v))

end Sys2Proof.Machine
end

