-- ==== Sys2Proof/Machine/Ops.lean ====
section
/-! DEFINITION. The named operations on the state: ports and responses, the output trace, taking a
fault (the block's trap entry), abort, the physical dispatch, and reset. -/

namespace Sys2Proof.Machine

/-! ### Ports -/

/-- The registers of a port. -/
def State.port (s : State) : Port → PortRegs
  | .g => s.g
  | .h => s.h

/-- The request registers of a port (R14: `A`, `B`, `D`, `CMD` of the port the command came on). -/
def State.req (s : State) (p : Port) : Request := (s.port p).req

/-- The response registers of a port. -/
def State.rsp (s : State) (p : Port) : Response := (s.port p).rsp

/-- Write every response register of a port at once (R126). -/
def State.respond (s : State) (p : Port) (r : Response) : State :=
  match p with
  | .g => { s with g := { s.g with rsp := r } }
  | .h => { s with h := { s.h with rsp := r } }

/-- Replace the request registers of a port: what a requester does, never a command (R36). -/
def State.setReq (s : State) (p : Port) (q : Request) : State :=
  match p with
  | .g => { s with g := { s.g with req := q } }
  | .h => { s with h := { s.h with req := q } }

/-- The presented command of a port is accepted: it is no longer waiting (R389). -/
def State.take (s : State) (p : Port) : State := s.setReq p { s.req p with pending := false }

/-- A response that carries only a status (R36: every other register is written with zero). -/
def Response.only (st : Status) : Response := { Response.zero with status := st }

/-! ### What the block owns -/

/-- The BAT table of a side (R31, R32). -/
def State.table (s : State) : Side → Cells 32
  | .instruction => s.ibatTable
  | .data => s.dbatTable

/-- Write a whole BAT table (R221 d: "never partially mutated"). -/
def State.withTable (s : State) (side : Side) (t : Cells 32) : State :=
  match side with
  | .instruction => { s with ibatTable := t }
  | .data => { s with dbatTable := t }

/-- The page-table cache of a side (R33). -/
def State.tlb (s : State) : Side → Tlb
  | .instruction => s.itlb
  | .data => s.dtlb

/-- Replace the page-table cache of a side. -/
def State.withTlb (s : State) (side : Side) (t : Tlb) : State :=
  match side with
  | .instruction => { s with itlb := t }
  | .data => { s with dtlb := t }

/-- Latch the page-table locator from `SDR1` as it stands (R34). -/
def State.latchLocator (s : State) : State :=
  { s with ptBase := sdr1PtBase s.cpu.sdr1, ptHashMask := sdr1HashMask s.cpu.sdr1 }

/-- The enable bit of a side: `MSR.IR` or `MSR.DR` (R172). -/
def State.translationOn (s : State) : Side → Bool
  | .instruction => s.cpu.msrIr
  | .data => s.cpu.msrDr

/-- The BAT register pairs of a side, `N_BAT` of them in ascending number (R42). -/
def State.batPairs (s : State) : Side → List BatPair
  | .instruction => s.cpu.ibat.toList.take s.cfg.nBat
  | .data => s.cpu.dbat.toList.take s.cfg.nBat

/-- The segment register an effective address selects, read live (R175). -/
def State.segment (s : State) (ea : Word) : Word :=
  s.cpu.sr[(eaSelector ea).toNat]'((eaSelector ea).isLt)

/-- Replace the backing store. -/
def State.withMem (s : State) (m : Memory) : State := { s with mem := m }

/-- Send one event out (R83, R379). -/
def State.emit (s : State) (e : Event) : State := { s with trace := s.trace ++ [e] }

/-! ### Faults and aborts -/

/-- The status a fault of each kind ends the command with (R127). -/
def FaultKind.status : FaultKind → Status
  | .dsi => .dsi
  | .isi => .isi

/-- `raise DSI` / `raise ISI` (R14, R371, R372, R379): send one fault message to the
processor-state component and end the command with status `DSI` / `ISI`, every other response
register zero (R374).  Nothing else: no saved pc, no mode, no handler address (R379). -/
def State.raise (s : State) (p : Port) (msg : FaultMsg) : State :=
  (s.emit (.fault msg)).respond p (Response.only msg.kind.status)

/-- `abort(reason)` (R384): set `FATAL`, answer `ABORT`, change no other state.  The reason of the
first abort is kept for diagnosis only. -/
def State.abort (s : State) (p : Port) (reason : AbortReason) : State :=
  ({ s with fatal := true, abortReason := some (s.abortReason.getD reason) } : State).respond p
    (Response.only .abort)

/-! ### Physical dispatch (R80 to R85) -/

/-- What a physical read answers: the value, and whether a handler gave it. -/
structure Loaded where
  value : DWord
  viaHandler : Bool
deriving DecidableEq, Repr

/-- Keep the low `8n` bits: a handler's value is an `8n`-bit number (R83). -/
def lowBytes (n : Nat) (v : DWord) : DWord := (v.setWidth (8 * n)).setWidth 64

/-- `MmioRead(pa, n)` (R83): any value, one call recorded.  The value is free (log entry 5). -/
def State.mmioRead (s : State) (pa : Word) (n : Nat) : DWord × State :=
  let v := lowBytes n (Config.mmioValue s.handlerCalls pa n)
  (v, ({ s with handlerCalls := s.handlerCalls + 1 } : State).emit (.mmioRead pa n v))

/-- `MmioWrite(pa, n, v)` (R83): an event of the history. -/
def State.mmioWrite (s : State) (pa : Word) (n : Nat) (v : DWord) : State :=
  ({ s with handlerCalls := s.handlerCalls + 1 } : State).emit (.mmioWrite pa n (lowBytes n v))

/-- `MemRead(pa, n)` (R84); `none` is `BUS`. -/
def State.memRead (s : State) (pa : Word) (n : Nat) : Option Loaded × State :=
  match route s.cfg pa n with
  | some .ram => (some ⟨Memory.readBE s.mem pa n, false⟩, s)
  | some .mmio =>
    let (v, t) := s.mmioRead pa n
    (some ⟨v, true⟩, t)
  | none => (none, s)

/-- `MemWrite(pa, n, v)` (R84); `none` is `BUS` and nothing is written.  Otherwise says whether a
handler was called. -/
def State.memWrite (s : State) (pa : Word) (n : Nat) (v : DWord) : Option Bool × State :=
  match route s.cfg pa n with
  | some .ram => (some false, s.withMem (Memory.writeBE s.mem pa n v))
  | some .mmio => (some true, s.mmioWrite pa n v)
  | none => (none, s)

/-- `RamRead32(pa)` (R85): 0 unless all four bytes are RAM of one region. -/
def State.ramRead32 (s : State) (pa : Word) : Word :=
  if inOne s.cfg.ramRegions pa 4 then (Memory.readBE s.mem pa 4).setWidth 32 else 0#32

/-- `RamWrite32(pa, v)` (R85): writes when all four bytes are RAM, else does nothing. -/
def State.ramWrite32 (s : State) (pa : Word) (v : Word) : State :=
  if (byteRun pa 4).all (isRam s.cfg) then s.withMem (Memory.writeBE s.mem pa 4 (v.setWidth 64))
  else s

/-! ### Performing a planned access (R88) -/

/-- The bytes are physically contiguous: `pa[i] = pa[0] + i` for every `i` (R88). -/
def isContiguous : List Word → Bool
  | [] => true
  | p :: ps => p :: ps == byteRun p (ps.length + 1)

/-- One-byte reads in ascending order, assembled by R82; a read stops at the first `BUS` (R88).  The read came from
a handler when some byte of it did (DEDUCED, log entry 20). -/
def State.readEach (s : State) (acc : Loaded) : List Word → Option Loaded × State
  | [] => (some acc, s)
  | p :: ps =>
    match s.memRead p 1 with
    | (none, t) => (none, t)
    | (some l, t) => t.readEach ⟨beAppend acc.value (l.value.setWidth 8), acc.viaHandler || l.viaHandler⟩ ps

/-- The read of R88 over the bytes of a plan. -/
def State.performRead (s : State) (pas : List Word) : Option Loaded × State :=
  if isContiguous pas then s.memRead (pas.headD 0#32) pas.length
  else s.readEach ⟨0#64, false⟩ pas

/-- One-byte writes in ascending order; says whether a handler was called (R88).  The write went to a handler when
some byte of it did (DEDUCED, log entry 20). -/
def State.writeEach (s : State) (viaHandler : Bool) : List (Word × Byte) → Bool × State
  | [] => (viaHandler, s)
  | w :: ws =>
    match s.memWrite w.1 1 (w.2.setWidth 64) with
    | (none, t) => t.writeEach viaHandler ws
    | (some h, t) => t.writeEach (viaHandler || h) ws

/-- The write of R88 over the bytes of a plan: every byte is checked first, and if any would be
`BUS` none is written. -/
def State.performWrite (s : State) (pas : List Word) (v : DWord) : Option Bool × State :=
  if isContiguous pas then s.memWrite (pas.headD 0#32) pas.length v
  else if pas.all (fun p => (route s.cfg p 1).isSome) then
    let (h, t) := s.writeEach false (pas.zip (beBytes pas.length v))
    (some h, t)
  else (none, s)

end Sys2Proof.Machine
end

