-- ==== Sys2Proof/Machine/Translate.lean ====
section
/-! DEFINITION. Address translation and permission enforcement (`40_translate.md`). -/

namespace Sys2Proof.Machine

/-- The five modes of a translation (R170). -/
inductive Mode where
  | read
  | write
  | opcode
  | noException
  | opcodeNoException
deriving DecidableEq, Repr

/-- The side a mode translates on (R170). -/
def Mode.side : Mode → Side
  | .read | .write | .noException => .data
  | .opcode | .opcodeNoException => .instruction

/-- The "store" column of R170. -/
def Mode.isStore : Mode → Bool
  | .write => true
  | .read | .opcode | .noException | .opcodeNoException => false

/-- The "mutating" column of R170. -/
def Mode.mutates : Mode → Bool
  | .read | .write | .opcode => true
  | .noException | .opcodeNoException => false

/-- Mode numbers of tables and traces (R144). -/
def Mode.number : Mode → Nat
  | .read => 0
  | .write => 1
  | .opcode => 2
  | .noException => 3
  | .opcodeNoException => 4

/-- The result of a translation (R188): one of six tags, with the physical address and the `wi` flag
where they are meaningful, and the cause of a failure where one is. -/
inductive Translation where
  | untranslated (pa : Word)
  | batTranslated (pa : Word) (wi : Bool)
  | pageTableTranslated (pa : Word) (wi : Bool)
  | directStoreSegment
  | pageFault (cause : FaultCause)
  | failVirtualOnly
deriving DecidableEq, Repr

/-- The cause a failure reports (R188): always `DIRECT_STORE` for a direct-store segment. -/
def Translation.faultCause : Translation → Option FaultCause
  | .directStoreSegment => some .directStore
  | .pageFault c => some c
  | .untranslated _ | .batTranslated _ _ | .pageTableTranslated _ _ | .failVirtualOnly => none

/-- The physical address of a success. -/
def Translation.address : Translation → Option Word
  | .untranslated pa => some pa
  | .batTranslated pa _ => some pa
  | .pageTableTranslated pa _ => some pa
  | .directStoreSegment | .pageFault _ | .failVirtualOnly => none

/-- The address went through a BAT or the page table (R128 `translated`). -/
def Translation.isTranslated : Translation → Bool
  | .batTranslated _ _ | .pageTableTranslated _ _ => true
  | .untranslated _ | .directStoreSegment | .pageFault _ | .failVirtualOnly => false

/-- The address was translated by the BAT table (R128 `from_bat`). -/
def Translation.isFromBat : Translation → Bool
  | .batTranslated _ _ => true
  | .untranslated _ | .pageTableTranslated _ _ | .directStoreSegment | .pageFault _
  | .failVirtualOnly => false

/-- The write-inhibit/cache-inhibit flag of a success (R188). -/
def Translation.wi : Translation → Bool
  | .batTranslated _ wi => wi
  | .pageTableTranslated _ wi => wi
  | .untranslated _ | .directStoreSegment | .pageFault _ | .failVirtualOnly => false

/-! ### Permission (R177, R183) -/

/-- The protection key: `Kp` in user state, `Ks` in supervisor state, both read live (R177). -/
def State.protectionKey (s : State) (sr : Word) : Bool := if s.cpu.msrPr then srKp sr else srKs sr

/-- The cells of the permission table of R183. -/
inductive PagePermission where
  | readWrite
  | readOnly
  | noAccess
deriving DecidableEq, Repr

/-- The permission table (R183), by key and `PP`. -/
def pagePermission (key : Bool) (pp : BitVec 2) : PagePermission :=
  if key then
    if pp = 0#2 then .noAccess
    else if pp = 2#2 then .readWrite
    else .readOnly
  else
    if pp = 3#2 then .readOnly
    else .readWrite

/-- `perm_ok(key, pp, st)` (R183). -/
def permOk (c : Config) (key : Bool) (pp : BitVec 2) (store : Bool) : Bool :=
  !c.pageProtEnforce ||
    match pagePermission key pp with
    | .readWrite => true
    | .readOnly => !store
    | .noAccess => false

/-! ### Page-table cache (R178, R179, R185) -/

/-- The set an effective address falls in: the low log2(`TLB_SETS`) bits of its page number (R140). -/
def setIndex (c : Config) (ea : Word) : Nat := (eaPage ea).toNat % c.tlbSets

/-- One way of a set; `false` is way 0. -/
def TlbSet.way (t : TlbSet) (w : Bool) : Way := if w then t.way1 else t.way0

/-- Replace one way of a set. -/
def TlbSet.setWay (t : TlbSet) (w : Bool) (x : Way) : TlbSet :=
  if w then { t with way1 := x } else { t with way0 := x }

/-- The way is valid and holds this page number. -/
def Way.hits (x : Way) (tag : BitVec 20) : Bool := x.valid && x.tag == tag

/-- The way that hits, compared in the order 0, 1 (R178). -/
def TlbSet.lookup (t : TlbSet) (tag : BitVec 20) : Option Bool :=
  if t.way0.hits tag then some false
  else if t.way1.hits tag then some true
  else none

/-- A set of the cache of a side. -/
def State.tlbSet (s : State) (side : Side) (k : Nat) : TlbSet := Sparse.get TlbSet.empty (s.tlb side) k

/-- Write a set of the cache of a side. -/
def State.withTlbSet (s : State) (side : Side) (k : Nat) (t : TlbSet) : State :=
  s.withTlb side (Sparse.set TlbSet.empty (s.tlb side) k t)

/-- A store hit a way whose cached C is 0: the way is invalidated (R179). -/
def TlbSet.dropWay (t : TlbSet) (w : Bool) : TlbSet := t.setWay w { t.way w with valid := false }

/-- The victim of a fill (R185): way 0 if invalid, else way 1 if invalid, else the way not `recent`. -/
def TlbSet.victim (t : TlbSet) : Bool :=
  if !t.way0.valid then false
  else if !t.way1.valid then true
  else !t.recent

/-- `fill` on one set (R185). -/
def TlbSet.fill (t : TlbSet) (tag : BitVec 20) (pte1 : Word) : TlbSet :=
  let v := t.victim
  { t.setWay v ⟨true, tag, pte1⟩ with recent := v }

/-! ### The walk (R180 to R182, R184) -/

/-- The hash of R180: primary `vsid[18:0] ^ zext_19(page_index)`, secondary its complement. -/
def pageHash (vsid : BitVec 24) (pi : BitVec 16) (secondary : Bool) : BitVec 19 :=
  let h := vsid.extractLsb' 0 19 ^^^ pi.setWidth 19
  if secondary then ~~~h else h

/-- The group address of R181: `PT_BASE | ((hash & PT_HASHMASK) << 6)`. -/
def ptegAddress (s : State) (hash : BitVec 19) : Word :=
  s.ptBase ||| ((hash &&& s.ptHashMask).setWidth 32 <<< 6)

/-- The addresses of the eight entries of a group, ascending (R182). -/
def ptegEntries (pteg : Word) : List Word := (List.range 8).map fun i => pteg + BitVec.ofNat 32 (8 * i)

/-- The first entry of a group whose word 0 equals `want` (R182). -/
def State.searchGroup (s : State) (pteg want : Word) : Option Word :=
  (ptegEntries pteg).find? fun pa => s.ramRead32 pa == want

/-- The search of the page table: the primary group, then the secondary (R182).  Answers the address
of the matching entry. -/
def State.findPte (s : State) (ea : Word) : Option Word :=
  let vsid := srVsid (s.segment ea)
  let group := fun h => s.searchGroup (ptegAddress s (pageHash vsid (eaPageIndex ea) h))
    (pteWant vsid h (eaApi ea))
  match group false with
  | some pa => some pa
  | none => group true

/-- Word 1 with R set, and C too for a store (R184). -/
def pteTouched (w1 : Word) (store : Bool) : Word :=
  w1 ||| 0x100#32 ||| (if store then 0x80#32 else 0#32)

/-- A success of the page path from word 1 of its entry (R186). -/
def pageResult (w1 ea : Word) : Translation :=
  .pageTableTranslated (frameAddress (pteRpn w1) (eaOffset ea)) (wimgWi w1)

/-- The walk and what a hit does (R174, second half). -/
def State.walk (s : State) (m : Mode) (ea : Word) : Translation × State :=
  match s.findPte ea with
  | none => (.pageFault .pageMiss, s)
  | some pte =>
    let w1 := s.ramRead32 (pte + 4#32)
    if permOk s.cfg (s.protectionKey (s.segment ea)) (ptePp w1) m.isStore then
      if m.mutates then
        let w1n := pteTouched w1 m.isStore
        let t := if w1n = w1 then s else s.ramWrite32 (pte + 4#32) w1n
        let k := setIndex s.cfg ea
        (pageResult w1n ea, t.withTlbSet m.side k ((t.tlbSet m.side k).fill (eaPage ea) w1n))
      else (pageResult w1 ea, s)
    else (.pageFault .protection, s)

/-- `TranslatePageAddress(m, ea)` (R174 to R186). -/
def State.translatePage (s : State) (m : Mode) (ea : Word) : Translation × State :=
  let sr := s.segment ea
  if srT sr then (.directStoreSegment, s)
  else if m.side = .instruction && srN sr then (.pageFault .noExecute, s)
  else
    let k := setIndex s.cfg ea
    let set := s.tlbSet m.side k
    match set.lookup (eaPage ea) with
    | none => s.walk m ea
    | some w =>
      let pte1 := (set.way w).pte1
      if !permOk s.cfg (s.protectionKey sr) (ptePp pte1) m.isStore then (.pageFault .protection, s)
      else if m.isStore && !pteC pte1 then (s.withTlbSet m.side k (set.dropWay w)).walk m ea
      else
        (pageResult pte1 ea,
          if m.mutates then s.withTlbSet m.side k { set with recent := w } else s)

/-- The descriptor the BAT lookup reads: `table[ea >> S]` (R173). -/
def State.descriptor (s : State) (side : Side) (ea : Word) : Word :=
  Sparse.get 0#32 (s.table side) (ea.toNat >>> s.cfg.s)

/-- `TranslateAddress(m, ea, virtual_only)` (R171 to R173). -/
def State.translate (s : State) (m : Mode) (ea : Word) (virtualOnly : Bool) : Translation × State :=
  if s.translationOn m.side then
    let d := s.descriptor m.side ea
    if descMapped d then (.batTranslated (batAddress s.cfg.s d ea) (descWi d), s)
    else s.translatePage m ea
  else if virtualOnly then (.failVirtualOnly, s)
  else (.untranslated ea, s)

end Sys2Proof.Machine
end

