-- ==== Sys2Proof/Machine/Flags.lean ====
section
/-! DEFINITION. The response flags (`30_encoding.md` R128): the only flags the block has (R38). -/

namespace Sys2Proof.Machine

/-- `RSP.FLAGS` as the 4-bit register: bit 0 `translated`, 1 `from_bat`, 2 `wi`, 3 `mmio` (R128). -/
def Flags.bits (f : Flags) : BitVec 4 :=
  BitVec.ofBool f.mmio ++ BitVec.ofBool f.wi ++ BitVec.ofBool f.fromBat ++ BitVec.ofBool f.translated

/-- The flags of one translated address (R280, R340): no handler is called. -/
def Translation.flags (t : Translation) : Flags := ⟨t.isTranslated, t.isFromBat, t.wi, false⟩

/-- The flags of an access over the pages' translations (R87, R128): `translated` and `wi` when some
page is, `from_bat` when every page is, `mmio` when a handler was called: for an access split into bytes, when
some byte went to one (DEDUCED, log entry 20). -/
def accessFlags (pages : List Translation) (viaHandler : Bool) : Flags where
  translated := pages.any Translation.isTranslated
  fromBat := pages.all Translation.isFromBat
  wi := pages.any Translation.wi
  mmio := viaHandler

/-- A response as a command writes it when it ends (R126): the flags its own rule set, all four 0 when the status is
not `OK` (R128, last sentence).  Only `DCL_CLEAR` and the DMA commands set flags and may end otherwise (R280, R286; log
entries 7 and 8). -/
def Response.ended (r : Response) : Response := if r.status = .ok then r else { r with flags := Flags.none }

/-- The flags of a command that reports `mmio` only (R286). -/
def Flags.onlyMmio (viaHandler : Bool) : Flags := { Flags.none with mmio := viaHandler }

end Sys2Proof.Machine
end

