-- ==== Sys2Proof/Machine/Operands.lean ====
section
/-! DEFINITION. The operand side of the commands: which register an operand stands in (R124), the access
plan over at most two pages (R87, R310), and the typed accessors over a plan (R240, R241). -/

namespace Sys2Proof.Machine

/-- `D[8n-1:0]`, the write data of an `n`-byte write (R36). -/
def writeData (n : Nat) (d : DWord) : DWord := lowBytes n d

/-- The line address `A & 0xFFFFFFE0` (R280, R286). -/
def lineAddress (a : Word) : Word := a &&& 0xFFFFFFE0#32

/-! ### Pages of an access (R87) -/

/-- Two addresses are on one page. -/
def samePage (a b : Word) : Bool := eaPage a == eaPage b

/-- The address of the last byte of an `n`-byte access, modulo 2^32 (R87). -/
def lastByte (ea : Word) (n : Nat) : Word := ea + BitVec.ofNat 32 (n - 1)

/-- The first byte of the second page of an access that crosses a page (R87). -/
def secondPage (ea : Word) (n : Nat) : Word := lastByte ea n &&& 0xFFFFF000#32

/-- The physical address of the byte at effective address `b`, from the translation of its page:
`(t.pa & 0xFFFFF000) | b[11:0]` (R87). -/
def byteAddress (framePa b : Word) : Word := (framePa &&& 0xFFFFF000#32) ||| (b &&& 0xFFF#32)

/-- A plan that can be performed (R87 `ok`): the physical byte addresses, ascending, and the
translations of its pages, from which the flags come. -/
structure Plan where
  pas : List Word
  pages : List Translation
deriving DecidableEq, Repr

/-- The result of planning: a plan, or the address that fails with what its translation answered. -/
inductive Planned where
  | ok (plan : Plan)
  | fail (ea : Word) (t : Translation)
deriving DecidableEq, Repr

/-- The access plan of R87 over a page translator `tr`: one page or two, each translated exactly once,
the lower bytes' page first; the first failure ends the plan, and what the earlier translation
changed stays changed. -/
def planAccess (tr : Word → State → Translation × State) (ea : Word) (n : Nat) (s : State) :
    Planned × State :=
  match tr ea s with
  | (t1, s1) =>
    match t1.address with
    | none => (.fail ea t1, s1)
    | some pa1 =>
      if samePage ea (lastByte ea n) then
        (.ok ⟨(byteRun ea n).map (byteAddress pa1), [t1]⟩, s1)
      else
        match tr (secondPage ea n) s1 with
        | (t2, s2) =>
          match t2.address with
          | none => (.fail (secondPage ea n) t2, s2)
          | some pa2 =>
            (.ok ⟨(byteRun ea n).map fun b => byteAddress (if samePage ea b then pa1 else pa2) b,
              [t1, t2]⟩, s2)

/-- The page translator of a guest access: `nt` is the source's `neverTranslate` (R87). -/
def guestTranslator (m : Mode) (nt : Bool) (a : Word) (s : State) : Translation × State :=
  if nt then (.untranslated a, s) else s.translate m a false

/-- `Plan(m, ea, n, nt)` (R87). -/
def State.plan (s : State) (m : Mode) (ea : Word) (n : Nat) (nt : Bool) : Planned × State :=
  planAccess (guestTranslator m nt) ea n s

/-- The non-mutating mode of a side (R310). -/
def Side.hostMode : Side → Mode
  | .data => .noException
  | .instruction => .opcodeNoException

/-- The page translator of a host access by requested address space (R310): Physical bypasses,
Virtual forces.  The reserved code never gets here: the command aborts first (R122). -/
def hostTranslator (sp : Space) (m : Mode) (a : Word) (s : State) : Translation × State :=
  match sp with
  | .physical => (.untranslated a, s)
  | .effective => s.translate m a false
  | .virtual => s.translate m a true
  | .reserved => (.failVirtualOnly, s)

/-- `HostPlan(sp, side, ea, n)` (R310); a failure is `fail` and says no more. -/
def State.hostPlan (s : State) (sp : Space) (side : Side) (ea : Word) (n : Nat) : Planned × State :=
  planAccess (hostTranslator sp side.hostMode) ea n s

/-! ### The two accessors (R240, R241) -/

/-- What a typed accessor answers.  `done` carries the value read (0 for a write), the physical
address of the first byte, and the flags. -/
inductive Access where
  | done (value : DWord) (pa0 : Word) (flags : Flags)
  | fault (ea : Word) (cause : FaultCause)
  | bus
deriving DecidableEq, Repr

/-- `ReadHW(m, n, ea, nt)` (R240). -/
def State.readHW (s : State) (m : Mode) (n : Nat) (ea : Word) (nt : Bool) : Access × State :=
  match s.plan m ea n nt with
  | (.fail eaF t, s1) => (.fault eaF (t.faultCause.getD .pageMiss), s1)
  | (.ok p, s1) =>
    match s1.performRead p.pas with
    | (none, s2) => (.bus, s2)
    | (some l, s2) => (.done l.value (p.pas.headD 0#32) (accessFlags p.pages l.viaHandler), s2)

/-- `WriteHW(m, n, ea, v, nt)` (R241). -/
def State.writeHW (s : State) (m : Mode) (n : Nat) (ea : Word) (v : DWord) (nt : Bool) :
    Access × State :=
  match s.plan m ea n nt with
  | (.fail eaF t, s1) => (.fault eaF (t.faultCause.getD .pageMiss), s1)
  | (.ok p, s1) =>
    match s1.performWrite p.pas v with
    | (none, s2) => (.bus, s2)
    | (some viaHandler, s2) =>
      (.done 0#64 (p.pas.headD 0#32) (accessFlags p.pages viaHandler), s2)

end Sys2Proof.Machine
end

