-- ==== Sys2Proof/Machine/Access.lean ====
section
/-! DEFINITION. Typed reads and writes, and instruction fetch (`42_access.md` R240 to R252). -/

namespace Sys2Proof.Machine

/-- What a meaning answers. -/
abbrev Result := Host.Outcome State Fault Refusal

/-- A successful response with a value, a resolved address and flags; the other registers are 0. -/
def Response.access (data : DWord) (addr : Word) (flags : Flags) : Response :=
  { Response.zero with data := data, addr := addr, flags := flags }

/-! ### Guest reads and writes -/

/-- End a guest-facing data command by what its accessor answered (R242 to R249): a response, one
DSI, or `BUS_ERROR`. -/
def State.endAccess (write : Bool) : Access × State → State
  | (.done v pa0 flags, t) => t.respond .g (Response.access v pa0 flags)
  | (.fault ea cause, t) => t.raise .g ⟨.dsi, write, cause, ea⟩
  | (.bus, t) => t.respond .g (Response.only .busError)

/-- `READ.n` with `n` in bytes (common part of R242 to R245). -/
def State.guestRead (s : State) (n : Nat) : State :=
  State.endAccess false (s.readHW .read n (s.req .g).a false)

/-- `WRITE.n` with `n` in bytes (common part of R246 to R249); a write answers `RSP.DATA` = 0. -/
def State.guestWrite (s : State) (n : Nat) : State :=
  State.endAccess true (s.writeHW .write n (s.req .g).a (writeData n (s.req .g).d) false)

/-- `READ.8` (R242). -/
def execRead8 (s : State) : Result := .next (s.guestRead 1)

/-- `READ.16` (R243). -/
def execRead16 (s : State) : Result := .next (s.guestRead 2)

/-- `READ.32` (R244). -/
def execRead32 (s : State) : Result := .next (s.guestRead 4)

/-- `READ.64` (R245). -/
def execRead64 (s : State) : Result := .next (s.guestRead 8)

/-- `WRITE.8` (R246). -/
def execWrite8 (s : State) : Result := .next (s.guestWrite 1)

/-- `WRITE.16` (R247). -/
def execWrite16 (s : State) : Result := .next (s.guestWrite 2)

/-- `WRITE.32` (R248). -/
def execWrite32 (s : State) : Result := .next (s.guestWrite 4)

/-- `WRITE.64` (R249). -/
def execWrite64 (s : State) : Result := .next (s.guestWrite 8)

/-! ### Instruction fetch -/

/-- What the shared body of the two fetch commands answers (R250). -/
inductive Fetch where
  | inst (hex pa : Word) (flags : Flags)
  | invalid (t : Translation)
  | bus
deriving DecidableEq, Repr

/-- `TryReadInst(ea)` (R250) for a word-aligned `ea`: translate under mode `Opcode`, then read RAM only. -/
def State.tryFetch (s : State) (ea : Word) : Fetch × State :=
  match s.translate .opcode ea false with
  | (t, s1) =>
    match t.address with
    | none => (.invalid t, s1)
    | some pa =>
      if inOne s1.cfg.ramRegions pa 4 then
        (.inst ((Memory.readBE s1.mem pa 4).setWidth 32) pa t.flags, s1)
      else (.bus, s1)

/-- The fetch address is word aligned: `A[1:0]` = 0 (R250). -/
def wordAligned (a : Word) : Bool := a.extractLsb' 0 2 == 0#2

/-- The response of a fetch that found an instruction (R251). -/
def Response.fetched (hex pa : Word) (flags : Flags) : Response :=
  Response.access (hex.setWidth 64) pa flags

/-- `READ_OPCODE` (R251): a failed translation is one ISI. -/
def execReadOpcode (s : State) : Result :=
  let a := (s.req .g).a
  if wordAligned a then
    match s.tryFetch a with
    | (.inst hex pa flags, t) => .next (t.respond .g (Response.fetched hex pa flags))
    | (.invalid x, t) => .next (t.raise .g ⟨.isi, false, x.faultCause.getD .pageMiss, a⟩)
    | (.bus, t) => .next (t.respond .g (Response.only .busError))
  else .next (s.abort .g .misalignedFetch)

/-- `TRY_READ_INST` (R252): a failed translation is `ABSENT`, with no message. -/
def execTryReadInst (s : State) : Result :=
  let a := (s.req .g).a
  if wordAligned a then
    match s.tryFetch a with
    | (.inst hex pa flags, t) => .next (t.respond .g (Response.fetched hex pa flags))
    | (.invalid _, t) => .next (t.respond .g (Response.only .absent))
    | (.bus, t) => .next (t.respond .g (Response.only .busError))
  else .next (s.abort .g .misalignedFetch)

end Sys2Proof.Machine
end

