-- ==== Sys2Proof/Machine/Bats.lean ====
section
/-! DEFINITION. The BAT-table rebuild (`41_maintenance.md` R210 to R214, R221). -/

namespace Sys2Proof.Machine

/-- `configured(u)` (R211): `Vs` or `Vp` is set, and `BEPI` has no 1 under the mask. -/
def batConfigured (u : Word) : Bool := (batuVs u || batuVp u) && batuBepi u &&& batuMask u == 0#15

/-- The cover test of R211: block `e`'s bits outside the mask equal `BEPI`. -/
def batCovers (u : Word) (e : BitVec 15) : Bool := e &&& ~~~(batuMask u) == batuBepi u

/-- The frame of a covered block, `BRPN | (e & bl)` (R212). -/
def batFrame (p : BatPair) (e : BitVec 15) : BitVec 15 :=
  batlBrpn p.lower ||| (e &&& batuMask p.upper)

/-- The flag bits of a written descriptor (R213): `MAPPED`, `WI`, and `PHYSICAL` when `WI` is 0 and the
whole frame is RAM of one region. -/
def batFlags (c : Config) (pb : BitVec 15) (wi : Bool) : Word :=
  1#32 ||| (if wi then 4#32 else 0#32) ||| (if !wi && isRamBlock c pb then 2#32 else 0#32)

/-- The descriptor at index `i` inside a block of frame `pb`: `(pb << 17) | (q << S) | flags`, `q` the
low `17 - S` bits of the index (R210 `write_block`). -/
def batDescriptor (c : Config) (pb : BitVec 15) (wi : Bool) (i : Nat) : Word :=
  (pb ++ 0#17) ||| (BitVec.ofNat 32 (i % 2 ^ (17 - c.s)) <<< c.s) ||| batFlags c pb wi

/-- `write_block(table, e, pb, wi)` (R210): the 2^(17-S) entries of block `e`. -/
def writeBlock (c : Config) (e pb : BitVec 15) (wi : Bool) : Cells 32 :=
  (List.range (2 ^ (17 - c.s))).map fun q =>
    (e.toNat * 2 ^ (17 - c.s) + q, batDescriptor c pb wi q)

/-- The blocks that agree with `BEPI` outside the mask, ascending: each of the `n` low bits is free
under the mask and `BEPI`'s elsewhere; `hi` holds the bits already chosen.  For a configured pair
these are the blocks of the cover test of R211. -/
def blocksUnder (bepi mask : Nat) : Nat → Nat → List Nat
  | 0, hi => [hi]
  | n + 1, hi =>
    if mask.testBit n then
      blocksUnder bepi mask n (2 * hi) ++ blocksUnder bepi mask n (2 * hi + 1)
    else blocksUnder bepi mask n (2 * hi + (bepi.testBit n).toNat)

/-- The blocks a configured pair covers, ascending (R211). -/
def coveredBlocks (u : Word) : List Nat := blocksUnder (batuBepi u).toNat (batuMask u).toNat 15 0

/-- The entries one configured pair writes (R210, inner loop). -/
def pairRun (c : Config) (p : BatPair) : Cells 32 :=
  (coveredBlocks p.upper).flatMap fun e =>
    writeBlock c (BitVec.ofNat 15 e) (batFrame p (BitVec.ofNat 15 e)) (wimgWi p.lower)

/-- The 128 KiB blocks of the fake run, ascending (R214). -/
def fakeBlocks (c : Config) : List Nat :=
  let first := c.fakeBatStart.toNat / batGranule
  (List.range ((c.fakeBatStart.toNat + c.fakeBatLen - 1) / batGranule + 1 - first)).map (first + ·)

/-- The entries of the fake run: effective = physical, `WI` = 0 (R214). -/
def fakeRun (c : Config) : Cells 32 :=
  if c.fakeBatEn then
    (fakeBlocks c).flatMap fun e => writeBlock c (BitVec.ofNat 15 e) (BitVec.ofNat 15 e) false
  else []

/-- `UpdateBATs` (R210): the pairs in ascending number, a later one overwriting an earlier one, then
the fake run over all of them; an entry nothing covers is 0, unmapped. -/
def updateBats (c : Config) (pairs : List BatPair) : Cells 32 :=
  Sparse.overlay (fakeRun c)
    ((pairs.filter fun p => batConfigured p.upper).foldl (fun t p => Sparse.overlay (pairRun c p) t) [])

/-- Rebuild the table of one side from the registers as they stand (R215, R216). -/
def State.rebuild (s : State) (side : Side) : State :=
  s.withTable side (updateBats s.cfg (s.batPairs side))

/-- Rebuild both tables (R217, R218, R220, R410). -/
def State.rebuildBoth (s : State) : State := (s.rebuild .instruction).rebuild .data

/-- Clear `valid` of both ways of a set; the other fields keep their values (R217, R218). -/
def TlbSet.invalidate (t : TlbSet) : TlbSet :=
  { t with way0 := { t.way0 with valid := false }, way1 := { t.way1 with valid := false } }

/-- Invalidate every way of both caches (R217). -/
def State.invalidateAll (s : State) : State :=
  { s with
    itlb := Sparse.mapValues TlbSet.empty TlbSet.invalidate s.itlb
    dtlb := Sparse.mapValues TlbSet.empty TlbSet.invalidate s.dtlb }

/-- Invalidate both ways of set `k` in both caches (R218). -/
def State.invalidateSet (s : State) (k : Nat) : State :=
  { s with
    itlb := Sparse.set TlbSet.empty s.itlb k (Sparse.get TlbSet.empty s.itlb k).invalidate
    dtlb := Sparse.set TlbSet.empty s.dtlb k (Sparse.get TlbSet.empty s.dtlb k).invalidate }

/-- Reset (R410), as one step: `FATAL` 0, every response register 0, both caches as R47 says, the
locator latched and both tables rebuilt from the registers as they stand.  What the block does not
own is untouched (R411).  Request registers are the requesters' (R36). -/
def State.releaseReset (s : State) : State :=
  let t : State :=
    { s with
      resetRequested := false
      fatal := false
      abortReason := none
      itlb := []
      dtlb := [] }
  (((t.respond .g Response.zero).respond .h Response.zero).latchLocator).rebuildBoth

end Sys2Proof.Machine
end

