-- ==== Sys2Proof/Machine/Snapshot.lean ====
section
/-! DEFINITION. The snapshot image (`30_encoding.md` R141, `41_maintenance.md` R219, R220). -/

namespace Sys2Proof.Machine

/-- A way's tag word: `valid` in bit 31, zeros in bits 30:20, `tag` in bits 19:0 (R141). -/
def Way.tagWord (x : Way) : Word := BitVec.ofBool x.valid ++ 0#11 ++ x.tag

/-- The five words of a set (R141). -/
def TlbSet.words (t : TlbSet) : List Word :=
  [t.way0.tagWord, t.way0.pte1, t.way1.tagWord, t.way1.pte1, (BitVec.ofBool t.recent).setWidth 32]

/-- The number of a side in the image: 0 = `I`, 1 = `D` (R141). -/
def Side.number : Side → Nat
  | .instruction => 0
  | .data => 1

/-- The index of the first word of set `k` of a side: `5 × (TLB_SETS × s + k)` (R141). -/
def snapIndex (c : Config) (side : Side) (k : Nat) : Nat := 5 * (c.tlbSets * side.number + k)

/-- The words of one cache in the image. -/
def sideImage (c : Config) (side : Side) (t : Tlb) : Cells 32 :=
  t.flatMap fun p => Sparse.ofListFrom 0#32 (snapIndex c side p.1) p.2.words

/-- `image(ITLB, DTLB)` (R219). -/
def snapshotImage (c : Config) (itlb dtlb : Tlb) : Cells 32 :=
  sideImage c .instruction itlb ++ sideImage c .data dtlb

/-- The way a tag word and a `pte1` word stand for. -/
def wayOfWords (tagWord pte1 : Word) : Way := ⟨tagWord.getLsbD 31, tagWord.extractLsb' 0 20, pte1⟩

/-- Word `j` of the five words of a set in an image. -/
def snapWord (c : Config) (snap : Cells 32) (side : Side) (k j : Nat) : Word :=
  Sparse.get 0#32 snap (snapIndex c side k + j)

/-- The set an image holds for a side and a number. -/
def snapSet (c : Config) (snap : Cells 32) (side : Side) (k : Nat) : TlbSet where
  way0 := wayOfWords (snapWord c snap side k 0) (snapWord c snap side k 1)
  way1 := wayOfWords (snapWord c snap side k 2) (snapWord c snap side k 3)
  recent := (snapWord c snap side k 4).getLsbD 0

/-- The cache an image holds for a side (`unimage`, R220). -/
def sideOfImage (c : Config) (snap : Cells 32) (side : Side) : Tlb :=
  Sparse.ofFun TlbSet.empty c.tlbSets (snapSet c snap side)

/-- A valid way sits in the set its tag selects: `tag[6:0]` equals the set number (R220; the low
log2(`TLB_SETS`) bits, R140). -/
def Way.inSet (c : Config) (k : Nat) (x : Way) : Bool := !x.valid || x.tag.toNat % c.tlbSets == k

/-- Two valid ways of a set hold different tags (R33, R220). -/
def TlbSet.tagsDiffer (t : TlbSet) : Bool :=
  !(t.way0.valid && t.way1.valid) || t.way0.tag != t.way1.tag

/-- One set of an image is well formed (R220). -/
def snapSetOk (c : Config) (snap : Cells 32) (side : Side) (k : Nat) : Bool :=
  (snapWord c snap side k 0).extractLsb' 20 11 == 0#11 &&
    (snapWord c snap side k 2).extractLsb' 20 11 == 0#11 &&
    (snapWord c snap side k 4).extractLsb' 1 31 == 0#31 &&
    (snapSet c snap side k).tagsDiffer &&
    (snapSet c snap side k).way0.inSet c k && (snapSet c snap side k).way1.inSet c k

/-- `well_formed(SNAP_IN)` (R220). -/
def snapshotOk (c : Config) (snap : Cells 32) : Bool :=
  (List.range c.tlbSets).all fun k => snapSetOk c snap .instruction k && snapSetOk c snap .data k

end Sys2Proof.Machine
end

