-- ==== Sys2Proof/Machine/Maintenance.lean ====
section
/-! DEFINITION. Table rebuild, invalidation and snapshot commands (`41_maintenance.md` R215 to R220). -/

namespace Sys2Proof.Machine

/-- `DBAT_UPDATED` (R215). -/
def execDbatUpdated (s : State) : Result := .next ((s.rebuild .data).respond .g Response.zero)

/-- `IBAT_UPDATED` (R216). -/
def execIbatUpdated (s : State) : Result := .next ((s.rebuild .instruction).respond .g Response.zero)

/-- `SDR_UPDATED` (R217): latch the locator, drop every cached translation, rebuild both tables. -/
def execSdrUpdated (s : State) : Result :=
  .next ((s.latchLocator.invalidateAll.rebuildBoth).respond .g Response.zero)

/-- `TLB_INVALIDATE_ENTRY` (R218): drop both ways of the set of `A` on both sides, rebuild both tables. -/
def execTlbInvalidateEntry (s : State) : Result :=
  .next (((s.invalidateSet (setIndex s.cfg (s.req .g).a)).rebuildBoth).respond .g Response.zero)

/-- `STATE_SAVE` (R219). -/
def execStateSave (s : State) : Result :=
  .next (s.respond .h { Response.zero with snapOut := snapshotImage s.cfg s.itlb s.dtlb })

/-- Load both caches from an image (R220). -/
def State.loadCaches (s : State) (snap : Cells 32) : State :=
  (s.withTlb .instruction (sideOfImage s.cfg snap .instruction)).withTlb .data
    (sideOfImage s.cfg snap .data)

/-- `STATE_RESTORE` (R220). -/
def execStateRestore (s : State) : Result :=
  let snap := (s.req .h).snapIn
  if snapshotOk s.cfg snap then
    .next (((s.loadCaches snap).latchLocator.rebuildBoth).respond .h Response.zero)
  else .next (s.abort .h .badSnapshot)

end Sys2Proof.Machine
end

