-- ==== Sys2Proof/Machine/Accept.lean ====
section
/-! DEFINITION. Which command the block accepts next (R35, R130, R378, R389), and what the agents outside
the block do to its inputs between commands. -/

namespace Sys2Proof.Machine

/-- The port that is live: H while the CPU is parked, else G (R389). -/
def State.livePort (s : State) : Port := if s.cpuParked then .h else .g

/-- What the next step does with the command presented on the live port, if any. -/
inductive Accepted where
  /-- No command is presented on the live port; one presented on the other port is held (R389). -/
  | idle
  /-- `FATAL` is set: the command ends at once with `ABORT` and changes nothing (R35). -/
  | dead (p : Port)
  /-- The command is illegal or on the wrong port: `abort` (R130, R384). -/
  | violation (p : Port) (reason : AbortReason)
  /-- The command runs. -/
  | run (i : Instr)
deriving DecidableEq, Repr

/-- Acceptance, in the order of decision of R378: first `FATAL`, then an illegal command, then the
wrong port.  Only a command on the live port is accepted, also while `FATAL` is 1: one presented on the other port is
held (R389) and ends with `ABORT` (R35) when the phase changes (DESIGN CHOICE, log entry 21). -/
def State.accept (s : State) : Accepted :=
  let p := s.livePort
  if (s.req p).pending then
    if s.fatal then .dead p
    else
      match decode (s.req p).cmd with
      | .error _ => .violation p .illegalCommand
      | .ok i => if i.port = p then .run i else .violation p .wrongPort
  else .idle

/-- A command of an aborted block: `ABORT`, every other response register 0, nothing else (R35). -/
def State.refuseDead (s : State) (p : Port) : State := (s.take p).respond p (Response.only .abort)

/-- A contract violation found at acceptance (R384). -/
def State.refuseViolation (s : State) (p : Port) (reason : AbortReason) : State :=
  (s.take p).abort p reason

/-! ### What the agents outside the block do between commands (R4, R389, R411) -/

/-- A requester presents a command word on a port, the operand registers as they stand. -/
def State.present (s : State) (p : Port) (cmd : Word) : State :=
  s.setReq p { s.req p with pending := true, cmd := cmd }

/-- A requester writes the operand registers of a port. -/
def State.setOperands (s : State) (p : Port) (a b : Word) (d : DWord) : State :=
  s.setReq p { s.req p with a := a, b := b, d := d }

/-- The pause guard is taken or released (R389). -/
def State.park (s : State) (parked : Bool) : State := { s with cpuParked := parked }

/-- The processor-state component changes a register of its own. -/
def State.setCpu (s : State) (c : Cpu) : State := { s with cpu := c }

/-- A device or another external agent writes one byte of the backing store (R90). -/
def State.poke (s : State) (pa : Word) (b : Byte) : State := s.withMem (Memory.putByte s.mem pa b)

/-- The port a word's command belongs to; an illegal word has none and takes the live port. -/
def State.portOfWord (s : State) (w : Word) : Port :=
  match decode w with
  | .ok i => i.port
  | .error _ => s.livePort

/-- Present a word so that the very next step accepts it: on the port of its command, in the phase of
that port, with no reset pending (log entry 3). -/
def State.presentNext (s : State) (w : Word) : State :=
  let p := s.portOfWord w
  { s.present p w with cpuParked := decide (p = .h), resetRequested := false }

end Sys2Proof.Machine
end

