-- ==== Sys2Proof/Machine/CacheLine.lean ====
section
/-! DEFINITION. Cache-line operations and locked-cache DMA (`43_cacheline_dma.md` R280 to R288). -/

namespace Sys2Proof.Machine

/-! ### Cache-line operations -/

/-- The bytes of a cache line (R7 `CACHE_LINE`). -/
def cacheLine : Nat := 32

/-- The response of a cache-line command whose line translated: `ADDR`, `FLAGS` and `DATA` as R280 sets them "on
`ok`" for every command; the status `OK` unless the command says otherwise. -/
def Response.line (paLine : Word) (t : Translation) : Response := Response.access 0#64 paLine t.flags

/-- The line is translated as a store and a failure is one DSI with `EA` = the operand as given; on
success `body` says what the command does with the line (R280 to R284). -/
def State.lineStore (s : State) (body : Word → Translation → State → State) : State :=
  let a := (s.req .g).a
  match s.translate .write (lineAddress a) false with
  | (t, s1) =>
    match t.address with
    | none => s1.raise .g ⟨.dsi, true, t.faultCause.getD .pageMiss, a⟩
    | some pa => body pa t s1

/-- Nothing moves: there is no cache array (R280, R282). -/
def linePassThrough (pa : Word) (t : Translation) (s : State) : State :=
  s.respond .g (Response.line pa t)

/-- The zero-fill of `DCL_CLEAR`: RAM of one region only, 32 bytes in one step (R281).  `BUS_ERROR` keeps the
`ADDR` that R280 sets for every line that translates; of the flags that R280 sets with it R128 leaves none (DEDUCED, log
entry 7). -/
def lineZeroFill (pa : Word) (t : Translation) (s : State) : State :=
  if inOne s.cfg.ramRegions pa cacheLine then
    (s.withMem (Memory.putBytes s.mem ((byteRun pa cacheLine).map fun b => (b, 0#8)))).respond .g
      (Response.line pa t)
  else s.respond .g (Response.ended { Response.line pa t with status := .busError })

/-- `DCL_CLEAR` (R281). -/
def execDclClear (s : State) : Result := .next (s.lineStore lineZeroFill)

/-- `DCL_STORE` (R282). -/
def execDclStore (s : State) : Result := .next (s.lineStore linePassThrough)

/-- `DCL_INVALIDATE` (R283). -/
def execDclInvalidate (s : State) : Result := .next (s.lineStore linePassThrough)

/-- `DCL_FLUSH` (R284). -/
def execDclFlush (s : State) : Result := .next (s.lineStore linePassThrough)

/-- `DCL_TOUCH` (R285): a hint; a translation that fails is dropped. -/
def execDclTouch (s : State) : Result :=
  match s.translate .noException (lineAddress (s.req .g).a) false with
  | (t, s1) =>
    match t.address with
    | none => .next (s1.respond .g (Response.only .ok))
    | some pa => .next (s1.respond .g (Response.line pa t))

/-! ### Locked-cache DMA -/

/-- The four eight-byte pieces of a DMA block (R286). -/
def dmaPieces (a : Word) : List Word := (List.range 4).map fun j => a + BitVec.ofNat 32 (8 * j)

/-- Both sides of every piece can be accessed: the check without effect of R286. -/
def dmaReachable (c : Config) (sk dk : Word) : Bool :=
  (dmaPieces sk).all (fun p => (route c p 8).isSome) && (dmaPieces dk).all (fun p => (route c p 8).isSome)

/-- The reads of a block, in order (R286). -/
def State.readPieces (s : State) (viaHandler : Bool) : List Word → (List DWord × Bool) × State
  | [] => (([], viaHandler), s)
  | p :: ps =>
    match s.memRead p 8 with
    | (none, t) =>
      let r := t.readPieces viaHandler ps
      ((0#64 :: r.1.1, r.1.2), r.2)
    | (some l, t) =>
      let r := t.readPieces (viaHandler || l.viaHandler) ps
      ((l.value :: r.1.1, r.1.2), r.2)

/-- The writes of a block, in order (R286). -/
def State.writePieces (s : State) (viaHandler : Bool) : List (Word × DWord) → Bool × State
  | [] => (viaHandler, s)
  | w :: ws =>
    match s.memWrite w.1 8 w.2 with
    | (none, t) => t.writePieces viaHandler ws
    | (some h, t) => t.writePieces (viaHandler || h) ws

/-- One block (R286): the locked-cache test, the check, four reads, then four writes.  `none` when the
block fails; it then copied nothing.  Otherwise says whether a handler was called. -/
def State.dmaBlock (s : State) (sk dk : Word) (lcIsSrc : Bool) : Option (Bool × State) :=
  if inLockedCache s.cfg (if lcIsSrc then sk else dk) && dmaReachable s.cfg sk dk then
    let r := s.readPieces false (dmaPieces sk)
    some (r.2.writePieces r.1.2 ((dmaPieces dk).zip r.1.1))
  else none

/-- How a DMA command stopped (R286): its status, the blocks fully copied, whether a handler was
called. -/
structure DmaStop where
  status : Status
  blocks : Nat
  viaHandler : Bool
deriving DecidableEq, Repr

/-- The blocks in ascending order; a failing block ends the command and the blocks before it stay
copied (R286).  `done` counts the blocks already copied. -/
def State.dmaBlocks (s : State) (sk dk : Word) (lcIsSrc : Bool) (done : Nat) (viaHandler : Bool) :
    Nat → DmaStop × State
  | 0 => (⟨.ok, done, viaHandler⟩, s)
  | n + 1 =>
    match s.dmaBlock sk dk lcIsSrc with
    | none => (⟨.busError, done, viaHandler⟩, s)
    | some (h, t) => t.dmaBlocks (sk + 32#32) (dk + 32#32) lcIsSrc (done + 1) (viaHandler || h) n

/-- The response of `stop(st, k)` (R286): the flag `mmio` says that some access of the command went to a handler; with
a status other than `OK` R128 leaves it 0 (DEDUCED, log entry 8). -/
def DmaStop.response (x : DmaStop) : Response :=
  Response.ended
    { Response.zero with
      status := x.status
      len := BitVec.ofNat 16 x.blocks
      flags := Flags.onlyMmio x.viaHandler }

/-- `DmaCopy(src, dst, lc_is_src, nblk)` (R286): both addresses are physical, their low five bits
dropped. -/
def State.dmaCopy (s : State) (src dst : Word) (lcIsSrc : Bool) (nblk : Nat) : State :=
  let r := s.dmaBlocks (lineAddress src) (lineAddress dst) lcIsSrc 0 false nblk
  r.2.respond .g r.1.response

/-- `DMA_LC_TO_MEM` (R287): `DmaCopy(src = B, dst = A, lc_is_src = true, imm)`. -/
def execDmaLcToMem (blocks : BitVec 16) (s : State) : Result :=
  .next (s.dmaCopy (s.req .g).b (s.req .g).a true blocks.toNat)

/-- `DMA_MEM_TO_LC` (R288): `DmaCopy(src = A, dst = B, lc_is_src = false, imm)`. -/
def execDmaMemToLc (blocks : BitVec 16) (s : State) : Result :=
  .next (s.dmaCopy (s.req .g).a (s.req .g).b false blocks.toNat)

end Sys2Proof.Machine
end

