-- ==== Sys2Proof/Machine/Jit.lean ====
section
/-! DEFINITION. JIT queries (`44_host_jit.md` R340 to R350): port G, no effect but the response. -/

namespace Sys2Proof.Machine

/-- A Boolean answer in bit 0 of `RSP.DATA` (R36). -/
def boolData (b : Bool) : DWord := (BitVec.ofBool b).setWidth 64

/-- A response that carries only a Boolean. -/
def Response.answer (b : Bool) : Response := { Response.zero with data := boolData b }

/-- The common part of R340 and R341: a non-mutating translation of `A`. -/
def State.translateQuery (s : State) (m : Mode) : State :=
  match s.translate m (s.req .g).a false with
  | (t, s1) =>
    match t.address with
    | none => s1.respond .g (Response.only .absent)
    | some pa => s1.respond .g (Response.access 0#64 pa t.flags)

/-- `JIT_TRANSLATE` (R340). -/
def execJitTranslate (s : State) : Result := .next (s.translateQuery .opcodeNoException)

/-- `GET_TRANSLATED` (R341). -/
def execGetTranslated (s : State) : Result := .next (s.translateQuery .noException)

/-- The condition of `OPT_RAM.n` (common part of R342 to R345): data translation on, and `PHYSICAL`
set for the first and the last byte. -/
def State.optRam (s : State) (n : Nat) (a : Word) : Bool :=
  s.cpu.msrDr && descPhysical (s.descriptor .data a) && descPhysical (s.descriptor .data (lastByte a n))

/-- `OPT_RAM.n` with `n` in bytes. -/
def State.optRamQuery (s : State) (n : Nat) : State :=
  s.respond .g (Response.answer (s.optRam n (s.req .g).a))

/-- The physical address the data BAT table gives for `A`, mapped or not (R346, R350). -/
def State.optAddress (s : State) (a : Word) : Word := batAddress s.cfg.s (s.descriptor .data a) a

/-- Naturally aligned: `pa & (n/8 - 1) == 0` (R346 to R349). -/
def naturallyAligned (pa : Word) (n : Nat) : Bool := pa &&& BitVec.ofNat 32 (n - 1) == 0#32

/-- One MMIO range holds both addresses (R346 to R349 "same range"). -/
def sameMmioRange (c : Config) (pa pb : Word) : Bool :=
  c.mmioRanges.any fun r => inRegion r pa && inRegion r pb

/-- The condition of `OPT_MMIO.n` (common part of R346 to R349). -/
def State.optMmio (s : State) (n : Nat) (a : Word) : Bool :=
  let pa := s.optAddress a
  s.cpu.msrDr && descMapped (s.descriptor .data a) && naturallyAligned pa n &&
    sameMmioRange s.cfg pa (lastByte pa n)

/-- `OPT_MMIO.n` with `n` in bytes. -/
def State.optMmioQuery (s : State) (n : Nat) : State :=
  let a := (s.req .g).a
  let ok := s.optMmio n a
  s.respond .g
    { Response.answer ok with
      addr := if ok then s.optAddress a else 0#32
      flags := ⟨ok, ok, ok && descWi (s.descriptor .data a), ok⟩ }

/-- `OPT_RAM.8` (R342). -/
def execOptRam8 (s : State) : Result := .next (s.optRamQuery 1)

/-- `OPT_RAM.16` (R343). -/
def execOptRam16 (s : State) : Result := .next (s.optRamQuery 2)

/-- `OPT_RAM.32` (R344). -/
def execOptRam32 (s : State) : Result := .next (s.optRamQuery 4)

/-- `OPT_RAM.64` (R345). -/
def execOptRam64 (s : State) : Result := .next (s.optRamQuery 8)

/-- `OPT_MMIO.8` (R346). -/
def execOptMmio8 (s : State) : Result := .next (s.optMmioQuery 1)

/-- `OPT_MMIO.16` (R347). -/
def execOptMmio16 (s : State) : Result := .next (s.optMmioQuery 2)

/-- `OPT_MMIO.32` (R348). -/
def execOptMmio32 (s : State) : Result := .next (s.optMmioQuery 4)

/-- `OPT_MMIO.64` (R349). -/
def execOptMmio64 (s : State) : Result := .next (s.optMmioQuery 8)

/-- The condition of `OPT_GATHER` (R350). -/
def State.optGather (s : State) (a : Word) : Bool :=
  s.cpu.msrDr && descMapped (s.descriptor .data a) && s.optAddress a == s.cfg.gatherPipePa

/-- `OPT_GATHER` (R350). -/
def execOptGather (s : State) : Result :=
  .next (s.respond .g (Response.answer (s.optGather (s.req .g).a)))

end Sys2Proof.Machine
end

