-- ==== Sys2Proof/Machine/HostAccess.lean ====
section
/-! DEFINITION. The host access facade (`44_host_jit.md` R310 to R331): port H, no fault message, every
failure `ABSENT`. -/

namespace Sys2Proof.Machine

/-- A port H command runs in a legal address space; the code 0b11 aborts with `BAD_SPACE` (R122). -/
def inLegalSpace (sp : Space) (run : State → State) (s : State) : Result :=
  if sp.isLegal then .next (run s) else .next (s.abort .h .badSpace)

/-- Every byte of the plan is RAM: the test of the `TRY` forms (R316, R324). -/
def allRam (c : Config) (pas : List Word) : Bool := pas.all (isRam c)

/-- A host read of `n` bytes on the data side (R312, R316): `none` is every kind of failure.  With
`ramOnly` no handler is ever called. -/
def State.hostLoad (s : State) (sp : Space) (n : Nat) (a : Word) (ramOnly : Bool) :
    Option (DWord × Word × Flags) × State :=
  match s.hostPlan sp .data a n with
  | (.fail _ _, s1) => (none, s1)
  | (.ok p, s1) =>
    if ramOnly && !allRam s1.cfg p.pas then (none, s1)
    else
      match s1.performRead p.pas with
      | (none, s2) => (none, s2)
      | (some l, s2) => (some (l.value, p.pas.headD 0#32, accessFlags p.pages l.viaHandler), s2)

/-- A host write of `n` bytes on the data side (R320, R324); on `none` nothing is written. -/
def State.hostStore (s : State) (sp : Space) (n : Nat) (a : Word) (v : DWord) (ramOnly : Bool) :
    Option (Word × Flags) × State :=
  match s.hostPlan sp .data a n with
  | (.fail _ _, s1) => (none, s1)
  | (.ok p, s1) =>
    if ramOnly && !allRam s1.cfg p.pas then (none, s1)
    else
      match s1.performWrite p.pas v with
      | (none, s2) => (none, s2)
      | (some viaHandler, s2) => (some (p.pas.headD 0#32, accessFlags p.pages viaHandler), s2)

/-- `HOST_READ.n` and `HOST_TRY_READ.n`, `n` in bytes (common parts of R312 to R319). -/
def State.hostRead (sp : Space) (n : Nat) (ramOnly : Bool) (s : State) : State :=
  match s.hostLoad sp n (s.req .h).a ramOnly with
  | (none, t) => t.respond .h (Response.only .absent)
  | (some (v, pa0, flags), t) => t.respond .h (Response.access v pa0 flags)

/-- `HOST_WRITE.n` and `HOST_TRY_WRITE.n`, `n` in bytes (common parts of R320 to R327). -/
def State.hostWrite (sp : Space) (n : Nat) (ramOnly : Bool) (s : State) : State :=
  match s.hostStore sp n (s.req .h).a (writeData n (s.req .h).d) ramOnly with
  | (none, t) => t.respond .h (Response.only .absent)
  | (some (pa0, flags), t) => t.respond .h (Response.access 0#64 pa0 flags)

/-- `HOST_READ.8` (R312). -/
def execHostRead8 (sp : Space) (s : State) : Result := inLegalSpace sp (State.hostRead sp 1 false) s

/-- `HOST_READ.16` (R313). -/
def execHostRead16 (sp : Space) (s : State) : Result := inLegalSpace sp (State.hostRead sp 2 false) s

/-- `HOST_READ.32` (R314). -/
def execHostRead32 (sp : Space) (s : State) : Result := inLegalSpace sp (State.hostRead sp 4 false) s

/-- `HOST_READ.64` (R315). -/
def execHostRead64 (sp : Space) (s : State) : Result := inLegalSpace sp (State.hostRead sp 8 false) s

/-- `HOST_TRY_READ.8` (R316). -/
def execHostTryRead8 (sp : Space) (s : State) : Result := inLegalSpace sp (State.hostRead sp 1 true) s

/-- `HOST_TRY_READ.16` (R317). -/
def execHostTryRead16 (sp : Space) (s : State) : Result := inLegalSpace sp (State.hostRead sp 2 true) s

/-- `HOST_TRY_READ.32` (R318). -/
def execHostTryRead32 (sp : Space) (s : State) : Result := inLegalSpace sp (State.hostRead sp 4 true) s

/-- `HOST_TRY_READ.64` (R319). -/
def execHostTryRead64 (sp : Space) (s : State) : Result := inLegalSpace sp (State.hostRead sp 8 true) s

/-- `HOST_WRITE.8` (R320). -/
def execHostWrite8 (sp : Space) (s : State) : Result := inLegalSpace sp (State.hostWrite sp 1 false) s

/-- `HOST_WRITE.16` (R321). -/
def execHostWrite16 (sp : Space) (s : State) : Result := inLegalSpace sp (State.hostWrite sp 2 false) s

/-- `HOST_WRITE.32` (R322). -/
def execHostWrite32 (sp : Space) (s : State) : Result := inLegalSpace sp (State.hostWrite sp 4 false) s

/-- `HOST_WRITE.64` (R323). -/
def execHostWrite64 (sp : Space) (s : State) : Result := inLegalSpace sp (State.hostWrite sp 8 false) s

/-- `HOST_TRY_WRITE.8` (R324). -/
def execHostTryWrite8 (sp : Space) (s : State) : Result := inLegalSpace sp (State.hostWrite sp 1 true) s

/-- `HOST_TRY_WRITE.16` (R325). -/
def execHostTryWrite16 (sp : Space) (s : State) : Result := inLegalSpace sp (State.hostWrite sp 2 true) s

/-- `HOST_TRY_WRITE.32` (R326). -/
def execHostTryWrite32 (sp : Space) (s : State) : Result := inLegalSpace sp (State.hostWrite sp 4 true) s

/-- `HOST_TRY_WRITE.64` (R327). -/
def execHostTryWrite64 (sp : Space) (s : State) : Result := inLegalSpace sp (State.hostWrite sp 8 true) s

/-! ### Predicates and strings -/

/-- `HostIsRAM(sp, side, ea)` (R311): one byte, translated without effect, is RAM. -/
def State.hostIsRam (s : State) (sp : Space) (side : Side) (a : Word) : Bool × State :=
  match s.hostPlan sp side a 1 with
  | (.ok p, t) => (isRam t.cfg (p.pas.headD 0#32), t)
  | (.fail _ _, t) => (false, t)

/-- The common part of R328 and R329: the status is always `OK`. -/
def State.hostPredicate (sp : Space) (side : Side) (s : State) : State :=
  match s.hostIsRam sp side (s.req .h).a with
  | (b, t) => t.respond .h (Response.answer b)

/-- `HOST_IS_RAM` (R328). -/
def execHostIsRam (sp : Space) (s : State) : Result := inLegalSpace sp (State.hostPredicate sp .data) s

/-- `HOST_IS_IRAM` (R329). -/
def execHostIsIram (sp : Space) (s : State) : Result :=
  inLegalSpace sp (State.hostPredicate sp .instruction) s

/-- Why a string ended, the number in `RSP.DATA` (R330). -/
inductive StringEnd where
  | terminator
  | maximum
  | unreadable
deriving DecidableEq, Repr

/-- The code of a string's end: 0 terminator, 1 maximum, 2 unreadable element (R330). -/
def StringEnd.code : StringEnd → DWord
  | .terminator => 0#64
  | .maximum => 1#64
  | .unreadable => 2#64

/-- `HostString(w)` (R330): elements of `w` bytes at `a`, `a + w`, …, at most as many as the last
argument, each read as `HOST_TRY_READ` reads it.  An element is the terminator when it equals the 16-bit
`STR_TERMINATOR`, both zero-extended (DESIGN CHOICE, log entry 19). -/
def State.hostString (s : State) (sp : Space) (w : Nat) (a : Word) :
    Nat → (List (BitVec 16) × StringEnd) × State
  | 0 => (([], .maximum), s)
  | n + 1 =>
    match s.hostLoad sp w a true with
    | (none, t) => (([], .unreadable), t)
    | (some (v, _), t) =>
      if v = t.cfg.strTerminator.setWidth 64 then (([], .terminator), t)
      else
        let r := t.hostString sp w (a + BitVec.ofNat 32 w) n
        ((v.setWidth 16 :: r.1.1, r.1.2), r.2)

/-- The response of a string command (R330): elements at and above `LEN` are 0. -/
def Response.string (es : List (BitVec 16)) (why : StringEnd) : Response :=
  { Response.zero with
    data := why.code
    len := BitVec.ofNat 16 es.length
    str := Sparse.ofListFrom 0#16 0 es }

/-- The common part of R330 and R331. -/
def State.hostGetString (sp : Space) (w : Nat) (max : BitVec 16) (s : State) : State :=
  match s.hostString sp w (s.req .h).a max.toNat with
  | ((es, why), t) => t.respond .h (Response.string es why)

/-- `HOST_GET_STRING` (R330): elements of one byte. -/
def execHostGetString (sp : Space) (max : BitVec 16) (s : State) : Result :=
  inLegalSpace sp (State.hostGetString sp 1 max) s

/-- `HOST_GET_U16STRING` (R331): 16-bit big-endian elements. -/
def execHostGetU16String (sp : Space) (max : BitVec 16) (s : State) : Result :=
  inLegalSpace sp (State.hostGetString sp 2 max) s

end Sys2Proof.Machine
end

