-- ==== Sys2Proof/Machine/Dispatch.lean ====
section
/-! DEFINITION. The dispatch: one arm per command, each one call of its meaning. -/

namespace Sys2Proof.Machine

/-- The meaning of one command (R129: the rule column). -/
def exec (i : Instr) (s : State) : Host.Outcome State Fault Refusal :=
  match i with
  | .read8 => Sys2Proof.Machine.execRead8 s
  | .read16 => Sys2Proof.Machine.execRead16 s
  | .read32 => Sys2Proof.Machine.execRead32 s
  | .read64 => Sys2Proof.Machine.execRead64 s
  | .write8 => Sys2Proof.Machine.execWrite8 s
  | .write16 => Sys2Proof.Machine.execWrite16 s
  | .write32 => Sys2Proof.Machine.execWrite32 s
  | .write64 => Sys2Proof.Machine.execWrite64 s
  | .readOpcode => Sys2Proof.Machine.execReadOpcode s
  | .tryReadInst => Sys2Proof.Machine.execTryReadInst s
  | .dclClear => Sys2Proof.Machine.execDclClear s
  | .dclStore => Sys2Proof.Machine.execDclStore s
  | .dclInvalidate => Sys2Proof.Machine.execDclInvalidate s
  | .dclFlush => Sys2Proof.Machine.execDclFlush s
  | .dclTouch => Sys2Proof.Machine.execDclTouch s
  | .dmaLcToMem blocks => Sys2Proof.Machine.execDmaLcToMem blocks s
  | .dmaMemToLc blocks => Sys2Proof.Machine.execDmaMemToLc blocks s
  | .sdrUpdated => Sys2Proof.Machine.execSdrUpdated s
  | .dbatUpdated => Sys2Proof.Machine.execDbatUpdated s
  | .ibatUpdated => Sys2Proof.Machine.execIbatUpdated s
  | .tlbInvalidateEntry => Sys2Proof.Machine.execTlbInvalidateEntry s
  | .jitTranslate => Sys2Proof.Machine.execJitTranslate s
  | .getTranslated => Sys2Proof.Machine.execGetTranslated s
  | .optRam8 => Sys2Proof.Machine.execOptRam8 s
  | .optRam16 => Sys2Proof.Machine.execOptRam16 s
  | .optRam32 => Sys2Proof.Machine.execOptRam32 s
  | .optRam64 => Sys2Proof.Machine.execOptRam64 s
  | .optMmio8 => Sys2Proof.Machine.execOptMmio8 s
  | .optMmio16 => Sys2Proof.Machine.execOptMmio16 s
  | .optMmio32 => Sys2Proof.Machine.execOptMmio32 s
  | .optMmio64 => Sys2Proof.Machine.execOptMmio64 s
  | .optGather => Sys2Proof.Machine.execOptGather s
  | .hostRead8 sp => Sys2Proof.Machine.execHostRead8 sp s
  | .hostRead16 sp => Sys2Proof.Machine.execHostRead16 sp s
  | .hostRead32 sp => Sys2Proof.Machine.execHostRead32 sp s
  | .hostRead64 sp => Sys2Proof.Machine.execHostRead64 sp s
  | .hostTryRead8 sp => Sys2Proof.Machine.execHostTryRead8 sp s
  | .hostTryRead16 sp => Sys2Proof.Machine.execHostTryRead16 sp s
  | .hostTryRead32 sp => Sys2Proof.Machine.execHostTryRead32 sp s
  | .hostTryRead64 sp => Sys2Proof.Machine.execHostTryRead64 sp s
  | .hostWrite8 sp => Sys2Proof.Machine.execHostWrite8 sp s
  | .hostWrite16 sp => Sys2Proof.Machine.execHostWrite16 sp s
  | .hostWrite32 sp => Sys2Proof.Machine.execHostWrite32 sp s
  | .hostWrite64 sp => Sys2Proof.Machine.execHostWrite64 sp s
  | .hostTryWrite8 sp => Sys2Proof.Machine.execHostTryWrite8 sp s
  | .hostTryWrite16 sp => Sys2Proof.Machine.execHostTryWrite16 sp s
  | .hostTryWrite32 sp => Sys2Proof.Machine.execHostTryWrite32 sp s
  | .hostTryWrite64 sp => Sys2Proof.Machine.execHostTryWrite64 sp s
  | .hostIsRam sp => Sys2Proof.Machine.execHostIsRam sp s
  | .hostIsIram sp => Sys2Proof.Machine.execHostIsIram sp s
  | .hostGetString sp max => Sys2Proof.Machine.execHostGetString sp max s
  | .hostGetU16String sp max => Sys2Proof.Machine.execHostGetU16String sp max s
  | .stateSave => Sys2Proof.Machine.execStateSave s
  | .stateRestore => Sys2Proof.Machine.execStateRestore s

end Sys2Proof.Machine
end

