-- ==== Sys2Proof/Machine/Step.lean ====
section
/-! DEFINITION. One step of the machine: one command, or one reset, is one atomic step (R90, R410). -/

namespace Sys2Proof.Machine

/-- One step.  An ill-formed configuration is refused (U13).  A requested reset is released before any
command is accepted (R410).  Otherwise the command presented on the live port, if any, is taken. -/
def step (s : State) : Host.Outcome State Fault Refusal :=
  if configOk s.cfg then
    if s.resetRequested then .next s.releaseReset
    else
      match s.accept with
      | .idle => .next s
      | .dead p => .next (s.refuseDead p)
      | .violation p reason => .next (s.refuseViolation p reason)
      | .run i => exec i (s.take i.port)
  else .refused .illFormedConfig

/-- Place a command word where the next step accepts it: the command register of its own port, marked
as presented, that port live (log entry 3).  The block fetches no program (R37). -/
def State.withFetchWord (s : State) (nbits w : Nat) : State :=
  s.presentNext (BitVec.ofNat 32 (w % 2 ^ nbits))

end Sys2Proof.Machine
end

