-- ==== Sys2Proof/Safety.lean ====
section
/-! DEFINITION. The terms claims about this machine use: groups of commands of one shape, what a command may
touch, the shape of a rebuilt table as the spec's loop gives it, and the invariant of the machine. -/

namespace Sys2Proof.Machine

/-! ### Commands of one shape, each with its width in bytes -/

/-- `READ.n` (R242 to R245). -/
def guestReads : List (Nat × Instr) := [(1, .read8), (2, .read16), (4, .read32), (8, .read64)]

/-- `WRITE.n` (R246 to R249). -/
def guestWrites : List (Nat × Instr) := [(1, .write8), (2, .write16), (4, .write32), (8, .write64)]

/-- `HOST_READ.n` (R312 to R315). -/
def hostReads (sp : Space) : List (Nat × Instr) :=
  [(1, .hostRead8 sp), (2, .hostRead16 sp), (4, .hostRead32 sp), (8, .hostRead64 sp)]

/-- `HOST_TRY_READ.n` (R316 to R319). -/
def hostTryReads (sp : Space) : List (Nat × Instr) :=
  [(1, .hostTryRead8 sp), (2, .hostTryRead16 sp), (4, .hostTryRead32 sp), (8, .hostTryRead64 sp)]

/-- `HOST_WRITE.n` (R320 to R323). -/
def hostWrites (sp : Space) : List (Nat × Instr) :=
  [(1, .hostWrite8 sp), (2, .hostWrite16 sp), (4, .hostWrite32 sp), (8, .hostWrite64 sp)]

/-- `HOST_TRY_WRITE.n` (R324 to R327). -/
def hostTryWrites (sp : Space) : List (Nat × Instr) :=
  [(1, .hostTryWrite8 sp), (2, .hostTryWrite16 sp), (4, .hostTryWrite32 sp), (8, .hostTryWrite64 sp)]

/-- `OPT_RAM.n` (R342 to R345). -/
def optRams : List (Nat × Instr) := [(1, .optRam8), (2, .optRam16), (4, .optRam32), (8, .optRam64)]

/-- `OPT_MMIO.n` (R346 to R349). -/
def optMmios : List (Nat × Instr) := [(1, .optMmio8), (2, .optMmio16), (4, .optMmio32), (8, .optMmio64)]

/-- The cache-line commands that translate as a store and move nothing (R282 to R284). -/
def linePassThroughs : List Instr := [.dclStore, .dclInvalidate, .dclFlush]

/-- The two DMA commands with `n` blocks, each with its source, its destination, and whether the
locked cache is the source (R287, R288). -/
def dmaCommands (s : State) (n : BitVec 16) : List (Instr × Word × Word × Bool) :=
  [(.dmaLcToMem n, s.g.req.b, s.g.req.a, true), (.dmaMemToLc n, s.g.req.a, s.g.req.b, false)]

/-- The commands that may answer `ABSENT` (R370). -/
def mayBeAbsent : Instr → Bool
  | .tryReadInst | .jitTranslate | .getTranslated => true
  | .hostRead8 _ | .hostRead16 _ | .hostRead32 _ | .hostRead64 _ => true
  | .hostTryRead8 _ | .hostTryRead16 _ | .hostTryRead32 _ | .hostTryRead64 _ => true
  | .hostWrite8 _ | .hostWrite16 _ | .hostWrite32 _ | .hostWrite64 _ => true
  | .hostTryWrite8 _ | .hostTryWrite16 _ | .hostTryWrite32 _ | .hostTryWrite64 _ => true
  | _ => false

/-- The commands that may raise a DSI (R370, R371). -/
def mayRaiseDsi : Instr → Bool
  | .read8 | .read16 | .read32 | .read64 | .write8 | .write16 | .write32 | .write64 => true
  | .dclClear | .dclStore | .dclInvalidate | .dclFlush => true
  | _ => false

/-- The commands that may answer `BUS_ERROR` (R370). -/
def mayBusError : Instr → Bool
  | .read8 | .read16 | .read32 | .read64 | .write8 | .write16 | .write32 | .write64 => true
  | .readOpcode | .tryReadInst | .dclClear | .dmaLcToMem _ | .dmaMemToLc _ => true
  | _ => false

/-- The commands that touch nothing but a response register whatever they find (R94, R285, R328 to R331,
R340 to R350), and the `TRY` reads. -/
def isQuery : Instr → Bool
  | .dclTouch | .jitTranslate | .getTranslated => true
  | .optRam8 | .optRam16 | .optRam32 | .optRam64 => true
  | .optMmio8 | .optMmio16 | .optMmio32 | .optMmio64 | .optGather => true
  | .hostTryRead8 _ | .hostTryRead16 _ | .hostTryRead32 _ | .hostTryRead64 _ => true
  | .hostIsRam _ | .hostIsIram _ | .hostGetString _ _ | .hostGetU16String _ _ => true
  | .stateSave => true
  | _ => false

/-- The fault message of an event, if it is one (R131). -/
def Event.faultMsg : Event → Option FaultMsg
  | .fault m => some m
  | .mmioRead _ _ _ | .mmioWrite _ _ _ => none

/-! ### What an access may touch -/

/-- Success with one value, address and set of flags; every other response register 0 (R36). -/
def Response.done (flags : Flags) (data : DWord) (addr : Word) : Response where
  status := .ok
  flags := flags
  data := data
  addr := addr
  len := 0#16
  str := []
  snapOut := []

/-- The flags of an access over two pages (R87, R128). -/
def pairFlags (t1 t2 : Translation) (viaHandler : Bool) : Flags where
  translated := t1.isTranslated || t2.isTranslated
  fromBat := t1.isFromBat && t2.isFromBat
  wi := t1.wi || t2.wi
  mmio := viaHandler

/-- How many bytes of an access that crosses a page lie on its first page. -/
def firstPart (ea : Word) : Nat := 0x1000 - (eaOffset ea).toNat

/-- The bytes of word 1 of the page-table entry the walk finds for `ea`: all a translation of `ea` may
store to (R184). -/
def State.pteBytes (s : State) (ea : Word) : List Word :=
  match s.findPte ea with
  | some pte => byteRun (pte + 4#32) 4
  | none => []

/-- The page-table bytes an access may store to: those of its first page, then, where it crosses a
page, those of its second page as the walk finds them after the first translation (R87). -/
def State.touchedPtes (s : State) (m : Mode) (ea : Word) (n : Nat) : List Word :=
  s.pteBytes ea ++
    if samePage ea (lastByte ea n) then []
    else (s.translate m ea false).2.pteBytes (secondPage ea n)

/-- The bytes a planned guest access addresses: none when its plan fails (R87). -/
def State.targets (s : State) (m : Mode) (ea : Word) (n : Nat) : List Word :=
  match (s.plan m ea n false).1 with
  | .ok p => p.pas
  | .fail _ _ => []

/-- The bytes a planned host access addresses (R310). -/
def State.hostTargets (s : State) (sp : Space) (ea : Word) (n : Nat) : List Word :=
  match (s.hostPlan sp .data ea n).1 with
  | .ok p => p.pas
  | .fail _ _ => []

/-- Every byte of the access has translation off, or is mapped by the data BAT table. -/
def State.bypassesPages (s : State) (ea : Word) (n : Nat) : Bool :=
  !s.cpu.msrDr || (byteRun ea n).all fun b => descMapped (s.descriptor .data b)

/-- Two RAM regions touch or overlap (U13, R342): one, made one byte longer, meets the other. -/
def regionsTouch (r q : Region) : Bool := regionsMeet { r with size := r.size + 1 } q

/-- No two regions of RAM touch: the proviso of R342. -/
def ramSeparated (c : Config) : Bool :=
  c.ramRegions.all fun r => c.ramRegions.all fun q => r == q || !regionsTouch r q

/-! ### A run of accesses of one width

What R88 says of a split access, byte by byte, and R286 of a block, eight bytes at a time: each access goes to RAM or,
where it is not in one region of RAM, to a handler. -/

/-- A byte that is neither RAM nor in a handler's range (R81). -/
def isHole (c : Config) (pa : Word) : Bool := !isRam c pa && !isMmio c pa

/-- Read `n` bytes at each address, in order: the values, and the state after the handler calls (R84). -/
def State.unitsRead (s : State) (n : Nat) : List Word → List DWord × State
  | [] => ([], s)
  | pa :: pas =>
    if inOne s.cfg.ramRegions pa n then
      let r := s.unitsRead n pas
      (Memory.readBE s.mem pa n :: r.1, r.2)
    else
      let r := (s.mmioRead pa n).2.unitsRead n pas
      ((s.mmioRead pa n).1 :: r.1, r.2)

/-- Write the value beside each address to the `n` bytes there, in order (R84). -/
def State.unitsWritten (s : State) (n : Nat) : List (Word × DWord) → State
  | [] => s
  | (pa, v) :: ws =>
    if inOne s.cfg.ramRegions pa n then (s.withMem (Memory.writeBE s.mem pa n v)).unitsWritten n ws
    else (s.mmioWrite pa n v).unitsWritten n ws

/-- The bytes of an `n`-byte write as values, the most significant first (R82: byte `j` is
`D[8(n-j)-1 : 8(n-j-1)]`). -/
def byteValues (n : Nat) (d : DWord) : List DWord :=
  (List.range n).map fun j => (d >>> (8 * (n - j - 1))) &&& 0xFF#64

/-! ### Locked-cache DMA (R286) -/

/-- The start of block `k` of a DMA operand (R286: `s + 32*k`). -/
def dmaStart (a : Word) (k : Nat) : Word := lineAddress a + BitVec.ofNat 32 (32 * k)

/-- Block `k` of a DMA command is copied and does not stop it (R286). -/
def dmaBlockOk (c : Config) (src dst : Word) (lcIsSrc : Bool) (k : Nat) : Bool :=
  inLockedCache c (if lcIsSrc then dmaStart src k else dmaStart dst k) &&
    dmaReachable c (dmaStart src k) (dmaStart dst k)

/-- Some eight-byte access of the first `n` blocks is not in one region of RAM: with every block good, it goes to a
handler (R286). -/
def dmaViaHandler (c : Config) (src dst : Word) (n : Nat) : Bool :=
  (List.range n).any fun k =>
    (dmaPieces (dmaStart src k) ++ dmaPieces (dmaStart dst k)).any fun p => !inOne c.ramRegions p 8

/-- Every eight-byte access of the first `n` blocks goes to RAM. -/
def dmaAllRam (c : Config) (src dst : Word) (n : Nat) : Bool :=
  (List.range n).all fun k =>
    (dmaPieces (dmaStart src k) ++ dmaPieces (dmaStart dst k)).all fun p => route c p 8 == some .ram

/-- Block `k` of a DMA command copied: four reads, then four writes (R286). -/
def State.copiedBlock (s : State) (src dst : Word) (k : Nat) : State :=
  let r := s.unitsRead 8 (dmaPieces (dmaStart src k))
  r.2.unitsWritten 8 ((dmaPieces (dmaStart dst k)).zip r.1)

/-- The first `n` blocks copied, in ascending order (R286). -/
def State.copiedBlocks (s : State) (src dst : Word) (n : Nat) : State :=
  (List.range n).foldl (fun t k => t.copiedBlock src dst k) s

/-! ### A rebuilt table, as the loop of R210 gives it -/

/-- A pair is configured and covers block `e` (R211), bit by bit. -/
def pairCovers (u : Word) (e : BitVec 15) : Bool :=
  (u.getLsbD 1 || u.getLsbD 0) &&
    (u.extractLsb' 17 15 &&& (u.extractLsb' 2 11).setWidth 15) == 0#15 &&
    (e &&& ~~~((u.extractLsb' 2 11).setWidth 15)) == u.extractLsb' 17 15

/-- The fake run covers block `e` (R214). -/
def fakeCovers (c : Config) (e : BitVec 15) : Bool :=
  c.fakeBatEn && c.fakeBatStart.toNat / 2 ^ 17 ≤ e.toNat &&
    e.toNat ≤ (c.fakeBatStart.toNat + c.fakeBatLen - 1) / 2 ^ 17

/-- The decision about block `e` (R210 to R214): its frame and its `WI`, the fake run over the
highest-numbered covering pair; none when nothing covers it. -/
def blockDecision (c : Config) (pairs : List BatPair) (e : BitVec 15) : Option (BitVec 15 × Bool) :=
  if fakeCovers c e then some (e, false)
  else
    match pairs.reverse.find? fun p => pairCovers p.upper e with
    | some p =>
      some (p.lower.extractLsb' 17 15 ||| (e &&& (p.upper.extractLsb' 2 11).setWidth 15),
        p.lower.getLsbD 6 || p.lower.getLsbD 5)
    | none => none

/-- The descriptor `write_block` puts at offset `q` of a block (R210), bit fields of R139. -/
def blockDescriptor (c : Config) (pb : BitVec 15) (wi : Bool) (q : Nat) : Word :=
  (pb.setWidth 32 <<< 17) ||| (BitVec.ofNat 32 q <<< c.s) ||| 1#32 |||
    (if wi then 4#32 else 0#32) ||| (if wi = false ∧ isRamBlock c pb = true then 2#32 else 0#32)

/-- The entry at offset `q` of block `e` after a rebuild (R210). -/
def rebuiltEntry (c : Config) (pairs : List BatPair) (e : BitVec 15) (q : Nat) : Word :=
  match blockDecision c pairs e with
  | some (pb, wi) => blockDescriptor c pb wi q
  | none => 0#32

/-- The table is what a rebuild gives, from some contents of the BAT registers (R31: "always as a
whole"). -/
def Rebuilt (c : Config) (t : Cells 32) : Prop := ∃ pairs : List BatPair, t = updateBats c pairs

/-! ### Two machines that differ only in `S` -/

/-- `t` is `s` on a platform that differs only in `BAT_INDEX_SHIFT`, each table rebuilt there from the same
register contents; both platforms are admissible (R8, R190, U13). -/
def SameButShift (s t : State) : Prop :=
  configOk s.cfg = true ∧ configOk t.cfg = true ∧
    (∃ pairs, s.ibatTable = updateBats s.cfg pairs ∧ t.ibatTable = updateBats t.cfg pairs) ∧
    (∃ pairs, s.dbatTable = updateBats s.cfg pairs ∧ t.dbatTable = updateBats t.cfg pairs) ∧
    t = { s with
          cfg := { s.cfg with s := t.cfg.s }
          ibatTable := t.ibatTable
          dbatTable := t.dbatTable }

/-! ### The invariant -/

/-- The backing store is in canonical form and lists RAM bytes only (R80: defined exactly on the union of
`RAM_REGIONS`). -/
def memoryOk (c : Config) (m : Memory) : Prop :=
  Memory.wf m ∧ ∀ x ∈ m, x.1 < 2 ^ 32 ∧ isRam c (BitVec.ofNat 32 x.1) = true

/-- A page-table cache has `TLB_SETS` sets, and within a set at most one valid way holds a given tag
(R33), each valid way in the set its tag selects (R140). -/
def tlbOk (c : Config) (t : Tlb) : Prop :=
  Sparse.WF TlbSet.empty t ∧ ∀ x ∈ t, x.1 < c.tlbSets ∧ x.2.tagsDiffer = true ∧
    x.2.way0.inSet c x.1 = true ∧ x.2.way1.inSet c x.1 = true

/-- The latched locator has the shape R34 gives it. -/
def locatorOk (ptBase : Word) (ptHashMask : BitVec 19) : Prop :=
  ptBase.extractLsb' 0 16 = 0#16 ∧ ptHashMask.extractLsb' 0 10 = 0x3FF#10

/-- A response that is not `OK` carries no flag and no data (R128); one that is neither `OK` nor `BUS_ERROR` carries no
address either (R374; `BUS_ERROR` may carry that of R280: log entry 7); and no string element stands at or above `LEN`
(R330). -/
def responseOk (r : Response) : Prop :=
  (r.status ≠ .ok → r.flags = Flags.none ∧ r.data = 0#64) ∧
    (r.status ≠ .ok → r.status ≠ .busError → r.addr = 0#32) ∧
    Sparse.WF 0#16 r.str ∧ (∀ x ∈ r.str, x.1 < r.len.toNat) ∧ Sparse.WF 0#32 r.snapOut

/-- What every step keeps. -/
structure Inv (s : State) : Prop where
  config : configOk s.cfg = true
  memory : memoryOk s.cfg s.mem
  ibatTable : Rebuilt s.cfg s.ibatTable
  dbatTable : Rebuilt s.cfg s.dbatTable
  itlb : tlbOk s.cfg s.itlb
  dtlb : tlbOk s.cfg s.dtlb
  locator : locatorOk s.ptBase s.ptHashMask
  gResponse : responseOk s.g.rsp
  hResponse : responseOk s.h.rsp
  fatal : s.fatal = s.abortReason.isSome

end Sys2Proof.Machine
end

