-- ==== Sys2Proof/Certificates/Slice0/Obligations.lean ====
section
/-! DEFINITION. The statements for the provers, one `def Obligations.<Name> : Prop` each.  OBLIGATIONS.json says
in words what each states and which rules of spec/ it formalises. -/

open Sys2Proof Sys2Proof.Machine

/-! ### Encoding (`30_encoding.md`) -/

/-- Decoding the encoding of any command gives it back, whatever its fields hold (R120 to R123, R129). -/
def Obligations.DecodeOfEncode : Prop := ∀ i : Instr, decode (encode i) = .ok i

/-- No bit of a legal word is dropped: a word that decodes is the encoding of what it decodes to
(R120 to R123, R129). -/
def Obligations.EncodeOfDecode : Prop := ∀ (w : Word) (i : Instr), decode w = .ok i → encode i = w

/-- A word decodes exactly when it selects a row of the opcode map, and it selects at most one (R129,
R130). -/
def Obligations.DecodesExactlyTheRows : Prop :=
  (∀ w : Word, (∃ i, decode w = .ok i) ↔ ∃ row ∈ opcodeMap, selectsRow w row = true) ∧
  ∀ w : Word, ∀ row ∈ opcodeMap, ∀ other ∈ opcodeMap,
    selectsRow w row = true → selectsRow w other = true → row = other

/-- Words of table T0 of `95_test_vectors.md` decode as it says (R129, R130). -/
def Obligations.SampleWordsDecode : Prop :=
  decode 0x06000000#32 = .ok .read32 ∧ decode 0x0A000000#32 = .ok .write32 ∧
  decode 0x38000002#32 = .ok (.dmaLcToMem 2#16) ∧ decode 0x3C00FFFF#32 = .ok (.dmaMemToLc 0xFFFF#16) ∧
  decode 0x82400000#32 = .ok (.hostRead32 .physical) ∧
  decode 0x84800000#32 = .ok (.hostTryRead8 .virtual) ∧
  decode 0x8EC00000#32 = .ok (.hostTryWrite32 .reserved) ∧
  decode 0x98400100#32 = .ok (.hostGetString .physical 256#16) ∧
  decode 0x9C800010#32 = .ok (.hostGetU16String .virtual 16#16) ∧
  decode 0x4C000000#32 = .ok .tlbInvalidateEntry ∧ decode 0x30000000#32 = .ok .dclTouch ∧
  decode 0x6B000000#32 = .ok .optRam64 ∧ decode 0xC4000000#32 = .ok .stateRestore ∧
  decode 0x00000000#32 = .error .unknownOp ∧ decode 0x06000001#32 = .error .countNotZero ∧
  decode 0x06400000#32 = .error .spaceNotZero ∧ decode 0x0D000000#32 = .error .widthNotZero ∧
  decode 0x04010000#32 = .error .zeroFieldNotZero

/-! ### The step, the ports, abort and reset (`60_exceptions.md`, `70_reset_and_hazards.md`) -/

/-- A command presented on its own port while that port is live runs: the step is `exec` of the decoded
command on the state with the request taken (R90, R389). -/
def Obligations.StepRunsPresentedCommand : Prop :=
  ∀ (s : State) (i : Instr), configOk s.cfg = true → s.resetRequested = false → s.fatal = false →
    s.livePort = i.port → (s.req i.port).pending = true → decode (s.req i.port).cmd = .ok i →
    step s = exec i (s.take i.port)

/-- A word that selects no row of the opcode map aborts the block, with no other effect; the all-zeros
word and the all-ones word are such words (R130, R384). -/
def Obligations.IllegalWordAborts : Prop :=
  (∀ (s : State) (p : Port), configOk s.cfg = true → s.resetRequested = false → s.fatal = false →
    s.livePort = p → (s.req p).pending = true →
    (∀ row ∈ opcodeMap, selectsRow (s.req p).cmd row = false) →
    ∃ reason, step s = .next
      ({ s.take p with fatal := true, abortReason := reason }.respond p (Response.only .abort))) ∧
  (∀ row ∈ opcodeMap, selectsRow 0x00000000#32 row = false) ∧
  (∀ row ∈ opcodeMap, selectsRow 0xFFFFFFFF#32 row = false)

/-- Port arbitration (R389): a command in the wrong phase is held and runs when the phase changes; a
command on the wrong port aborts; `cpu_parked` is never changed by a command.  That the first holds while `FATAL` is 1
too is the model's choice (log entry 21). -/
def Obligations.PortArbitration : Prop :=
  (∀ s : State, s.livePort = if s.cpuParked then .h else .g) ∧
  (∀ s : State, configOk s.cfg = true → s.resetRequested = false → (s.req s.livePort).pending = false →
    step s = .next s) ∧
  (∀ (s : State) (i : Instr) (parked : Bool), configOk s.cfg = true → s.resetRequested = false →
    s.fatal = false → (s.req i.port).pending = true → decode (s.req i.port).cmd = .ok i →
    (parked = true ↔ i.port = .h) → step (s.park parked) = exec i ((s.park parked).take i.port)) ∧
  (∀ (s : State) (i : Instr), configOk s.cfg = true → s.resetRequested = false → s.fatal = false →
    (s.req s.livePort).pending = true → decode (s.req s.livePort).cmd = .ok i → i.port ≠ s.livePort →
    step s = .next ((s.take s.livePort).abort s.livePort .wrongPort)) ∧
  (∀ s t : State, step s = .next t → t.cpuParked = s.cpuParked)

/-- `FATAL` (R35): set by abort, cleared only by reset; while it is set every command on either port ends
with `ABORT` and changes nothing.  That it ends so when its port is live, and is held until then (R389), is the model's
choice (log entry 21). -/
def Obligations.FatalIsSticky : Prop :=
  State.reset.fatal = false ∧
  (∀ (s : State) (p : Port) (reason : AbortReason), (s.abort p reason).fatal = true) ∧
  (∀ (s : State) (p : Port), configOk s.cfg = true → s.resetRequested = false → s.fatal = true →
    s.livePort = p → (s.req p).pending = true →
    step s = .next ((s.take p).respond p (Response.only .abort))) ∧
  (∀ s t : State, s.fatal = true → step s = .next t → s.resetRequested = false → t.fatal = true) ∧
  (∀ s t : State, s.resetRequested = true → step s = .next t → t.fatal = false)

/-- The reset sequence (R410): what it writes, that it writes nothing else, and that nothing but it clears
`FATAL`.  That a reset is asked for by the bit `resetRequested` is the model's choice (log entry 3), and that the request
registers, a presented command, memory, the trace and the handler-call count survive it is the model's reading (log
entry 16). -/
def Obligations.ResetSequence : Prop :=
  (∀ s t : State, s.fatal = true → step s = .next t → t.fatal = false → s.resetRequested = true) ∧
  ∀ s : State, configOk s.cfg = true → s.resetRequested = true →
    step s = .next
      { s with
        resetRequested := false
        fatal := false
        abortReason := none
        g := { s.g with rsp := Response.zero }
        h := { s.h with rsp := Response.zero }
        itlb := []
        dtlb := []
        ptBase := s.cpu.sdr1.extractLsb' 16 16 ++ 0#16
        ptHashMask := s.cpu.sdr1.extractLsb' 0 9 ++ 0x3FF#10
        ibatTable := updateBats s.cfg (s.batPairs .instruction)
        dbatTable := updateBats s.cfg (s.batPairs .data) }

/-- The state after reset is what the reset sequence leaves (R47, R410), with the registers the block does
not own at zero: log entry 1 says that zero is the model's choice, which R411 allows. -/
def Obligations.ResetStateIsReset : Prop :=
  State.reset.releaseReset = State.reset ∧ State.reset.fatal = false ∧
  State.reset.g.rsp = Response.zero ∧ State.reset.h.rsp = Response.zero ∧
  State.reset.ptBase = 0#32 ∧ State.reset.ptHashMask = 0x3FF#19 ∧
  (∀ ea : Word, State.reset.descriptor .data ea = 0#32 ∧ State.reset.descriptor .instruction ea = 0#32) ∧
  (∀ side k, State.reset.tlbSet side k = ⟨⟨false, 0#20, 0#32⟩, ⟨false, 0#20, 0#32⟩, false⟩) ∧
  (∀ (m : Mode) (ea : Word), State.reset.translate m ea false = (.untranslated ea, State.reset))

/-! ### Translation (`40_translate.md`) -/

/-- Step 1, enable check (R172). -/
def Obligations.TranslationOffIsDirect : Prop :=
  ∀ (s : State) (m : Mode) (ea : Word), s.translationOn m.side = false →
    s.translate m ea false = (.untranslated ea, s) ∧ s.translate m ea true = (.failVirtualOnly, s) ∧
    (Translation.untranslated ea).wi = false ∧ (Translation.untranslated ea).isTranslated = false

/-- Step 2, BAT lookup (R173): one indexed read decides, and nothing but the configuration, the enable bit
and the table of the side takes part: any other state that agrees on those answers the same. -/
def Obligations.MappedEntryDecides : Prop :=
  ∀ (s : State) (m : Mode) (ea : Word) (v : Bool),
    s.translationOn m.side = true → (s.descriptor m.side ea).getLsbD 0 = true →
    s.translate m ea v =
      (.batTranslated
        ((s.descriptor m.side ea &&& ~~~(BitVec.ofNat 32 (2 ^ s.cfg.s - 1))) |||
          (ea &&& BitVec.ofNat 32 (2 ^ s.cfg.s - 1)))
        ((s.descriptor m.side ea).getLsbD 2), s) ∧
    ∀ (s' : State) (m' : Mode) (v' : Bool), m'.side = m.side → s'.cfg = s.cfg →
      s'.translationOn m.side = true → s'.table m.side = s.table m.side →
      s'.translate m' ea v' = ((s.translate m ea v).1, s')

/-- Where the page path fails for want of a translation (R175, R176, R182): by the segment, whatever the cache and
memory hold, or by a walk that misses, with no state change; and, after a store dropped a cached way whose C is 0
(R179), with that way left invalid. -/
def Obligations.PagePathFailures : Prop :=
  ∀ (s : State) (m : Mode) (ea : Word) (v : Bool),
    s.translationOn m.side = true → descMapped (s.descriptor m.side ea) = false →
    (srT (s.segment ea) = true → s.translate m ea v = (.directStoreSegment, s)) ∧
    (srT (s.segment ea) = false → m.side = .instruction → srN (s.segment ea) = true →
      s.translate m ea v = (.pageFault .noExecute, s)) ∧
    (srT (s.segment ea) = false → ¬ (m.side = .instruction ∧ srN (s.segment ea) = true) →
      (s.tlbSet m.side (setIndex s.cfg ea)).lookup (eaPage ea) = none → s.findPte ea = none →
      s.translate m ea v = (.pageFault .pageMiss, s)) ∧
    (srT (s.segment ea) = false → ∀ w,
      (s.tlbSet m.side (setIndex s.cfg ea)).lookup (eaPage ea) = some w → m.isStore = true →
      permOk s.cfg (if s.cpu.msrPr then srKp (s.segment ea) else srKs (s.segment ea))
        (ptePp ((s.tlbSet m.side (setIndex s.cfg ea)).way w).pte1) true = true →
      pteC ((s.tlbSet m.side (setIndex s.cfg ea)).way w).pte1 = false → s.findPte ea = none →
      s.translate m ea v = (.pageFault .pageMiss, s.withTlbSet m.side (setIndex s.cfg ea)
        ((s.tlbSet m.side (setIndex s.cfg ea)).setWay w
          { (s.tlbSet m.side (setIndex s.cfg ea)).way w with valid := false })))

/-- Page permission (R183): the table, the switch `PAGE_PROT_ENFORCE`, and that only `Write` counts as a
store, and that a denied access is `PROTECTION`, sets no R or C bit and fills no way, on a cache hit and on a
walk hit alike.  A walk that a store reaches by dropping a cached way whose C is 0 (R179) leaves that way invalid;
every other denied access changes nothing. -/
def Obligations.PagePermission : Prop :=
  (∀ m : Mode, m.isStore = true ↔ m = .write) ∧
  (∀ (c : Config) (store : Bool), c.pageProtEnforce = true →
    permOk c false 0#2 store = true ∧ permOk c false 1#2 store = true ∧
    permOk c false 2#2 store = true ∧ permOk c false 3#2 store = !store ∧
    permOk c true 0#2 store = false ∧ permOk c true 1#2 store = !store ∧
    permOk c true 2#2 store = true ∧ permOk c true 3#2 store = !store) ∧
  (∀ (c : Config) (key : Bool) (pp : BitVec 2) (store : Bool), c.pageProtEnforce = false →
    permOk c key pp store = true) ∧
  (∀ (s : State) (m : Mode) (ea : Word) (v w : Bool),
    s.translationOn m.side = true → descMapped (s.descriptor m.side ea) = false →
    srT (s.segment ea) = false → ¬ (m.side = .instruction ∧ srN (s.segment ea) = true) →
    (s.tlbSet m.side (setIndex s.cfg ea)).lookup (eaPage ea) = some w →
    permOk s.cfg (if s.cpu.msrPr then srKp (s.segment ea) else srKs (s.segment ea))
      (ptePp ((s.tlbSet m.side (setIndex s.cfg ea)).way w).pte1) m.isStore = false →
    s.translate m ea v = (.pageFault .protection, s)) ∧
  (∀ (s : State) (m : Mode) (ea : Word) (v : Bool) (pte : Word),
    s.translationOn m.side = true → descMapped (s.descriptor m.side ea) = false →
    srT (s.segment ea) = false → ¬ (m.side = .instruction ∧ srN (s.segment ea) = true) →
    (s.tlbSet m.side (setIndex s.cfg ea)).lookup (eaPage ea) = none → s.findPte ea = some pte →
    permOk s.cfg (if s.cpu.msrPr then srKp (s.segment ea) else srKs (s.segment ea))
      (ptePp (s.ramRead32 (pte + 4#32))) m.isStore = false →
    s.translate m ea v = (.pageFault .protection, s)) ∧
  (∀ (s : State) (m : Mode) (ea : Word) (v w : Bool) (pte : Word),
    s.translationOn m.side = true → descMapped (s.descriptor m.side ea) = false →
    srT (s.segment ea) = false → m.isStore = true →
    (s.tlbSet m.side (setIndex s.cfg ea)).lookup (eaPage ea) = some w →
    permOk s.cfg (if s.cpu.msrPr then srKp (s.segment ea) else srKs (s.segment ea))
      (ptePp ((s.tlbSet m.side (setIndex s.cfg ea)).way w).pte1) true = true →
    pteC ((s.tlbSet m.side (setIndex s.cfg ea)).way w).pte1 = false → s.findPte ea = some pte →
    permOk s.cfg (if s.cpu.msrPr then srKp (s.segment ea) else srKs (s.segment ea))
      (ptePp (s.ramRead32 (pte + 4#32))) true = false →
    s.translate m ea v = (.pageFault .protection, s.withTlbSet m.side (setIndex s.cfg ea)
      ((s.tlbSet m.side (setIndex s.cfg ea)).setWay w
        { (s.tlbSet m.side (setIndex s.cfg ea)).way w with valid := false })))

/-- A permitted cache hit (R178): the cached frame answers, memory is neither read nor written, and only a
mutating mode changes anything, the `recent` bit. -/
def Obligations.CacheHitAnswers : Prop :=
  ∀ (s : State) (m : Mode) (ea : Word) (v w : Bool),
    s.translationOn m.side = true → descMapped (s.descriptor m.side ea) = false →
    srT (s.segment ea) = false → ¬ (m.side = .instruction ∧ srN (s.segment ea) = true) →
    (s.tlbSet m.side (setIndex s.cfg ea)).lookup (eaPage ea) = some w →
    permOk s.cfg (if s.cpu.msrPr then srKp (s.segment ea) else srKs (s.segment ea))
      (ptePp ((s.tlbSet m.side (setIndex s.cfg ea)).way w).pte1) m.isStore = true →
    (m.isStore = true → pteC ((s.tlbSet m.side (setIndex s.cfg ea)).way w).pte1 = true) →
    s.translate m ea v =
      (.pageTableTranslated
        (((s.tlbSet m.side (setIndex s.cfg ea)).way w).pte1.extractLsb' 12 20 ++ ea.extractLsb' 0 12)
        (((s.tlbSet m.side (setIndex s.cfg ea)).way w).pte1.getLsbD 6 ||
          ((s.tlbSet m.side (setIndex s.cfg ea)).way w).pte1.getLsbD 5),
       if m.mutates then
         s.withTlbSet m.side (setIndex s.cfg ea)
           { s.tlbSet m.side (setIndex s.cfg ea) with recent := w }
       else s)

/-- The search of the page table (R180 to R182): the entry found is the first, in the primary group and then
in the secondary, whose word 0 is the wanted one; none is found exactly when no entry of either matches. -/
def Obligations.SearchFindsFirstMatch : Prop :=
  ∀ (s : State) (ea : Word),
    let hash : Bool → BitVec 19 := fun h =>
      let x := (s.segment ea).extractLsb' 0 19 ^^^ (ea.extractLsb' 12 16).setWidth 19
      if h then ~~~x else x
    let entry : Bool → Nat → Word := fun h i =>
      (s.ptBase ||| ((hash h &&& s.ptHashMask).setWidth 32 <<< 6)) + BitVec.ofNat 32 (8 * i)
    let want : Bool → Word := fun h =>
      0x80000000#32 ||| (((s.segment ea).extractLsb' 0 24).setWidth 32 <<< 7) |||
        (if h then 0x40#32 else 0#32) ||| (ea.extractLsb' 22 6).setWidth 32
    let matchesAt : Bool → Nat → Prop := fun h i => s.ramRead32 (entry h i) = want h
    (∀ pte, s.findPte ea = some pte ↔
      ∃ h i, i < 8 ∧ pte = entry h i ∧ matchesAt h i ∧ (∀ j < i, ¬ matchesAt h j) ∧
        (h = true → ∀ j < 8, ¬ matchesAt false j)) ∧
    (s.findPte ea = none ↔ ∀ h, ∀ i < 8, ¬ matchesAt h i)

/-- A permitted walk hit under a mutating mode (R184 to R186), and the same walk after a store dropped a
cached way whose C is 0 (R179): word 1 gets R, and C for a store, every other bit kept; the victim way is
filled with the new word 1 and becomes `recent`; nothing else changes. -/
def Obligations.WalkHitUpdates : Prop :=
  ∀ (s s0 s' : State) (m : Mode) (ea : Word) (v : Bool) (t : Translation) (pte : Word),
    Memory.wf s.mem → Sparse.WF TlbSet.empty (s.tlb m.side) →
    s.translationOn m.side = true → descMapped (s.descriptor m.side ea) = false →
    srT (s.segment ea) = false → ¬ (m.side = .instruction ∧ srN (s.segment ea) = true) →
    m.mutates = true →
    ((s.tlbSet m.side (setIndex s.cfg ea)).lookup (eaPage ea) = none ∧ s0 = s ∨
      ∃ w, (s.tlbSet m.side (setIndex s.cfg ea)).lookup (eaPage ea) = some w ∧ m.isStore = true ∧
        permOk s.cfg (if s.cpu.msrPr then srKp (s.segment ea) else srKs (s.segment ea))
          (ptePp ((s.tlbSet m.side (setIndex s.cfg ea)).way w).pte1) true = true ∧
        pteC ((s.tlbSet m.side (setIndex s.cfg ea)).way w).pte1 = false ∧
        s0 = s.withTlbSet m.side (setIndex s.cfg ea)
          ((s.tlbSet m.side (setIndex s.cfg ea)).setWay w
            { (s.tlbSet m.side (setIndex s.cfg ea)).way w with valid := false })) →
    s.findPte ea = some pte →
    permOk s.cfg (if s.cpu.msrPr then srKp (s.segment ea) else srKs (s.segment ea))
      (ptePp (s.ramRead32 (pte + 4#32))) m.isStore = true →
    s.translate m ea v = (t, s') →
    let w1 := s.ramRead32 (pte + 4#32)
    let w1n := w1 ||| (if m.isStore then 0x180#32 else 0x100#32)
    let set := s0.tlbSet m.side (setIndex s.cfg ea)
    let victim := if !set.way0.valid then false else if !set.way1.valid then true else !set.recent
    t = .pageTableTranslated (w1.extractLsb' 12 20 ++ ea.extractLsb' 0 12)
      (w1.getLsbD 6 || w1.getLsbD 5) ∧
    ((∀ j < 4, isRam s.cfg (pte + 4#32 + BitVec.ofNat 32 j) = true) →
      (Memory.readBE s'.mem (pte + 4#32) 4).setWidth 32 = w1n) ∧
    (∀ b, b ∉ byteRun (pte + 4#32) 4 → s'.mem.byte b = s.mem.byte b) ∧
    (s'.tlbSet m.side (setIndex s.cfg ea)).way victim = ⟨true, eaPage ea, w1n⟩ ∧
    (s'.tlbSet m.side (setIndex s.cfg ea)).way (!victim) = set.way (!victim) ∧
    (s'.tlbSet m.side (setIndex s.cfg ea)).recent = victim ∧
    (∀ k, k ≠ setIndex s.cfg ea → s'.tlbSet m.side k = s.tlbSet m.side k) ∧
    s' = (s.withTlb m.side (s'.tlb m.side)).withMem s'.mem

/-- Purity of the non-mutating modes (R187): nothing changes, and the result is the matching mutating
mode's. -/
def Obligations.NonMutatingModesArePure : Prop :=
  ∀ (s : State) (ea : Word) (v : Bool),
    s.translate .noException ea v = ((s.translate .read ea v).1, s) ∧
    s.translate .opcodeNoException ea v = ((s.translate .opcode ea v).1, s)

/-- The byte offset within the page goes through translation unchanged (R138, R173, R186): on every admissible
platform (R8). -/
def Obligations.PageOffsetPreserved : Prop :=
  ∀ (s : State) (m : Mode) (ea pa : Word) (v : Bool), configOk s.cfg = true →
    (s.translate m ea v).1.address = some pa → pa.extractLsb' 0 12 = ea.extractLsb' 0 12

/-- What a translation can change at most (R94, R187, R191): sets of its own side's cache at the set of the
address, and word 1 of the page-table entry the walk finds; a failed load or fetch translation changes
nothing. -/
def Obligations.TranslationFrame : Prop :=
  ∀ (s s' : State) (m : Mode) (ea : Word) (v : Bool) (t : Translation),
    Memory.wf s.mem → Sparse.WF TlbSet.empty (s.tlb m.side) → s.translate m ea v = (t, s') →
    s' = (s.withTlb m.side (s'.tlb m.side)).withMem s'.mem ∧
    Memory.wf s'.mem ∧ Sparse.WF TlbSet.empty (s'.tlb m.side) ∧
    (∀ b, b ∉ s.pteBytes ea → s'.mem.byte b = s.mem.byte b) ∧
    (∀ k, k ≠ setIndex s.cfg ea → s'.tlbSet m.side k = s.tlbSet m.side k) ∧
    (t.address = none → s'.mem = s.mem) ∧
    (t.address = none → m ≠ .write → s' = s)

/-- Independence from `S` (R190): two machines that differ only in `BAT_INDEX_SHIFT`, their tables rebuilt from
the same registers, translate every address under every mode to the same result, read the same `PHYSICAL` flag for it, and stay such
a pair. -/
def Obligations.TranslationIndependentOfShift : Prop :=
  ∀ s t : State, SameButShift s t → ∀ (m : Mode) (ea : Word) (v : Bool),
    (t.translate m ea v).1 = (s.translate m ea v).1 ∧
    (t.descriptor m.side ea).getLsbD 1 = (s.descriptor m.side ea).getLsbD 1 ∧
    SameButShift (s.translate m ea v).2 (t.translate m ea v).2

/-- No command's response and no write to the backing store depends on `S` (R8, R190): two machines that differ
only in it step alike, and stay such a pair, so their responses, memory, trace and caches stay equal. -/
def Obligations.StepIndependentOfShift : Prop :=
  ∀ s t s' : State, SameButShift s t → step s = .next s' →
    ∃ t', step t = .next t' ∧ SameButShift s' t'

/-! ### Rebuild, invalidation and snapshot (`41_maintenance.md`) -/

/-- The rebuild is the loop of R210 (with R211 to R214): the entry at offset `q` of block `e` is decided by the
highest-numbered pair that is configured and covers `e`, the fake run over all of them; what nothing covers is
all zeros; there is no entry past the end of the table.  The last clause, that the table is held as its non-zero entries
in rising order, is the model's representation (log entry 17), no rule of the spec. -/
def Obligations.RebuildIsTheLoop : Prop :=
  ∀ (c : Config) (pairs : List BatPair), configOk c = true →
    (∀ (e : BitVec 15) (q : Nat), q < 2 ^ (17 - c.s) →
      Sparse.get 0#32 (updateBats c pairs) (e.toNat * 2 ^ (17 - c.s) + q) = rebuiltEntry c pairs e q) ∧
    (∀ idx, 2 ^ (32 - c.s) ≤ idx → Sparse.get 0#32 (updateBats c pairs) idx = 0#32) ∧
    Sparse.WF 0#32 (updateBats c pairs)

/-- After a rebuild the lookup returns `(pb << 17) | ea[16:0]`, with the block's `WI`, for every address of a
covered block, and no entry is mapped for any other (R173, R212). -/
def Obligations.RebuiltTableTranslates : Prop :=
  ∀ (s : State) (pairs : List BatPair) (m : Mode) (ea : Word) (v : Bool), configOk s.cfg = true →
    s.table m.side = updateBats s.cfg pairs → s.translationOn m.side = true →
    match blockDecision s.cfg pairs (ea.extractLsb' 17 15) with
    | some (pb, wi) => s.translate m ea v = (.batTranslated (pb ++ ea.extractLsb' 0 17) wi, s)
    | none => s.translate m ea v = s.translatePage m ea

/-- `DBAT_UPDATED` and `IBAT_UPDATED` (R215, R216): the whole table of the side is rebuilt from its registers and
nothing else changes; a second one changes nothing; with no pair configured and no fake run the table is all
zeros, and with such a table every access of the side goes to the page path. -/
def Obligations.BatUpdatedRebuilds : Prop :=
  decode 0x44000000#32 = .ok .dbatUpdated ∧ decode 0x48000000#32 = .ok .ibatUpdated ∧
  Instr.dbatUpdated.port = .g ∧ Instr.ibatUpdated.port = .g ∧
  (∀ s : State,
    exec .dbatUpdated s = .next
      { s with
        dbatTable := updateBats s.cfg (s.cpu.dbat.toList.take s.cfg.nBat)
        g := { s.g with rsp := Response.zero } } ∧
    exec .ibatUpdated s = .next
      { s with
        ibatTable := updateBats s.cfg (s.cpu.ibat.toList.take s.cfg.nBat)
        g := { s.g with rsp := Response.zero } }) ∧
  (∀ s t : State, exec .dbatUpdated s = .next t → exec .dbatUpdated t = .next t) ∧
  (∀ s t : State, exec .ibatUpdated s = .next t → exec .ibatUpdated t = .next t) ∧
  (∀ (c : Config) (pairs : List BatPair), c.fakeBatEn = false →
    (∀ p ∈ pairs, batConfigured p.upper = false) → updateBats c pairs = []) ∧
  (∀ (s : State) (m : Mode) (ea : Word) (v : Bool), s.table m.side = [] → s.translationOn m.side = true →
    s.translate m ea v = s.translatePage m ea)

/-- `SDR_UPDATED` (R217): the locator is latched, `valid` of every way of both caches is cleared and nothing else
of them, both tables are rebuilt, and nothing else changes. -/
def Obligations.SdrUpdatedRestarts : Prop :=
  decode 0x40000000#32 = .ok .sdrUpdated ∧ Instr.sdrUpdated.port = .g ∧
  ∀ s : State, Sparse.WF TlbSet.empty s.itlb → Sparse.WF TlbSet.empty s.dtlb →
    ∃ t, exec .sdrUpdated s = .next t ∧
      (∀ side k w, (t.tlbSet side k).way w = { (s.tlbSet side k).way w with valid := false }) ∧
      (∀ side k, (t.tlbSet side k).recent = (s.tlbSet side k).recent) ∧
      t = { s with
            ptBase := s.cpu.sdr1.extractLsb' 16 16 ++ 0#16
            ptHashMask := s.cpu.sdr1.extractLsb' 0 9 ++ 0x3FF#10
            itlb := t.itlb
            dtlb := t.dtlb
            ibatTable := updateBats s.cfg (s.batPairs .instruction)
            dbatTable := updateBats s.cfg (s.batPairs .data)
            g := { s.g with rsp := Response.zero } }

/-- `TLB_INVALIDATE_ENTRY` (R218): both ways of the set of `A` lose `valid` on both sides, whatever their tags;
every other set is unchanged; both tables are rebuilt; nothing else changes.  That the set is `A[31:12]` modulo
`TLB_SETS` for any number of sets (R140; R218 writes `A[18:12]`, the case of 128) is the model's reading (log
entry 13). -/
def Obligations.InvalidateEntryClearsItsSet : Prop :=
  decode 0x4C000000#32 = .ok .tlbInvalidateEntry ∧ Instr.tlbInvalidateEntry.port = .g ∧
  ∀ s : State, Sparse.WF TlbSet.empty s.itlb → Sparse.WF TlbSet.empty s.dtlb →
    ∃ t, exec .tlbInvalidateEntry s = .next t ∧
      (∀ side w, (t.tlbSet side ((s.g.req.a >>> 12).toNat % s.cfg.tlbSets)).way w =
        { (s.tlbSet side ((s.g.req.a >>> 12).toNat % s.cfg.tlbSets)).way w with valid := false }) ∧
      (∀ side, (t.tlbSet side ((s.g.req.a >>> 12).toNat % s.cfg.tlbSets)).recent =
        (s.tlbSet side ((s.g.req.a >>> 12).toNat % s.cfg.tlbSets)).recent) ∧
      (∀ side k, k ≠ (s.g.req.a >>> 12).toNat % s.cfg.tlbSets → t.tlbSet side k = s.tlbSet side k) ∧
      t = { s with
            itlb := t.itlb
            dtlb := t.dtlb
            ibatTable := updateBats s.cfg (s.batPairs .instruction)
            dbatTable := updateBats s.cfg (s.batPairs .data)
            g := { s.g with rsp := Response.zero } }

/-- `STATE_SAVE` (R219): `SNAP_OUT` is the image of R141, word by word, and nothing else changes.  That a side of the
image has `5 * TLB_SETS` words for any number of sets (R141 writes it for 128) is the model's reading (log
entry 13). -/
def Obligations.StateSaveWritesImage : Prop :=
  decode 0xC0000000#32 = .ok .stateSave ∧ Instr.stateSave.port = .h ∧
  ∀ s : State, tlbOk s.cfg s.itlb → tlbOk s.cfg s.dtlb →
    ∃ snap : Cells 32, exec .stateSave s = .next
        { s with h := { s.h with rsp := { Response.zero with snapOut := snap } } } ∧
      (∀ side : Side, ∀ k < s.cfg.tlbSets,
        let base := 5 * (s.cfg.tlbSets * (match side with | .instruction => 0 | .data => 1) + k)
        let set := s.tlbSet side k
        Sparse.get 0#32 snap base = BitVec.ofBool set.way0.valid ++ 0#11 ++ set.way0.tag ∧
        Sparse.get 0#32 snap (base + 1) = set.way0.pte1 ∧
        Sparse.get 0#32 snap (base + 2) = BitVec.ofBool set.way1.valid ++ 0#11 ++ set.way1.tag ∧
        Sparse.get 0#32 snap (base + 3) = set.way1.pte1 ∧
        Sparse.get 0#32 snap (base + 4) = if set.recent then 1#32 else 0#32) ∧
      (∀ j, 10 * s.cfg.tlbSets ≤ j → Sparse.get 0#32 snap j = 0#32)

/-- `STATE_RESTORE` (R220): from a well-formed image both caches are loaded, the locator is latched and both
tables are rebuilt; a malformed image aborts with `BAD_SNAPSHOT`; nothing else changes.  The layout and the tag's set for
a number of sets other than 128 are the model's reading (log entry 13). -/
def Obligations.StateRestoreLoadsImage : Prop :=
  ∀ s : State,
    let word : Side → Nat → Nat → Word := fun side k j =>
      Sparse.get 0#32 s.h.req.snapIn
        (5 * (s.cfg.tlbSets * (match side with | .instruction => 0 | .data => 1) + k) + j)
    let valid : Side → Nat → Nat → Bool := fun side k w => (word side k (2 * w)).getLsbD 31
    let tag : Side → Nat → Nat → BitVec 20 := fun side k w => (word side k (2 * w)).extractLsb' 0 20
    let wellFormed : Prop := ∀ side : Side, ∀ k < s.cfg.tlbSets,
      (∀ w < 2, (word side k (2 * w)).extractLsb' 20 11 = 0#11 ∧
        (valid side k w = true → (tag side k w).toNat % s.cfg.tlbSets = k)) ∧
      (word side k 4).extractLsb' 1 31 = 0#31 ∧
      (valid side k 0 = true → valid side k 1 = true → tag side k 0 ≠ tag side k 1)
    (wellFormed →
      ∃ t, exec .stateRestore s = .next t ∧
        (∀ side : Side, ∀ k < s.cfg.tlbSets,
          t.tlbSet side k =
            ⟨⟨valid side k 0, tag side k 0, word side k 1⟩, ⟨valid side k 1, tag side k 1, word side k 3⟩,
              (word side k 4).getLsbD 0⟩) ∧
        t = { s with
              itlb := t.itlb
              dtlb := t.dtlb
              ptBase := s.cpu.sdr1.extractLsb' 16 16 ++ 0#16
              ptHashMask := s.cpu.sdr1.extractLsb' 0 9 ++ 0x3FF#10
              ibatTable := updateBats s.cfg (s.batPairs .instruction)
              dbatTable := updateBats s.cfg (s.batPairs .data)
              h := { s.h with rsp := Response.zero } }) ∧
    (¬ wellFormed → exec .stateRestore s = .next (s.abort .h .badSnapshot))

/-- Save and restore round trip (R220): restoring the image of a saved block, on any block of the same platform,
gives it the saved caches; and restoring at once changes nothing but the response, when the derived state is
that of the registers. -/
def Obligations.SaveRestoreRoundTrip : Prop :=
  ∀ s u : State, tlbOk s.cfg s.itlb → tlbOk s.cfg s.dtlb → 0 < s.cfg.tlbSets →
    exec .stateSave s = .next u →
    (∀ r : State, r.cfg = s.cfg → r.h.req.snapIn = u.h.rsp.snapOut →
      ∃ t, exec .stateRestore r = .next t ∧ t.itlb = s.itlb ∧ t.dtlb = s.dtlb ∧ t.fatal = r.fatal) ∧
    (s.latchLocator = s → s.rebuildBoth = s →
      exec .stateRestore (u.setReq .h { u.h.req with snapIn := u.h.rsp.snapOut }) =
        .next ((s.setReq .h { s.h.req with snapIn := u.h.rsp.snapOut }).respond .h Response.zero))

/-! ### Guest reads and writes (`42_access.md`) -/

/-- `READ.n` within one page (R242 to R245 with R84 and R88): the value, address and flags from RAM; one handler
call for MMIO; `BUS_ERROR` elsewhere; one DSI when the translation fails. -/
def Obligations.GuestReadWithinPage : Prop :=
  ∀ n i, (n, i) ∈ guestReads → ∀ (s s1 : State) (t : Translation), configOk s.cfg = true →
    samePage s.g.req.a (lastByte s.g.req.a n) = true →
    s.translate .read s.g.req.a false = (t, s1) →
    (∀ c, t.faultCause = some c → exec i s = .next (s1.raise .g ⟨.dsi, false, c, s.g.req.a⟩)) ∧
    ∀ pa, t.address = some pa →
      (route s.cfg pa n = some .ram →
        exec i s = .next (s1.respond .g (Response.done t.flags (Memory.readBE s1.mem pa n) pa))) ∧
      (route s.cfg pa n = some .mmio →
        exec i s = .next ((s1.mmioRead pa n).2.respond .g
          (Response.done { t.flags with mmio := true } (s1.mmioRead pa n).1 pa))) ∧
      (route s.cfg pa n = none → exec i s = .next (s1.respond .g (Response.only .busError)))

/-- `READ.n` across a page boundary (R87, R88): each page is translated once, the lower first; the first failure
is one DSI at the operand or at the first byte of the second page; adjacent frames are one access; otherwise the
bytes are read one by one, RAM or one handler call each, up to the first in a hole.  That `mmio` is set when some byte
came from a handler is log entry 20; that the handlers of the bytes before a hole have been called, log entry 18. -/
def Obligations.GuestReadAcrossPages : Prop :=
  ∀ n i, (n, i) ∈ guestReads → ∀ (s s1 s2 : State) (t1 t2 : Translation), configOk s.cfg = true →
    samePage s.g.req.a (lastByte s.g.req.a n) = false →
    s.translate .read s.g.req.a false = (t1, s1) →
    (∀ c, t1.faultCause = some c → exec i s = .next (s1.raise .g ⟨.dsi, false, c, s.g.req.a⟩)) ∧
    ∀ pa1, t1.address = some pa1 →
      s1.translate .read ((s.g.req.a + BitVec.ofNat 32 (n - 1)) &&& 0xFFFFF000#32) false = (t2, s2) →
      (∀ c, t2.faultCause = some c → exec i s = .next (s2.raise .g
        ⟨.dsi, false, c, (s.g.req.a + BitVec.ofNat 32 (n - 1)) &&& 0xFFFFF000#32⟩)) ∧
      ∀ pa2, t2.address = some pa2 →
        let k := firstPart s.g.req.a
        let bytes := byteRun pa1 k ++ byteRun pa2 (n - k)
        (pa2 = pa1 + BitVec.ofNat 32 k →
          (route s.cfg pa1 n = some .ram → exec i s = .next (s2.respond .g
            (Response.done (pairFlags t1 t2 false) (Memory.readBE s2.mem pa1 n) pa1))) ∧
          (route s.cfg pa1 n = some .mmio → exec i s = .next ((s2.mmioRead pa1 n).2.respond .g
            (Response.done (pairFlags t1 t2 true) (s2.mmioRead pa1 n).1 pa1))) ∧
          (route s.cfg pa1 n = none → exec i s = .next (s2.respond .g (Response.only .busError)))) ∧
        (pa2 ≠ pa1 + BitVec.ofNat 32 k →
          ((∀ b ∈ bytes, isRam s.cfg b = true) → exec i s = .next (s2.respond .g
            (Response.done (pairFlags t1 t2 false) (beValue (bytes.map s2.mem.byte)) pa1))) ∧
          ((∀ b ∈ bytes, isMmio s.cfg b = false) → (∃ b ∈ bytes, isRam s.cfg b = false) →
            exec i s = .next (s2.respond .g (Response.only .busError))) ∧
          ((∀ b ∈ bytes, isHole s.cfg b = false) → exec i s = .next ((s2.unitsRead 1 bytes).2.respond .g
            (Response.done (pairFlags t1 t2 (bytes.any (isMmio s.cfg)))
              (beValue ((s2.unitsRead 1 bytes).1.map (·.setWidth 8))) pa1))) ∧
          ∀ pre b post, bytes = pre ++ b :: post → (∀ c ∈ pre, isHole s.cfg c = false) →
            isHole s.cfg b = true →
            exec i s = .next ((s2.unitsRead 1 pre).2.respond .g (Response.only .busError)))

/-- `WRITE.n` within one page (R246 to R249 with R82, R84): byte `pa + j` gets `D[8(n-j)-1 : 8(n-j-1)]` and no
other byte changes; one handler call for MMIO; `BUS_ERROR` elsewhere with nothing written; one DSI, with
`write` = 1, when the translation fails. -/
def Obligations.GuestWriteWithinPage : Prop :=
  ∀ n i, (n, i) ∈ guestWrites → ∀ (s s1 : State) (t : Translation), configOk s.cfg = true →
    Memory.wf s.mem → samePage s.g.req.a (lastByte s.g.req.a n) = true →
    s.translate .write s.g.req.a false = (t, s1) →
    (∀ c, t.faultCause = some c → exec i s = .next (s1.raise .g ⟨.dsi, true, c, s.g.req.a⟩)) ∧
    ∀ pa, t.address = some pa →
      (route s.cfg pa n = some .ram → ∃ mem, exec i s = .next
          ((s1.withMem mem).respond .g (Response.done t.flags 0#64 pa)) ∧
        (∀ j < n, Memory.byte mem (pa + BitVec.ofNat 32 j) =
          (s.g.req.d >>> (8 * (n - j - 1))).setWidth 8) ∧
        (∀ b, b ∉ byteRun pa n → Memory.byte mem b = s1.mem.byte b)) ∧
      (route s.cfg pa n = some .mmio →
        exec i s = .next ((s1.mmioWrite pa n s.g.req.d).respond .g
          (Response.done { t.flags with mmio := true } 0#64 pa))) ∧
      (route s.cfg pa n = none → exec i s = .next (s1.respond .g (Response.only .busError)))

/-- `WRITE.n` across a page boundary (R87, R88): the translations as for a read; adjacent frames are one access;
otherwise every byte is checked before any is written, and the bytes go to both frames in order, to RAM or to one handler
call each.  That `mmio` is set when some byte went to a handler is log entry 20; that an access over the seam of two
regions that touch fails, log entry 22. -/
def Obligations.GuestWriteAcrossPages : Prop :=
  ∀ n i, (n, i) ∈ guestWrites → ∀ (s s1 s2 : State) (t1 t2 : Translation), configOk s.cfg = true →
    Memory.wf s.mem → samePage s.g.req.a (lastByte s.g.req.a n) = false →
    s.translate .write s.g.req.a false = (t1, s1) →
    (∀ c, t1.faultCause = some c → exec i s = .next (s1.raise .g ⟨.dsi, true, c, s.g.req.a⟩)) ∧
    ∀ pa1, t1.address = some pa1 →
      s1.translate .write ((s.g.req.a + BitVec.ofNat 32 (n - 1)) &&& 0xFFFFF000#32) false = (t2, s2) →
      (∀ c, t2.faultCause = some c → exec i s = .next (s2.raise .g
        ⟨.dsi, true, c, (s.g.req.a + BitVec.ofNat 32 (n - 1)) &&& 0xFFFFF000#32⟩)) ∧
      ∀ pa2, t2.address = some pa2 →
        let k := firstPart s.g.req.a
        let bytes := byteRun pa1 k ++ byteRun pa2 (n - k)
        ((∀ b ∈ bytes, isRam s.cfg b = true) →
          (pa2 = pa1 + BitVec.ofNat 32 k → route s.cfg pa1 n = some .ram) →
          ∃ mem, exec i s = .next
              ((s2.withMem mem).respond .g (Response.done (pairFlags t1 t2 false) 0#64 pa1)) ∧
            (∀ j < k, Memory.byte mem (pa1 + BitVec.ofNat 32 j) =
              (s.g.req.d >>> (8 * (n - j - 1))).setWidth 8) ∧
            (∀ j < n - k, Memory.byte mem (pa2 + BitVec.ofNat 32 j) =
              (s.g.req.d >>> (8 * (n - k - j - 1))).setWidth 8) ∧
            (∀ b, b ∉ bytes → Memory.byte mem b = s2.mem.byte b)) ∧
        (pa2 = pa1 + BitVec.ofNat 32 k →
          (route s.cfg pa1 n = some .mmio → exec i s = .next ((s2.mmioWrite pa1 n s.g.req.d).respond .g
            (Response.done (pairFlags t1 t2 true) 0#64 pa1))) ∧
          (route s.cfg pa1 n = none → exec i s = .next (s2.respond .g (Response.only .busError)))) ∧
        (pa2 ≠ pa1 + BitVec.ofNat 32 k → (∀ b ∈ bytes, isHole s.cfg b = false) →
          exec i s = .next ((s2.unitsWritten 1 (bytes.zip (byteValues n s.g.req.d))).respond .g
            (Response.done (pairFlags t1 t2 (bytes.any (isMmio s.cfg))) 0#64 pa1))) ∧
        ((∃ b ∈ bytes, isHole s.cfg b = true) →
          exec i s = .next (s2.respond .g (Response.only .busError)))

/-- Round trip (R246, source property E3): after a `WRITE.n` that went to RAM, every byte BAT-mapped or untranslated,
`READ.n`, `HOST_READ.n` and `HOST_TRY_READ.n` of the same address return the value written, and change no memory. -/
def Obligations.WriteThenReadRoundTrip : Prop :=
  ∀ n iw ir ih it, (n, iw) ∈ guestWrites → (n, ir) ∈ guestReads → (n, ih) ∈ hostReads .effective →
    (n, it) ∈ hostTryReads .effective →
    ∀ s t : State, configOk s.cfg = true → Memory.wf s.mem → s.bypassesPages s.g.req.a n = true →
      exec iw s = .next t → t.g.rsp.status = .ok → t.g.rsp.flags.mmio = false →
      (∃ u, exec ir t = .next u ∧ u.g.rsp.status = .ok ∧ u.g.rsp.addr = t.g.rsp.addr ∧
        u.g.rsp.data = (s.g.req.d.setWidth (8 * n)).setWidth 64 ∧ u.mem = t.mem) ∧
      (t.h.req.a = s.g.req.a → ∀ i ∈ [ih, it], ∃ u, exec i t = .next u ∧ u.h.rsp.status = .ok ∧
        u.h.rsp.data = (s.g.req.d.setWidth (8 * n)).setWidth 64 ∧ u.mem = t.mem)

/-- What `READ.n` leaves unchanged (R94, R376): everything but the response, the data cache sets of its pages,
the page-table words its translations touch, and the record of handler calls and messages. -/
def Obligations.GuestReadFrame : Prop :=
  ∀ n i, (n, i) ∈ guestReads → ∀ s t : State, Memory.wf s.mem → Sparse.WF TlbSet.empty s.dtlb →
    exec i s = .next t →
    t = { s with
          g := { s.g with rsp := t.g.rsp }
          dtlb := t.dtlb
          mem := t.mem
          handlerCalls := t.handlerCalls
          trace := t.trace } ∧
    (∀ b, b ∉ s.touchedPtes .read s.g.req.a n → t.mem.byte b = s.mem.byte b) ∧
    (∀ k, k ≠ setIndex s.cfg s.g.req.a → k ≠ setIndex s.cfg (lastByte s.g.req.a n) →
      t.tlbSet .data k = s.tlbSet .data k) ∧
    (t.g.rsp.status = .dsi → t.handlerCalls = s.handlerCalls)

/-- What `WRITE.n` leaves unchanged (R241, R376): as for a read, with the target bytes; and when it does not end
`OK` no byte of memory outside the page-table words its translations touch has changed. -/
def Obligations.GuestWriteFrame : Prop :=
  ∀ n i, (n, i) ∈ guestWrites → ∀ s t : State, Memory.wf s.mem → Sparse.WF TlbSet.empty s.dtlb →
    exec i s = .next t →
    t = { s with
          g := { s.g with rsp := t.g.rsp }
          dtlb := t.dtlb
          mem := t.mem
          handlerCalls := t.handlerCalls
          trace := t.trace } ∧
    (∀ b, b ∉ s.touchedPtes .write s.g.req.a n → b ∉ s.targets .write s.g.req.a n →
      t.mem.byte b = s.mem.byte b) ∧
    (∀ k, k ≠ setIndex s.cfg s.g.req.a → k ≠ setIndex s.cfg (lastByte s.g.req.a n) →
      t.tlbSet .data k = s.tlbSet .data k) ∧
    (t.g.rsp.status ≠ .ok →
      (∀ b, b ∉ s.touchedPtes .write s.g.req.a n → t.mem.byte b = s.mem.byte b) ∧
      t.handlerCalls = s.handlerCalls)

/-- `READ_OPCODE` and `TRY_READ_INST` of a word-aligned address that translates (R250 to R252): the word at the
fetch address from RAM of one region, else `BUS_ERROR`. -/
def Obligations.FetchReadsRamOnly : Prop :=
  ∀ i ∈ [Instr.readOpcode, Instr.tryReadInst], ∀ (s s1 : State) (t : Translation) (pa : Word),
    s.g.req.a.extractLsb' 0 2 = 0#2 → s.translate .opcode s.g.req.a false = (t, s1) →
    t.address = some pa →
    (inOne s.cfg.ramRegions pa 4 = true → exec i s = .next (s1.respond .g
      (Response.done t.flags (((Memory.readBE s1.mem pa 4).setWidth 32).setWidth 64) pa))) ∧
    (inOne s.cfg.ramRegions pa 4 = false → exec i s = .next (s1.respond .g (Response.only .busError)))

/-- Where a fetch stops (R250 to R252): a failed translation is one ISI of `READ_OPCODE` and `ABSENT`, with no
message, of `TRY_READ_INST`; a misaligned address aborts either. -/
def Obligations.FetchFailures : Prop :=
  ∀ (s : State),
    (∀ (s1 : State) (t : Translation) (c : FaultCause), s.g.req.a.extractLsb' 0 2 = 0#2 →
      s.translate .opcode s.g.req.a false = (t, s1) → t.faultCause = some c →
      exec .readOpcode s = .next (s1.raise .g ⟨.isi, false, c, s.g.req.a⟩) ∧
      exec .tryReadInst s = .next (s1.respond .g (Response.only .absent))) ∧
    (s.g.req.a.extractLsb' 0 2 ≠ 0#2 →
      exec .readOpcode s = .next (s.abort .g .misalignedFetch) ∧
      exec .tryReadInst s = .next (s.abort .g .misalignedFetch))

/-! ### Cache lines and DMA (`43_cacheline_dma.md`) -/

/-- `DCL_CLEAR` (R281): the 32 bytes of the line become 0 and no other byte changes; outside RAM of one region
`BUS_ERROR` and nothing written; one DSI, with the operand as given, when the translation fails.  That `BUS_ERROR`
carries the line's `ADDR`, which R280 sets, and no flag, though R280 sets them too, because R128 clears them, is the
model's reading (log entry 7). -/
def Obligations.DclClearZeroesTheLine : Prop :=
  decode 0x20000000#32 = .ok .dclClear ∧
  ∀ (s s1 : State) (t : Translation), configOk s.cfg = true → Memory.wf s.mem →
    s.translate .write (s.g.req.a &&& 0xFFFFFFE0#32) false = (t, s1) →
    (∀ c, t.faultCause = some c → exec .dclClear s = .next (s1.raise .g ⟨.dsi, true, c, s.g.req.a⟩)) ∧
    ∀ pa, t.address = some pa → pa.extractLsb' 0 5 = 0#5 ∧
      (inOne s.cfg.ramRegions pa 32 = true → ∃ mem, exec .dclClear s = .next
          ((s1.withMem mem).respond .g (Response.done t.flags 0#64 pa)) ∧
        (∀ j < 32, Memory.byte mem (pa + BitVec.ofNat 32 j) = 0#8) ∧
        (∀ b, b ∉ byteRun pa 32 → Memory.byte mem b = s1.mem.byte b)) ∧
      (inOne s.cfg.ramRegions pa 32 = false →
        exec .dclClear s = .next
          (s1.respond .g { Response.done Flags.none 0#64 pa with status := .busError }))

/-- `DCL_STORE`, `DCL_INVALIDATE`, `DCL_FLUSH` (R282 to R284): no byte moves; what a `Write`-mode translation of the
line changes is all that changes; one DSI, with the operand as given, when it fails. -/
def Obligations.LineCommandsMoveNothing : Prop :=
  decode 0x24000000#32 = .ok .dclStore ∧ decode 0x28000000#32 = .ok .dclInvalidate ∧
  decode 0x2C000000#32 = .ok .dclFlush ∧
  ∀ i ∈ linePassThroughs, ∀ (s s1 : State) (t : Translation),
    s.translate .write (s.g.req.a &&& 0xFFFFFFE0#32) false = (t, s1) →
    (∀ c, t.faultCause = some c → exec i s = .next (s1.raise .g ⟨.dsi, true, c, s.g.req.a⟩)) ∧
    ∀ pa, t.address = some pa →
      exec i s = .next (s1.respond .g (Response.done t.flags 0#64 pa))

/-- `DCL_TOUCH` (R285): always `OK`, no state but the response changes, and a translation that fails is dropped. -/
def Obligations.TouchChangesNothing : Prop :=
  decode 0x30000000#32 = .ok .dclTouch ∧
  ∀ s : State,
    match (s.translate .noException (s.g.req.a &&& 0xFFFFFFE0#32) false).1.address with
    | none => exec .dclTouch s = .next (s.respond .g Response.zero)
    | some pa => exec .dclTouch s = .next (s.respond .g
        (Response.done (s.translate .noException (s.g.req.a &&& 0xFFFFFFE0#32) false).1.flags 0#64 pa))

/-- A DMA command whose blocks are all good copies them one after the other, each read whole before it is written, its
accesses to RAM or to handlers (R286 to R288).  With every access in RAM and the two ranges apart, or one and the same,
that is: the destination becomes the source as it was, and nothing else changes. -/
def Obligations.DmaCopiesEveryBlock : Prop :=
  ∀ (s : State) (n : BitVec 16) (i : Instr) (src dst : Word) (lcIsSrc : Bool),
    (i, src, dst, lcIsSrc) ∈ dmaCommands s n →
    (∀ k < n.toNat, dmaBlockOk s.cfg src dst lcIsSrc k = true) →
    exec i s = .next ((s.copiedBlocks src dst n.toNat).respond .g { Response.zero with
      len := n
      flags := { Flags.none with mmio := dmaViaHandler s.cfg src dst n.toNat } }) ∧
    (Memory.wf s.mem → dmaAllRam s.cfg src dst n.toNat = true →
    (lineAddress src = lineAddress dst ∨
      ∀ b ∈ byteRun (lineAddress src) (32 * n.toNat), b ∉ byteRun (lineAddress dst) (32 * n.toNat)) →
    ∃ mem, exec i s = .next ((s.withMem mem).respond .g { Response.zero with len := n }) ∧
      (∀ j < 32 * n.toNat, Memory.byte mem (lineAddress dst + BitVec.ofNat 32 j) =
        s.mem.byte (lineAddress src + BitVec.ofNat 32 j)) ∧
      (∀ b, b ∉ byteRun (lineAddress dst) (32 * n.toNat) → Memory.byte mem b = s.mem.byte b))

/-- A DMA command stops at its first bad block (R286): the blocks before it are copied as the shorter command
copies them, it copies nothing, and `LEN` counts the blocks done; a count of 0 copies nothing and is `OK`.  That
`BUS_ERROR` carries no `mmio` flag, though R286 sets it, because R128 clears it, is the model's reading (log entry 8). -/
def Obligations.DmaStopsAtBadBlock : Prop :=
  ∀ (s : State) (n k : BitVec 16) (i ik : Instr) (src dst : Word) (lcIsSrc : Bool),
    (i, src, dst, lcIsSrc) ∈ dmaCommands s n → (ik, src, dst, lcIsSrc) ∈ dmaCommands s k →
    (n = 0#16 → exec i s = .next (s.respond .g Response.zero)) ∧
    (k < n → (∀ j < k.toNat, dmaBlockOk s.cfg src dst lcIsSrc j = true) →
      dmaBlockOk s.cfg src dst lcIsSrc k.toNat = false →
      ∃ u, exec ik s = .next u ∧ u.g.rsp.status = .ok ∧ u.g.rsp.len = k ∧
        exec i s = .next (u.respond .g { Response.only .busError with len := k }))

/-! ### The host surface (`44_host_jit.md` R310 to R331) -/

/-- The requested address space of a host command (R122, R310): what each of the three does, and that the reserved
code aborts every command that has the field. -/
def Obligations.HostSpaces : Prop :=
  (∀ (m : Mode) (a : Word) (s : State),
    hostTranslator .physical m a s = (.untranslated a, s) ∧
    hostTranslator .effective m a s = s.translate m a false ∧
    (s.translationOn m.side = false → hostTranslator .virtual m a s = (.failVirtualOnly, s)) ∧
    (s.translationOn m.side = true → hostTranslator .virtual m a s = s.translate m a false)) ∧
  ∀ (s : State) (i : Instr), i.wellFormed = false → i.port = .h ∧ exec i s = .next (s.abort .h .badSpace)

/-- `HOST_READ.n` and `HOST_TRY_READ.n` within one page (R310, R312 to R319): the value from RAM; a handler call of
`HOST_READ` only; `ABSENT` for every failure; nothing but the response and the handler call changes. -/
def Obligations.HostReadWithinPage : Prop :=
  ∀ sp : Space, sp.isLegal = true → ∀ n ih it, (n, ih) ∈ hostReads sp → (n, it) ∈ hostTryReads sp →
    ∀ s : State, configOk s.cfg = true → samePage s.h.req.a (lastByte s.h.req.a n) = true →
      let t := (hostTranslator sp .noException s.h.req.a s).1
      (t.address = none → ∀ i ∈ [ih, it], exec i s = .next (s.respond .h (Response.only .absent))) ∧
      ∀ pa, t.address = some pa →
        (route s.cfg pa n = some .ram → ∀ i ∈ [ih, it], exec i s = .next (s.respond .h
          (Response.done t.flags (Memory.readBE s.mem pa n) pa))) ∧
        (route s.cfg pa n = some .mmio →
          exec ih s = .next ((s.mmioRead pa n).2.respond .h
            (Response.done { t.flags with mmio := true } (s.mmioRead pa n).1 pa)) ∧
          exec it s = .next (s.respond .h (Response.only .absent))) ∧
        (route s.cfg pa n = none → ∀ i ∈ [ih, it], exec i s =
          .next (s.respond .h (Response.only .absent)))

/-- `HOST_WRITE.n` and `HOST_TRY_WRITE.n` within one page (R310, R320 to R327): the bytes to RAM; a handler call of
`HOST_WRITE` only; `ABSENT` for every failure; a page the guest may only read is written, and no R or C bit or cache
way changes. -/
def Obligations.HostWriteWithinPage : Prop :=
  ∀ sp : Space, sp.isLegal = true → ∀ n ih it, (n, ih) ∈ hostWrites sp → (n, it) ∈ hostTryWrites sp →
    ∀ s : State, configOk s.cfg = true → Memory.wf s.mem →
      samePage s.h.req.a (lastByte s.h.req.a n) = true →
      let t := (hostTranslator sp .noException s.h.req.a s).1
      (t.address = none → ∀ i ∈ [ih, it], exec i s = .next (s.respond .h (Response.only .absent))) ∧
      ∀ pa, t.address = some pa →
        (route s.cfg pa n = some .ram → ∀ i ∈ [ih, it], ∃ mem, exec i s = .next
            ((s.withMem mem).respond .h (Response.done t.flags 0#64 pa)) ∧
          (∀ j < n, Memory.byte mem (pa + BitVec.ofNat 32 j) =
            (s.h.req.d >>> (8 * (n - j - 1))).setWidth 8) ∧
          (∀ b, b ∉ byteRun pa n → Memory.byte mem b = s.mem.byte b)) ∧
        (route s.cfg pa n = some .mmio →
          exec ih s = .next ((s.mmioWrite pa n s.h.req.d).respond .h
            (Response.done { t.flags with mmio := true } 0#64 pa)) ∧
          exec it s = .next (s.respond .h (Response.only .absent))) ∧
        (route s.cfg pa n = none → ∀ i ∈ [ih, it], exec i s =
          .next (s.respond .h (Response.only .absent)))

/-- A host access across a page boundary (R310, with R88): a failure of either page is `ABSENT` with no effect; adjacent
frames are one access, routed whole; other frames are read or written byte by byte in order, to RAM or to one handler
call each.  A `TRY` form answers `ABSENT` unless every byte is RAM; a write stores nothing when some byte is in a hole; a
read stops at the first such byte.  That `mmio` is set when some byte went to a handler is log entry 20; that the
handlers of the bytes before a hole have been called, log entry 18; that an access over the seam of two regions that
touch fails, log entry 22. -/
def Obligations.HostAccessAcrossPages : Prop :=
  ∀ sp : Space, sp.isLegal = true → ∀ n ih it iw iv, (n, ih) ∈ hostReads sp → (n, it) ∈ hostTryReads sp →
    (n, iw) ∈ hostWrites sp → (n, iv) ∈ hostTryWrites sp →
    ∀ s : State, configOk s.cfg = true → Memory.wf s.mem →
      samePage s.h.req.a (lastByte s.h.req.a n) = false →
      let second := (s.h.req.a + BitVec.ofNat 32 (n - 1)) &&& 0xFFFFF000#32
      let t1 := (hostTranslator sp .noException s.h.req.a s).1
      let t2 := (hostTranslator sp .noException second s).1
      (t1.address = none ∨ t2.address = none → ∀ i ∈ [ih, it, iw, iv],
        exec i s = .next (s.respond .h (Response.only .absent))) ∧
      ∀ pa1 pa2, t1.address = some pa1 → t2.address = some pa2 →
        let k := firstPart s.h.req.a
        let bytes := byteRun pa1 k ++ byteRun pa2 (n - k)
        (pa2 = pa1 + BitVec.ofNat 32 k →
          (route s.cfg pa1 n = some .ram → ∀ i ∈ [ih, it], exec i s = .next (s.respond .h
            (Response.done (pairFlags t1 t2 false) (Memory.readBE s.mem pa1 n) pa1))) ∧
          (route s.cfg pa1 n = some .mmio →
            exec ih s = .next ((s.mmioRead pa1 n).2.respond .h
              (Response.done (pairFlags t1 t2 true) (s.mmioRead pa1 n).1 pa1)) ∧
            exec iw s = .next ((s.mmioWrite pa1 n s.h.req.d).respond .h
              (Response.done (pairFlags t1 t2 true) 0#64 pa1)) ∧
            ∀ i ∈ [it, iv], exec i s = .next (s.respond .h (Response.only .absent))) ∧
          (route s.cfg pa1 n = none → ∀ i ∈ [ih, it, iw, iv],
            exec i s = .next (s.respond .h (Response.only .absent)))) ∧
        (pa2 ≠ pa1 + BitVec.ofNat 32 k →
          ((∀ b ∈ bytes, isRam s.cfg b = true) → ∀ i ∈ [ih, it], exec i s = .next (s.respond .h
            (Response.done (pairFlags t1 t2 false) (beValue (bytes.map s.mem.byte)) pa1))) ∧
          ((∃ b ∈ bytes, isRam s.cfg b = false) → ∀ i ∈ [it, iv],
            exec i s = .next (s.respond .h (Response.only .absent))) ∧
          ((∀ b ∈ bytes, isHole s.cfg b = false) →
            exec ih s = .next ((s.unitsRead 1 bytes).2.respond .h
              (Response.done (pairFlags t1 t2 (bytes.any (isMmio s.cfg)))
                (beValue ((s.unitsRead 1 bytes).1.map (·.setWidth 8))) pa1)) ∧
            exec iw s = .next ((s.unitsWritten 1 (bytes.zip (byteValues n s.h.req.d))).respond .h
              (Response.done (pairFlags t1 t2 (bytes.any (isMmio s.cfg))) 0#64 pa1))) ∧
          ((∃ b ∈ bytes, isHole s.cfg b = true) →
            exec iw s = .next (s.respond .h (Response.only .absent))) ∧
          ∀ pre b post, bytes = pre ++ b :: post → (∀ c ∈ pre, isHole s.cfg c = false) →
            isHole s.cfg b = true →
            exec ih s = .next ((s.unitsRead 1 pre).2.respond .h (Response.only .absent))) ∧
        ((∀ b ∈ bytes, isRam s.cfg b = true) →
          (pa2 = pa1 + BitVec.ofNat 32 k → route s.cfg pa1 n = some .ram) →
          ∀ i ∈ [iw, iv], ∃ mem, exec i s = .next
              ((s.withMem mem).respond .h (Response.done (pairFlags t1 t2 false) 0#64 pa1)) ∧
            (∀ j < k, Memory.byte mem (pa1 + BitVec.ofNat 32 j) =
              (s.h.req.d >>> (8 * (n - j - 1))).setWidth 8) ∧
            (∀ j < n - k, Memory.byte mem (pa2 + BitVec.ofNat 32 j) =
              (s.h.req.d >>> (8 * (n - k - j - 1))).setWidth 8) ∧
            (∀ b, b ∉ bytes → Memory.byte mem b = s.mem.byte b))

/-- What a host write leaves unchanged (R310, R320, R324): everything but the response, the bytes of its plan, and the
record of handler calls; on `ABSENT` nothing at all has changed. -/
def Obligations.HostWriteFrame : Prop :=
  ∀ sp : Space, sp.isLegal = true → ∀ n i, (n, i) ∈ hostWrites sp ++ hostTryWrites sp →
    ∀ s t : State, configOk s.cfg = true → Memory.wf s.mem → exec i s = .next t →
      t = { s with
            h := { s.h with rsp := t.h.rsp }
            mem := t.mem
            handlerCalls := t.handlerCalls
            trace := t.trace } ∧
      (∀ b, b ∉ s.hostTargets sp s.h.req.a n → t.mem.byte b = s.mem.byte b) ∧
      (t.h.rsp.status ≠ .ok → t = s.respond .h (Response.only .absent)) ∧
      ((n, i) ∈ hostTryWrites sp → t.handlerCalls = s.handlerCalls ∧ t.trace = s.trace)

/-- `HOST_IS_RAM` and `HOST_IS_IRAM` (R311, R328, R329): always `OK`, true exactly when the address translates on the
side, without effect, to a RAM byte; nothing but the response changes. -/
def Obligations.HostPredicatesAnswer : Prop :=
  ∀ sp : Space, sp.isLegal = true → ∀ (i : Instr) (m : Mode),
    (i, m) ∈ [(Instr.hostIsRam sp, Mode.noException), (Instr.hostIsIram sp, Mode.opcodeNoException)] →
    ∀ s : State, configOk s.cfg = true →
      exec i s = .next (s.respond .h { Response.zero with
        data :=
          match (hostTranslator sp m s.h.req.a s).1.address with
          | some pa => if isRam s.cfg pa then 1#64 else 0#64
          | none => 0#64 })

/-- `HOST_GET_STRING` and `HOST_GET_U16STRING` (R330, R331): the elements are what `HOST_TRY_READ` of the element width
returns at `A`, `A + w`, …, up to the maximum, the terminator or the first unreadable one; nothing but the response
changes.  That the terminator is a 16-bit number compared zero-extended is the model's choice (log entry 19). -/
def Obligations.HostStringReads : Prop :=
  (∀ (sp : Space) (max : BitVec 16),
    decode (0x98000000#32 ||| (sp.code.setWidth 32 <<< 22) ||| max.setWidth 32) = .ok (.hostGetString sp max) ∧
    decode (0x9C000000#32 ||| (sp.code.setWidth 32 <<< 22) ||| max.setWidth 32) = .ok (.hostGetU16String sp max)) ∧
  ∀ sp : Space, sp.isLegal = true → ∀ (max : BitVec 16) (w : Nat) (i it : Instr),
    (w, i, it) ∈ [(1, Instr.hostGetString sp max, Instr.hostTryRead8 sp),
      (2, Instr.hostGetU16String sp max, Instr.hostTryRead16 sp)] →
    ∀ s : State, configOk s.cfg = true →
      ∃ (len : Nat) (why : StringEnd) (str : Cells 16),
        exec i s = .next (s.respond .h { Response.zero with
          data := why.code, len := BitVec.ofNat 16 len, str := str }) ∧
        len ≤ max.toNat ∧
        (∀ k < len, ∃ u, exec it (s.setReq .h { s.h.req with a := s.h.req.a + BitVec.ofNat 32 (w * k) })
            = .next u ∧ u.h.rsp.status = .ok ∧
          u.h.rsp.data ≠ s.cfg.strTerminator.setWidth 64 ∧
          Sparse.get 0#16 str k = u.h.rsp.data.setWidth 16) ∧
        (∀ k, len ≤ k → Sparse.get 0#16 str k = 0#16) ∧
        (match why with
          | .maximum => len = max.toNat
          | .terminator => len < max.toNat ∧ ∃ u,
              exec it (s.setReq .h { s.h.req with a := s.h.req.a + BitVec.ofNat 32 (w * len) }) = .next u ∧
              u.h.rsp.status = .ok ∧ u.h.rsp.data = s.cfg.strTerminator.setWidth 64
          | .unreadable => len < max.toNat ∧ ∃ u,
              exec it (s.setReq .h { s.h.req with a := s.h.req.a + BitVec.ofNat 32 (w * len) }) = .next u ∧
              u.h.rsp.status = .absent)

/-! ### JIT queries (`44_host_jit.md` R340 to R350) -/

/-- `JIT_TRANSLATE` and `GET_TRANSLATED` (R340, R341): the translation of `A` on the side, reported without effect;
`ABSENT` when it fails. -/
def Obligations.TranslateQueriesAnswer : Prop :=
  decode 0x60000000#32 = .ok .jitTranslate ∧ decode 0x64000000#32 = .ok .getTranslated ∧
  Instr.jitTranslate.port = .g ∧ Instr.getTranslated.port = .g ∧
  ∀ (i : Instr) (m : Mode),
    (i, m) ∈ [(Instr.jitTranslate, Mode.opcodeNoException), (Instr.getTranslated, Mode.noException)] →
    ∀ s : State,
      match (s.translate m s.g.req.a false).1.address with
      | none => exec i s = .next (s.respond .g (Response.only .absent))
      | some pa => exec i s = .next (s.respond .g
          (Response.done (s.translate m s.g.req.a false).1.flags 0#64 pa))

/-- `OPT_RAM.n`, `OPT_MMIO.n` and `OPT_GATHER` (R342 to R350): the conditions as the pseudocode gives them, answered
without effect. -/
def Obligations.OptQueriesAnswer : Prop :=
  decode 0x70000000#32 = .ok .optGather ∧
  ∀ s : State,
    let d : Word → Word := fun a => Sparse.get 0#32 s.dbatTable (a.toNat >>> s.cfg.s)
    let pa : Word := (d s.g.req.a &&& ~~~(BitVec.ofNat 32 (2 ^ s.cfg.s - 1))) |||
      (s.g.req.a &&& BitVec.ofNat 32 (2 ^ s.cfg.s - 1))
    (∀ n i, (n, i) ∈ optRams → exec i s = .next (s.respond .g { Response.zero with
      data := if s.cpu.msrDr && (d s.g.req.a).getLsbD 1 &&
        (d (s.g.req.a + BitVec.ofNat 32 (n - 1))).getLsbD 1 then 1#64 else 0#64 })) ∧
    (∀ n i, (n, i) ∈ optMmios →
      let ok : Bool := s.cpu.msrDr && (d s.g.req.a).getLsbD 0 &&
        (pa &&& BitVec.ofNat 32 (n - 1)) == 0#32 &&
        s.cfg.mmioRanges.any fun r => inRegion r pa && inRegion r (pa + BitVec.ofNat 32 (n - 1))
      exec i s = .next (s.respond .g { Response.zero with
        data := if ok then 1#64 else 0#64
        addr := if ok then pa else 0#32
        flags := ⟨ok, ok, ok && (d s.g.req.a).getLsbD 2, ok⟩ })) ∧
    exec .optGather s = .next (s.respond .g { Response.zero with
      data := if s.cpu.msrDr && (d s.g.req.a).getLsbD 0 && pa == s.cfg.gatherPipePa then 1#64 else 0#64 })

/-- A true answer of `OPT_RAM.n` can be relied on (text common to R342 to R345): with no two RAM regions touching and the
data table that of a rebuild, `READ.n` and `WRITE.n` at that address end `OK`, through the BAT table, in RAM. -/
def Obligations.OptRamAnswerIsSound : Prop :=
  ∀ n iq ir iw, (n, iq) ∈ optRams → (n, ir) ∈ guestReads → (n, iw) ∈ guestWrites →
    ∀ s u : State, configOk s.cfg = true → ramSeparated s.cfg = true → Rebuilt s.cfg s.dbatTable →
      exec iq s = .next u → u.g.rsp.data = 1#64 →
      ∀ i ∈ [ir, iw], ∃ t, exec i s = .next t ∧ t.g.rsp.status = .ok ∧ t.g.rsp.flags.fromBat = true ∧
        t.g.rsp.flags.mmio = false ∧ t.handlerCalls = s.handlerCalls ∧ t.trace = s.trace

/-! ### The whole machine -/

/-- Every command ends in exactly one of the six outcomes, with the messages and the `FATAL` of the table of R370, and
only the commands the table lists can get each; a command sends at most one fault message (R375). -/
def Obligations.OutcomeTable : Prop :=
  ∀ (i : Instr) (s : State), ∃ (t : State) (sent : List Event), exec i s = .next t ∧
    t.trace = s.trace ++ sent ∧
    match (t.rsp i.port).status with
    | .ok => sent.filterMap Event.faultMsg = [] ∧ t.fatal = s.fatal
    | .absent => sent.filterMap Event.faultMsg = [] ∧ t.fatal = s.fatal ∧ mayBeAbsent i = true
    | .dsi => (∃ m, sent.filterMap Event.faultMsg = [m] ∧ m.kind = .dsi) ∧ t.fatal = s.fatal ∧
        mayRaiseDsi i = true
    | .isi => (∃ m, sent.filterMap Event.faultMsg = [m] ∧ m.kind = .isi ∧ m.write = false) ∧
        t.fatal = s.fatal ∧ i = .readOpcode
    | .busError => sent.filterMap Event.faultMsg = [] ∧ t.fatal = s.fatal ∧ mayBusError i = true
    | .abort => sent = [] ∧ t.fatal = true

/-- Host and JIT commands never escalate and never disturb the guest (R94, R383): a query changes nothing but its
response; no other port H command but `STATE_RESTORE` changes a table, a cache or the locator; and none of them, and no
`TRY_READ_INST` that fails, sends a fault message. -/
def Obligations.QueriesDisturbNothing : Prop :=
  (∀ (i : Instr) (s t : State), configOk s.cfg = true → isQuery i = true → i.wellFormed = true →
    exec i s = .next t →
    t = s.respond i.port (t.rsp i.port)) ∧
  (∀ (i : Instr) (s t : State), i.port = .h → i ≠ .stateRestore → exec i s = .next t →
    t.itlb = s.itlb ∧ t.dtlb = s.dtlb ∧ t.ibatTable = s.ibatTable ∧ t.dbatTable = s.dbatTable ∧
    t.ptBase = s.ptBase ∧ t.ptHashMask = s.ptHashMask) ∧
  (∀ s t : State, exec .tryReadInst s = .next t → t.g.rsp.status = .absent →
    t = s.respond .g (Response.only .absent))

/-- Only a contract violation sets `FATAL` (R384): when a step sets it, the command is illegal, on the wrong port, in the
reserved space, a misaligned fetch or a malformed snapshot, and the step changed nothing else. -/
def Obligations.OnlyViolationsAbort : Prop :=
  ∀ s t : State, step s = .next t → s.fatal = false → t.fatal = true →
    ∃ reason, t = (s.take s.livePort).abort s.livePort reason ∧
      match reason with
      | .illegalCommand => ∃ e, decode (s.req s.livePort).cmd = .error e
      | .wrongPort => ∃ i, decode (s.req s.livePort).cmd = .ok i ∧ i.port ≠ s.livePort
      | .badSpace => ∃ i, decode (s.req s.livePort).cmd = .ok i ∧ i.wellFormed = false
      | .misalignedFetch => s.g.req.a.extractLsb' 0 2 ≠ 0#2 ∧
          (decode s.g.req.cmd = .ok .readOpcode ∨ decode s.g.req.cmd = .ok .tryReadInst)
      | .badSnapshot => decode s.h.req.cmd = .ok .stateRestore ∧
          snapshotOk s.cfg s.h.req.snapIn = false

/-- What no step writes (R36, R40, R412): the configuration, the processor's registers, `cpu_parked`, and the request
registers of either port; and a command leaves the response registers of the other port as they are. -/
def Obligations.BorrowedStateIsReadOnly : Prop :=
  ∀ s t : State, step s = .next t →
    t.cfg = s.cfg ∧ t.cpu = s.cpu ∧ t.cpuParked = s.cpuParked ∧
    t.g.req = { s.g.req with pending := t.g.req.pending } ∧
    t.h.req = { s.h.req with pending := t.h.req.pending } ∧
    (s.resetRequested = false → s.livePort = .g → t.h = s.h) ∧
    (s.resetRequested = false → s.livePort = .h → t.g = s.g)

/-- The invariant holds after reset (R47). -/
def Obligations.InvariantAtReset : Prop := Inv State.reset

/-- Every step keeps the invariant: memory in canonical form and RAM only (R80), each BAT table the result of a whole
rebuild (R31), at most one valid way of a tag in a set (R33), the locator in its latched shape (R34), a response that is
not `OK` empty of flags and data, and of an address unless it is `BUS_ERROR` (R128, R374; the flags of `BUS_ERROR` and
the exception for its address are the model's reading, log entries 7 and 8).  That an abort reason is kept exactly while `FATAL` is set is the model's choice too (log
entry 9), and so are the canonical lists (log entry 17). -/
def Obligations.InvariantKeptByStep : Prop := ∀ s t : State, Inv s → step s = .next t → Inv t
end

