-- ==== Sys2Proof/Laws/Sparse.lean ====
section
/-! SUPPORT. The laws of sparse arrays: reading after each operation, and the canonical form each keeps. -/

namespace Sys2Proof.Machine

variable {α : Type}

/-! ### Reading -/

@[simp] theorem Sparse.get_nil (d : α) (a : Nat) : Sparse.get d [] a = d := rfl

theorem Sparse.get_cons (d : α) (k : Nat) (v : α) (m : Sparse α) (a : Nat) :
    Sparse.get d ((k, v) :: m) a = if k = a then v else Sparse.get d m a := rfl

/-- A key that no entry has reads as the default. -/
theorem Sparse.get_eq_default {d : α} {m : Sparse α} {a : Nat} (h : ∀ p ∈ m, p.1 ≠ a) :
    Sparse.get d m a = d := by
  induction m with
  | nil => rfl
  | cons p m ih =>
    obtain ⟨k, v⟩ := p
    rw [Sparse.get_cons, if_neg (h (k, v) (by simp))]
    exact ih fun q hq => h q (by simp [hq])

/-- A listed key of a sorted array reads as its entry. -/
theorem Sparse.get_of_mem {d : α} {m : Sparse α} (h : m.Pairwise (fun p q => p.1 < q.1))
    {k : Nat} {v : α} (hm : (k, v) ∈ m) : Sparse.get d m k = v := by
  induction m with
  | nil => cases hm
  | cons p m ih =>
    obtain ⟨k', v'⟩ := p
    rw [List.pairwise_cons] at h
    rcases List.mem_cons.1 hm with he | hm'
    · cases he; simp [Sparse.get_cons]
    · have := h.1 _ hm'
      rw [Sparse.get_cons, if_neg (by simp at this; omega)]
      exact ih h.2 hm'

/-- A value other than the default is listed. -/
theorem Sparse.mem_of_get_ne {d : α} {m : Sparse α} {a : Nat} (h : Sparse.get d m a ≠ d) :
    (a, Sparse.get d m a) ∈ m := by
  induction m with
  | nil => simp at h
  | cons p m ih =>
    obtain ⟨k, v⟩ := p
    rw [Sparse.get_cons] at h ⊢
    split at h
    · next hk => subst hk; simp
    · next hk => simp only [if_neg hk]; exact List.mem_cons_of_mem _ (ih h)

theorem Sparse.mem_keys_cons {k a : Nat} {v : α} {m : Sparse α} :
    a ∈ List.map Prod.fst ((k, v) :: m) ↔ a = k ∨ a ∈ List.map Prod.fst m := by
  rw [List.map_cons, List.mem_cons]

theorem Sparse.get_append {d : α} (m m' : Sparse α) (a : Nat) :
    Sparse.get d (m ++ m') a = if a ∈ m.map Prod.fst then Sparse.get d m a else Sparse.get d m' a := by
  induction m with
  | nil => simp
  | cons p m ih =>
    obtain ⟨k, v⟩ := p
    rw [List.cons_append, Sparse.get_cons, Sparse.get_cons, ih]
    by_cases h : k = a
    · simp [h]
    · have h' : ¬ a = k := fun e => h e.symm
      simp only [if_neg h, Sparse.mem_keys_cons, h', false_or]

variable [DecidableEq α]

theorem Sparse.WF.nil (d : α) : Sparse.WF d ([] : Sparse α) := ⟨List.Pairwise.nil, by simp⟩

theorem Sparse.WF.tail {d : α} {p : Nat × α} {m : Sparse α} (h : Sparse.WF d (p :: m)) :
    Sparse.WF d m :=
  ⟨(List.pairwise_cons.1 h.1).2, fun q hq => h.2 q (List.mem_cons_of_mem _ hq)⟩

/-- Equal readings make equal arrays: the canonical form. -/
theorem Sparse.ext {d : α} {m m' : Sparse α} (h : Sparse.WF d m) (h' : Sparse.WF d m')
    (he : ∀ a, Sparse.get d m a = Sparse.get d m' a) : m = m' := by
  induction m generalizing m' with
  | nil =>
    cases m' with
    | nil => rfl
    | cons q m' =>
      obtain ⟨k, v⟩ := q
      have := he k
      rw [Sparse.get_cons] at this
      simp at this
      exact absurd this.symm (h'.2 (k, v) (by simp))
  | cons p m ih =>
    obtain ⟨k, v⟩ := p
    have hv : v ≠ d := h.2 (k, v) (by simp)
    have hp := List.pairwise_cons.1 h.1
    cases m' with
    | nil =>
      have := he k
      rw [Sparse.get_cons] at this
      simp at this
      exact absurd this hv
    | cons q m' =>
      obtain ⟨k', v'⟩ := q
      have hv' : v' ≠ d := h'.2 (k', v') (by simp)
      have hq := List.pairwise_cons.1 h'.1
      have key : k = k' := by
        rcases Nat.lt_trichotomy k k' with hlt | heq | hgt
        · have e := he k
          rw [Sparse.get_cons, if_pos rfl, Sparse.get_cons, if_neg (by omega)] at e
          rw [Sparse.get_eq_default (fun r hr => by have := hq.1 r hr; simp at this; omega)] at e
          exact absurd e hv
        · exact heq
        · have e := he k'
          rw [Sparse.get_cons, if_neg (by omega), Sparse.get_cons, if_pos rfl] at e
          rw [Sparse.get_eq_default (fun r hr => by have := hp.1 r hr; simp at this; omega)] at e
          exact absurd e.symm hv'
      subst key
      have ev : v = v' := by have := he k; rwa [Sparse.get_cons, if_pos rfl, Sparse.get_cons, if_pos rfl] at this
      subst ev
      congr 1
      refine ih h.tail h'.tail fun a => ?_
      by_cases ha : k = a
      · subst ha
        rw [Sparse.get_eq_default fun r hr => by have := hp.1 r hr; simp at this; omega,
          Sparse.get_eq_default fun r hr => by have := hq.1 r hr; simp at this; omega]
      · have := he a
        rwa [Sparse.get_cons, if_neg ha, Sparse.get_cons, if_neg ha] at this

/-! ### `set` -/

theorem Sparse.mem_set {d : α} {m : Sparse α} {k : Nat} {v : α} {p : Nat × α}
    (h : p ∈ Sparse.set d m k v) : p = (k, v) ∧ v ≠ d ∨ p ∈ m := by
  induction m with
  | nil =>
    unfold Sparse.set at h
    split at h
    · cases h
    · next hv => exact .inl ⟨by simpa using h, hv⟩
  | cons q m ih =>
    obtain ⟨k', x⟩ := q
    unfold Sparse.set at h
    split at h
    · split at h
      · exact .inr h
      · next hv =>
        rcases List.mem_cons.1 h with e | h
        · exact .inl ⟨e, hv⟩
        · exact .inr h
    · split at h
      · split at h
        · exact .inr (List.mem_cons_of_mem _ h)
        · next hv =>
          rcases List.mem_cons.1 h with e | h
          · exact .inl ⟨e, hv⟩
          · exact .inr (List.mem_cons_of_mem _ h)
      · rcases List.mem_cons.1 h with e | h
        · exact .inr (by simp [e])
        · rcases ih h with h | h
          · exact .inl h
          · exact .inr (List.mem_cons_of_mem _ h)

/-- Writing keeps the canonical form. -/
theorem Sparse.set_wf {d : α} {m : Sparse α} (h : Sparse.WF d m) (k : Nat) (v : α) :
    Sparse.WF d (Sparse.set d m k v) := by
  refine ⟨?_, fun p hp => ?_⟩
  · induction m with
    | nil => unfold Sparse.set; split <;> simp
    | cons q m ih =>
      obtain ⟨k', x⟩ := q
      have hp := List.pairwise_cons.1 h.1
      unfold Sparse.set
      split
      · split
        · exact h.1
        · next hlt _ =>
          refine List.pairwise_cons.2 ⟨fun r hr => ?_, h.1⟩
          rcases List.mem_cons.1 hr with e | hr
          · subst e; exact hlt
          · have := hp.1 r hr; simp at this ⊢; omega
      · split
        · next hk =>
          split
          · exact hp.2
          · subst hk; exact List.pairwise_cons.2 ⟨hp.1, hp.2⟩
        · next hlt hne =>
          refine List.pairwise_cons.2 ⟨fun r hr => ?_, ih h.tail⟩
          rcases Sparse.mem_set hr with ⟨e, _⟩ | hr
          · subst e; simp; omega
          · exact hp.1 r hr
  · rcases Sparse.mem_set hp with ⟨e, hv⟩ | hp
    · subst e; exact hv
    · exact h.2 p hp

/-- Reading after writing. -/
theorem Sparse.get_set {d : α} {m : Sparse α} (h : Sparse.WF d m) (k : Nat) (v : α) (a : Nat) :
    Sparse.get d (Sparse.set d m k v) a = if a = k then v else Sparse.get d m a := by
  induction m with
  | nil =>
    unfold Sparse.set
    split
    · next hv => simp [hv]
    · rw [Sparse.get_cons]; simp only [Sparse.get_nil]; grind
  | cons q m ih =>
    obtain ⟨k', x⟩ := q
    have hp := List.pairwise_cons.1 h.1
    have out : ∀ b, b ≤ k' → Sparse.get d m b = d := fun b hb =>
      Sparse.get_eq_default fun r hr => by have := hp.1 r hr; simp at this; omega
    unfold Sparse.set
    split
    · next hlt =>
      split
      · next hv =>
        rw [Sparse.get_cons]
        by_cases ha : a = k
        · subst ha; rw [if_neg (by omega), out a (by omega), if_pos rfl, hv]
        · rw [if_neg ha]
      · rw [Sparse.get_cons]; grind
    · next hlt =>
      split
      · next hk =>
        subst hk
        split
        · next hv =>
          by_cases ha : a = k
          · subst ha; rw [if_pos rfl, out a (by omega), hv]
          · rw [if_neg ha, Sparse.get_cons, if_neg (fun e => ha e.symm)]
        · rw [Sparse.get_cons, Sparse.get_cons]; grind
      · next hne =>
        rw [Sparse.get_cons, Sparse.get_cons, ih h.tail]
        grind

/-! ### `mapValues` -/

theorem Sparse.mapValues_wf {d : α} {m : Sparse α} (h : Sparse.WF d m) (f : α → α) :
    Sparse.WF d (Sparse.mapValues d f m) := by
  refine ⟨List.Pairwise.filter _ (List.pairwise_map.2 (h.1.imp fun hpq => hpq)), fun p hp => ?_⟩
  simpa using (List.mem_filter.1 hp).2

theorem Sparse.get_mapValues {d : α} {m : Sparse α} (h : Sparse.WF d m) {f : α → α} (hf : f d = d)
    (a : Nat) : Sparse.get d (Sparse.mapValues d f m) a = f (Sparse.get d m a) := by
  induction m with
  | nil => simp [Sparse.mapValues, hf]
  | cons q m ih =>
    obtain ⟨k, v⟩ := q
    have hp := List.pairwise_cons.1 h.1
    have ih := ih h.tail
    unfold Sparse.mapValues at ih ⊢
    rw [List.map_cons, List.filter_cons, Sparse.get_cons]
    split
    · rw [Sparse.get_cons, ih]; split <;> rfl
    · next hv =>
      simp at hv
      rw [ih]
      split
      · next hk =>
        subst hk
        rw [Sparse.get_eq_default fun r hr => by have := hp.1 r hr; simp at this; omega, hf, hv]
      · rfl

/-! ### `ofFun` and `ofListFrom` -/

theorem Sparse.ofFun_wf (d : α) (n : Nat) (f : Nat → α) : Sparse.WF d (Sparse.ofFun d n f) := by
  refine ⟨List.Pairwise.filter _ (List.pairwise_map.2 ?_), fun p hp => ?_⟩
  · exact List.pairwise_lt_range.imp fun h => h
  · simpa using (List.mem_filter.1 hp).2

theorem Sparse.mem_ofFun {d : α} {n : Nat} {f : Nat → α} {p : Nat × α} :
    p ∈ Sparse.ofFun d n f ↔ p.1 < n ∧ p.2 = f p.1 ∧ p.2 ≠ d := by
  obtain ⟨k, v⟩ := p
  simp only [Sparse.ofFun, List.mem_filter, List.mem_map, List.mem_range]
  constructor
  · rintro ⟨⟨i, hi, he⟩, hv⟩; cases he; exact ⟨hi, rfl, by simpa using hv⟩
  · rintro ⟨hk, hv, hd⟩; exact ⟨⟨k, hk, congrArg (Prod.mk k) hv.symm⟩, by simpa using hd⟩

theorem Sparse.get_ofFun (d : α) (n : Nat) (f : Nat → α) (a : Nat) :
    Sparse.get d (Sparse.ofFun d n f) a = if a < n then f a else d := by
  by_cases h : a < n ∧ f a ≠ d
  · rw [if_pos h.1]
    exact Sparse.get_of_mem (Sparse.ofFun_wf d n f).1 (Sparse.mem_ofFun.2 ⟨h.1, rfl, h.2⟩)
  · rw [Sparse.get_eq_default]
    · split
      · next ha => by_contra hc; exact h ⟨ha, fun e => hc e.symm⟩
      · rfl
    · rintro ⟨k, v⟩ hp rfl
      obtain ⟨h1, h2, h3⟩ := Sparse.mem_ofFun.1 hp
      exact h ⟨h1, h2 ▸ h3⟩

theorem Sparse.mem_ofListFrom {d : α} {vs : List α} {k : Nat} {p : Nat × α}
    (h : p ∈ Sparse.ofListFrom d k vs) : k ≤ p.1 ∧ p.1 < k + vs.length ∧ p.2 ≠ d := by
  induction vs generalizing k with
  | nil => cases h
  | cons v vs ih =>
    unfold Sparse.ofListFrom at h
    split at h
    · obtain ⟨h1, h2, h3⟩ := ih h
      exact ⟨by omega, by simp; omega, h3⟩
    · next hv =>
      rcases List.mem_cons.1 h with e | h
      · subst e; exact ⟨Nat.le_refl _, by simp, hv⟩
      · obtain ⟨h1, h2, h3⟩ := ih h
        exact ⟨by omega, by simp; omega, h3⟩

theorem Sparse.ofListFrom_wf (d : α) (k : Nat) (vs : List α) : Sparse.WF d (Sparse.ofListFrom d k vs) := by
  refine ⟨?_, fun p hp => (Sparse.mem_ofListFrom hp).2.2⟩
  induction vs generalizing k with
  | nil => exact List.Pairwise.nil
  | cons v vs ih =>
    unfold Sparse.ofListFrom
    split
    · exact ih _
    · refine List.pairwise_cons.2 ⟨fun p hp => ?_, ih _⟩
      have := (Sparse.mem_ofListFrom hp).1
      simp; omega

theorem Sparse.get_ofListFrom (d : α) (k : Nat) (vs : List α) (a : Nat) :
    Sparse.get d (Sparse.ofListFrom d k vs) a =
      if k ≤ a then vs.getD (a - k) d else d := by
  induction vs generalizing k with
  | nil => simp [Sparse.ofListFrom]
  | cons v vs ih =>
    unfold Sparse.ofListFrom
    split
    · next hv =>
      rw [ih]
      by_cases h1 : k = a
      · subst h1; rw [if_neg (by omega)]; simp [hv]
      · by_cases h2 : k + 1 ≤ a
        · rw [if_pos h2, if_pos (by omega)]
          obtain ⟨j, rfl⟩ : ∃ j, a = k + 1 + j := ⟨a - (k + 1), by omega⟩
          simp [show k + 1 + j - k = j + 1 by omega]
        · rw [if_neg h2, if_neg (by omega)]
    · rw [Sparse.get_cons, ih]
      by_cases h1 : k = a
      · subst h1; simp
      · rw [if_neg h1]
        by_cases h2 : k + 1 ≤ a
        · rw [if_pos h2, if_pos (by omega)]
          obtain ⟨j, rfl⟩ : ∃ j, a = k + 1 + j := ⟨a - (k + 1), by omega⟩
          simp [show k + 1 + j - k = j + 1 by omega]
        · rw [if_neg h2, if_neg (by omega)]

/-! ### `overlay` -/

omit [DecidableEq α] in
theorem Sparse.mem_overlay {new old : Sparse α} {p : Nat × α} (h : p ∈ Sparse.overlay new old) :
    p ∈ new ∨ p ∈ old := by
  induction new generalizing old with
  | nil => exact .inr h
  | cons q new ih =>
    obtain ⟨k, v⟩ := q
    unfold Sparse.overlay at h
    rcases List.mem_append.1 h with h | h
    · exact .inr ((List.takeWhile_sublist _).subset h)
    · rcases List.mem_cons.1 h with e | h
      · exact .inl (by simp [e])
      · rcases ih h with h | h
        · exact .inl (List.mem_cons_of_mem _ h)
        · exact .inr ((List.dropWhile_sublist _).subset h)

omit [DecidableEq α] in
theorem Sparse.lt_of_mem_dropWhile {k : Nat} {old : Sparse α}
    (ho : old.Pairwise (fun p q => p.1 < q.1)) {p : Nat × α}
    (h : p ∈ old.dropWhile (fun p => p.1 ≤ k)) : k < p.1 := by
  induction old with
  | nil => cases h
  | cons q old ih =>
    have hp := List.pairwise_cons.1 ho
    rw [List.dropWhile_cons] at h
    split at h
    · exact ih hp.2 h
    · next hq =>
      simp at hq
      rcases List.mem_cons.1 h with e | h
      · rw [e]; exact hq
      · have := hp.1 p h; omega

omit [DecidableEq α] in
theorem Sparse.lt_of_mem_takeWhile {k : Nat} {old : Sparse α} {p : Nat × α}
    (h : p ∈ old.takeWhile (fun p => p.1 < k)) : p.1 < k := by
  have := List.mem_takeWhile_imp h
  simpa using this

omit [DecidableEq α] in
theorem Sparse.overlay_sorted {new old : Sparse α} (hn : new.Pairwise (fun p q => p.1 < q.1))
    (ho : old.Pairwise (fun p q => p.1 < q.1)) :
    (Sparse.overlay new old).Pairwise (fun p q => p.1 < q.1) := by
  induction new generalizing old with
  | nil => exact ho
  | cons q new ih =>
    obtain ⟨k, v⟩ := q
    have hp := List.pairwise_cons.1 hn
    have above : ∀ p ∈ Sparse.overlay new (old.dropWhile (fun p => p.1 ≤ k)), k < p.1 := by
      intro p h
      rcases Sparse.mem_overlay h with h | h
      · exact hp.1 p h
      · exact Sparse.lt_of_mem_dropWhile ho h
    unfold Sparse.overlay
    refine List.pairwise_append.2 ⟨ho.sublist (List.takeWhile_sublist _), ?_, ?_⟩
    · exact List.pairwise_cons.2 ⟨above, ih hp.2 (ho.sublist (List.dropWhile_sublist _))⟩
    · intro a ha b hb
      have h1 := Sparse.lt_of_mem_takeWhile ha
      rcases List.mem_cons.1 hb with e | hb
      · subst e; exact h1
      · have := above b hb; omega

theorem Sparse.overlay_wf {d : α} {new old : Sparse α} (hn : Sparse.WF d new) (ho : Sparse.WF d old) :
    Sparse.WF d (Sparse.overlay new old) :=
  ⟨Sparse.overlay_sorted hn.1 ho.1, fun p hp =>
    (Sparse.mem_overlay hp).elim (fun h => hn.2 p h) (fun h => ho.2 p h)⟩

omit [DecidableEq α] in
theorem Sparse.get_dropWhile {d : α} {k : Nat} {old : Sparse α}
    (ho : old.Pairwise (fun p q => p.1 < q.1)) {a : Nat} (h : k < a) :
    Sparse.get d (old.dropWhile (fun p => p.1 ≤ k)) a = Sparse.get d old a := by
  induction old with
  | nil => rfl
  | cons q old ih =>
    obtain ⟨k', v'⟩ := q
    rw [List.dropWhile_cons]
    split
    · next hk =>
      simp at hk
      rw [ih (List.pairwise_cons.1 ho).2, Sparse.get_cons, if_neg (by omega)]
    · rfl

omit [DecidableEq α] in
theorem Sparse.get_takeWhile {d : α} {k : Nat} {old : Sparse α}
    (ho : old.Pairwise (fun p q => p.1 < q.1)) {a : Nat} (h : a < k) :
    Sparse.get d (old.takeWhile (fun p => p.1 < k)) a = Sparse.get d old a := by
  induction old with
  | nil => rfl
  | cons q old ih =>
    obtain ⟨k', v'⟩ := q
    have hp := List.pairwise_cons.1 ho
    rw [List.takeWhile_cons]
    split
    · rw [Sparse.get_cons, Sparse.get_cons, ih hp.2]
    · next hk =>
      simp at hk
      rw [Sparse.get_nil, Sparse.get_cons, if_neg (by omega), Sparse.get_eq_default]
      intro r hr
      have := hp.1 r hr
      simp at this
      omega

omit [DecidableEq α] in
/-- Reading an overlay: the new array where it lists the key, else the old one. -/
theorem Sparse.get_overlay {d : α} {new old : Sparse α} (hn : new.Pairwise (fun p q => p.1 < q.1))
    (ho : old.Pairwise (fun p q => p.1 < q.1)) (a : Nat) :
    Sparse.get d (Sparse.overlay new old) a =
      if a ∈ new.map Prod.fst then Sparse.get d new a else Sparse.get d old a := by
  induction new generalizing old with
  | nil => simp [Sparse.overlay]
  | cons q new ih =>
    obtain ⟨k, v⟩ := q
    have hp := List.pairwise_cons.1 hn
    have ih := ih hp.2 (ho.sublist (List.dropWhile_sublist (p := fun p => decide (p.1 ≤ k))))
    have notnew : ∀ b, b ≤ k → b ∉ new.map Prod.fst := by
      intro b hb hm
      obtain ⟨r, hr, rfl⟩ := List.mem_map.1 hm
      have := hp.1 r hr
      simp at this
      omega
    unfold Sparse.overlay
    rw [Sparse.get_append]
    rcases Nat.lt_trichotomy a k with hlt | heq | hgt
    · have hk : ¬ a = k := by omega
      have hk' : ¬ k = a := by omega
      have hnn : a ∉ new.map Prod.fst := notnew a (by omega)
      have e1 : ¬ a ∈ List.map Prod.fst ((k, v) :: new) := fun h =>
        (Sparse.mem_keys_cons.1 h).elim hk hnn
      rw [if_neg e1]
      split
      · exact Sparse.get_takeWhile ho hlt
      · next hnot =>
        rw [Sparse.get_cons, if_neg hk', ih, if_neg hnn, Sparse.get_eq_default,
          ← Sparse.get_takeWhile ho hlt, Sparse.get_eq_default]
        · rintro r hr rfl; exact hnot (List.mem_map.2 ⟨r, hr, rfl⟩)
        · rintro r hr rfl
          have := Sparse.lt_of_mem_dropWhile ho hr
          omega
    · subst heq
      rw [if_neg, Sparse.get_cons, if_pos rfl, if_pos (Sparse.mem_keys_cons.2 (.inl rfl)),
        Sparse.get_cons, if_pos rfl]
      intro hm
      obtain ⟨r, hr, e⟩ := List.mem_map.1 hm
      have := Sparse.lt_of_mem_takeWhile hr
      omega
    · have hk : ¬ a = k := by omega
      have hk' : ¬ k = a := by omega
      have e2 : ¬ a ∈ List.map Prod.fst (old.takeWhile (fun p => decide (p.1 < k))) := by
        intro hm
        obtain ⟨r, hr, e⟩ := List.mem_map.1 hm
        have := Sparse.lt_of_mem_takeWhile hr
        omega
      rw [if_neg e2, Sparse.get_cons, if_neg hk', ih, Sparse.get_dropWhile ho hgt]
      simp only [Sparse.mem_keys_cons, hk, false_or, Sparse.get_cons, if_neg hk']

end Sys2Proof.Machine
end

