-- ==== Sys2Proof/Laws/Memory.lean ====
section
/-! SUPPORT. The laws of the backing store: reading after writing, what a write leaves alone, the canonical
form, and the big-endian byte order (`20_memory.md` R80, R82). -/

namespace Sys2Proof.Machine

/-! ### Byte runs -/

@[simp] theorem byteRun_length (pa : Word) (n : Nat) : (byteRun pa n).length = n := by
  simp [byteRun]

theorem mem_byteRun {pa a : Word} {n : Nat} :
    a ∈ byteRun pa n ↔ ∃ i < n, a = pa + BitVec.ofNat 32 i := by
  simp [byteRun, eq_comm]

@[simp] theorem byteRun_getElem (pa : Word) (n i : Nat) (h : i < (byteRun pa n).length) :
    (byteRun pa n)[i] = pa + BitVec.ofNat 32 i := by
  simp [byteRun]

theorem byteRun_head (pa : Word) {n : Nat} (h : 0 < n) : (byteRun pa n).headD 0#32 = pa := by
  obtain ⟨m, rfl⟩ : ∃ m, n = m + 1 := ⟨n - 1, by omega⟩
  simp [byteRun, List.range_succ_eq_map]

/-- Offsets below 2^32 give different addresses. -/
theorem add_ofNat_inj {pa : Word} {i j : Nat} (hi : i < 2 ^ 32) (hj : j < 2 ^ 32)
    (h : pa + BitVec.ofNat 32 i = pa + BitVec.ofNat 32 j) : i = j := by
  have := congrArg BitVec.toNat (BitVec.add_right_inj pa |>.1 h)
  simp only [BitVec.toNat_ofNat] at this
  omega

theorem byteRun_nodup (pa : Word) {n : Nat} (h : n ≤ 2 ^ 32) : (byteRun pa n).Nodup := by
  refine (List.nodup_map_iff_inj_on List.nodup_range).2 fun i hi j hj e => ?_
  rw [List.mem_range] at hi hj
  exact add_ofNat_inj (by omega) (by omega) e

/-! ### Bytes -/

theorem Memory.putByte_wf {m : Memory} (h : Memory.wf m) (pa : Word) (v : Byte) :
    Memory.wf (Memory.putByte m pa v) := Sparse.set_wf h _ _

theorem Memory.byte_putByte {m : Memory} (h : Memory.wf m) (pa : Word) (v : Byte) (a : Word) :
    Memory.byte (Memory.putByte m pa v) a = if a = pa then v else Memory.byte m a := by
  unfold Memory.byte Memory.putByte
  rw [Sparse.get_set h]
  simp [BitVec.toNat_inj]

/-- Every memory operation is a list of byte writes, and keeps the canonical form. -/
theorem Memory.putBytes_wf {m : Memory} (h : Memory.wf m) (ws : List (Word × Byte)) :
    Memory.wf (Memory.putBytes m ws) := by
  induction ws generalizing m with
  | nil => exact h
  | cons w ws ih => exact ih (Memory.putByte_wf h _ _)

/-- A byte that is not written keeps its value. -/
theorem Memory.byte_putBytes_of_not_mem {m : Memory} (h : Memory.wf m) {ws : List (Word × Byte)}
    {a : Word} (ha : ∀ w ∈ ws, w.1 ≠ a) : Memory.byte (Memory.putBytes m ws) a = Memory.byte m a := by
  induction ws generalizing m with
  | nil => rfl
  | cons w ws ih =>
    have := ih (Memory.putByte_wf h w.1 w.2) fun x hx => ha x (List.mem_cons_of_mem _ hx)
    unfold Memory.putBytes at this ⊢
    rw [List.foldl_cons, this, Memory.byte_putByte h, if_neg fun e => ha w (by simp) e.symm]

/-- A byte that is written once holds the value written. -/
theorem Memory.byte_putBytes_of_mem {m : Memory} (h : Memory.wf m) {ws : List (Word × Byte)}
    (hn : (ws.map Prod.fst).Nodup) {w : Word × Byte} (hw : w ∈ ws) :
    Memory.byte (Memory.putBytes m ws) w.1 = w.2 := by
  induction ws generalizing m with
  | nil => cases hw
  | cons x ws ih =>
    rw [List.map_cons, List.nodup_cons] at hn
    rcases List.mem_cons.1 hw with e | hw
    · subst e
      have := Memory.byte_putBytes_of_not_mem (Memory.putByte_wf h w.1 w.2) (ws := ws) (a := w.1)
        fun y hy e => hn.1 (List.mem_map.2 ⟨y, hy, e⟩)
      unfold Memory.putBytes at this ⊢
      rw [List.foldl_cons, this, Memory.byte_putByte h, if_pos rfl]
    · exact ih (Memory.putByte_wf h _ _) hn.2 hw

/-! ### Big-endian values (R82) -/

@[simp] theorem beBytes_length (n : Nat) (v : DWord) : (beBytes n v).length = n := by simp [beBytes]

theorem getLsbD_beAppend (acc : DWord) (b : Byte) (i : Nat) (hi : i < 64) :
    (beAppend acc b).getLsbD i = if i < 8 then b.getLsbD i else acc.getLsbD (i - 8) := by
  unfold beAppend
  simp only [BitVec.getLsbD_or, BitVec.getLsbD_shiftLeft, BitVec.getLsbD_setWidth, hi, decide_true,
    Bool.true_and]
  by_cases h : i < 8
  · simp [h]
  · simp [h, BitVec.getLsbD_of_ge b i (by omega)]

theorem getLsbD_beFold (bs : List Byte) (acc : DWord) (i : Nat) (hi : i < 64) :
    (bs.foldl beAppend acc).getLsbD i =
      if i < 8 * bs.length then (bs.getD (bs.length - 1 - i / 8) 0#8).getLsbD (i % 8)
      else acc.getLsbD (i - 8 * bs.length) := by
  induction bs generalizing acc with
  | nil => simp
  | cons b bs ih =>
    rw [List.foldl_cons, ih, List.length_cons]
    by_cases h1 : i < 8 * bs.length
    · rw [if_pos h1, if_pos (by omega)]
      have : bs.length + 1 - 1 - i / 8 = (bs.length - 1 - i / 8) + 1 := by omega
      rw [this, List.getD_cons_succ]
    · rw [if_neg h1, getLsbD_beAppend _ _ _ (by omega)]
      by_cases h2 : i < 8 * (bs.length + 1)
      · rw [if_pos h2, if_pos (by omega)]
        have : bs.length + 1 - 1 - i / 8 = 0 := by omega
        rw [this, List.getD_cons_zero]
        congr 1
        omega
      · rw [if_neg h2, if_neg (by omega)]
        congr 1

theorem getLsbD_lowBytes (n : Nat) (v : DWord) (i : Nat) (hi : i < 64) :
    (lowBytes n v).getLsbD i = (decide (i < 8 * n) && v.getLsbD i) := by
  simp [lowBytes, hi]

/-- The bytes of a value, most significant first, make up its low `8n` bits. -/
theorem beValue_beBytes (n : Nat) (v : DWord) : beValue (beBytes n v) = lowBytes n v := by
  refine BitVec.eq_of_getLsbD_eq fun i hi => ?_
  rw [getLsbD_lowBytes _ _ _ hi, beValue, getLsbD_beFold _ _ _ hi, beBytes_length]
  by_cases h : i < 8 * n
  · rw [if_pos h]
    have hlt : n - 1 - i / 8 < n := by omega
    have e : 8 * (n - 1 - (n - 1 - i / 8)) + i % 8 = i := by omega
    simp [beBytes, List.getD_eq_getElem?_getD, hlt, beByte, h, e, Nat.mod_lt]
  · rw [if_neg h]; simp [h]

theorem Memory.writeBE_wf {m : Memory} (h : Memory.wf m) (pa : Word) (n : Nat) (v : DWord) :
    Memory.wf (Memory.writeBE m pa n v) := Memory.putBytes_wf h _

theorem zip_byteRun_keys (pa : Word) (n : Nat) (v : DWord) :
    ((byteRun pa n).zip (beBytes n v)).map Prod.fst = byteRun pa n :=
  List.map_fst_zip (by simp)

/-- A write of `n` bytes leaves every other byte alone. -/
theorem Memory.byte_writeBE_of_not_mem {m : Memory} (h : Memory.wf m) {pa a : Word} {n : Nat} (v : DWord)
    (ha : a ∉ byteRun pa n) : Memory.byte (Memory.writeBE m pa n v) a = Memory.byte m a :=
  Memory.byte_putBytes_of_not_mem h fun w hw e =>
    ha (e ▸ zip_byteRun_keys pa n v ▸ List.mem_map.2 ⟨w, hw, rfl⟩)

/-- A write of `n` bytes puts byte `i` of the value at `pa + i`. -/
theorem Memory.byte_writeBE {m : Memory} (h : Memory.wf m) {pa : Word} {n i : Nat} (hn : n ≤ 8)
    (hi : i < n) (v : DWord) :
    Memory.byte (Memory.writeBE m pa n v) (pa + BitVec.ofNat 32 i) = beByte n v i := by
  have hmem : (pa + BitVec.ofNat 32 i, beByte n v i) ∈ (byteRun pa n).zip (beBytes n v) := by
    rw [List.mem_iff_getElem]
    exact ⟨i, by simpa using hi, by simp [beBytes]⟩
  exact Memory.byte_putBytes_of_mem h
    (by rw [zip_byteRun_keys]; exact byteRun_nodup pa (by omega)) hmem

/-- Reading what was written. -/
theorem Memory.readBE_writeBE {m : Memory} (h : Memory.wf m) (pa : Word) {n : Nat} (hn : n ≤ 8)
    (v : DWord) : Memory.readBE (Memory.writeBE m pa n v) pa n = lowBytes n v := by
  rw [Memory.readBE, ← beValue_beBytes n]
  congr 1
  refine List.ext_getElem (by simp) fun i h1 h2 => ?_
  simp only [List.length_map, byteRun_length] at h1
  simp only [List.getElem_map, byteRun_getElem]
  rw [Memory.byte_writeBE h hn h1]
  simp [beBytes]

/-- Reading depends on the bytes read only. -/
theorem Memory.readBE_congr {m m' : Memory} {pa : Word} {n : Nat}
    (h : ∀ a ∈ byteRun pa n, Memory.byte m a = Memory.byte m' a) :
    Memory.readBE m pa n = Memory.readBE m' pa n := by
  unfold Memory.readBE
  congr 1
  exact List.map_congr_left h

@[simp] theorem beByte_one (v : DWord) : beByte 1 v 0 = v.setWidth 8 := by simp [beByte]

@[simp] theorem lowBytes_lowBytes (n : Nat) (v : DWord) : lowBytes n (lowBytes n v) = lowBytes n v := by
  refine BitVec.eq_of_getLsbD_eq fun i hi => ?_
  rw [getLsbD_lowBytes _ _ _ hi, getLsbD_lowBytes _ _ _ hi]
  simp

/-- Only the low `8n` bits of a value are stored. -/
theorem beByte_lowBytes {n i : Nat} (hn : n ≤ 8) (hi : i < n) (v : DWord) :
    beByte n (lowBytes n v) i = beByte n v i := by
  refine BitVec.eq_of_getLsbD_eq fun j hj => ?_
  have h1 : 8 * (n - 1 - i) + j < 64 := by omega
  have h2 : 8 * (n - 1 - i) + j < 8 * n := by omega
  simp [beByte, lowBytes, hj, h1, h2]

theorem beBytes_lowBytes {n : Nat} (hn : n ≤ 8) (v : DWord) : beBytes n (lowBytes n v) = beBytes n v := by
  refine List.ext_getElem (by simp) fun i h1 _ => ?_
  simp at h1
  simp [beBytes, beByte_lowBytes hn h1]

/-- Only the low `8n` bits of the data reach memory (R36 `D`). -/
theorem Memory.writeBE_lowBytes {n : Nat} (hn : n ≤ 8) (m : Memory) (pa : Word) (v : DWord) :
    Memory.writeBE m pa n (lowBytes n v) = Memory.writeBE m pa n v := by
  rw [Memory.writeBE, Memory.writeBE, beBytes_lowBytes hn]

end Sys2Proof.Machine
end

