-- ==== Sys2Proof/Laws/Platform.lean ====
section
/-! SUPPORT. The platform predicates in terms of single bytes (`20_memory.md` R81, R84). -/

namespace Sys2Proof.Machine

/-- `regionHolds` is what R84 says: every byte of the run lies in the region. -/
theorem regionHolds_iff (r : Region) (pa : Word) {n : Nat} (h0 : 0 < n) (hn : n ≤ 2 ^ 32) :
    regionHolds r pa n = true ↔ ∀ i < n, inRegion r (pa + BitVec.ofNat 32 i) = true := by
  have step : ∀ i, i < 2 ^ 32 → (pa + BitVec.ofNat 32 i - r.base).toNat
      = ((pa - r.base).toNat + i) % 2 ^ 32 := by
    intro i hi
    have : pa + BitVec.ofNat 32 i - r.base = (pa - r.base) + BitVec.ofNat 32 i := by
      rw [BitVec.sub_eq_add_neg, BitVec.sub_eq_add_neg, BitVec.add_assoc, BitVec.add_assoc,
        BitVec.add_comm (BitVec.ofNat 32 i)]
    rw [this, BitVec.toNat_add, BitVec.toNat_ofNat, Nat.mod_eq_of_lt hi]
  have hlt := (pa - r.base).isLt
  unfold regionHolds inRegion
  simp only [Bool.or_eq_true, decide_eq_true_eq]
  constructor
  · rintro (h | h) i hi
    · rw [step i (by omega)]; omega
    · rw [step i (by omega)]; omega
  · intro h
    by_contra hc
    rw [not_or, not_le, not_le] at hc
    have h1 := h 0 h0
    rw [step 0 (by omega)] at h1
    have h2 := h (r.size - (pa - r.base).toNat) (by omega)
    rw [step _ (by omega)] at h2
    omega

theorem regionHolds_one (r : Region) (pa : Word) : regionHolds r pa 1 = inRegion r pa := by
  rw [Bool.eq_iff_iff, regionHolds_iff r pa (by omega) (by omega)]
  constructor
  · intro h; simpa using h 0 (by omega)
  · intro h i hi
    obtain rfl : i = 0 := by omega
    simpa using h

/-- One byte lies in one region of the list exactly when it lies in some region. -/
theorem inOne_ram_one (c : Config) (pa : Word) : inOne c.ramRegions pa 1 = isRam c pa := by
  simp [inOne, isRam, regionHolds_one]

theorem inOne_mmio_one (c : Config) (pa : Word) : inOne c.mmioRanges pa 1 = isMmio c pa := by
  simp [inOne, isMmio, regionHolds_one]

/-- Part of a run in one region is in that region. -/
theorem inOne_part {rs : List Region} {pa : Word} {n i k : Nat} (h : inOne rs pa n = true)
    (hn : n ≤ 2 ^ 32) (hk : 0 < k) (hik : i + k ≤ n) :
    inOne rs (pa + BitVec.ofNat 32 i) k = true := by
  obtain ⟨r, hr, h⟩ := List.any_eq_true.1 h
  refine List.any_eq_true.2 ⟨r, hr, (regionHolds_iff r _ hk (by omega)).2 fun j hj => ?_⟩
  rw [BitVec.add_assoc, ← BitVec.ofNat_add]
  exact (regionHolds_iff r pa (by omega) hn).1 h (i + j) (by omega)

/-- Every byte of a run in one RAM region is RAM. -/
theorem isRam_of_inOne {c : Config} {pa : Word} {n i : Nat} (h : inOne c.ramRegions pa n = true)
    (hn : n ≤ 2 ^ 32) (hi : i < n) : isRam c (pa + BitVec.ofNat 32 i) = true := by
  rw [← inOne_ram_one]
  exact inOne_part h hn (by omega) (by omega)

theorem route_eq_ram {c : Config} {pa : Word} {n : Nat} :
    route c pa n = some .ram ↔ inOne c.ramRegions pa n = true := by
  unfold route
  constructor
  · intro h
    split at h
    · assumption
    · split at h <;> cases h
  · intro h; rw [if_pos h]

theorem route_eq_none {c : Config} {pa : Word} {n : Nat} :
    route c pa n = none ↔ inOne c.ramRegions pa n = false ∧ inOne c.mmioRanges pa n = false := by
  unfold route
  cases inOne c.ramRegions pa n <;> cases inOne c.mmioRanges pa n <;> simp

/-- A platform on which no address is both RAM and MMIO has no ambiguous dispatch (R81). -/
theorem not_ram_and_mmio {c : Config} (h : configOk c = true) (pa : Word) :
    ¬ (isRam c pa = true ∧ isMmio c pa = true) := by
  rintro ⟨h1, h2⟩
  obtain ⟨r, hr, h1⟩ := List.any_eq_true.1 h1
  obtain ⟨q, hq, h2⟩ := List.any_eq_true.1 h2
  simp only [configOk, Bool.and_eq_true, List.all_eq_true] at h
  have hm := h.1.1.1.1.2 r hr q hq
  have s1 : r.size ≠ 0 := by rintro e; simp [inRegion, e] at h1
  have s2 : q.size ≠ 0 := by rintro e; simp [inRegion, e] at h2
  simp only [regionsMeet, inRegion, Bool.not_eq_true', Bool.and_eq_false_iff, Bool.or_eq_false_iff,
    decide_eq_false_iff_not, bne_eq_false_iff_eq, decide_eq_true_eq] at hm h1 h2
  rcases hm with (h | h) | ⟨ha, hb⟩
  · exact s1 h
  · exact s2 h
  · bv_omega

end Sys2Proof.Machine
end

