-- ==== Sys2Proof/Laws/State.lean ====
section
/-! SUPPORT. One lemma per field per named update of the state: what the update writes is in the lemmas at
the end, every other field is unchanged. -/

namespace Sys2Proof.Machine

variable (s : State)

/-! ### `respond` -/

@[simp] theorem State.respond_cfg (p : Port) (r : Response) : (s.respond p r).cfg = s.cfg := by cases p <;> rfl
@[simp] theorem State.respond_cpu (p : Port) (r : Response) : (s.respond p r).cpu = s.cpu := by cases p <;> rfl
@[simp] theorem State.respond_cpuParked (p : Port) (r : Response) : (s.respond p r).cpuParked = s.cpuParked := by cases p <;> rfl
@[simp] theorem State.respond_resetRequested (p : Port) (r : Response) : (s.respond p r).resetRequested = s.resetRequested := by cases p <;> rfl
@[simp] theorem State.respond_ibatTable (p : Port) (r : Response) : (s.respond p r).ibatTable = s.ibatTable := by cases p <;> rfl
@[simp] theorem State.respond_dbatTable (p : Port) (r : Response) : (s.respond p r).dbatTable = s.dbatTable := by cases p <;> rfl
@[simp] theorem State.respond_itlb (p : Port) (r : Response) : (s.respond p r).itlb = s.itlb := by cases p <;> rfl
@[simp] theorem State.respond_dtlb (p : Port) (r : Response) : (s.respond p r).dtlb = s.dtlb := by cases p <;> rfl
@[simp] theorem State.respond_ptBase (p : Port) (r : Response) : (s.respond p r).ptBase = s.ptBase := by cases p <;> rfl
@[simp] theorem State.respond_ptHashMask (p : Port) (r : Response) : (s.respond p r).ptHashMask = s.ptHashMask := by cases p <;> rfl
@[simp] theorem State.respond_fatal (p : Port) (r : Response) : (s.respond p r).fatal = s.fatal := by cases p <;> rfl
@[simp] theorem State.respond_abortReason (p : Port) (r : Response) : (s.respond p r).abortReason = s.abortReason := by cases p <;> rfl
@[simp] theorem State.respond_mem (p : Port) (r : Response) : (s.respond p r).mem = s.mem := by cases p <;> rfl
@[simp] theorem State.respond_handlerCalls (p : Port) (r : Response) : (s.respond p r).handlerCalls = s.handlerCalls := by cases p <;> rfl
@[simp] theorem State.respond_trace (p : Port) (r : Response) : (s.respond p r).trace = s.trace := by cases p <;> rfl

/-! ### `setReq` -/

@[simp] theorem State.setReq_cfg (p : Port) (q : Request) : (s.setReq p q).cfg = s.cfg := by cases p <;> rfl
@[simp] theorem State.setReq_cpu (p : Port) (q : Request) : (s.setReq p q).cpu = s.cpu := by cases p <;> rfl
@[simp] theorem State.setReq_cpuParked (p : Port) (q : Request) : (s.setReq p q).cpuParked = s.cpuParked := by cases p <;> rfl
@[simp] theorem State.setReq_resetRequested (p : Port) (q : Request) : (s.setReq p q).resetRequested = s.resetRequested := by cases p <;> rfl
@[simp] theorem State.setReq_ibatTable (p : Port) (q : Request) : (s.setReq p q).ibatTable = s.ibatTable := by cases p <;> rfl
@[simp] theorem State.setReq_dbatTable (p : Port) (q : Request) : (s.setReq p q).dbatTable = s.dbatTable := by cases p <;> rfl
@[simp] theorem State.setReq_itlb (p : Port) (q : Request) : (s.setReq p q).itlb = s.itlb := by cases p <;> rfl
@[simp] theorem State.setReq_dtlb (p : Port) (q : Request) : (s.setReq p q).dtlb = s.dtlb := by cases p <;> rfl
@[simp] theorem State.setReq_ptBase (p : Port) (q : Request) : (s.setReq p q).ptBase = s.ptBase := by cases p <;> rfl
@[simp] theorem State.setReq_ptHashMask (p : Port) (q : Request) : (s.setReq p q).ptHashMask = s.ptHashMask := by cases p <;> rfl
@[simp] theorem State.setReq_fatal (p : Port) (q : Request) : (s.setReq p q).fatal = s.fatal := by cases p <;> rfl
@[simp] theorem State.setReq_abortReason (p : Port) (q : Request) : (s.setReq p q).abortReason = s.abortReason := by cases p <;> rfl
@[simp] theorem State.setReq_mem (p : Port) (q : Request) : (s.setReq p q).mem = s.mem := by cases p <;> rfl
@[simp] theorem State.setReq_handlerCalls (p : Port) (q : Request) : (s.setReq p q).handlerCalls = s.handlerCalls := by cases p <;> rfl
@[simp] theorem State.setReq_trace (p : Port) (q : Request) : (s.setReq p q).trace = s.trace := by cases p <;> rfl

/-! ### `take` -/

@[simp] theorem State.take_cfg (p : Port) : (s.take p).cfg = s.cfg := by cases p <;> rfl
@[simp] theorem State.take_cpu (p : Port) : (s.take p).cpu = s.cpu := by cases p <;> rfl
@[simp] theorem State.take_cpuParked (p : Port) : (s.take p).cpuParked = s.cpuParked := by cases p <;> rfl
@[simp] theorem State.take_resetRequested (p : Port) : (s.take p).resetRequested = s.resetRequested := by cases p <;> rfl
@[simp] theorem State.take_ibatTable (p : Port) : (s.take p).ibatTable = s.ibatTable := by cases p <;> rfl
@[simp] theorem State.take_dbatTable (p : Port) : (s.take p).dbatTable = s.dbatTable := by cases p <;> rfl
@[simp] theorem State.take_itlb (p : Port) : (s.take p).itlb = s.itlb := by cases p <;> rfl
@[simp] theorem State.take_dtlb (p : Port) : (s.take p).dtlb = s.dtlb := by cases p <;> rfl
@[simp] theorem State.take_ptBase (p : Port) : (s.take p).ptBase = s.ptBase := by cases p <;> rfl
@[simp] theorem State.take_ptHashMask (p : Port) : (s.take p).ptHashMask = s.ptHashMask := by cases p <;> rfl
@[simp] theorem State.take_fatal (p : Port) : (s.take p).fatal = s.fatal := by cases p <;> rfl
@[simp] theorem State.take_abortReason (p : Port) : (s.take p).abortReason = s.abortReason := by cases p <;> rfl
@[simp] theorem State.take_mem (p : Port) : (s.take p).mem = s.mem := by cases p <;> rfl
@[simp] theorem State.take_handlerCalls (p : Port) : (s.take p).handlerCalls = s.handlerCalls := by cases p <;> rfl
@[simp] theorem State.take_trace (p : Port) : (s.take p).trace = s.trace := by cases p <;> rfl

/-! ### `withTable` -/

@[simp] theorem State.withTable_cfg (d : Side) (t : Cells 32) : (s.withTable d t).cfg = s.cfg := by cases d <;> rfl
@[simp] theorem State.withTable_cpu (d : Side) (t : Cells 32) : (s.withTable d t).cpu = s.cpu := by cases d <;> rfl
@[simp] theorem State.withTable_cpuParked (d : Side) (t : Cells 32) : (s.withTable d t).cpuParked = s.cpuParked := by cases d <;> rfl
@[simp] theorem State.withTable_resetRequested (d : Side) (t : Cells 32) : (s.withTable d t).resetRequested = s.resetRequested := by cases d <;> rfl
@[simp] theorem State.withTable_g (d : Side) (t : Cells 32) : (s.withTable d t).g = s.g := by cases d <;> rfl
@[simp] theorem State.withTable_h (d : Side) (t : Cells 32) : (s.withTable d t).h = s.h := by cases d <;> rfl
@[simp] theorem State.withTable_itlb (d : Side) (t : Cells 32) : (s.withTable d t).itlb = s.itlb := by cases d <;> rfl
@[simp] theorem State.withTable_dtlb (d : Side) (t : Cells 32) : (s.withTable d t).dtlb = s.dtlb := by cases d <;> rfl
@[simp] theorem State.withTable_ptBase (d : Side) (t : Cells 32) : (s.withTable d t).ptBase = s.ptBase := by cases d <;> rfl
@[simp] theorem State.withTable_ptHashMask (d : Side) (t : Cells 32) : (s.withTable d t).ptHashMask = s.ptHashMask := by cases d <;> rfl
@[simp] theorem State.withTable_fatal (d : Side) (t : Cells 32) : (s.withTable d t).fatal = s.fatal := by cases d <;> rfl
@[simp] theorem State.withTable_abortReason (d : Side) (t : Cells 32) : (s.withTable d t).abortReason = s.abortReason := by cases d <;> rfl
@[simp] theorem State.withTable_mem (d : Side) (t : Cells 32) : (s.withTable d t).mem = s.mem := by cases d <;> rfl
@[simp] theorem State.withTable_handlerCalls (d : Side) (t : Cells 32) : (s.withTable d t).handlerCalls = s.handlerCalls := by cases d <;> rfl
@[simp] theorem State.withTable_trace (d : Side) (t : Cells 32) : (s.withTable d t).trace = s.trace := by cases d <;> rfl

/-! ### `withTlb` -/

@[simp] theorem State.withTlb_cfg (d : Side) (t : Tlb) : (s.withTlb d t).cfg = s.cfg := by cases d <;> rfl
@[simp] theorem State.withTlb_cpu (d : Side) (t : Tlb) : (s.withTlb d t).cpu = s.cpu := by cases d <;> rfl
@[simp] theorem State.withTlb_cpuParked (d : Side) (t : Tlb) : (s.withTlb d t).cpuParked = s.cpuParked := by cases d <;> rfl
@[simp] theorem State.withTlb_resetRequested (d : Side) (t : Tlb) : (s.withTlb d t).resetRequested = s.resetRequested := by cases d <;> rfl
@[simp] theorem State.withTlb_g (d : Side) (t : Tlb) : (s.withTlb d t).g = s.g := by cases d <;> rfl
@[simp] theorem State.withTlb_h (d : Side) (t : Tlb) : (s.withTlb d t).h = s.h := by cases d <;> rfl
@[simp] theorem State.withTlb_ibatTable (d : Side) (t : Tlb) : (s.withTlb d t).ibatTable = s.ibatTable := by cases d <;> rfl
@[simp] theorem State.withTlb_dbatTable (d : Side) (t : Tlb) : (s.withTlb d t).dbatTable = s.dbatTable := by cases d <;> rfl
@[simp] theorem State.withTlb_ptBase (d : Side) (t : Tlb) : (s.withTlb d t).ptBase = s.ptBase := by cases d <;> rfl
@[simp] theorem State.withTlb_ptHashMask (d : Side) (t : Tlb) : (s.withTlb d t).ptHashMask = s.ptHashMask := by cases d <;> rfl
@[simp] theorem State.withTlb_fatal (d : Side) (t : Tlb) : (s.withTlb d t).fatal = s.fatal := by cases d <;> rfl
@[simp] theorem State.withTlb_abortReason (d : Side) (t : Tlb) : (s.withTlb d t).abortReason = s.abortReason := by cases d <;> rfl
@[simp] theorem State.withTlb_mem (d : Side) (t : Tlb) : (s.withTlb d t).mem = s.mem := by cases d <;> rfl
@[simp] theorem State.withTlb_handlerCalls (d : Side) (t : Tlb) : (s.withTlb d t).handlerCalls = s.handlerCalls := by cases d <;> rfl
@[simp] theorem State.withTlb_trace (d : Side) (t : Tlb) : (s.withTlb d t).trace = s.trace := by cases d <;> rfl

/-! ### `latchLocator` -/

@[simp] theorem State.latchLocator_cfg : s.latchLocator.cfg = s.cfg := rfl
@[simp] theorem State.latchLocator_cpu : s.latchLocator.cpu = s.cpu := rfl
@[simp] theorem State.latchLocator_cpuParked : s.latchLocator.cpuParked = s.cpuParked := rfl
@[simp] theorem State.latchLocator_resetRequested : s.latchLocator.resetRequested = s.resetRequested := rfl
@[simp] theorem State.latchLocator_g : s.latchLocator.g = s.g := rfl
@[simp] theorem State.latchLocator_h : s.latchLocator.h = s.h := rfl
@[simp] theorem State.latchLocator_ibatTable : s.latchLocator.ibatTable = s.ibatTable := rfl
@[simp] theorem State.latchLocator_dbatTable : s.latchLocator.dbatTable = s.dbatTable := rfl
@[simp] theorem State.latchLocator_itlb : s.latchLocator.itlb = s.itlb := rfl
@[simp] theorem State.latchLocator_dtlb : s.latchLocator.dtlb = s.dtlb := rfl
@[simp] theorem State.latchLocator_fatal : s.latchLocator.fatal = s.fatal := rfl
@[simp] theorem State.latchLocator_abortReason : s.latchLocator.abortReason = s.abortReason := rfl
@[simp] theorem State.latchLocator_mem : s.latchLocator.mem = s.mem := rfl
@[simp] theorem State.latchLocator_handlerCalls : s.latchLocator.handlerCalls = s.handlerCalls := rfl
@[simp] theorem State.latchLocator_trace : s.latchLocator.trace = s.trace := rfl

/-! ### `withMem` -/

@[simp] theorem State.withMem_cfg (m : Memory) : (s.withMem m).cfg = s.cfg := rfl
@[simp] theorem State.withMem_cpu (m : Memory) : (s.withMem m).cpu = s.cpu := rfl
@[simp] theorem State.withMem_cpuParked (m : Memory) : (s.withMem m).cpuParked = s.cpuParked := rfl
@[simp] theorem State.withMem_resetRequested (m : Memory) : (s.withMem m).resetRequested = s.resetRequested := rfl
@[simp] theorem State.withMem_g (m : Memory) : (s.withMem m).g = s.g := rfl
@[simp] theorem State.withMem_h (m : Memory) : (s.withMem m).h = s.h := rfl
@[simp] theorem State.withMem_ibatTable (m : Memory) : (s.withMem m).ibatTable = s.ibatTable := rfl
@[simp] theorem State.withMem_dbatTable (m : Memory) : (s.withMem m).dbatTable = s.dbatTable := rfl
@[simp] theorem State.withMem_itlb (m : Memory) : (s.withMem m).itlb = s.itlb := rfl
@[simp] theorem State.withMem_dtlb (m : Memory) : (s.withMem m).dtlb = s.dtlb := rfl
@[simp] theorem State.withMem_ptBase (m : Memory) : (s.withMem m).ptBase = s.ptBase := rfl
@[simp] theorem State.withMem_ptHashMask (m : Memory) : (s.withMem m).ptHashMask = s.ptHashMask := rfl
@[simp] theorem State.withMem_fatal (m : Memory) : (s.withMem m).fatal = s.fatal := rfl
@[simp] theorem State.withMem_abortReason (m : Memory) : (s.withMem m).abortReason = s.abortReason := rfl
@[simp] theorem State.withMem_handlerCalls (m : Memory) : (s.withMem m).handlerCalls = s.handlerCalls := rfl
@[simp] theorem State.withMem_trace (m : Memory) : (s.withMem m).trace = s.trace := rfl

/-! ### `emit` -/

@[simp] theorem State.emit_cfg (e : Event) : (s.emit e).cfg = s.cfg := rfl
@[simp] theorem State.emit_cpu (e : Event) : (s.emit e).cpu = s.cpu := rfl
@[simp] theorem State.emit_cpuParked (e : Event) : (s.emit e).cpuParked = s.cpuParked := rfl
@[simp] theorem State.emit_resetRequested (e : Event) : (s.emit e).resetRequested = s.resetRequested := rfl
@[simp] theorem State.emit_g (e : Event) : (s.emit e).g = s.g := rfl
@[simp] theorem State.emit_h (e : Event) : (s.emit e).h = s.h := rfl
@[simp] theorem State.emit_ibatTable (e : Event) : (s.emit e).ibatTable = s.ibatTable := rfl
@[simp] theorem State.emit_dbatTable (e : Event) : (s.emit e).dbatTable = s.dbatTable := rfl
@[simp] theorem State.emit_itlb (e : Event) : (s.emit e).itlb = s.itlb := rfl
@[simp] theorem State.emit_dtlb (e : Event) : (s.emit e).dtlb = s.dtlb := rfl
@[simp] theorem State.emit_ptBase (e : Event) : (s.emit e).ptBase = s.ptBase := rfl
@[simp] theorem State.emit_ptHashMask (e : Event) : (s.emit e).ptHashMask = s.ptHashMask := rfl
@[simp] theorem State.emit_fatal (e : Event) : (s.emit e).fatal = s.fatal := rfl
@[simp] theorem State.emit_abortReason (e : Event) : (s.emit e).abortReason = s.abortReason := rfl
@[simp] theorem State.emit_mem (e : Event) : (s.emit e).mem = s.mem := rfl
@[simp] theorem State.emit_handlerCalls (e : Event) : (s.emit e).handlerCalls = s.handlerCalls := rfl

/-! ### `raise` -/

@[simp] theorem State.raise_cfg (p : Port) (msg : FaultMsg) : (s.raise p msg).cfg = s.cfg := by cases p <;> rfl
@[simp] theorem State.raise_cpu (p : Port) (msg : FaultMsg) : (s.raise p msg).cpu = s.cpu := by cases p <;> rfl
@[simp] theorem State.raise_cpuParked (p : Port) (msg : FaultMsg) : (s.raise p msg).cpuParked = s.cpuParked := by cases p <;> rfl
@[simp] theorem State.raise_resetRequested (p : Port) (msg : FaultMsg) : (s.raise p msg).resetRequested = s.resetRequested := by cases p <;> rfl
@[simp] theorem State.raise_ibatTable (p : Port) (msg : FaultMsg) : (s.raise p msg).ibatTable = s.ibatTable := by cases p <;> rfl
@[simp] theorem State.raise_dbatTable (p : Port) (msg : FaultMsg) : (s.raise p msg).dbatTable = s.dbatTable := by cases p <;> rfl
@[simp] theorem State.raise_itlb (p : Port) (msg : FaultMsg) : (s.raise p msg).itlb = s.itlb := by cases p <;> rfl
@[simp] theorem State.raise_dtlb (p : Port) (msg : FaultMsg) : (s.raise p msg).dtlb = s.dtlb := by cases p <;> rfl
@[simp] theorem State.raise_ptBase (p : Port) (msg : FaultMsg) : (s.raise p msg).ptBase = s.ptBase := by cases p <;> rfl
@[simp] theorem State.raise_ptHashMask (p : Port) (msg : FaultMsg) : (s.raise p msg).ptHashMask = s.ptHashMask := by cases p <;> rfl
@[simp] theorem State.raise_fatal (p : Port) (msg : FaultMsg) : (s.raise p msg).fatal = s.fatal := by cases p <;> rfl
@[simp] theorem State.raise_abortReason (p : Port) (msg : FaultMsg) : (s.raise p msg).abortReason = s.abortReason := by cases p <;> rfl
@[simp] theorem State.raise_mem (p : Port) (msg : FaultMsg) : (s.raise p msg).mem = s.mem := by cases p <;> rfl
@[simp] theorem State.raise_handlerCalls (p : Port) (msg : FaultMsg) : (s.raise p msg).handlerCalls = s.handlerCalls := by cases p <;> rfl

/-! ### `abort` -/

@[simp] theorem State.abort_cfg (p : Port) (why : AbortReason) : (s.abort p why).cfg = s.cfg := by cases p <;> rfl
@[simp] theorem State.abort_cpu (p : Port) (why : AbortReason) : (s.abort p why).cpu = s.cpu := by cases p <;> rfl
@[simp] theorem State.abort_cpuParked (p : Port) (why : AbortReason) : (s.abort p why).cpuParked = s.cpuParked := by cases p <;> rfl
@[simp] theorem State.abort_resetRequested (p : Port) (why : AbortReason) : (s.abort p why).resetRequested = s.resetRequested := by cases p <;> rfl
@[simp] theorem State.abort_ibatTable (p : Port) (why : AbortReason) : (s.abort p why).ibatTable = s.ibatTable := by cases p <;> rfl
@[simp] theorem State.abort_dbatTable (p : Port) (why : AbortReason) : (s.abort p why).dbatTable = s.dbatTable := by cases p <;> rfl
@[simp] theorem State.abort_itlb (p : Port) (why : AbortReason) : (s.abort p why).itlb = s.itlb := by cases p <;> rfl
@[simp] theorem State.abort_dtlb (p : Port) (why : AbortReason) : (s.abort p why).dtlb = s.dtlb := by cases p <;> rfl
@[simp] theorem State.abort_ptBase (p : Port) (why : AbortReason) : (s.abort p why).ptBase = s.ptBase := by cases p <;> rfl
@[simp] theorem State.abort_ptHashMask (p : Port) (why : AbortReason) : (s.abort p why).ptHashMask = s.ptHashMask := by cases p <;> rfl
@[simp] theorem State.abort_mem (p : Port) (why : AbortReason) : (s.abort p why).mem = s.mem := by cases p <;> rfl
@[simp] theorem State.abort_handlerCalls (p : Port) (why : AbortReason) : (s.abort p why).handlerCalls = s.handlerCalls := by cases p <;> rfl
@[simp] theorem State.abort_trace (p : Port) (why : AbortReason) : (s.abort p why).trace = s.trace := by cases p <;> rfl

/-! ### `mmioWrite` -/

@[simp] theorem State.mmioWrite_cfg (pa : Word) (n : Nat) (v : DWord) : (s.mmioWrite pa n v).cfg = s.cfg := rfl
@[simp] theorem State.mmioWrite_cpu (pa : Word) (n : Nat) (v : DWord) : (s.mmioWrite pa n v).cpu = s.cpu := rfl
@[simp] theorem State.mmioWrite_cpuParked (pa : Word) (n : Nat) (v : DWord) : (s.mmioWrite pa n v).cpuParked = s.cpuParked := rfl
@[simp] theorem State.mmioWrite_resetRequested (pa : Word) (n : Nat) (v : DWord) : (s.mmioWrite pa n v).resetRequested = s.resetRequested := rfl
@[simp] theorem State.mmioWrite_g (pa : Word) (n : Nat) (v : DWord) : (s.mmioWrite pa n v).g = s.g := rfl
@[simp] theorem State.mmioWrite_h (pa : Word) (n : Nat) (v : DWord) : (s.mmioWrite pa n v).h = s.h := rfl
@[simp] theorem State.mmioWrite_ibatTable (pa : Word) (n : Nat) (v : DWord) : (s.mmioWrite pa n v).ibatTable = s.ibatTable := rfl
@[simp] theorem State.mmioWrite_dbatTable (pa : Word) (n : Nat) (v : DWord) : (s.mmioWrite pa n v).dbatTable = s.dbatTable := rfl
@[simp] theorem State.mmioWrite_itlb (pa : Word) (n : Nat) (v : DWord) : (s.mmioWrite pa n v).itlb = s.itlb := rfl
@[simp] theorem State.mmioWrite_dtlb (pa : Word) (n : Nat) (v : DWord) : (s.mmioWrite pa n v).dtlb = s.dtlb := rfl
@[simp] theorem State.mmioWrite_ptBase (pa : Word) (n : Nat) (v : DWord) : (s.mmioWrite pa n v).ptBase = s.ptBase := rfl
@[simp] theorem State.mmioWrite_ptHashMask (pa : Word) (n : Nat) (v : DWord) : (s.mmioWrite pa n v).ptHashMask = s.ptHashMask := rfl
@[simp] theorem State.mmioWrite_fatal (pa : Word) (n : Nat) (v : DWord) : (s.mmioWrite pa n v).fatal = s.fatal := rfl
@[simp] theorem State.mmioWrite_abortReason (pa : Word) (n : Nat) (v : DWord) : (s.mmioWrite pa n v).abortReason = s.abortReason := rfl
@[simp] theorem State.mmioWrite_mem (pa : Word) (n : Nat) (v : DWord) : (s.mmioWrite pa n v).mem = s.mem := rfl

/-! ### `mmioRead` -/

@[simp] theorem State.mmioRead_cfg (pa : Word) (n : Nat) : (s.mmioRead pa n).2.cfg = s.cfg := rfl
@[simp] theorem State.mmioRead_cpu (pa : Word) (n : Nat) : (s.mmioRead pa n).2.cpu = s.cpu := rfl
@[simp] theorem State.mmioRead_cpuParked (pa : Word) (n : Nat) : (s.mmioRead pa n).2.cpuParked = s.cpuParked := rfl
@[simp] theorem State.mmioRead_resetRequested (pa : Word) (n : Nat) : (s.mmioRead pa n).2.resetRequested = s.resetRequested := rfl
@[simp] theorem State.mmioRead_g (pa : Word) (n : Nat) : (s.mmioRead pa n).2.g = s.g := rfl
@[simp] theorem State.mmioRead_h (pa : Word) (n : Nat) : (s.mmioRead pa n).2.h = s.h := rfl
@[simp] theorem State.mmioRead_ibatTable (pa : Word) (n : Nat) : (s.mmioRead pa n).2.ibatTable = s.ibatTable := rfl
@[simp] theorem State.mmioRead_dbatTable (pa : Word) (n : Nat) : (s.mmioRead pa n).2.dbatTable = s.dbatTable := rfl
@[simp] theorem State.mmioRead_itlb (pa : Word) (n : Nat) : (s.mmioRead pa n).2.itlb = s.itlb := rfl
@[simp] theorem State.mmioRead_dtlb (pa : Word) (n : Nat) : (s.mmioRead pa n).2.dtlb = s.dtlb := rfl
@[simp] theorem State.mmioRead_ptBase (pa : Word) (n : Nat) : (s.mmioRead pa n).2.ptBase = s.ptBase := rfl
@[simp] theorem State.mmioRead_ptHashMask (pa : Word) (n : Nat) : (s.mmioRead pa n).2.ptHashMask = s.ptHashMask := rfl
@[simp] theorem State.mmioRead_fatal (pa : Word) (n : Nat) : (s.mmioRead pa n).2.fatal = s.fatal := rfl
@[simp] theorem State.mmioRead_abortReason (pa : Word) (n : Nat) : (s.mmioRead pa n).2.abortReason = s.abortReason := rfl
@[simp] theorem State.mmioRead_mem (pa : Word) (n : Nat) : (s.mmioRead pa n).2.mem = s.mem := rfl

/-! ### `rebuild` -/

@[simp] theorem State.rebuild_cfg (d : Side) : (s.rebuild d).cfg = s.cfg := by cases d <;> rfl
@[simp] theorem State.rebuild_cpu (d : Side) : (s.rebuild d).cpu = s.cpu := by cases d <;> rfl
@[simp] theorem State.rebuild_cpuParked (d : Side) : (s.rebuild d).cpuParked = s.cpuParked := by cases d <;> rfl
@[simp] theorem State.rebuild_resetRequested (d : Side) : (s.rebuild d).resetRequested = s.resetRequested := by cases d <;> rfl
@[simp] theorem State.rebuild_g (d : Side) : (s.rebuild d).g = s.g := by cases d <;> rfl
@[simp] theorem State.rebuild_h (d : Side) : (s.rebuild d).h = s.h := by cases d <;> rfl
@[simp] theorem State.rebuild_itlb (d : Side) : (s.rebuild d).itlb = s.itlb := by cases d <;> rfl
@[simp] theorem State.rebuild_dtlb (d : Side) : (s.rebuild d).dtlb = s.dtlb := by cases d <;> rfl
@[simp] theorem State.rebuild_ptBase (d : Side) : (s.rebuild d).ptBase = s.ptBase := by cases d <;> rfl
@[simp] theorem State.rebuild_ptHashMask (d : Side) : (s.rebuild d).ptHashMask = s.ptHashMask := by cases d <;> rfl
@[simp] theorem State.rebuild_fatal (d : Side) : (s.rebuild d).fatal = s.fatal := by cases d <;> rfl
@[simp] theorem State.rebuild_abortReason (d : Side) : (s.rebuild d).abortReason = s.abortReason := by cases d <;> rfl
@[simp] theorem State.rebuild_mem (d : Side) : (s.rebuild d).mem = s.mem := by cases d <;> rfl
@[simp] theorem State.rebuild_handlerCalls (d : Side) : (s.rebuild d).handlerCalls = s.handlerCalls := by cases d <;> rfl
@[simp] theorem State.rebuild_trace (d : Side) : (s.rebuild d).trace = s.trace := by cases d <;> rfl

/-! ### `rebuildBoth` -/

@[simp] theorem State.rebuildBoth_cfg : s.rebuildBoth.cfg = s.cfg := rfl
@[simp] theorem State.rebuildBoth_cpu : s.rebuildBoth.cpu = s.cpu := rfl
@[simp] theorem State.rebuildBoth_cpuParked : s.rebuildBoth.cpuParked = s.cpuParked := rfl
@[simp] theorem State.rebuildBoth_resetRequested : s.rebuildBoth.resetRequested = s.resetRequested := rfl
@[simp] theorem State.rebuildBoth_g : s.rebuildBoth.g = s.g := rfl
@[simp] theorem State.rebuildBoth_h : s.rebuildBoth.h = s.h := rfl
@[simp] theorem State.rebuildBoth_itlb : s.rebuildBoth.itlb = s.itlb := rfl
@[simp] theorem State.rebuildBoth_dtlb : s.rebuildBoth.dtlb = s.dtlb := rfl
@[simp] theorem State.rebuildBoth_ptBase : s.rebuildBoth.ptBase = s.ptBase := rfl
@[simp] theorem State.rebuildBoth_ptHashMask : s.rebuildBoth.ptHashMask = s.ptHashMask := rfl
@[simp] theorem State.rebuildBoth_fatal : s.rebuildBoth.fatal = s.fatal := rfl
@[simp] theorem State.rebuildBoth_abortReason : s.rebuildBoth.abortReason = s.abortReason := rfl
@[simp] theorem State.rebuildBoth_mem : s.rebuildBoth.mem = s.mem := rfl
@[simp] theorem State.rebuildBoth_handlerCalls : s.rebuildBoth.handlerCalls = s.handlerCalls := rfl
@[simp] theorem State.rebuildBoth_trace : s.rebuildBoth.trace = s.trace := rfl

/-! ### `invalidateAll` -/

@[simp] theorem State.invalidateAll_cfg : s.invalidateAll.cfg = s.cfg := rfl
@[simp] theorem State.invalidateAll_cpu : s.invalidateAll.cpu = s.cpu := rfl
@[simp] theorem State.invalidateAll_cpuParked : s.invalidateAll.cpuParked = s.cpuParked := rfl
@[simp] theorem State.invalidateAll_resetRequested : s.invalidateAll.resetRequested = s.resetRequested := rfl
@[simp] theorem State.invalidateAll_g : s.invalidateAll.g = s.g := rfl
@[simp] theorem State.invalidateAll_h : s.invalidateAll.h = s.h := rfl
@[simp] theorem State.invalidateAll_ibatTable : s.invalidateAll.ibatTable = s.ibatTable := rfl
@[simp] theorem State.invalidateAll_dbatTable : s.invalidateAll.dbatTable = s.dbatTable := rfl
@[simp] theorem State.invalidateAll_ptBase : s.invalidateAll.ptBase = s.ptBase := rfl
@[simp] theorem State.invalidateAll_ptHashMask : s.invalidateAll.ptHashMask = s.ptHashMask := rfl
@[simp] theorem State.invalidateAll_fatal : s.invalidateAll.fatal = s.fatal := rfl
@[simp] theorem State.invalidateAll_abortReason : s.invalidateAll.abortReason = s.abortReason := rfl
@[simp] theorem State.invalidateAll_mem : s.invalidateAll.mem = s.mem := rfl
@[simp] theorem State.invalidateAll_handlerCalls : s.invalidateAll.handlerCalls = s.handlerCalls := rfl
@[simp] theorem State.invalidateAll_trace : s.invalidateAll.trace = s.trace := rfl

/-! ### `invalidateSet` -/

@[simp] theorem State.invalidateSet_cfg (k : Nat) : (s.invalidateSet k).cfg = s.cfg := rfl
@[simp] theorem State.invalidateSet_cpu (k : Nat) : (s.invalidateSet k).cpu = s.cpu := rfl
@[simp] theorem State.invalidateSet_cpuParked (k : Nat) : (s.invalidateSet k).cpuParked = s.cpuParked := rfl
@[simp] theorem State.invalidateSet_resetRequested (k : Nat) : (s.invalidateSet k).resetRequested = s.resetRequested := rfl
@[simp] theorem State.invalidateSet_g (k : Nat) : (s.invalidateSet k).g = s.g := rfl
@[simp] theorem State.invalidateSet_h (k : Nat) : (s.invalidateSet k).h = s.h := rfl
@[simp] theorem State.invalidateSet_ibatTable (k : Nat) : (s.invalidateSet k).ibatTable = s.ibatTable := rfl
@[simp] theorem State.invalidateSet_dbatTable (k : Nat) : (s.invalidateSet k).dbatTable = s.dbatTable := rfl
@[simp] theorem State.invalidateSet_ptBase (k : Nat) : (s.invalidateSet k).ptBase = s.ptBase := rfl
@[simp] theorem State.invalidateSet_ptHashMask (k : Nat) : (s.invalidateSet k).ptHashMask = s.ptHashMask := rfl
@[simp] theorem State.invalidateSet_fatal (k : Nat) : (s.invalidateSet k).fatal = s.fatal := rfl
@[simp] theorem State.invalidateSet_abortReason (k : Nat) : (s.invalidateSet k).abortReason = s.abortReason := rfl
@[simp] theorem State.invalidateSet_mem (k : Nat) : (s.invalidateSet k).mem = s.mem := rfl
@[simp] theorem State.invalidateSet_handlerCalls (k : Nat) : (s.invalidateSet k).handlerCalls = s.handlerCalls := rfl
@[simp] theorem State.invalidateSet_trace (k : Nat) : (s.invalidateSet k).trace = s.trace := rfl

/-! ### `withTlbSet` -/

@[simp] theorem State.withTlbSet_cfg (d : Side) (k : Nat) (t : TlbSet) : (s.withTlbSet d k t).cfg = s.cfg := by cases d <;> rfl
@[simp] theorem State.withTlbSet_cpu (d : Side) (k : Nat) (t : TlbSet) : (s.withTlbSet d k t).cpu = s.cpu := by cases d <;> rfl
@[simp] theorem State.withTlbSet_cpuParked (d : Side) (k : Nat) (t : TlbSet) : (s.withTlbSet d k t).cpuParked = s.cpuParked := by cases d <;> rfl
@[simp] theorem State.withTlbSet_resetRequested (d : Side) (k : Nat) (t : TlbSet) : (s.withTlbSet d k t).resetRequested = s.resetRequested := by cases d <;> rfl
@[simp] theorem State.withTlbSet_g (d : Side) (k : Nat) (t : TlbSet) : (s.withTlbSet d k t).g = s.g := by cases d <;> rfl
@[simp] theorem State.withTlbSet_h (d : Side) (k : Nat) (t : TlbSet) : (s.withTlbSet d k t).h = s.h := by cases d <;> rfl
@[simp] theorem State.withTlbSet_ibatTable (d : Side) (k : Nat) (t : TlbSet) : (s.withTlbSet d k t).ibatTable = s.ibatTable := by cases d <;> rfl
@[simp] theorem State.withTlbSet_dbatTable (d : Side) (k : Nat) (t : TlbSet) : (s.withTlbSet d k t).dbatTable = s.dbatTable := by cases d <;> rfl
@[simp] theorem State.withTlbSet_ptBase (d : Side) (k : Nat) (t : TlbSet) : (s.withTlbSet d k t).ptBase = s.ptBase := by cases d <;> rfl
@[simp] theorem State.withTlbSet_ptHashMask (d : Side) (k : Nat) (t : TlbSet) : (s.withTlbSet d k t).ptHashMask = s.ptHashMask := by cases d <;> rfl
@[simp] theorem State.withTlbSet_fatal (d : Side) (k : Nat) (t : TlbSet) : (s.withTlbSet d k t).fatal = s.fatal := by cases d <;> rfl
@[simp] theorem State.withTlbSet_abortReason (d : Side) (k : Nat) (t : TlbSet) : (s.withTlbSet d k t).abortReason = s.abortReason := by cases d <;> rfl
@[simp] theorem State.withTlbSet_mem (d : Side) (k : Nat) (t : TlbSet) : (s.withTlbSet d k t).mem = s.mem := by cases d <;> rfl
@[simp] theorem State.withTlbSet_handlerCalls (d : Side) (k : Nat) (t : TlbSet) : (s.withTlbSet d k t).handlerCalls = s.handlerCalls := by cases d <;> rfl
@[simp] theorem State.withTlbSet_trace (d : Side) (k : Nat) (t : TlbSet) : (s.withTlbSet d k t).trace = s.trace := by cases d <;> rfl

/-! ### `loadCaches` -/

@[simp] theorem State.loadCaches_cfg (snap : Cells 32) : (s.loadCaches snap).cfg = s.cfg := rfl
@[simp] theorem State.loadCaches_cpu (snap : Cells 32) : (s.loadCaches snap).cpu = s.cpu := rfl
@[simp] theorem State.loadCaches_cpuParked (snap : Cells 32) : (s.loadCaches snap).cpuParked = s.cpuParked := rfl
@[simp] theorem State.loadCaches_resetRequested (snap : Cells 32) : (s.loadCaches snap).resetRequested = s.resetRequested := rfl
@[simp] theorem State.loadCaches_g (snap : Cells 32) : (s.loadCaches snap).g = s.g := rfl
@[simp] theorem State.loadCaches_h (snap : Cells 32) : (s.loadCaches snap).h = s.h := rfl
@[simp] theorem State.loadCaches_ibatTable (snap : Cells 32) : (s.loadCaches snap).ibatTable = s.ibatTable := rfl
@[simp] theorem State.loadCaches_dbatTable (snap : Cells 32) : (s.loadCaches snap).dbatTable = s.dbatTable := rfl
@[simp] theorem State.loadCaches_ptBase (snap : Cells 32) : (s.loadCaches snap).ptBase = s.ptBase := rfl
@[simp] theorem State.loadCaches_ptHashMask (snap : Cells 32) : (s.loadCaches snap).ptHashMask = s.ptHashMask := rfl
@[simp] theorem State.loadCaches_fatal (snap : Cells 32) : (s.loadCaches snap).fatal = s.fatal := rfl
@[simp] theorem State.loadCaches_abortReason (snap : Cells 32) : (s.loadCaches snap).abortReason = s.abortReason := rfl
@[simp] theorem State.loadCaches_mem (snap : Cells 32) : (s.loadCaches snap).mem = s.mem := rfl
@[simp] theorem State.loadCaches_handlerCalls (snap : Cells 32) : (s.loadCaches snap).handlerCalls = s.handlerCalls := rfl
@[simp] theorem State.loadCaches_trace (snap : Cells 32) : (s.loadCaches snap).trace = s.trace := rfl

/-! ### What the updates write -/

@[simp] theorem State.respond_rsp (p : Port) (r : Response) : (s.respond p r).rsp p = r := by
  cases p <;> rfl

@[simp] theorem State.respond_req (p q : Port) (r : Response) : (s.respond p r).req q = s.req q := by
  cases p <;> cases q <;> rfl

theorem State.respond_rsp_other {p q : Port} (h : q ≠ p) (r : Response) :
    (s.respond p r).rsp q = s.rsp q := by
  cases p <;> cases q <;> first | rfl | exact absurd rfl h

@[simp] theorem State.setReq_req (p : Port) (q : Request) : (s.setReq p q).req p = q := by
  cases p <;> rfl

@[simp] theorem State.setReq_rsp (p r : Port) (q : Request) : (s.setReq p q).rsp r = s.rsp r := by
  cases p <;> cases r <;> rfl

theorem State.setReq_req_other {p r : Port} (h : r ≠ p) (q : Request) :
    (s.setReq p q).req r = s.req r := by
  cases p <;> cases r <;> first | rfl | exact absurd rfl h

@[simp] theorem State.take_rsp (p r : Port) : (s.take p).rsp r = s.rsp r := by
  cases p <;> cases r <;> rfl

@[simp] theorem State.withTable_table (d : Side) (t : Cells 32) : (s.withTable d t).table d = t := by
  cases d <;> rfl

theorem State.withTable_table_other {d e : Side} (h : e ≠ d) (t : Cells 32) :
    (s.withTable d t).table e = s.table e := by
  cases d <;> cases e <;> first | rfl | exact absurd rfl h

@[simp] theorem State.withTlb_tlb (d : Side) (t : Tlb) : (s.withTlb d t).tlb d = t := by
  cases d <;> rfl

theorem State.withTlb_tlb_other {d e : Side} (h : e ≠ d) (t : Tlb) :
    (s.withTlb d t).tlb e = s.tlb e := by
  cases d <;> cases e <;> first | rfl | exact absurd rfl h

@[simp] theorem State.latchLocator_ptBase : s.latchLocator.ptBase = sdr1PtBase s.cpu.sdr1 := rfl

@[simp] theorem State.latchLocator_ptHashMask :
    s.latchLocator.ptHashMask = sdr1HashMask s.cpu.sdr1 := rfl

@[simp] theorem State.withMem_mem (m : Memory) : (s.withMem m).mem = m := rfl

@[simp] theorem State.emit_trace (e : Event) : (s.emit e).trace = s.trace ++ [e] := rfl

@[simp] theorem State.raise_trace (p : Port) (msg : FaultMsg) :
    (s.raise p msg).trace = s.trace ++ [.fault msg] := by cases p <;> rfl

@[simp] theorem State.raise_rsp (p : Port) (msg : FaultMsg) :
    (s.raise p msg).rsp p = Response.only msg.kind.status := by cases p <;> rfl

@[simp] theorem State.raise_req (p q : Port) (msg : FaultMsg) : (s.raise p msg).req q = s.req q := by
  cases p <;> cases q <;> rfl

@[simp] theorem State.abort_fatal (p : Port) (why : AbortReason) : (s.abort p why).fatal = true := by
  cases p <;> rfl

@[simp] theorem State.abort_abortReason (p : Port) (why : AbortReason) :
    (s.abort p why).abortReason = some (s.abortReason.getD why) := by cases p <;> rfl

@[simp] theorem State.abort_rsp (p : Port) (why : AbortReason) :
    (s.abort p why).rsp p = Response.only .abort := by cases p <;> rfl

@[simp] theorem State.abort_req (p q : Port) (why : AbortReason) : (s.abort p why).req q = s.req q := by
  cases p <;> cases q <;> rfl

@[simp] theorem State.rebuild_table (d : Side) :
    (s.rebuild d).table d = updateBats s.cfg (s.batPairs d) := by cases d <;> rfl

@[simp] theorem State.rebuildBoth_table (d : Side) :
    s.rebuildBoth.table d = updateBats s.cfg (s.batPairs d) := by cases d <;> rfl

@[simp] theorem State.withTlbSet_tlb (d : Side) (k : Nat) (t : TlbSet) :
    (s.withTlbSet d k t).tlb d = Sparse.set TlbSet.empty (s.tlb d) k t := by cases d <;> rfl

theorem State.withTlbSet_tlb_other {d e : Side} (h : e ≠ d) (k : Nat) (t : TlbSet) :
    (s.withTlbSet d k t).tlb e = s.tlb e := by
  cases d <;> cases e <;> first | rfl | exact absurd rfl h

/-! ### Views that only read what an update leaves alone -/

@[simp] theorem State.respond_tlb (p : Port) (r : Response) (d : Side) : (s.respond p r).tlb d = s.tlb d := by
  cases p <;> cases d <;> rfl

@[simp] theorem State.respond_table (p : Port) (r : Response) (d : Side) :
    (s.respond p r).table d = s.table d := by
  cases p <;> cases d <;> rfl

@[simp] theorem State.withMem_table (m : Memory) (d : Side) : (s.withMem m).table d = s.table d := by
  cases d <;> rfl

@[simp] theorem State.withMem_tlb (m : Memory) (d : Side) : (s.withMem m).tlb d = s.tlb d := by
  cases d <;> rfl

@[simp] theorem State.withMem_segment (m : Memory) (ea : Word) : (s.withMem m).segment ea = s.segment ea := rfl

@[simp] theorem State.withMem_req (m : Memory) (p : Port) : (s.withMem m).req p = s.req p := by
  cases p <;> rfl

@[simp] theorem State.withMem_rsp (m : Memory) (p : Port) : (s.withMem m).rsp p = s.rsp p := by
  cases p <;> rfl

@[simp] theorem State.withTlbSet_table (d e : Side) (k : Nat) (t : TlbSet) :
    (s.withTlbSet d k t).table e = s.table e := by cases d <;> cases e <;> rfl

@[simp] theorem State.withTlbSet_segment (d : Side) (k : Nat) (t : TlbSet) (ea : Word) :
    (s.withTlbSet d k t).segment ea = s.segment ea := by cases d <;> rfl

@[simp] theorem State.withTlbSet_req (d : Side) (k : Nat) (t : TlbSet) (p : Port) :
    (s.withTlbSet d k t).req p = s.req p := by cases d <;> cases p <;> rfl

@[simp] theorem State.withTlbSet_rsp (d : Side) (k : Nat) (t : TlbSet) (p : Port) :
    (s.withTlbSet d k t).rsp p = s.rsp p := by cases d <;> cases p <;> rfl

@[simp] theorem State.withTlbSet_ramRead32 (d : Side) (k : Nat) (t : TlbSet) (pa : Word) :
    (s.withTlbSet d k t).ramRead32 pa = s.ramRead32 pa := by cases d <;> rfl

@[simp] theorem State.withTlbSet_protectionKey (d : Side) (k : Nat) (t : TlbSet) (sr : Word) :
    (s.withTlbSet d k t).protectionKey sr = s.protectionKey sr := by cases d <;> rfl

@[simp] theorem State.withTlbSet_findPte (d : Side) (k : Nat) (t : TlbSet) (ea : Word) :
    (s.withTlbSet d k t).findPte ea = s.findPte ea := by cases d <;> rfl

@[simp] theorem State.mmioWrite_table (pa : Word) (n : Nat) (v : DWord) (d : Side) :
    (s.mmioWrite pa n v).table d = s.table d := by cases d <;> rfl

@[simp] theorem State.mmioWrite_tlb (pa : Word) (n : Nat) (v : DWord) (d : Side) :
    (s.mmioWrite pa n v).tlb d = s.tlb d := by cases d <;> rfl

@[simp] theorem State.mmioWrite_req (pa : Word) (n : Nat) (v : DWord) (p : Port) :
    (s.mmioWrite pa n v).req p = s.req p := by cases p <;> rfl

@[simp] theorem State.mmioWrite_rsp (pa : Word) (n : Nat) (v : DWord) (p : Port) :
    (s.mmioWrite pa n v).rsp p = s.rsp p := by cases p <;> rfl

end Sys2Proof.Machine
end

