-- ==== Sys2Proof/Laws/Translate.lean ====
section
/-! SUPPORT. What a translation can do, said once (`40_translate.md` R171 to R188): the cases of the walk, of the
page path and of the whole function, and what each may change. -/

namespace Sys2Proof.Machine

/-- What one translation may do to the cache set of its address (R178, R179, R185). -/
inductive SetMove (t : TlbSet) (tag : BitVec 20) : TlbSet → Prop where
  | hit (w : Bool) (h : t.lookup tag = some w) : SetMove t tag { t with recent := w }
  | drop (w : Bool) (h : t.lookup tag = some w) : SetMove t tag (t.dropWay w)
  | fill (pte1 : Word) (h : t.lookup tag = none) : SetMove t tag (t.fill tag pte1)
  | refill (w : Bool) (pte1 : Word) (h : t.lookup tag = some w) :
      SetMove t tag ((t.dropWay w).fill tag pte1)

/-- What one translation may do to the backing store (R184, R85): nothing, or word 1 of the entry found, in RAM. -/
inductive MemMove (s : State) (ea : Word) : Memory → Prop where
  | same : MemMove s ea s.mem
  | touch (pte w1 : Word) (h : s.findPte ea = some pte)
      (hram : ∀ i < 4, isRam s.cfg (pte + 4#32 + BitVec.ofNat 32 i) = true) :
      MemMove s ea (Memory.writeBE s.mem (pte + 4#32) 4 (w1.setWidth 64))

/-- `RamWrite32` writes all four bytes or nothing (R85). -/
theorem State.ramWrite32_cases (s : State) (pa v : Word) :
    (s.ramWrite32 pa v = s ∧ ¬ ∀ i < 4, isRam s.cfg (pa + BitVec.ofNat 32 i) = true) ∨
    (s.ramWrite32 pa v = s.withMem (Memory.writeBE s.mem pa 4 (v.setWidth 64)) ∧
      ∀ i < 4, isRam s.cfg (pa + BitVec.ofNat 32 i) = true) := by
  have e : ((byteRun pa 4).all (isRam s.cfg) = true) ↔
      ∀ i < 4, isRam s.cfg (pa + BitVec.ofNat 32 i) = true := by
    simp [List.all_eq_true, byteRun]
  unfold State.ramWrite32
  split
  · exact .inr ⟨rfl, e.1 ‹_›⟩
  · exact .inl ⟨rfl, fun h => ‹¬ _› (e.2 h)⟩

/-- R and C do not reach the frame or the `WIMG` bits (R184, R186). -/
theorem pageResult_touched (w1 ea : Word) (store : Bool) :
    pageResult (pteTouched w1 store) ea = pageResult w1 ea := by
  have h (i : Nat) (hi : i ≠ 8) (hi' : i ≠ 7) : (pteTouched w1 store).getLsbD i = w1.getLsbD i := by
    rcases Nat.lt_or_ge i 32 with hlt | hge
    · cases store <;> simp [pteTouched, BitVec.getLsbD_or] <;> interval_cases i <;> simp_all
    · rw [BitVec.getLsbD_of_ge _ _ hge, BitVec.getLsbD_of_ge _ _ hge]
  have hr : pteRpn (pteTouched w1 store) = pteRpn w1 := by
    unfold pteRpn
    apply BitVec.eq_of_getLsbD_eq
    intro i hi
    simp only [BitVec.getLsbD_extractLsb']
    rw [h _ (by omega) (by omega)]
  unfold pageResult wimgWi
  rw [hr, h 6 (by omega) (by omega), h 5 (by omega) (by omega)]

/-- The state after the R/C update of a walk hit (R184). -/
def State.touchPte (s : State) (pte : Word) (store : Bool) : State :=
  if pteTouched (s.ramRead32 (pte + 4#32)) store = s.ramRead32 (pte + 4#32) then s
  else s.ramWrite32 (pte + 4#32) (pteTouched (s.ramRead32 (pte + 4#32)) store)

theorem State.touchPte_eq (s : State) (pte : Word) (store : Bool) :
    s.touchPte pte store = s.withMem (s.touchPte pte store).mem := by
  unfold State.touchPte
  split
  · rfl
  · rcases s.ramWrite32_cases (pte + 4#32) (pteTouched (s.ramRead32 (pte + 4#32)) store) with
      ⟨e, -⟩ | ⟨e, -⟩ <;> rw [e] <;> rfl

theorem State.touchPte_memMove {s : State} {ea pte : Word} (h : s.findPte ea = some pte) (store : Bool) :
    MemMove s ea (s.touchPte pte store).mem := by
  unfold State.touchPte
  split
  · exact .same
  · rcases s.ramWrite32_cases (pte + 4#32) (pteTouched (s.ramRead32 (pte + 4#32)) store) with
      ⟨e, -⟩ | ⟨e, hr⟩
    · rw [e]; exact .same
    · rw [e]; exact .touch pte _ h hr

@[simp] theorem State.touchPte_withTlbSet (s : State) (d : Side) (k : Nat) (x : TlbSet) (pte : Word) (store : Bool) :
    (s.withTlbSet d k x).touchPte pte store = (s.touchPte pte store).withTlbSet d k x := by
  unfold State.touchPte State.ramWrite32
  simp only [State.withTlbSet_ramRead32, State.withTlbSet_cfg]
  split
  · rfl
  · split
    · cases d <;> rfl
    · rfl

theorem State.tlbSet_withTlbSet {s : State} {d : Side} (h : Sparse.WF TlbSet.empty (s.tlb d)) (k : Nat)
    (x : TlbSet) : (s.withTlbSet d k x).tlbSet d k = x := by
  rw [State.tlbSet, State.withTlbSet_tlb, Sparse.get_set h, if_pos rfl]

theorem State.tlbSet_withTlbSet_ne {s : State} {d : Side} (h : Sparse.WF TlbSet.empty (s.tlb d)) {k j : Nat}
    (hj : j ≠ k) (x : TlbSet) : (s.withTlbSet d k x).tlbSet d j = s.tlbSet d j := by
  rw [State.tlbSet, State.withTlbSet_tlb, Sparse.get_set h, if_neg hj, State.tlbSet]

theorem State.withTlbSet_withTlbSet {s : State} {d : Side} (h : Sparse.WF TlbSet.empty (s.tlb d)) (k : Nat)
    (x y : TlbSet) : (s.withTlbSet d k x).withTlbSet d k y = s.withTlbSet d k y := by
  have e : Sparse.set TlbSet.empty (Sparse.set TlbSet.empty (s.tlb d) k x) k y =
      Sparse.set TlbSet.empty (s.tlb d) k y := by
    refine Sparse.ext (Sparse.set_wf (Sparse.set_wf h _ _) _ _) (Sparse.set_wf h _ _) fun a => ?_
    rw [Sparse.get_set (Sparse.set_wf h _ _), Sparse.get_set h, Sparse.get_set h]
    split <;> rfl
  unfold State.withTlbSet at e ⊢
  rw [State.withTlb_tlb, e]
  cases d <;> rfl

/-- Everything the walk can do (R174, R182 to R186). -/
theorem State.walk_cases {s s' : State} {m : Mode} {ea : Word} {t : Translation}
    (h : s.walk m ea = (t, s')) :
    (s.findPte ea = none ∧ t = .pageFault .pageMiss ∧ s' = s) ∨
    ∃ pte, s.findPte ea = some pte ∧
      ((permOk s.cfg (s.protectionKey (s.segment ea)) (ptePp (s.ramRead32 (pte + 4#32))) m.isStore = false ∧
          t = .pageFault .protection ∧ s' = s) ∨
       (permOk s.cfg (s.protectionKey (s.segment ea)) (ptePp (s.ramRead32 (pte + 4#32))) m.isStore = true ∧
          t = pageResult (s.ramRead32 (pte + 4#32)) ea ∧
          ((m.mutates = false ∧ s' = s) ∨
           (m.mutates = true ∧ s' = (s.touchPte pte m.isStore).withTlbSet m.side (setIndex s.cfg ea)
              ((s.tlbSet m.side (setIndex s.cfg ea)).fill (eaPage ea)
                (pteTouched (s.ramRead32 (pte + 4#32)) m.isStore)))))) := by
  unfold State.walk at h
  split at h
  · rename_i hf
    cases h
    exact .inl ⟨hf, rfl, rfl⟩
  · rename_i pte hf
    refine .inr ⟨pte, hf, ?_⟩
    dsimp only at h
    split at h
    · rename_i hp
      refine .inr ⟨hp, ?_⟩
      split at h
      · rename_i hm
        rw [Prod.mk.injEq] at h
        obtain ⟨rfl, rfl⟩ := h
        refine ⟨pageResult_touched _ _ _, .inr ⟨hm, ?_⟩⟩
        have e : (if pteTouched (s.ramRead32 (pte + 4#32)) m.isStore = s.ramRead32 (pte + 4#32) then s
          else s.ramWrite32 (pte + 4#32) (pteTouched (s.ramRead32 (pte + 4#32)) m.isStore))
            = s.touchPte pte m.isStore := rfl
        rw [e]
        have e' : (s.touchPte pte m.isStore).tlbSet m.side (setIndex s.cfg ea)
            = s.tlbSet m.side (setIndex s.cfg ea) := by
          rw [State.touchPte_eq]; cases m <;> rfl
        rw [e']
      · rename_i hm
        cases h
        exact ⟨rfl, .inl ⟨by simpa using hm, rfl⟩⟩
    · rename_i hp
      cases h
      exact .inl ⟨by simpa using hp, rfl, rfl⟩

/-- The page path is open: no direct-store segment, and no no-execute segment on the instruction side. -/
def State.pageOpen (s : State) (m : Mode) (ea : Word) : Prop :=
  srT (s.segment ea) = false ∧ ¬ (m.side = .instruction ∧ srN (s.segment ea) = true)

/-- Everything the page path can do before the walk (R174 to R179). -/
theorem State.translatePage_cases (s : State) (m : Mode) (ea : Word) :
    (srT (s.segment ea) = true ∧ s.translatePage m ea = (.directStoreSegment, s)) ∨
    (srT (s.segment ea) = false ∧ m.side = .instruction ∧ srN (s.segment ea) = true ∧
      s.translatePage m ea = (.pageFault .noExecute, s)) ∨
    (s.pageOpen m ea ∧ (s.tlbSet m.side (setIndex s.cfg ea)).lookup (eaPage ea) = none ∧
      s.translatePage m ea = s.walk m ea) ∨
    (s.pageOpen m ea ∧ ∃ w, (s.tlbSet m.side (setIndex s.cfg ea)).lookup (eaPage ea) = some w ∧
      let x := ((s.tlbSet m.side (setIndex s.cfg ea)).way w).pte1
      ((permOk s.cfg (s.protectionKey (s.segment ea)) (ptePp x) m.isStore = false ∧
          s.translatePage m ea = (.pageFault .protection, s)) ∨
       (permOk s.cfg (s.protectionKey (s.segment ea)) (ptePp x) m.isStore = true ∧
          m.isStore = true ∧ pteC x = false ∧
          s.translatePage m ea = (s.withTlbSet m.side (setIndex s.cfg ea)
            ((s.tlbSet m.side (setIndex s.cfg ea)).dropWay w)).walk m ea) ∨
       (permOk s.cfg (s.protectionKey (s.segment ea)) (ptePp x) m.isStore = true ∧
          ¬ (m.isStore = true ∧ pteC x = false) ∧
          s.translatePage m ea = (pageResult x ea,
            if m.mutates then s.withTlbSet m.side (setIndex s.cfg ea)
              { s.tlbSet m.side (setIndex s.cfg ea) with recent := w } else s)))) := by
  unfold State.translatePage State.pageOpen
  cases ht : srT (s.segment ea)
  · right
    by_cases hn : m.side = .instruction ∧ srN (s.segment ea) = true
    · left; simp [hn.1, hn.2, ht]
    · right
      have hn' : (decide (m.side = .instruction) && srN (s.segment ea)) = false := by
        simpa using hn
      cases hl : (s.tlbSet m.side (setIndex s.cfg ea)).lookup (eaPage ea) with
      | none => left; simp [hn, hn', hl, ht]
      | some w =>
        right
        refine ⟨⟨rfl, hn⟩, w, rfl, ?_⟩
        simp only [hn', hl, ht, Bool.false_eq_true, if_false]
        cases hp : permOk s.cfg (s.protectionKey (s.segment ea))
          (ptePp ((s.tlbSet m.side (setIndex s.cfg ea)).way w).pte1) m.isStore
        · left; simp
        · right
          by_cases hc : m.isStore = true ∧ pteC ((s.tlbSet m.side (setIndex s.cfg ea)).way w).pte1 = false
          · left; simp [hc.1, hc.2]
          · right
            have hc' : (m.isStore && !pteC ((s.tlbSet m.side (setIndex s.cfg ea)).way w).pte1) = false := by
              simpa using hc
            simp [hc, hc']
  · left; simp [ht]

/-- Everything the whole function can do (R171 to R173). -/
theorem State.translate_cases (s : State) (m : Mode) (ea : Word) (v : Bool) :
    (s.translationOn m.side = false ∧
      s.translate m ea v = (if v then .failVirtualOnly else .untranslated ea, s)) ∨
    (s.translationOn m.side = true ∧ descMapped (s.descriptor m.side ea) = true ∧
      s.translate m ea v = (.batTranslated (batAddress s.cfg.s (s.descriptor m.side ea) ea)
        (descWi (s.descriptor m.side ea)), s)) ∨
    (s.translationOn m.side = true ∧ descMapped (s.descriptor m.side ea) = false ∧
      s.translate m ea v = s.translatePage m ea) := by
  unfold State.translate
  cases s.translationOn m.side
  · left; cases v <;> simp
  · cases hd : descMapped (s.descriptor m.side ea) <;> simp [hd]

/-- What a successful page path answers: some word 1, its frame and the offset of the address (R186). -/
theorem State.walk_result {s s' : State} {m : Mode} {ea : Word} {t : Translation}
    (h : s.walk m ea = (t, s')) : t = .pageFault .pageMiss ∨ t = .pageFault .protection ∨
      ∃ w1, t = pageResult w1 ea := by
  rcases State.walk_cases h with ⟨-, rfl, -⟩ | ⟨pte, -, ⟨-, rfl, -⟩ | ⟨-, rfl, -⟩⟩
  · exact .inl rfl
  · exact .inr (.inl rfl)
  · exact .inr (.inr ⟨_, rfl⟩)

/-- Everything one translation may change, on every path (R94, R187, R191). -/
theorem State.translate_moves {s s' : State} {m : Mode} {ea : Word} {v : Bool} {t : Translation}
    (hwf : Sparse.WF TlbSet.empty (s.tlb m.side)) (h : s.translate m ea v = (t, s')) :
    s' = s ∨ (m.mutates = true ∧ ∃ mem set, MemMove s ea mem ∧
      SetMove (s.tlbSet m.side (setIndex s.cfg ea)) (eaPage ea) set ∧
      (t.address = none → mem = s.mem ∧ m.isStore = true) ∧
      s' = (s.withMem mem).withTlbSet m.side (setIndex s.cfg ea) set) := by
  have store_mutates : m.isStore = true → m.mutates = true := by cases m <;> simp [Mode.isStore, Mode.mutates]
  rcases s.translate_cases m ea v with ⟨-, e⟩ | ⟨-, -, e⟩ | ⟨-, -, e⟩
  · rw [e] at h; cases h; exact .inl rfl
  · rw [e] at h; cases h; exact .inl rfl
  · rw [e] at h
    rcases s.translatePage_cases m ea with ⟨-, e⟩ | ⟨-, -, -, e⟩ | ⟨-, hl, e⟩ | ⟨-, w, hl, hw⟩
    · rw [e] at h; cases h; exact .inl rfl
    · rw [e] at h; cases h; exact .inl rfl
    · rw [e] at h
      rcases State.walk_cases h with ⟨-, -, rfl⟩ | ⟨pte, hf, ⟨-, -, rfl⟩ | ⟨-, rfl, ⟨-, rfl⟩ | ⟨hm, rfl⟩⟩⟩
      · exact .inl rfl
      · exact .inl rfl
      · exact .inl rfl
      · refine .inr ⟨hm, _, _, State.touchPte_memMove hf m.isStore, .fill (pteTouched (s.ramRead32 (pte + 4#32)) m.isStore) hl,
          by simp [pageResult, Translation.address], ?_⟩
        rw [← State.touchPte_eq]
    · rcases hw with ⟨-, e⟩ | ⟨-, hs, -, e⟩ | ⟨-, -, e⟩
      · rw [e] at h; cases h; exact .inl rfl
      · rw [e] at h
        have hdrop : s.withTlbSet m.side (setIndex s.cfg ea)
            ((s.tlbSet m.side (setIndex s.cfg ea)).dropWay w) = (s.withMem s.mem).withTlbSet m.side (setIndex s.cfg ea)
            ((s.tlbSet m.side (setIndex s.cfg ea)).dropWay w) := rfl
        rcases State.walk_cases h with ⟨-, -, rfl⟩ | ⟨pte, hf, ⟨-, -, rfl⟩ | ⟨-, rfl, ⟨hm, -⟩ | ⟨-, rfl⟩⟩⟩
        · exact .inr ⟨store_mutates hs, _, _, .same, .drop w hl, fun _ => ⟨rfl, hs⟩, hdrop⟩
        · exact .inr ⟨store_mutates hs, _, _, .same, .drop w hl, fun _ => ⟨rfl, hs⟩, hdrop⟩
        · rw [store_mutates hs] at hm; cases hm
        · refine .inr ⟨store_mutates hs, _, _, State.touchPte_memMove (s := s) (pte := pte) (by simpa using hf) m.isStore,
            .refill w (pteTouched (s.ramRead32 (pte + 4#32)) m.isStore) hl, by simp [pageResult, Translation.address], ?_⟩
          rw [← State.touchPte_eq, State.touchPte_withTlbSet]
          simp only [State.withTlbSet_cfg, State.withTlbSet_ramRead32]
          rw [State.tlbSet_withTlbSet hwf, State.withTlbSet_withTlbSet]
          rw [State.touchPte_eq]; simpa using hwf
      · rw [e] at h; cases h
        cases hm : m.mutates
        · left; simp
        · right
          exact ⟨rfl, _, _, .same, .hit w hl, by simp [pageResult, Translation.address], by simp; rfl⟩

end Sys2Proof.Machine
end

