-- ==== Sys2Proof/Laws/Plan.lean ====
section
/-! SUPPORT. The access plan over one page and over two (`20_memory.md` R87), and when its bytes are contiguous
(R88). -/

namespace Sys2Proof.Machine

/-! ### Pages and offsets -/

theorem eaOffset_toNat (ea : Word) : (eaOffset ea).toNat = ea.toNat % 4096 := by
  simp [eaOffset, BitVec.extractLsb'_toNat]

theorem eaPage_toNat (ea : Word) : (eaPage ea).toNat = ea.toNat / 4096 := by
  simp [eaPage, BitVec.extractLsb'_toNat, Nat.shiftRight_eq_div_pow]
  omega

theorem samePage_iff (a b : Word) : samePage a b = true ↔ a.toNat / 4096 = b.toNat / 4096 := by
  rw [samePage, beq_iff_eq, ← BitVec.toNat_inj, eaPage_toNat, eaPage_toNat]

/-- Two addresses have the same byte offset within their pages. -/
def sameOffset (a b : Word) : Prop := a.extractLsb' 0 12 = b.extractLsb' 0 12

theorem sameOffset_iff (a b : Word) : sameOffset a b ↔ a.toNat % 4096 = b.toNat % 4096 := by
  rw [sameOffset, ← BitVec.toNat_inj]
  simp [BitVec.extractLsb'_toNat]

/-- `byteAddress` as numbers: the page of the first address, the offset of the second. -/
theorem byteAddress_toNat (p b : Word) :
    (byteAddress p b).toNat = p.toNat / 4096 * 4096 + b.toNat % 4096 := by
  have e : byteAddress p b = p.extractLsb' 12 20 ++ b.extractLsb' 0 12 := by
    apply BitVec.eq_of_getLsbD_eq
    intro i hi
    unfold byteAddress
    rw [BitVec.getLsbD_append]
    simp only [BitVec.getLsbD_or, BitVec.getLsbD_and, BitVec.getLsbD_extractLsb']
    interval_cases i <;> simp
  rw [e, BitVec.toNat_append, BitVec.extractLsb'_toNat, BitVec.extractLsb'_toNat]
  have h1 : b.toNat >>> 0 % 2 ^ 12 < 2 ^ 12 := Nat.mod_lt _ (by omega)
  rw [← Nat.shiftLeft_add_eq_or_of_lt h1, Nat.shiftLeft_eq, Nat.shiftRight_eq_div_pow]
  have := p.isLt
  simp only [Nat.shiftRight_zero]
  omega

/-- A byte `j` further on, still on the page, lies `j` further on in the frame. -/
theorem byteAddress_add {p b : Word} {j : Nat} (h : sameOffset p b) (hj : b.toNat % 4096 + j < 4096) :
    byteAddress p (b + BitVec.ofNat 32 j) = p + BitVec.ofNat 32 j := by
  rw [sameOffset_iff] at h
  rw [← BitVec.toNat_inj, byteAddress_toNat]
  simp only [BitVec.toNat_add, BitVec.toNat_ofNat]
  have := p.isLt
  have := b.isLt
  omega

theorem lastByte_toNat (ea : Word) (n : Nat) :
    (lastByte ea n).toNat = (ea.toNat + (n - 1)) % 2 ^ 32 := by
  simp [lastByte, BitVec.toNat_add, BitVec.toNat_ofNat]

/-- An access stays on its page exactly when its offset leaves room for it. -/
theorem onePage_iff {ea : Word} {n : Nat} (h0 : 0 < n) (hn : n ≤ 4096) :
    samePage ea (lastByte ea n) = true ↔ ea.toNat % 4096 + n ≤ 4096 := by
  rw [samePage_iff, lastByte_toNat]
  have := ea.isLt
  omega

/-- The second page starts at offset 0, `0x1000 - ea[11:0]` bytes after `ea`. -/
theorem secondPage_toNat {ea : Word} {n : Nat} (h0 : 0 < n) (hn : n ≤ 4096)
    (h : samePage ea (lastByte ea n) = false) :
    (secondPage ea n).toNat = (ea.toNat + (4096 - ea.toNat % 4096)) % 2 ^ 32 := by
  have h' : ¬ ea.toNat % 4096 + n ≤ 4096 := by rw [← onePage_iff h0 hn, h]; simp
  have e : secondPage ea n = byteAddress (lastByte ea n) 0#32 := by simp [secondPage, byteAddress]
  rw [e, byteAddress_toNat, lastByte_toNat]
  have := ea.isLt
  simp only [BitVec.toNat_ofNat, Nat.zero_mod, Nat.add_zero]
  omega

/-! ### The plan -/

/-- The plan of an access on one page (R87). -/
theorem planAccess_onePage {tr : Word → State → Translation × State} {ea pa : Word} {n : Nat} {s s1 : State}
    {t : Translation} (h0 : 0 < n) (hn : n ≤ 4096) (hp : samePage ea (lastByte ea n) = true)
    (ht : tr ea s = (t, s1)) (ha : t.address = some pa) (ho : sameOffset pa ea) :
    planAccess tr ea n s = (.ok ⟨byteRun pa n, [t]⟩, s1) := by
  unfold planAccess
  rw [ht]
  simp only [ha, hp, if_true]
  have h := (onePage_iff h0 hn).1 hp
  congr 3
  unfold byteRun
  rw [List.map_map]
  refine List.map_congr_left fun i hi => ?_
  rw [List.mem_range] at hi
  exact byteAddress_add ho (by omega)

/-- The first page fails (R87). -/
theorem planAccess_firstFails {tr : Word → State → Translation × State} {ea : Word} {n : Nat} {s s1 : State}
    {t : Translation} (ht : tr ea s = (t, s1)) (ha : t.address = none) :
    planAccess tr ea n s = (.fail ea t, s1) := by
  unfold planAccess
  rw [ht]
  simp only [ha]

/-- The second page fails (R87). -/
theorem planAccess_secondFails {tr : Word → State → Translation × State} {ea pa1 : Word} {n : Nat}
    {s s1 s2 : State} {t1 t2 : Translation} (hp : samePage ea (lastByte ea n) = false)
    (ht1 : tr ea s = (t1, s1)) (ha1 : t1.address = some pa1)
    (ht2 : tr (secondPage ea n) s1 = (t2, s2)) (ha2 : t2.address = none) :
    planAccess tr ea n s = (.fail (secondPage ea n) t2, s2) := by
  unfold planAccess
  rw [ht1]
  simp only [ha1, hp, Bool.false_eq_true, if_false, ht2, ha2]

/-- The plan of an access across two pages (R87): the bytes of the first frame, then those of the second. -/
theorem planAccess_twoPages {tr : Word → State → Translation × State} {ea pa1 pa2 : Word} {n : Nat}
    {s s1 s2 : State} {t1 t2 : Translation} (h0 : 0 < n) (hn : n ≤ 4096)
    (hp : samePage ea (lastByte ea n) = false)
    (ht1 : tr ea s = (t1, s1)) (ha1 : t1.address = some pa1) (ho1 : sameOffset pa1 ea)
    (ht2 : tr (secondPage ea n) s1 = (t2, s2)) (ha2 : t2.address = some pa2)
    (ho2 : sameOffset pa2 (secondPage ea n)) :
    planAccess tr ea n s =
      (.ok ⟨byteRun pa1 (0x1000 - (eaOffset ea).toNat) ++ byteRun pa2 (n - (0x1000 - (eaOffset ea).toNat)),
        [t1, t2]⟩, s2) := by
  have h' : ¬ ea.toNat % 4096 + n ≤ 4096 := by rw [← onePage_iff h0 hn, hp]; simp
  have hs := secondPage_toNat h0 hn hp
  unfold planAccess
  rw [ht1]
  simp only [ha1, hp, Bool.false_eq_true, if_false, ht2, ha2]
  congr 3
  rw [eaOffset_toNat]
  have hlt := ea.isLt
  obtain ⟨k, hk⟩ : ∃ k, k = 4096 - ea.toNat % 4096 := ⟨_, rfl⟩
  have hk' : 0x1000 - ea.toNat % 4096 = k := hk.symm
  rw [hk']
  have split : byteRun ea n = byteRun ea k ++ (List.range (n - k)).map fun j => ea + BitVec.ofNat 32 (k + j) := by
    unfold byteRun
    conv_lhs => rw [show n = k + (n - k) by omega, List.range_add]
    rw [List.map_append, List.map_map]
    rfl
  rw [split, List.map_append]
  congr 1
  · unfold byteRun
    rw [List.map_map]
    refine List.map_congr_left fun i hi => ?_
    rw [List.mem_range] at hi
    have : samePage ea (ea + BitVec.ofNat 32 i) = true := by
      rw [samePage_iff, BitVec.toNat_add, BitVec.toNat_ofNat]; omega
    simp only [Function.comp, this, if_true]
    exact byteAddress_add ho1 (by omega)
  · rw [List.map_map]
    unfold byteRun
    refine List.map_congr_left fun j hj => ?_
    rw [List.mem_range] at hj
    have : samePage ea (ea + BitVec.ofNat 32 (k + j)) = false := by
      rw [← Bool.not_eq_true, samePage_iff, BitVec.toNat_add, BitVec.toNat_ofNat]; omega
    have e : ea + BitVec.ofNat 32 (k + j) = secondPage ea n + BitVec.ofNat 32 j := by
      rw [← BitVec.toNat_inj, BitVec.toNat_add, BitVec.toNat_add, hs]
      simp only [BitVec.toNat_ofNat]; omega
    simp only [Function.comp, this, Bool.false_eq_true, if_false]
    rw [e]
    exact byteAddress_add ho2 (by rw [hs]; omega)

/-! ### Contiguity (R88) -/

theorem isContiguous_byteRun (pa : Word) (n : Nat) : isContiguous (byteRun pa n) = true := by
  rcases h : byteRun pa n with _ | ⟨q, qs⟩
  · rfl
  · have hl : qs.length + 1 = n := by have := congrArg List.length h; simp at this; omega
    have hq : q = pa := by
      have := byteRun_head pa (n := n) (by omega)
      rw [h] at this
      simpa using this
    simp only [isContiguous, beq_iff_eq]
    rw [hl, ← h, hq]

/-- A run that continues is one run. -/
theorem byteRun_append (pa : Word) (k n : Nat) :
    byteRun pa k ++ byteRun (pa + BitVec.ofNat 32 k) n = byteRun pa (k + n) := by
  unfold byteRun
  rw [List.range_add, List.map_append, List.map_map]
  congr 1
  refine List.map_congr_left fun i _ => ?_
  simp [Function.comp, BitVec.ofNat_add, BitVec.add_assoc]

/-- The bytes of two frames are contiguous exactly when the second starts where the first part ends. -/
theorem isContiguous_append (pa1 pa2 : Word) {k n : Nat} (hk : 0 < k) (hn : 0 < n) :
    isContiguous (byteRun pa1 k ++ byteRun pa2 n) = true ↔ pa2 = pa1 + BitVec.ofNat 32 k := by
  constructor
  · intro h
    have hh : (byteRun pa1 k ++ byteRun pa2 n) = byteRun pa1 (k + n) := by
      have hne : byteRun pa1 k ++ byteRun pa2 n ≠ [] := by
        intro e; have := congrArg List.length e; simp at this; omega
      obtain ⟨q, qs, hq⟩ := List.exists_cons_of_ne_nil hne
      have hq0 : q = pa1 := by
        have := congrArg (fun l => l.headD 0#32) hq
        simp only [List.headD_cons] at this
        rw [← this]
        have e := byteRun_head pa1 hk
        obtain ⟨x, xs, hx⟩ : ∃ x xs, byteRun pa1 k = x :: xs := by
          rcases hb : byteRun pa1 k with _ | ⟨x, xs⟩
          · have := congrArg List.length hb; simp at this; omega
          · exact ⟨x, xs, rfl⟩
        rw [hx] at e ⊢
        simpa using e
      have hl : qs.length + 1 = k + n := by
        have := congrArg List.length hq; simp at this; omega
      rw [hq] at h ⊢
      simp only [isContiguous, beq_iff_eq] at h
      rw [hl, hq0] at h
      rw [hq0]
      exact h
    have h2 := congrArg (fun l => l[k]?) hh
    simp only [List.getElem?_append_right, byteRun_length, le_refl, Nat.sub_self] at h2
    rw [List.getElem?_eq_getElem (by simpa using hn), List.getElem?_eq_getElem (by simp; omega)] at h2
    simpa using h2
  · rintro rfl
    rw [byteRun_append]
    exact isContiguous_byteRun _ _

end Sys2Proof.Machine
end

