-- ==== Sys2Proof/Laws/Access.lean ====
section
/-! SUPPORT. What the physical dispatch and a planned access can do (`20_memory.md` R84, R88). -/

namespace Sys2Proof.Machine

variable (s : State)

/-! ### One dispatched access (R84) -/

theorem State.memRead_ram {pa : Word} {n : Nat} (h : route s.cfg pa n = some .ram) :
    s.memRead pa n = (some ⟨Memory.readBE s.mem pa n, false⟩, s) := by
  simp [State.memRead, h]

theorem State.memRead_mmio {pa : Word} {n : Nat} (h : route s.cfg pa n = some .mmio) :
    s.memRead pa n = (some ⟨(s.mmioRead pa n).1, true⟩, (s.mmioRead pa n).2) := by
  simp [State.memRead, h]

theorem State.memRead_bus {pa : Word} {n : Nat} (h : route s.cfg pa n = none) :
    s.memRead pa n = (none, s) := by
  simp [State.memRead, h]

theorem State.memWrite_ram {pa : Word} {n : Nat} (v : DWord) (h : route s.cfg pa n = some .ram) :
    s.memWrite pa n v = (some false, s.withMem (Memory.writeBE s.mem pa n v)) := by
  simp [State.memWrite, h]

theorem State.memWrite_mmio {pa : Word} {n : Nat} (v : DWord) (h : route s.cfg pa n = some .mmio) :
    s.memWrite pa n v = (some true, s.mmioWrite pa n v) := by
  simp [State.memWrite, h]

theorem State.memWrite_bus {pa : Word} {n : Nat} (v : DWord) (h : route s.cfg pa n = none) :
    s.memWrite pa n v = (none, s) := by
  simp [State.memWrite, h]

/-- One byte goes to RAM exactly when it is RAM (R81, R84). -/
theorem route_one_ram {c : Config} {pa : Word} : route c pa 1 = some .ram ↔ isRam c pa = true := by
  rw [route_eq_ram, inOne_ram_one]

/-- One byte is a hole exactly when it is neither RAM nor MMIO (R81). -/
theorem route_one_none {c : Config} {pa : Word} :
    route c pa 1 = none ↔ isRam c pa = false ∧ isMmio c pa = false := by
  rw [route_eq_none, inOne_ram_one, inOne_mmio_one]

theorem readBE_one (m : Memory) (pa : Word) : (Memory.readBE m pa 1).setWidth 8 = Memory.byte m pa := by
  have e : byteRun pa 1 = [pa] := by simp [byteRun]
  simp [Memory.readBE, beValue, beAppend, e]

theorem writeBE_one (m : Memory) (pa : Word) (b : Byte) :
    Memory.writeBE m pa 1 (b.setWidth 64) = Memory.putByte m pa b := by
  have e : byteRun pa 1 = [pa] := by simp [byteRun]
  have e' : beBytes 1 (b.setWidth 64) = [b] := by simp [beBytes, beByte]
  simp [Memory.writeBE, Memory.putBytes, e, e']

/-! ### Contiguous bytes (R88, first case) -/

theorem State.performRead_run (pa : Word) {n : Nat} (h : 0 < n) :
    s.performRead (byteRun pa n) = s.memRead pa n := by
  rw [State.performRead, if_pos (isContiguous_byteRun pa n), byteRun_head pa h, byteRun_length]

theorem State.performWrite_run (pa : Word) {n : Nat} (v : DWord) (h : 0 < n) :
    s.performWrite (byteRun pa n) v = s.memWrite pa n v := by
  rw [State.performWrite, if_pos (isContiguous_byteRun pa n), byteRun_head pa h, byteRun_length]

/-! ### Byte by byte (R88, second case) -/

theorem State.readEach_ram (acc : Loaded) {pas : List Word} (h : ∀ b ∈ pas, isRam s.cfg b = true) :
    s.readEach acc pas = (some ⟨(pas.map s.mem.byte).foldl beAppend acc.value, acc.viaHandler⟩, s) := by
  induction pas generalizing acc with
  | nil => simp [State.readEach]
  | cons p ps ih =>
    rw [State.readEach, s.memRead_ram (route_one_ram.2 (h p (by simp)))]
    simp only [Bool.or_false]
    rw [ih _ fun b hb => h b (by simp [hb]), readBE_one]
    simp

theorem State.readEach_bus (acc : Loaded) {pas : List Word} (h : ∀ b ∈ pas, isMmio s.cfg b = false)
    (hx : ∃ b ∈ pas, isRam s.cfg b = false) : s.readEach acc pas = (none, s) := by
  induction pas generalizing acc with
  | nil => simp at hx
  | cons p ps ih =>
    rw [State.readEach]
    cases hp : isRam s.cfg p
    · rw [s.memRead_bus (route_one_none.2 ⟨hp, h p (by simp)⟩)]
    · rw [s.memRead_ram (route_one_ram.2 hp)]
      refine ih _ (fun b hb => h b (by simp [hb])) ?_
      obtain ⟨b, hb, hr⟩ := hx
      rcases List.mem_cons.1 hb with rfl | hb
      · rw [hp] at hr; cases hr
      · exact ⟨b, hb, hr⟩

theorem State.writeEach_ram (via : Bool) {ws : List (Word × Byte)} (h : ∀ w ∈ ws, isRam s.cfg w.1 = true) :
    s.writeEach via ws = (via, s.withMem (Memory.putBytes s.mem ws)) := by
  induction ws generalizing s with
  | nil => rfl
  | cons w ws ih =>
    rw [State.writeEach, s.memWrite_ram _ (route_one_ram.2 (h w (by simp)))]
    simp only [Bool.or_false]
    rw [ih _ fun x hx => by simpa using h x (by simp [hx]), writeBE_one]
    rfl

/-- A read over bytes of RAM that are not contiguous (R88). -/
theorem State.performRead_split {pas : List Word} (hc : isContiguous pas = false)
    (h : ∀ b ∈ pas, isRam s.cfg b = true) :
    s.performRead pas = (some ⟨beValue (pas.map s.mem.byte), false⟩, s) := by
  rw [State.performRead, hc, if_neg (by simp), s.readEach_ram _ h]
  rfl

theorem State.performRead_split_bus {pas : List Word} (hc : isContiguous pas = false)
    (h : ∀ b ∈ pas, isMmio s.cfg b = false) (hx : ∃ b ∈ pas, isRam s.cfg b = false) :
    s.performRead pas = (none, s) := by
  rw [State.performRead, hc, if_neg (by simp), s.readEach_bus _ h hx]

/-- A write over bytes of RAM that are not contiguous (R88). -/
theorem State.performWrite_split {pas : List Word} (v : DWord) (hc : isContiguous pas = false)
    (h : ∀ b ∈ pas, isRam s.cfg b = true) :
    s.performWrite pas v =
      (some false, s.withMem (Memory.putBytes s.mem (pas.zip (beBytes pas.length v)))) := by
  have hr : pas.all (fun p => (route s.cfg p 1).isSome) = true := by
    rw [List.all_eq_true]
    intro p hp
    rw [route_one_ram.2 (h p hp)]; rfl
  rw [State.performWrite, hc, if_neg (by simp), if_pos hr, s.writeEach_ram]
  intro w hw
  exact h w.1 (List.of_mem_zip hw).1

theorem State.performWrite_split_bus {pas : List Word} (v : DWord) (hc : isContiguous pas = false)
    (h : ∃ b ∈ pas, isRam s.cfg b = false ∧ isMmio s.cfg b = false) : s.performWrite pas v = (none, s) := by
  obtain ⟨b, hb, h1⟩ := h
  have hr : ¬ pas.all (fun p => (route s.cfg p 1).isSome) = true := by
    rw [List.all_eq_true]
    intro ha
    have := ha b hb
    rw [route_one_none.2 h1] at this
    cases this
  rw [State.performWrite, hc, if_neg (by simp), if_neg hr]

/-! ### Byte by byte, to RAM or to handlers (R88) -/

/-- A byte is no hole exactly when a one-byte access to it goes somewhere (R84). -/
theorem not_isHole_iff {c : Config} {pa : Word} : isHole c pa = false ↔ (route c pa 1).isSome = true := by
  rw [isHole, ← Option.ne_none_iff_isSome, ne_eq, route_one_none]
  cases isRam c pa <;> cases isMmio c pa <;> simp

/-- An access that is not in one region of RAM goes to a handler, or nowhere (R84). -/
theorem route_mmio_of_not_ram {c : Config} {pa : Word} {n : Nat} (h : (route c pa n).isSome = true)
    (hr : inOne c.ramRegions pa n = false) : route c pa n = some .mmio := by
  unfold route at h ⊢
  rw [hr] at h ⊢
  simp only [Bool.false_eq_true, if_false] at h ⊢
  split at h
  · rename_i hm; rw [if_pos hm]
  · cases h

/-- One byte that is no hole goes to a handler exactly when it is in a handler's range. -/
theorem isMmio_eq_not_ram {c : Config} (hc : configOk c = true) {pa : Word} (h : isHole c pa = false) :
    isMmio c pa = !inOne c.ramRegions pa 1 := by
  rw [inOne_ram_one]
  have := not_ram_and_mmio hc pa
  unfold isHole at h
  revert h this
  cases isRam c pa <;> cases isMmio c pa <;> simp

/-- A read byte by byte over no hole (R88). -/
theorem State.readEach_units (hc : configOk s.cfg = true) (acc : Loaded) {pas : List Word}
    (h : ∀ b ∈ pas, isHole s.cfg b = false) :
    s.readEach acc pas =
      (some ⟨((s.unitsRead 1 pas).1.map (·.setWidth 8)).foldl beAppend acc.value,
        acc.viaHandler || pas.any (isMmio s.cfg)⟩, (s.unitsRead 1 pas).2) := by
  induction pas generalizing s acc with
  | nil => simp [State.readEach, State.unitsRead]
  | cons p ps ih =>
    have hp := h p (by simp)
    have hs := isMmio_eq_not_ram hc hp
    have ht : ∀ b ∈ ps, isHole s.cfg b = false := fun b hb => h b (by simp [hb])
    rw [State.readEach, State.unitsRead]
    cases hr : inOne s.cfg.ramRegions p 1
    · rw [s.memRead_mmio (route_mmio_of_not_ram (not_isHole_iff.1 hp) hr)]
      rw [hr] at hs
      dsimp only
      rw [ih (s.mmioRead p 1).2 hc _ ht]
      simp [hs]
    · rw [s.memRead_ram (route_eq_ram.2 hr)]
      rw [hr] at hs
      dsimp only
      rw [ih s hc _ ht]
      simp [hs]

/-- A read byte by byte stops at the first hole (R88). -/
theorem State.readEach_hole (acc : Loaded) {pre post : List Word} {b : Word}
    (h : ∀ c ∈ pre, isHole s.cfg c = false) (hb : isHole s.cfg b = true) :
    s.readEach acc (pre ++ b :: post) = (none, (s.unitsRead 1 pre).2) := by
  induction pre generalizing s acc with
  | nil =>
    rw [List.nil_append, State.readEach, s.memRead_bus]
    · rfl
    · rw [route_one_none]; unfold isHole at hb; simpa using hb
  | cons p ps ih =>
    have hp := not_isHole_iff.1 (h p (by simp))
    have ht : ∀ c ∈ ps, isHole s.cfg c = false := fun b hb => h b (by simp [hb])
    rw [List.cons_append, State.readEach, State.unitsRead]
    cases hr : inOne s.cfg.ramRegions p 1
    · rw [s.memRead_mmio (route_mmio_of_not_ram hp hr)]
      exact ih (s.mmioRead p 1).2 _ ht hb
    · rw [s.memRead_ram (route_eq_ram.2 hr)]
      exact ih s _ ht hb

/-- A write byte by byte over no hole (R88). -/
theorem State.writeEach_units (hc : configOk s.cfg = true) (via : Bool) {ws : List (Word × Byte)}
    (h : ∀ w ∈ ws, isHole s.cfg w.1 = false) :
    s.writeEach via ws = (via || ws.any fun w => isMmio s.cfg w.1,
      s.unitsWritten 1 (ws.map fun w => (w.1, w.2.setWidth 64))) := by
  induction ws generalizing s via with
  | nil => simp [State.writeEach, State.unitsWritten]
  | cons w ws ih =>
    have hp := h w (by simp)
    have hs := isMmio_eq_not_ram hc hp
    have ht : ∀ x ∈ ws, isHole s.cfg x.1 = false := fun b hb => h b (by simp [hb])
    rw [State.writeEach, List.map_cons, State.unitsWritten]
    cases hr : inOne s.cfg.ramRegions w.1 1
    · rw [s.memWrite_mmio _ (route_mmio_of_not_ram (not_isHole_iff.1 hp) hr)]
      rw [hr] at hs
      dsimp only
      rw [ih (s.mmioWrite w.1 1 _) hc _ ht]
      simp [hs]
    · rw [s.memWrite_ram _ (route_eq_ram.2 hr)]
      rw [hr] at hs
      dsimp only
      rw [ih (s.withMem (Memory.writeBE s.mem w.1 1 (w.2.setWidth 64))) hc _ ht]
      simp [hs]

/-- A read over bytes that are not contiguous, none in a hole (R88). -/
theorem State.performRead_units (h : configOk s.cfg = true) {pas : List Word} (hc : isContiguous pas = false)
    (hh : ∀ b ∈ pas, isHole s.cfg b = false) :
    s.performRead pas = (some ⟨beValue ((s.unitsRead 1 pas).1.map (·.setWidth 8)), pas.any (isMmio s.cfg)⟩,
      (s.unitsRead 1 pas).2) := by
  rw [State.performRead, hc, if_neg (by simp), s.readEach_units h _ hh]
  simp [beValue]

/-- A read over bytes that are not contiguous stops at the first hole (R88). -/
theorem State.performRead_hole {pre post : List Word} {b : Word} (hc : isContiguous (pre ++ b :: post) = false)
    (h : ∀ c ∈ pre, isHole s.cfg c = false) (hb : isHole s.cfg b = true) :
    s.performRead (pre ++ b :: post) = (none, (s.unitsRead 1 pre).2) := by
  rw [State.performRead, hc, if_neg (by simp), s.readEach_hole _ h hb]

theorem byteValues_eq (n : Nat) (d : DWord) : byteValues n d = (beBytes n d).map (·.setWidth 64) := by
  unfold byteValues beBytes beByte
  rw [List.map_map]
  refine List.map_congr_left fun j _ => ?_
  simp only [Function.comp]
  rw [show n - 1 - j = n - j - 1 by omega]
  refine BitVec.eq_of_getLsbD_eq fun i hi => ?_
  have low : ∀ i < 64, (0xFF#64).getLsbD i = decide (i < 8) := by decide
  rw [BitVec.getLsbD_and, low i hi]
  simp [hi, Bool.and_comm]

/-- A write over bytes that are not contiguous, none in a hole (R88). -/
theorem State.performWrite_units (h : configOk s.cfg = true) {pas : List Word} (d : DWord) (hn : pas.length ≤ 8)
    (hc : isContiguous pas = false) (hh : ∀ b ∈ pas, isHole s.cfg b = false) :
    s.performWrite pas (lowBytes pas.length d) =
      (some (pas.any (isMmio s.cfg)), s.unitsWritten 1 (pas.zip (byteValues pas.length d))) := by
  have hr : pas.all (fun p => (route s.cfg p 1).isSome) = true :=
    List.all_eq_true.2 fun p hp => not_isHole_iff.1 (hh p hp)
  rw [State.performWrite, hc, if_neg (by simp), if_pos hr, beBytes_lowBytes hn,
    s.writeEach_units h _ fun w hw => hh w.1 (List.of_mem_zip hw).1, byteValues_eq, List.zip_map_right]
  have e : (pas.zip (beBytes pas.length d)).map Prod.fst = pas := List.map_fst_zip (by simp)
  have ea : ((pas.zip (beBytes pas.length d)).any fun w => isMmio s.cfg w.1) = pas.any (isMmio s.cfg) := by
    conv_rhs => rw [← e, List.any_map]
    rfl
  rw [ea]
  rfl

/-! ### What any access may change -/

/-- `t` is `s` but for handler calls made since, none of them a fault message (R83). -/
def HandlerCalls (s t : State) : Prop :=
  t = { s with handlerCalls := t.handlerCalls, trace := t.trace } ∧
    ∃ sent : List Event, t.trace = s.trace ++ sent ∧ sent.filterMap Event.faultMsg = []

theorem HandlerCalls.refl : HandlerCalls s s := ⟨rfl, [], by simp, rfl⟩

theorem HandlerCalls.trans {s t u : State} (h : HandlerCalls s t) (k : HandlerCalls t u) : HandlerCalls s u := by
  obtain ⟨e, x, hx, hf⟩ := h
  obtain ⟨e', y, hy, hg⟩ := k
  refine ⟨?_, x ++ y, by rw [hy, hx, List.append_assoc], by rw [List.filterMap_append, hf, hg]; rfl⟩
  rw [e']
  rw [e]

theorem State.mmioRead_calls (pa : Word) (n : Nat) : HandlerCalls s (s.mmioRead pa n).2 :=
  ⟨rfl, [_], rfl, rfl⟩

theorem State.mmioWrite_calls (pa : Word) (n : Nat) (v : DWord) : HandlerCalls s (s.mmioWrite pa n v) :=
  ⟨rfl, [_], rfl, rfl⟩

/-- A read changes nothing but the record of handler calls (R94). -/
theorem State.memRead_calls (pa : Word) (n : Nat) : HandlerCalls s (s.memRead pa n).2 := by
  rcases h : route s.cfg pa n with _ | _ | _
  · rw [s.memRead_bus h]; exact .refl s
  · rw [s.memRead_ram h]; exact .refl s
  · rw [s.memRead_mmio h]; exact s.mmioRead_calls pa n

theorem State.readEach_calls (acc : Loaded) (pas : List Word) : HandlerCalls s (s.readEach acc pas).2 := by
  induction pas generalizing s acc with
  | nil => exact .refl s
  | cons p ps ih =>
    rw [State.readEach]
    have h := s.memRead_calls p 1
    rcases e : s.memRead p 1 with ⟨_ | l, t⟩
    · rw [e] at h; exact h
    · rw [e] at h; exact h.trans (ih t _)

theorem State.performRead_calls (pas : List Word) : HandlerCalls s (s.performRead pas).2 := by
  unfold State.performRead
  split
  · exact s.memRead_calls _ _
  · exact s.readEach_calls _ _

/-- `t` is `s` but for the backing store and for handler calls, none of them a fault message; the bytes outside
`pas` are unchanged, the canonical form is kept, and only RAM bytes are written. -/
structure Stores (s : State) (pas : List Word) (t : State) : Prop where
  calls : HandlerCalls (s.withMem t.mem) t
  wf : Memory.wf s.mem → Memory.wf t.mem
  outside : Memory.wf s.mem → ∀ b, b ∉ pas → t.mem.byte b = s.mem.byte b
  ram : memoryOk s.cfg s.mem → memoryOk s.cfg t.mem

theorem Stores.refl (pas : List Word) : Stores s pas s := ⟨.refl s, id, fun _ _ _ => rfl, id⟩

theorem Stores.mono {s t : State} {pas qas : List Word} (h : Stores s pas t) (hs : ∀ b ∈ pas, b ∈ qas) :
    Stores s qas t :=
  ⟨h.calls, h.wf, fun hw b hb => h.outside hw b fun hp => hb (hs b hp), h.ram⟩

theorem Stores.cfg {s t : State} {pas : List Word} (h : Stores s pas t) : t.cfg = s.cfg := by
  rw [h.calls.1]; rfl

theorem Stores.trans {s t u : State} {pas qas : List Word} (h : Stores s pas t) (k : Stores t qas u) :
    Stores s (pas ++ qas) u := by
  refine ⟨?_, fun hw => k.wf (h.wf hw), fun hw b hb => ?_, fun hm => ?_⟩
  · have e : HandlerCalls (s.withMem u.mem) (t.withMem u.mem) := by
      obtain ⟨e, x, hx, hf⟩ := h.calls
      refine ⟨?_, x, hx, hf⟩
      rw [e]; rfl
    exact e.trans k.calls
  · rw [List.mem_append, not_or] at hb
    rw [k.outside (h.wf hw) b hb.2, h.outside hw b hb.1]
  · have := k.ram (by rw [h.cfg]; exact h.ram hm)
    rwa [h.cfg] at this

theorem memoryOk_putByte {c : Config} {m : Memory} (h : memoryOk c m) {pa : Word} (hr : isRam c pa = true)
    (v : Byte) : memoryOk c (Memory.putByte m pa v) := by
  refine ⟨Memory.putByte_wf h.1 _ _, fun x hx => ?_⟩
  rcases Sparse.mem_set hx with ⟨rfl, -⟩ | hx
  · exact ⟨pa.isLt, by simpa using hr⟩
  · exact h.2 x hx

theorem memoryOk_putBytes {c : Config} {m : Memory} (h : memoryOk c m) {ws : List (Word × Byte)}
    (hr : ∀ w ∈ ws, isRam c w.1 = true) : memoryOk c (Memory.putBytes m ws) := by
  induction ws generalizing m with
  | nil => exact h
  | cons w ws ih =>
    exact ih (memoryOk_putByte h (hr w (by simp)) _) fun x hx => hr x (by simp [hx])

theorem memoryOk_writeBE {c : Config} {m : Memory} (h : memoryOk c m) {pa : Word} {n : Nat}
    (hr : ∀ i < n, isRam c (pa + BitVec.ofNat 32 i) = true) (v : DWord) :
    memoryOk c (Memory.writeBE m pa n v) := by
  refine memoryOk_putBytes h fun w hw => ?_
  obtain ⟨i, hi, e⟩ := mem_byteRun.1 (List.of_mem_zip hw).1
  rw [e]; exact hr i hi

theorem State.memWrite_stores {pa : Word} {n : Nat} (v : DWord) (hn : n ≤ 2 ^ 32) :
    Stores s (byteRun pa n) (s.memWrite pa n v).2 := by
  rcases h : route s.cfg pa n with _ | _ | _
  · rw [s.memWrite_bus v h]; exact .refl s _
  · rw [s.memWrite_ram v h]
    refine ⟨.refl _, fun hw => Memory.writeBE_wf hw _ _ _,
      fun hw b hb => Memory.byte_writeBE_of_not_mem hw _ hb, fun hm => ?_⟩
    exact memoryOk_writeBE hm (fun i hi => isRam_of_inOne (route_eq_ram.1 h) hn hi) _
  · rw [s.memWrite_mmio v h]
    exact ⟨s.mmioWrite_calls pa n v, id, fun _ _ _ => rfl, id⟩

theorem State.writeEach_stores (via : Bool) (ws : List (Word × Byte)) :
    Stores s (ws.map (·.1)) (s.writeEach via ws).2 := by
  induction ws generalizing s via with
  | nil => exact .refl s _
  | cons w ws ih =>
    have h := s.memWrite_stores (pa := w.1) (n := 1) (w.2.setWidth 64) (by omega)
    have e1 : byteRun w.1 1 = [w.1] := by simp [byteRun]
    rw [e1] at h
    rw [State.writeEach]
    rcases e : s.memWrite w.1 1 (w.2.setWidth 64) with ⟨_ | x, t⟩ <;> rw [e] at h <;>
      exact h.trans (ih t _)

theorem isContiguous_eq {pas : List Word} (h : isContiguous pas = true) :
    pas = byteRun (pas.headD 0#32) pas.length := by
  cases pas with
  | nil => rfl
  | cons p ps => simpa [isContiguous] using h

/-- A write changes nothing but the bytes of its plan and the record of handler calls; a `BUS` changes nothing
(R88). -/
theorem State.performWrite_stores {pas : List Word} (v : DWord) (hn : pas.length ≤ 2 ^ 32) :
    Stores s pas (s.performWrite pas v).2 ∧ ((s.performWrite pas v).1 = none → (s.performWrite pas v).2 = s) := by
  unfold State.performWrite
  split
  · rename_i hc
    have e := isContiguous_eq hc
    refine ⟨(s.memWrite_stores v hn).mono fun b hb => by rw [e]; exact hb, fun hb => ?_⟩
    rcases h : route s.cfg (pas.headD 0#32) pas.length with _ | _ | _
    · rw [s.memWrite_bus v h]
    · rw [s.memWrite_ram v h] at hb; cases hb
    · rw [s.memWrite_mmio v h] at hb; cases hb
  · split
    · refine ⟨(s.writeEach_stores false _).mono fun b hb => ?_, fun hb => by simp at hb⟩
      obtain ⟨w, hw, rfl⟩ := List.mem_map.1 hb
      exact (List.of_mem_zip hw).1
    · exact ⟨.refl s _, fun _ => rfl⟩

end Sys2Proof.Machine
end

