-- ==== Sys2Proof/Laws/Bats.lean ====
section
/-! SUPPORT. What the BAT rebuild writes: the blocks a pair covers, and the entries of a run of blocks. -/

namespace Sys2Proof.Machine

/-! ### Covered blocks -/

/-- The blocks under a mask: `hi` above bit `n`, `b`'s bits where the mask is 0. -/
theorem mem_blocksUnder {b m n hi e : Nat} :
    e ∈ blocksUnder b m n hi ↔ e / 2 ^ n = hi ∧ ∀ i < n, m.testBit i = false → e.testBit i = b.testBit i := by
  induction n generalizing hi with
  | zero => simp only [blocksUnder, List.mem_singleton]; simp
  | succ n ih =>
    have hd : e / 2 ^ (n + 1) = e / 2 ^ n / 2 := by rw [Nat.pow_succ, Nat.div_div_eq_div_mul]
    have ht : e.testBit n = decide (e / 2 ^ n % 2 = 1) := Nat.testBit_eq_decide_div_mod_eq
    unfold blocksUnder
    split
    · rename_i hm
      rw [List.mem_append, ih, ih, hd]
      constructor
      · rintro (⟨h, k⟩ | ⟨h, k⟩)
        all_goals
          refine ⟨by omega, fun i hi hf => ?_⟩
          rcases Nat.lt_succ_iff_lt_or_eq.mp hi with h' | rfl
          · exact k i h' hf
          · simp [hm] at hf
      · rintro ⟨h, k⟩
        have : e / 2 ^ n = 2 * hi ∨ e / 2 ^ n = 2 * hi + 1 := by omega
        exact this.imp (fun h => ⟨h, fun i hi => k i (by omega)⟩) fun h => ⟨h, fun i hi => k i (by omega)⟩
    · rename_i hm
      rw [ih, hd]
      have hb : (b.testBit n).toNat < 2 := Bool.toNat_lt _
      constructor
      · rintro ⟨h, k⟩
        refine ⟨by omega, fun i hi hf => ?_⟩
        rcases Nat.lt_succ_iff_lt_or_eq.mp hi with h' | rfl
        · exact k i h' hf
        · rw [ht, h]; cases b.testBit i <;> simp
      · rintro ⟨h, k⟩
        refine ⟨?_, fun i hi => k i (by omega)⟩
        have := k n (by omega) (by simpa using hm)
        rw [← this, ht]
        by_cases h2 : e / 2 ^ n % 2 = 1 <;> simp [h2] <;> omega

/-- The blocks under a mask ascend. -/
theorem blocksUnder_sorted (b m n hi : Nat) : (blocksUnder b m n hi).Pairwise (· < ·) := by
  induction n generalizing hi with
  | zero => simp [blocksUnder]
  | succ n ih =>
    unfold blocksUnder
    split
    · refine List.pairwise_append.mpr ⟨ih _, ih _, fun x hx y hy => ?_⟩
      have := (mem_blocksUnder.mp hx).1
      have := (mem_blocksUnder.mp hy).1
      by_contra hc
      have : y / 2 ^ n ≤ x / 2 ^ n := Nat.div_le_div_right (by omega)
      omega
    · exact ih _

/-- For a configured pair the blocks under the mask are those of the cover test of R211. -/
theorem mem_coveredBlocks {u : Word} (h : batConfigured u = true) (e : BitVec 15) :
    e.toNat ∈ coveredBlocks u ↔ batCovers u e = true := by
  have hc : batuBepi u &&& batuMask u = 0#15 := by
    simp only [batConfigured, Bool.and_eq_true, beq_iff_eq] at h; exact h.2
  have hb : ∀ i : Nat, ((batuBepi u).getLsbD i && (batuMask u).getLsbD i) = false := fun i => by
    have := congrArg (fun x => BitVec.getLsbD x i) hc
    simpa only [BitVec.getLsbD_and, BitVec.getLsbD_zero] using this
  rw [coveredBlocks, mem_blocksUnder, batCovers, beq_iff_eq]
  constructor
  · rintro ⟨-, k⟩
    refine BitVec.eq_of_getLsbD_eq fun i hi => ?_
    have := k i hi
    have hbi := hb i
    rw [BitVec.testBit_toNat, BitVec.testBit_toNat, BitVec.testBit_toNat] at this
    rw [BitVec.getLsbD_and, BitVec.getLsbD_not]
    cases hm : (batuMask u).getLsbD i
    · rw [this hm]; simp [hi]
    · rw [hm] at hbi; simpa using hbi.symm
  · intro k
    refine ⟨Nat.div_eq_of_lt e.isLt, fun i hi hf => ?_⟩
    rw [BitVec.testBit_toNat] at hf
    have := congrArg (fun x => BitVec.getLsbD x i) k
    rw [BitVec.testBit_toNat, BitVec.testBit_toNat]
    simp only [BitVec.getLsbD_and, BitVec.getLsbD_not, hf] at this
    rw [← this]; simp [hi]

theorem coveredBlocks_lt {u : Word} {e : Nat} (h : e ∈ coveredBlocks u) : e < 2 ^ 15 := by
  have := (mem_blocksUnder.mp h).1
  omega

theorem coveredBlocks_sorted (u : Word) : (coveredBlocks u).Pairwise (· < ·) := blocksUnder_sorted _ _ _ _

/-! ### Runs of blocks -/

/-- The entries of a run of ascending blocks ascend. -/
theorem runs_sorted {K : Nat} (f : Nat → Nat → Word) {bs : List Nat} (h : bs.Pairwise (· < ·)) :
    (bs.flatMap fun e => (List.range K).map fun q => (e * K + q, f e q)).Pairwise (fun p q => p.1 < q.1) := by
  rw [List.flatMap, List.pairwise_flatten]
  constructor
  · simp only [List.mem_map]
    rintro l ⟨e, -, rfl⟩
    exact List.pairwise_map.mpr (List.pairwise_lt_range.imp fun hab => Nat.add_lt_add_left hab _)
  · refine List.pairwise_map.mpr (h.imp fun {a b} hab x hx y hy => ?_)
    simp only [List.mem_map, List.mem_range] at hx hy
    obtain ⟨i, hi, rfl⟩ := hx
    obtain ⟨j, hj, rfl⟩ := hy
    have : (a + 1) * K ≤ b * K := Nat.mul_le_mul_right _ hab
    rw [Nat.add_mul] at this
    show a * K + i < b * K + j
    omega

theorem mem_runs {K : Nat} {f : Nat → Nat → Word} {bs : List Nat} {p : Nat × Word} :
    p ∈ (bs.flatMap fun e => (List.range K).map fun q => (e * K + q, f e q)) ↔
      ∃ e ∈ bs, ∃ q < K, p = (e * K + q, f e q) := by
  simp [List.mem_flatMap, eq_comm]

theorem block_index_inj {K a b i j : Nat} (hi : i < K) (hj : j < K) (h : a * K + i = b * K + j) :
    a = b ∧ i = j := by
  have ha : (a * K + i) / K = a := by rw [Nat.mul_comm, Nat.mul_add_div (by omega), Nat.div_eq_of_lt hi]; rfl
  have hb : (b * K + j) / K = b := by rw [Nat.mul_comm, Nat.mul_add_div (by omega), Nat.div_eq_of_lt hj]; rfl
  have : a = b := by rw [← ha, ← hb, h]
  subst this
  exact ⟨rfl, by omega⟩

/-- The entry at offset `q` of block `e` in a run of blocks. -/
theorem get_runs {K e q : Nat} (f : Nat → Nat → Word) {bs : List Nat} (h : bs.Pairwise (· < ·)) (hq : q < K) :
    Sparse.get 0#32 (bs.flatMap fun e => (List.range K).map fun q => (e * K + q, f e q)) (e * K + q) =
      if e ∈ bs then f e q else 0#32 := by
  split
  · rename_i he
    exact Sparse.get_of_mem (runs_sorted f h) (mem_runs.mpr ⟨e, he, q, hq, rfl⟩)
  · rename_i he
    refine Sparse.get_eq_default fun p hp hpe => ?_
    obtain ⟨e', he', q', hq', rfl⟩ := mem_runs.mp hp
    exact he ((block_index_inj hq' hq hpe).1 ▸ he')

theorem writeBlock_ofNat (c : Config) {e : Nat} (h : e < 2 ^ 15) (pb : BitVec 15) (wi : Bool) :
    writeBlock c (BitVec.ofNat 15 e) pb wi =
      (List.range (2 ^ (17 - c.s))).map fun q => (e * 2 ^ (17 - c.s) + q, batDescriptor c pb wi q) := by
  rw [writeBlock, BitVec.toNat_ofNat, Nat.mod_eq_of_lt h]

theorem batDescriptor_ne_zero (c : Config) (pb : BitVec 15) (wi : Bool) (i : Nat) :
    batDescriptor c pb wi i ≠ 0#32 := by
  intro h
  have := congrArg (fun x => BitVec.getLsbD x 0) h
  simp [batDescriptor, batFlags] at this

/-- The fake blocks ascend, and are those of R214. -/
theorem fakeBlocks_sorted (c : Config) : (fakeBlocks c).Pairwise (· < ·) :=
  List.pairwise_map.mpr (List.pairwise_lt_range.imp fun h => Nat.add_lt_add_left h _)

theorem mem_fakeBlocks {c : Config} {e : Nat} :
    e ∈ fakeBlocks c ↔ c.fakeBatStart.toNat / batGranule ≤ e ∧
      e ≤ (c.fakeBatStart.toNat + c.fakeBatLen - 1) / batGranule := by
  simp only [fakeBlocks, List.mem_map, List.mem_range]
  constructor
  · rintro ⟨i, hi, rfl⟩; omega
  · intro h; exact ⟨e - c.fakeBatStart.toNat / batGranule, by omega, by omega⟩

theorem pairRun_eq (c : Config) (p : BatPair) :
    pairRun c p = (coveredBlocks p.upper).flatMap fun e =>
      (List.range (2 ^ (17 - c.s))).map fun q => (e * 2 ^ (17 - c.s) + q,
        batDescriptor c (batFrame p (BitVec.ofNat 15 e)) (wimgWi p.lower) q) :=
  List.flatMap_congr fun _ he => writeBlock_ofNat c (coveredBlocks_lt he) _ _

theorem fakeBlocks_lt {c : Config} (hf : fakeRunOk c = true) (he : c.fakeBatEn = true) {e : Nat}
    (h : e ∈ fakeBlocks c) : e < 2 ^ 15 := by
  have := (mem_fakeBlocks.mp h).2
  simp [fakeRunOk, he, batGranule] at hf
  simp only [batGranule] at this
  omega

theorem fakeRun_eq {c : Config} (hf : fakeRunOk c = true) (he : c.fakeBatEn = true) :
    fakeRun c = (fakeBlocks c).flatMap fun e =>
      (List.range (2 ^ (17 - c.s))).map fun q => (e * 2 ^ (17 - c.s) + q,
        batDescriptor c (BitVec.ofNat 15 e) false q) := by
  rw [fakeRun, if_pos he]
  exact List.flatMap_congr fun _ h => writeBlock_ofNat c (fakeBlocks_lt hf he h) _ _

/-- What one pair writes at offset `q` of block `e` (R210, inner loop). -/
theorem get_pairRun (c : Config) {p : BatPair} (h : batConfigured p.upper = true) (e : BitVec 15) {q : Nat}
    (hq : q < 2 ^ (17 - c.s)) :
    Sparse.get 0#32 (pairRun c p) (e.toNat * 2 ^ (17 - c.s) + q) =
      if batCovers p.upper e then batDescriptor c (batFrame p e) (wimgWi p.lower) q else 0#32 := by
  rw [pairRun_eq, get_runs (fun e q => batDescriptor c (batFrame p (BitVec.ofNat 15 e)) (wimgWi p.lower) q)
    (coveredBlocks_sorted _) hq]
  simp only [mem_coveredBlocks h, BitVec.ofNat_toNat, BitVec.setWidth_eq]

/-- What the fake run writes at offset `q` of block `e` (R214). -/
theorem get_fakeRun (c : Config) (hf : fakeRunOk c = true) (e : BitVec 15) {q : Nat}
    (hq : q < 2 ^ (17 - c.s)) :
    Sparse.get 0#32 (fakeRun c) (e.toNat * 2 ^ (17 - c.s) + q) =
      if c.fakeBatEn = true ∧ e.toNat ∈ fakeBlocks c then batDescriptor c e false q else 0#32 := by
  by_cases he : c.fakeBatEn = true
  · rw [fakeRun_eq hf he, get_runs (fun e q => batDescriptor c (BitVec.ofNat 15 e) false q)
      (fakeBlocks_sorted c) hq]
    simp [he]
  · simp [fakeRun, he]

/-- A run of blocks below 2^15 is in canonical form and stays inside the table. -/
theorem runs_wf {K : Nat} {f : Nat → Nat → Word} {bs : List Nat} (h : bs.Pairwise (· < ·))
    (hf : ∀ e q, f e q ≠ 0#32) :
    Sparse.WF 0#32 (bs.flatMap fun e => (List.range K).map fun q => (e * K + q, f e q)) :=
  ⟨runs_sorted f h, fun p hp => by obtain ⟨e, -, q, -, rfl⟩ := mem_runs.mp hp; exact hf e q⟩

theorem pairRun_wf (c : Config) (p : BatPair) : Sparse.WF 0#32 (pairRun c p) := by
  rw [pairRun_eq]
  exact runs_wf (coveredBlocks_sorted _) fun _ _ => batDescriptor_ne_zero c _ _ _

theorem fakeRun_wf {c : Config} (hf : fakeRunOk c = true) : Sparse.WF 0#32 (fakeRun c) := by
  by_cases he : c.fakeBatEn = true
  · rw [fakeRun_eq hf he]
    exact runs_wf (fakeBlocks_sorted c) fun _ _ => batDescriptor_ne_zero c _ _ _
  · rw [fakeRun, if_neg he]; exact Sparse.WF.nil _

/-- A run of blocks below 2^15 stays inside the table. -/
theorem runs_lt {K : Nat} {f : Nat → Nat → Word} {bs : List Nat} (h : ∀ e ∈ bs, e < 2 ^ 15) :
    ∀ p ∈ (bs.flatMap fun e => (List.range K).map fun q => (e * K + q, f e q)), p.1 < 2 ^ 15 * K := by
  intro p hp
  obtain ⟨e, he, q, hq, rfl⟩ := mem_runs.mp hp
  have : (e + 1) * K ≤ 2 ^ 15 * K := Nat.mul_le_mul_right _ (h e he)
  rw [Nat.add_mul] at this
  show e * K + q < _
  omega

theorem pairRun_lt (c : Config) (p : BatPair) : ∀ x ∈ pairRun c p, x.1 < 2 ^ 15 * 2 ^ (17 - c.s) := by
  rw [pairRun_eq]
  exact runs_lt fun _ => coveredBlocks_lt

theorem fakeRun_lt {c : Config} (hf : fakeRunOk c = true) : ∀ x ∈ fakeRun c, x.1 < 2 ^ 15 * 2 ^ (17 - c.s) := by
  by_cases he : c.fakeBatEn = true
  · rw [fakeRun_eq hf he]
    exact runs_lt fun _ => fakeBlocks_lt hf he
  · simp [fakeRun, he]

end Sys2Proof.Machine
end

