-- ==== Sys2Proof/Laws/CacheLine.lean ====
section
/-! SUPPORT. A response as it is written (R128), and what the pieces, a block and a whole locked-cache copy can do
(R286). -/

namespace Sys2Proof.Machine

variable (s : State)

/-! ### A response as it is written (R126, R128) -/

@[simp] theorem Response.ended_status (r : Response) : r.ended.status = r.status := by unfold Response.ended; split <;> rfl
@[simp] theorem Response.ended_data (r : Response) : r.ended.data = r.data := by unfold Response.ended; split <;> rfl
@[simp] theorem Response.ended_addr (r : Response) : r.ended.addr = r.addr := by unfold Response.ended; split <;> rfl
@[simp] theorem Response.ended_len (r : Response) : r.ended.len = r.len := by unfold Response.ended; split <;> rfl
@[simp] theorem Response.ended_str (r : Response) : r.ended.str = r.str := by unfold Response.ended; split <;> rfl
@[simp] theorem Response.ended_snapOut (r : Response) : r.ended.snapOut = r.snapOut := by unfold Response.ended; split <;> rfl

/-- A status other than `OK` leaves no flag (R128). -/
theorem Response.ended_flags (r : Response) : r.ended.flags = if r.status = .ok then r.flags else Flags.none := by
  unfold Response.ended; split <;> rfl

@[simp] theorem DmaStop.response_status (x : DmaStop) : x.response.status = x.status := by simp [DmaStop.response]

/-! ### Pieces, blocks, the whole copy (R286) -/

/-- The bytes of the four pieces of a block. -/
def dmaBytes (a : Word) : List Word := (dmaPieces a).flatMap fun p => byteRun p 8

/-- The reads of a block change nothing but the record of handler calls (R286). -/
theorem State.readPieces_calls (via : Bool) (ps : List Word) : HandlerCalls s (s.readPieces via ps).2 := by
  induction ps generalizing s via with
  | nil => exact .refl s
  | cons p ps ih =>
    rw [State.readPieces]
    have h := s.memRead_calls p 8
    split <;> rename_i e <;> rw [e] at h <;> exact h.trans (ih _ _)

/-- Reading pieces that are all RAM: their values, and no handler (R286). -/
theorem State.readPieces_ram (via : Bool) {ps : List Word} (h : ∀ p ∈ ps, route s.cfg p 8 = some .ram) :
    s.readPieces via ps = ((ps.map fun p => Memory.readBE s.mem p 8, via), s) := by
  induction ps generalizing via with
  | nil => rfl
  | cons p ps ih =>
    rw [State.readPieces, s.memRead_ram (h p (by simp))]
    dsimp only
    rw [ih _ fun q hq => h q (by simp [hq])]
    simp

/-- The writes of a block change nothing but its bytes and the record of handler calls (R286). -/
theorem State.writePieces_stores (via : Bool) (ws : List (Word × DWord)) :
    Stores s (ws.flatMap fun w => byteRun w.1 8) (s.writePieces via ws).2 := by
  induction ws generalizing s via with
  | nil => exact .refl s _
  | cons w ws ih =>
    have h := s.memWrite_stores (pa := w.1) (n := 8) w.2 (by omega)
    rw [State.writePieces]
    split <;> rename_i e <;> rw [e] at h <;> exact h.trans (ih _ _)

/-- Writing pieces that are all RAM (R286). -/
theorem State.writePieces_ram (via : Bool) {ws : List (Word × DWord)}
    (h : ∀ w ∈ ws, route s.cfg w.1 8 = some .ram) :
    s.writePieces via ws = (via, s.withMem (ws.foldl (fun m w => Memory.writeBE m w.1 8 w.2) s.mem)) := by
  induction ws generalizing s via with
  | nil => rfl
  | cons w ws ih =>
    rw [State.writePieces, s.memWrite_ram _ (h w (by simp))]
    dsimp only
    refine (ih (s.withMem (Memory.writeBE s.mem w.1 8 w.2)) (via || false) (by
      intro q hq; exact h q (by simp [hq]))).trans ?_
    simp [State.withMem]

/-- As many values are read as there are addresses. -/
@[simp] theorem State.unitsRead_length (n : Nat) (pas : List Word) : (s.unitsRead n pas).1.length = pas.length := by
  induction pas generalizing s with
  | nil => rfl
  | cons p ps ih =>
    rw [State.unitsRead]
    split <;> simp [ih]

theorem HandlerCalls.stores {s t : State} (h : HandlerCalls s t) (pas : List Word) : Stores s pas t := by
  have hm : t.mem = s.mem := by rw [h.1]
  have hw : s.withMem t.mem = s := by rw [hm]; rfl
  refine ⟨by rwa [hw], fun h => by rwa [hm], fun _ _ _ => by rw [hm], fun h => by rwa [hm]⟩

/-- When a block is copied, and what it changes (R286). -/
theorem State.dmaBlock_stores (sk dk : Word) (lcIsSrc : Bool) :
    ((s.dmaBlock sk dk lcIsSrc).isSome =
      (inLockedCache s.cfg (if lcIsSrc then sk else dk) && dmaReachable s.cfg sk dk)) ∧
    ∀ r, s.dmaBlock sk dk lcIsSrc = some r → Stores s (dmaBytes dk) r.2 := by
  unfold State.dmaBlock
  cases hc : (inLockedCache s.cfg (if lcIsSrc = true then sk else dk) && dmaReachable s.cfg sk dk)
  · exact ⟨rfl, fun r hr => by cases hr⟩
  · refine ⟨rfl, fun r hr => ?_⟩
    rw [if_pos rfl, Option.some.injEq] at hr
    subst hr
    have h1 := (s.readPieces_calls false (dmaPieces sk)).stores []
    refine (h1.trans ((s.readPieces false (dmaPieces sk)).2.writePieces_stores
      (s.readPieces false (dmaPieces sk)).1.2 ((dmaPieces dk).zip (s.readPieces false (dmaPieces sk)).1.1))).mono
      fun b hb => ?_
    rw [List.nil_append, List.mem_flatMap] at hb
    obtain ⟨w, hw, hb⟩ := hb
    exact List.mem_flatMap.mpr ⟨w.1, (List.of_mem_zip hw).1, hb⟩

/-- A copy changes nothing but the bytes of its destination and the record of handler calls, and it ends `OK` or
`BUS_ERROR` (R286). -/
theorem State.dmaBlocks_stores (sk dk : Word) (lcIsSrc : Bool) (done : Nat) (via : Bool) (n : Nat) :
    Stores s ((List.range n).flatMap fun k => dmaBytes (dk + BitVec.ofNat 32 (32 * k)))
        (s.dmaBlocks sk dk lcIsSrc done via n).2 ∧
      ((s.dmaBlocks sk dk lcIsSrc done via n).1.status = .ok ∨
        (s.dmaBlocks sk dk lcIsSrc done via n).1.status = .busError) := by
  induction n generalizing s sk dk done via with
  | zero => exact ⟨.refl s _, .inl rfl⟩
  | succ n ih =>
    rw [State.dmaBlocks]
    have h := (s.dmaBlock_stores sk dk lcIsSrc).2
    split
    · exact ⟨.refl s _, .inr rfl⟩
    · rename_i e
      obtain ⟨h1, h2⟩ := ih (s := ‹State›) (sk + 32#32) (dk + 32#32) (done + 1) (via || ‹Bool›)
      refine ⟨((h _ e).trans h1).mono fun b hb => ?_, h2⟩
      rw [List.mem_flatMap]
      rcases List.mem_append.mp hb with hb | hb
      · exact ⟨0, by simp, by simpa using hb⟩
      · obtain ⟨k, hk, hb⟩ := List.mem_flatMap.mp hb
        rw [List.mem_range] at hk
        refine ⟨k + 1, List.mem_range.mpr (by omega), ?_⟩
        rw [BitVec.add_assoc] at hb
        have : (32#32 + BitVec.ofNat 32 (32 * k)) = BitVec.ofNat 32 (32 * (k + 1)) := by
          rw [show 32 * (k + 1) = 32 + 32 * k by omega, BitVec.ofNat_add]
        rwa [this] at hb

/-- The reads of a block that all go somewhere (R286). -/
theorem State.readPieces_units (via : Bool) {ps : List Word} (h : ∀ p ∈ ps, (route s.cfg p 8).isSome = true) :
    s.readPieces via ps = (((s.unitsRead 8 ps).1, via || ps.any fun p => !inOne s.cfg.ramRegions p 8),
      (s.unitsRead 8 ps).2) := by
  induction ps generalizing s via with
  | nil => simp [State.readPieces, State.unitsRead]
  | cons p ps ih =>
    have ht : ∀ q ∈ ps, (route s.cfg q 8).isSome = true := fun q hq => h q (by simp [hq])
    rw [State.readPieces, State.unitsRead]
    cases hr : inOne s.cfg.ramRegions p 8
    · rw [s.memRead_mmio (route_mmio_of_not_ram (h p (by simp)) hr)]
      dsimp only
      rw [ih (s.mmioRead p 8).2 _ ht]
      simp [hr]
    · rw [s.memRead_ram (route_eq_ram.2 hr)]
      dsimp only
      rw [ih s _ ht]
      simp [hr]

/-- The writes of a block that all go somewhere (R286). -/
theorem State.writePieces_units (via : Bool) {ws : List (Word × DWord)}
    (h : ∀ w ∈ ws, (route s.cfg w.1 8).isSome = true) :
    s.writePieces via ws = (via || ws.any fun w => !inOne s.cfg.ramRegions w.1 8, s.unitsWritten 8 ws) := by
  induction ws generalizing s via with
  | nil => simp [State.writePieces, State.unitsWritten]
  | cons w ws ih =>
    have ht : ∀ q ∈ ws, (route s.cfg q.1 8).isSome = true := fun q hq => h q (by simp [hq])
    rw [State.writePieces, State.unitsWritten]
    cases hr : inOne s.cfg.ramRegions w.1 8
    · rw [s.memWrite_mmio _ (route_mmio_of_not_ram (h w (by simp)) hr)]
      dsimp only
      rw [ih (s.mmioWrite w.1 8 w.2) _ ht]
      simp [hr]
    · rw [s.memWrite_ram _ (route_eq_ram.2 hr)]
      dsimp only
      rw [ih (s.withMem (Memory.writeBE s.mem w.1 8 w.2)) _ ht]
      simp [hr]

theorem dmaPieces_reach {c : Config} {sk dk : Word} (h : dmaReachable c sk dk = true) :
    (∀ p ∈ dmaPieces sk, (route c p 8).isSome = true) ∧ ∀ p ∈ dmaPieces dk, (route c p 8).isSome = true := by
  rw [dmaReachable, Bool.and_eq_true, List.all_eq_true, List.all_eq_true] at h
  exact h

/-- What a block does (R286): nothing when it is bad; else the copy, with whether a handler was called. -/
theorem State.dmaBlock_copied (src dst : Word) (lcIsSrc : Bool) (k : Nat) :
    s.dmaBlock (dmaStart src k) (dmaStart dst k) lcIsSrc =
      if dmaBlockOk s.cfg src dst lcIsSrc k then
        some ((dmaPieces (dmaStart src k) ++ dmaPieces (dmaStart dst k)).any
          fun p => !inOne s.cfg.ramRegions p 8, s.copiedBlock src dst k)
      else none := by
  unfold State.dmaBlock dmaBlockOk
  cases hc : (inLockedCache s.cfg (if lcIsSrc = true then dmaStart src k else dmaStart dst k) &&
    dmaReachable s.cfg (dmaStart src k) (dmaStart dst k))
  · rfl
  · rw [Bool.and_eq_true] at hc
    obtain ⟨hs, hd⟩ := dmaPieces_reach hc.2
    have hcfg : (s.unitsRead 8 (dmaPieces (dmaStart src k))).2.cfg = s.cfg := by
      have := (s.readPieces_calls false (dmaPieces (dmaStart src k))).1
      rw [s.readPieces_units _ hs] at this
      rw [this]
    have hl : (s.unitsRead 8 (dmaPieces (dmaStart src k))).1.length = 4 := by
      rw [State.unitsRead_length]; rfl
    rw [if_pos rfl, if_pos rfl, s.readPieces_units _ hs]
    dsimp only
    rw [State.writePieces_units _ _ (by intro w hw; rw [hcfg]; exact hd _ (List.of_mem_zip hw).1), hcfg]
    have e : ((dmaPieces (dmaStart dst k)).zip (s.unitsRead 8 (dmaPieces (dmaStart src k))).1).map Prod.fst =
        dmaPieces (dmaStart dst k) := List.map_fst_zip (by rw [hl]; rfl)
    have ea : (((dmaPieces (dmaStart dst k)).zip (s.unitsRead 8 (dmaPieces (dmaStart src k))).1).any
        fun w => !inOne s.cfg.ramRegions w.1 8) =
          (dmaPieces (dmaStart dst k)).any fun p => !inOne s.cfg.ramRegions p 8 := by
      conv_rhs => rw [← e, List.any_map]
      rfl
    rw [ea, List.any_append, Bool.false_or]
    rfl

/-- A copied block leaves the configuration as it is. -/
theorem State.copiedBlock_cfg {src dst : Word} {lcIsSrc : Bool} {k : Nat}
    (h : dmaBlockOk s.cfg src dst lcIsSrc k = true) : (s.copiedBlock src dst k).cfg = s.cfg := by
  have e := s.dmaBlock_copied src dst lcIsSrc k
  rw [h, if_pos rfl] at e
  exact ((s.dmaBlock_stores _ _ lcIsSrc).2 _ e).cfg

theorem dmaStart_succ (a : Word) (k : Nat) : dmaStart a k + 32#32 = dmaStart a (k + 1) := by
  rw [dmaStart, dmaStart, BitVec.add_assoc, Nat.mul_add, BitVec.ofNat_add]

/-- What the loop over blocks does from block `j` when all of them are good (R286). -/
theorem State.dmaBlocks_copied (src dst : Word) (lcIsSrc : Bool) (j : Nat) (via : Bool) (m : Nat)
    (h : ∀ k, j ≤ k → k < j + m → dmaBlockOk s.cfg src dst lcIsSrc k = true) :
    s.dmaBlocks (dmaStart src j) (dmaStart dst j) lcIsSrc j via m =
      (⟨.ok, j + m, via || (List.range m).any fun i =>
          (dmaPieces (dmaStart src (j + i)) ++ dmaPieces (dmaStart dst (j + i))).any
            fun p => !inOne s.cfg.ramRegions p 8⟩,
        (List.range m).foldl (fun t i => t.copiedBlock src dst (j + i)) s) := by
  induction m generalizing s j via with
  | zero => simp [State.dmaBlocks]
  | succ m ih =>
    have h0 := h j (by omega) (by omega)
    have hc := s.copiedBlock_cfg h0
    rw [State.dmaBlocks, s.dmaBlock_copied, h0, if_pos rfl]
    dsimp only
    rw [dmaStart_succ, dmaStart_succ, ih (s.copiedBlock src dst j) (j + 1) _ (by
      rw [hc]; intro k h1 h2; exact h k (by omega) (by omega)), hc]
    rw [List.range_succ_eq_map, List.any_cons, List.any_map, List.foldl_cons, List.foldl_map]
    have ei : ∀ i, j + 1 + i = j + i.succ := by intro i; omega
    simp only [Bool.or_assoc, Nat.add_zero, Function.comp_def, ei]

end Sys2Proof.Machine
end

