-- ==== Sys2Proof/Laws/Host.lean ====
section
/-! SUPPORT. What one translation, one plan, and the shared bodies of the host and DMA commands can change. -/

namespace Sys2Proof.Machine

variable (s : State)

/-! ### Translation and planning -/

theorem State.touchPte_mem (pte : Word) (store : Bool) : ∃ mem, s.touchPte pte store = s.withMem mem := by
  unfold State.touchPte State.ramWrite32
  split
  · exact ⟨s.mem, rfl⟩
  · split
    · exact ⟨_, rfl⟩
    · exact ⟨s.mem, rfl⟩

theorem State.withTlb_self (d : Side) : s.withTlb d (s.tlb d) = s := by cases d <;> rfl

/-- A translation changes nothing but its own side's cache and the backing store, and under a mode that does
not mutate nothing at all (R94, R187). -/
theorem State.translate_owned (m : Mode) (ea : Word) (v : Bool) :
    (∃ tlb mem, (s.translate m ea v).2 = (s.withTlb m.side tlb).withMem mem) ∧
      (m.mutates = false → (s.translate m ea v).2 = s) := by
  have same : ∃ tlb mem, s = (s.withTlb m.side tlb).withMem mem :=
    ⟨s.tlb m.side, s.mem, by rw [s.withTlb_self]; rfl⟩
  have walk : ∀ t : State, (∃ tlb mem, (t.walk m ea).2 = (t.withTlb m.side tlb).withMem mem) ∧
      (m.mutates = false → (t.walk m ea).2 = t) := by
    intro t
    have self : ∃ tlb mem, t = (t.withTlb m.side tlb).withMem mem :=
      ⟨t.tlb m.side, t.mem, by rw [t.withTlb_self]; rfl⟩
    rcases State.walk_cases (Prod.mk.eta (p := t.walk m ea)).symm with
      ⟨-, -, e⟩ | ⟨pte, -, ⟨-, -, e⟩ | ⟨-, -, ⟨-, e⟩ | ⟨hm, e⟩⟩⟩
    · rw [e]; exact ⟨self, fun _ => rfl⟩
    · rw [e]; exact ⟨self, fun _ => rfl⟩
    · rw [e]; exact ⟨self, fun _ => rfl⟩
    · rw [e]
      obtain ⟨mem, hmem⟩ := t.touchPte_mem pte m.isStore
      refine ⟨⟨Sparse.set TlbSet.empty (t.tlb m.side) (setIndex t.cfg ea)
        ((t.tlbSet m.side (setIndex t.cfg ea)).fill (eaPage ea) (pteTouched (t.ramRead32 (pte + 4#32)) m.isStore)), mem, ?_⟩,
        fun h => by rw [hm] at h; cases h⟩
      rw [hmem]; cases m <;> rfl
  rcases s.translate_cases m ea v with ⟨-, e⟩ | ⟨-, -, e⟩ | ⟨-, -, e⟩
  · rw [e]; exact ⟨same, fun _ => rfl⟩
  · rw [e]; exact ⟨same, fun _ => rfl⟩
  · rw [e]
    rcases s.translatePage_cases m ea with ⟨-, e⟩ | ⟨-, -, -, e⟩ | ⟨-, -, e⟩ | ⟨-, w, -, ⟨-, e⟩ | ⟨-, hs, -, e⟩ | ⟨-, -, e⟩⟩
    · rw [e]; exact ⟨same, fun _ => rfl⟩
    · rw [e]; exact ⟨same, fun _ => rfl⟩
    · rw [e]; exact walk s
    · rw [e]; exact ⟨same, fun _ => rfl⟩
    · rw [e]
      obtain ⟨⟨tlb, mem, h⟩, -⟩ := walk (s.withTlbSet m.side (setIndex s.cfg ea)
        ((s.tlbSet m.side (setIndex s.cfg ea)).dropWay w))
      exact ⟨⟨tlb, mem, by rw [h]; cases m <;> rfl⟩, fun h => by cases m <;> simp [Mode.isStore, Mode.mutates] at hs h⟩
    · rw [e]
      cases hm : m.mutates
      · exact ⟨by simpa using same, fun _ => by simp⟩
      · refine ⟨⟨Sparse.set TlbSet.empty (s.tlb m.side) (setIndex s.cfg ea)
          { s.tlbSet m.side (setIndex s.cfg ea) with recent := w }, s.mem, ?_⟩, fun h => by cases h⟩
        cases m <;> rfl

theorem Side.hostMode_pure (side : Side) : side.hostMode.mutates = false := by cases side <;> rfl

/-- A host translation changes nothing (R310). -/
theorem hostTranslator_pure (sp : Space) {m : Mode} (h : m.mutates = false) (a : Word) :
    (hostTranslator sp m a s).2 = s := by
  cases sp
  · exact (s.translate_owned m a false).2 h
  · rfl
  · exact (s.translate_owned m a true).2 h
  · rfl

/-- A plan over a translator that changes nothing changes nothing. -/
theorem planAccess_pure {tr : Word → State → Translation × State} (h : ∀ a, (tr a s).2 = s) (ea : Word) (n : Nat) :
    (planAccess tr ea n s).2 = s := by
  unfold planAccess
  have h1 := h ea
  rcases e1 : tr ea s with ⟨t1, s1⟩
  rw [e1] at h1
  dsimp only at h1 ⊢
  subst h1
  split
  · rfl
  · split
    · rfl
    · have h2 := h (secondPage ea n)
      rcases e2 : tr (secondPage ea n) s1 with ⟨t2, s2⟩
      rw [e2] at h2
      dsimp only at h2 ⊢
      split <;> exact h2

/-- A plan has at most as many bytes as the access. -/
theorem planAccess_length {tr : Word → State → Translation × State} {ea : Word} {n : Nat} {s s' : State} {p : Plan}
    (h : planAccess tr ea n s = (.ok p, s')) : p.pas.length = n := by
  unfold planAccess at h
  split at h
  split at h
  · cases h
  · split at h
    · cases h; simp
    · split at h
      split at h
      · cases h
      · cases h; simp

@[simp] theorem State.hostPlan_snd (sp : Space) (side : Side) (ea : Word) (n : Nat) :
    (s.hostPlan sp side ea n).2 = s :=
  planAccess_pure s (fun a => hostTranslator_pure s sp side.hostMode_pure a) ea n

/-! ### The shared bodies of the host commands -/

theorem not_isMmio_of_allRam {c : Config} (h : configOk c = true) {pas : List Word} (ha : allRam c pas = true) :
    ∀ b ∈ pas, isMmio c b = false := by
  intro b hb
  have hr : isRam c b = true := by rw [allRam, List.all_eq_true] at ha; exact ha b hb
  have := not_ram_and_mmio h b
  cases hm : isMmio c b
  · rfl
  · simp [hr, hm] at this

/-- A host read changes nothing but the record of handler calls (R310, R312). -/
theorem State.hostLoad_calls (sp : Space) (n : Nat) (a : Word) (ramOnly : Bool) :
    HandlerCalls s (s.hostLoad sp n a ramOnly).2 := by
  unfold State.hostLoad
  have h := s.hostPlan_snd sp .data a n
  rcases e : s.hostPlan sp .data a n with ⟨_ | _, s1⟩ <;> rw [e] at h <;> dsimp only at h ⊢ <;> subst h
  · split
    · exact .refl _
    · have h := s1.performRead_calls (‹Plan›).pas
      split <;> rename_i e' <;> rw [e'] at h <;> exact h
  · exact .refl _

/-- Reading bytes that are all RAM calls no handler (R84, R88). -/
theorem State.performRead_allRam (h : configOk s.cfg = true) {pas : List Word} (ha : allRam s.cfg pas = true)
    (h0 : pas ≠ []) (hn : pas.length ≤ 2 ^ 32) :
    (s.performRead pas).2 = s ∧ ∀ l, (s.performRead pas).1 = some l → l.viaHandler = false := by
  have hr : ∀ b ∈ pas, isRam s.cfg b = true := by rwa [allRam, List.all_eq_true] at ha
  cases hc : isContiguous pas
  · rw [s.performRead_split hc hr]
    exact ⟨rfl, fun l hl => by cases hl; rfl⟩
  · unfold State.performRead
    rw [if_pos hc]
    have hlen : 0 < pas.length := List.length_pos_iff.mpr h0
    rcases e : route s.cfg (pas.headD 0#32) pas.length with _ | _ | _
    · rw [s.memRead_bus e]; exact ⟨rfl, fun l hl => by cases hl⟩
    · rw [s.memRead_ram e]; exact ⟨rfl, fun l hl => by cases hl; rfl⟩
    · exfalso
      have hm : inOne s.cfg.mmioRanges (pas.headD 0#32) pas.length = true := by
        unfold route at e
        split at e
        · cases e
        · split at e
          · assumption
          · cases e
      have h1 := inOne_part hm (i := 0) (k := 1) hn (by omega) (by omega)
      rw [inOne_mmio_one] at h1
      have hb : pas.headD 0#32 ∈ pas := by cases pas with | nil => exact absurd rfl h0 | cons p ps => simp
      have := not_isMmio_of_allRam h ha _ hb
      rw [show pas.headD 0#32 + BitVec.ofNat 32 0 = pas.headD 0#32 by simp] at h1
      rw [this] at h1; cases h1

/-- A read of the `TRY` forms changes nothing (R316). -/
theorem State.hostLoad_try (h : configOk s.cfg = true) (sp : Space) {n : Nat} (h0 : 0 < n) (hn : n ≤ 8) (a : Word) :
    (s.hostLoad sp n a true).2 = s := by
  unfold State.hostLoad
  have hp := s.hostPlan_snd sp .data a n
  rcases e : s.hostPlan sp .data a n with ⟨p | _, s1⟩ <;> rw [e] at hp <;> dsimp only at hp ⊢ <;> subst hp
  · have hl := planAccess_length e
    split
    · rfl
    · rename_i ha
      have hr := s1.performRead_allRam h (pas := p.pas) (by simpa using ha)
        (by intro h; rw [h] at hl; simp at hl; omega) (by omega)
      split <;> rename_i e' <;> rw [e'] at hr <;> exact hr.1
  · rfl

/-- Reading a string changes nothing (R330). -/
theorem State.hostString_snd (h : configOk s.cfg = true) (sp : Space) {w : Nat} (h0 : 0 < w) (hw : w ≤ 8) (a : Word)
    (n : Nat) : (s.hostString sp w a n).2 = s := by
  induction n generalizing a with
  | zero => rfl
  | succ n ih =>
    rw [State.hostString]
    have h1 := s.hostLoad_try h sp h0 hw a
    split <;> rename_i e <;> rw [e] at h1 <;> dsimp only at h1 <;> subst h1
    · rfl
    · split
      · rfl
      · exact ih _

/-- A string has at most the elements asked for (R330). -/
theorem State.hostString_length (sp : Space) (w : Nat) (a : Word) (n : Nat) :
    (s.hostString sp w a n).1.1.length ≤ n := by
  induction n generalizing s a with
  | zero => exact Nat.le_refl 0
  | succ n ih =>
    rw [State.hostString]
    split
    · exact Nat.zero_le _
    · split
      · exact Nat.zero_le _
      · exact Nat.succ_le_succ (ih _ _)

/-- A host write changes nothing but the bytes of its plan and the record of handler calls; a failure changes
nothing (R310, R320). -/
theorem State.hostStore_stores (sp : Space) {n : Nat} (hn : n ≤ 8) (a : Word) (v : DWord) (ramOnly : Bool) :
    Stores s (match (s.hostPlan sp .data a n).1 with | .ok p => p.pas | .fail _ _ => [])
        (s.hostStore sp n a v ramOnly).2 ∧
      ((s.hostStore sp n a v ramOnly).1 = none → (s.hostStore sp n a v ramOnly).2 = s) := by
  unfold State.hostStore
  have h := s.hostPlan_snd sp .data a n
  rcases e : s.hostPlan sp .data a n with ⟨p | _, s1⟩ <;> rw [e] at h <;> dsimp only at h ⊢ <;> subst h
  · have hl := planAccess_length e
    split
    · exact ⟨.refl _ _, fun _ => rfl⟩
    · have h := s1.performWrite_stores (pas := p.pas) v (by omega)
      split <;> rename_i e' <;> rw [e'] at h
      · exact ⟨h.1, fun _ => h.2 rfl⟩
      · exact ⟨h.1, fun h => by cases h⟩
  · exact ⟨.refl _ _, fun _ => rfl⟩

end Sys2Proof.Machine
end

