-- ==== Sys2Proof/Laws/PerInstr.lean ====
section
/-! SUPPORT. The per-instruction family `OwnRow`: the word of a command selects its own row of the opcode map,
the row the spec prints for its mnemonic (`30_encoding.md` R129), whatever its fields hold. -/

namespace Sys2Proof.Laws

/-- The fields of a word with a count below a row's `match` (R123). -/
theorem withCount_mask (row mask : Word) (n : BitVec 16) (h : row &&& mask = row)
    (hm : mask &&& 0xFFFF#32 = 0#32) : withCount row n &&& mask = row := by
  have h0 : n.setWidth 32 &&& mask = 0#32 := by
    have : n.setWidth 32 = n.setWidth 32 &&& 0xFFFF#32 := by
      apply BitVec.eq_of_getLsbD_eq
      intro i hi
      rcases Nat.lt_or_ge i 16 with h | h
      · simp [BitVec.getLsbD_and, show (0xFFFF#32).getLsbD i = true by interval_cases i <;> rfl]
      · simp [BitVec.getLsbD_and, BitVec.getLsbD_setWidth, BitVec.getLsbD_of_ge n i h]
    rw [this, BitVec.and_assoc, BitVec.and_comm _ mask, hm, BitVec.and_zero]
  rw [withCount, BitVec.and_comm, BitVec.and_or_distrib_left, BitVec.and_comm mask row, h,
    BitVec.and_comm mask, h0, BitVec.or_zero]

namespace OwnRow

/-- The row of the opcode map a command's word selects, as R129 prints it: (`match`, `mask`). -/
def row : Instr → Word × Word
  | .read8 => (0x04000000#32, 0xFFFFFFFF#32)
  | .read16 => (0x05000000#32, 0xFFFFFFFF#32)
  | .read32 => (0x06000000#32, 0xFFFFFFFF#32)
  | .read64 => (0x07000000#32, 0xFFFFFFFF#32)
  | .write8 => (0x08000000#32, 0xFFFFFFFF#32)
  | .write16 => (0x09000000#32, 0xFFFFFFFF#32)
  | .write32 => (0x0A000000#32, 0xFFFFFFFF#32)
  | .write64 => (0x0B000000#32, 0xFFFFFFFF#32)
  | .readOpcode => (0x0C000000#32, 0xFFFFFFFF#32)
  | .tryReadInst => (0x10000000#32, 0xFFFFFFFF#32)
  | .dclClear => (0x20000000#32, 0xFFFFFFFF#32)
  | .dclStore => (0x24000000#32, 0xFFFFFFFF#32)
  | .dclInvalidate => (0x28000000#32, 0xFFFFFFFF#32)
  | .dclFlush => (0x2C000000#32, 0xFFFFFFFF#32)
  | .dclTouch => (0x30000000#32, 0xFFFFFFFF#32)
  | .dmaLcToMem _ => (0x38000000#32, 0xFFFF0000#32)
  | .dmaMemToLc _ => (0x3C000000#32, 0xFFFF0000#32)
  | .sdrUpdated => (0x40000000#32, 0xFFFFFFFF#32)
  | .dbatUpdated => (0x44000000#32, 0xFFFFFFFF#32)
  | .ibatUpdated => (0x48000000#32, 0xFFFFFFFF#32)
  | .tlbInvalidateEntry => (0x4C000000#32, 0xFFFFFFFF#32)
  | .jitTranslate => (0x60000000#32, 0xFFFFFFFF#32)
  | .getTranslated => (0x64000000#32, 0xFFFFFFFF#32)
  | .optRam8 => (0x68000000#32, 0xFFFFFFFF#32)
  | .optRam16 => (0x69000000#32, 0xFFFFFFFF#32)
  | .optRam32 => (0x6A000000#32, 0xFFFFFFFF#32)
  | .optRam64 => (0x6B000000#32, 0xFFFFFFFF#32)
  | .optMmio8 => (0x6C000000#32, 0xFFFFFFFF#32)
  | .optMmio16 => (0x6D000000#32, 0xFFFFFFFF#32)
  | .optMmio32 => (0x6E000000#32, 0xFFFFFFFF#32)
  | .optMmio64 => (0x6F000000#32, 0xFFFFFFFF#32)
  | .optGather => (0x70000000#32, 0xFFFFFFFF#32)
  | .hostRead8 _ => (0x80000000#32, 0xFF3FFFFF#32)
  | .hostRead16 _ => (0x81000000#32, 0xFF3FFFFF#32)
  | .hostRead32 _ => (0x82000000#32, 0xFF3FFFFF#32)
  | .hostRead64 _ => (0x83000000#32, 0xFF3FFFFF#32)
  | .hostTryRead8 _ => (0x84000000#32, 0xFF3FFFFF#32)
  | .hostTryRead16 _ => (0x85000000#32, 0xFF3FFFFF#32)
  | .hostTryRead32 _ => (0x86000000#32, 0xFF3FFFFF#32)
  | .hostTryRead64 _ => (0x87000000#32, 0xFF3FFFFF#32)
  | .hostWrite8 _ => (0x88000000#32, 0xFF3FFFFF#32)
  | .hostWrite16 _ => (0x89000000#32, 0xFF3FFFFF#32)
  | .hostWrite32 _ => (0x8A000000#32, 0xFF3FFFFF#32)
  | .hostWrite64 _ => (0x8B000000#32, 0xFF3FFFFF#32)
  | .hostTryWrite8 _ => (0x8C000000#32, 0xFF3FFFFF#32)
  | .hostTryWrite16 _ => (0x8D000000#32, 0xFF3FFFFF#32)
  | .hostTryWrite32 _ => (0x8E000000#32, 0xFF3FFFFF#32)
  | .hostTryWrite64 _ => (0x8F000000#32, 0xFF3FFFFF#32)
  | .hostIsRam _ => (0x90000000#32, 0xFF3FFFFF#32)
  | .hostIsIram _ => (0x94000000#32, 0xFF3FFFFF#32)
  | .hostGetString _ _ => (0x98000000#32, 0xFF3F0000#32)
  | .hostGetU16String _ _ => (0x9C000000#32, 0xFF3F0000#32)
  | .stateSave => (0xC0000000#32, 0xFFFFFFFF#32)
  | .stateRestore => (0xC4000000#32, 0xFFFFFFFF#32)

/-- The word of `i` selects `i`'s own row, and that row is in the opcode map. -/
def Statement (i : Instr) : Prop := row i ∈ opcodeMap ∧ selectsRow (encode i) (row i) = true

theorem read8 : Statement .read8 :=
  ⟨by decide, by decide⟩

theorem read16 : Statement .read16 :=
  ⟨by decide, by decide⟩

theorem read32 : Statement .read32 :=
  ⟨by decide, by decide⟩

theorem read64 : Statement .read64 :=
  ⟨by decide, by decide⟩

theorem write8 : Statement .write8 :=
  ⟨by decide, by decide⟩

theorem write16 : Statement .write16 :=
  ⟨by decide, by decide⟩

theorem write32 : Statement .write32 :=
  ⟨by decide, by decide⟩

theorem write64 : Statement .write64 :=
  ⟨by decide, by decide⟩

theorem readOpcode : Statement .readOpcode :=
  ⟨by decide, by decide⟩

theorem tryReadInst : Statement .tryReadInst :=
  ⟨by decide, by decide⟩

theorem dclClear : Statement .dclClear :=
  ⟨by decide, by decide⟩

theorem dclStore : Statement .dclStore :=
  ⟨by decide, by decide⟩

theorem dclInvalidate : Statement .dclInvalidate :=
  ⟨by decide, by decide⟩

theorem dclFlush : Statement .dclFlush :=
  ⟨by decide, by decide⟩

theorem dclTouch : Statement .dclTouch :=
  ⟨by decide, by decide⟩

theorem dmaLcToMem (blocks : BitVec 16) : Statement (.dmaLcToMem blocks) :=
  ⟨by simp [opcodeMap, row], by
    rw [selectsRow, beq_iff_eq]; exact withCount_mask _ 0xFFFF0000#32 _ (by decide) (by decide)⟩

theorem dmaMemToLc (blocks : BitVec 16) : Statement (.dmaMemToLc blocks) :=
  ⟨by simp [opcodeMap, row], by
    rw [selectsRow, beq_iff_eq]; exact withCount_mask _ 0xFFFF0000#32 _ (by decide) (by decide)⟩

theorem sdrUpdated : Statement .sdrUpdated :=
  ⟨by decide, by decide⟩

theorem dbatUpdated : Statement .dbatUpdated :=
  ⟨by decide, by decide⟩

theorem ibatUpdated : Statement .ibatUpdated :=
  ⟨by decide, by decide⟩

theorem tlbInvalidateEntry : Statement .tlbInvalidateEntry :=
  ⟨by decide, by decide⟩

theorem jitTranslate : Statement .jitTranslate :=
  ⟨by decide, by decide⟩

theorem getTranslated : Statement .getTranslated :=
  ⟨by decide, by decide⟩

theorem optRam8 : Statement .optRam8 :=
  ⟨by decide, by decide⟩

theorem optRam16 : Statement .optRam16 :=
  ⟨by decide, by decide⟩

theorem optRam32 : Statement .optRam32 :=
  ⟨by decide, by decide⟩

theorem optRam64 : Statement .optRam64 :=
  ⟨by decide, by decide⟩

theorem optMmio8 : Statement .optMmio8 :=
  ⟨by decide, by decide⟩

theorem optMmio16 : Statement .optMmio16 :=
  ⟨by decide, by decide⟩

theorem optMmio32 : Statement .optMmio32 :=
  ⟨by decide, by decide⟩

theorem optMmio64 : Statement .optMmio64 :=
  ⟨by decide, by decide⟩

theorem optGather : Statement .optGather :=
  ⟨by decide, by decide⟩

theorem hostRead8 (sp : Space) : Statement (.hostRead8 sp) :=
  by cases sp <;> exact ⟨by decide, by decide⟩

theorem hostRead16 (sp : Space) : Statement (.hostRead16 sp) :=
  by cases sp <;> exact ⟨by decide, by decide⟩

theorem hostRead32 (sp : Space) : Statement (.hostRead32 sp) :=
  by cases sp <;> exact ⟨by decide, by decide⟩

theorem hostRead64 (sp : Space) : Statement (.hostRead64 sp) :=
  by cases sp <;> exact ⟨by decide, by decide⟩

theorem hostTryRead8 (sp : Space) : Statement (.hostTryRead8 sp) :=
  by cases sp <;> exact ⟨by decide, by decide⟩

theorem hostTryRead16 (sp : Space) : Statement (.hostTryRead16 sp) :=
  by cases sp <;> exact ⟨by decide, by decide⟩

theorem hostTryRead32 (sp : Space) : Statement (.hostTryRead32 sp) :=
  by cases sp <;> exact ⟨by decide, by decide⟩

theorem hostTryRead64 (sp : Space) : Statement (.hostTryRead64 sp) :=
  by cases sp <;> exact ⟨by decide, by decide⟩

theorem hostWrite8 (sp : Space) : Statement (.hostWrite8 sp) :=
  by cases sp <;> exact ⟨by decide, by decide⟩

theorem hostWrite16 (sp : Space) : Statement (.hostWrite16 sp) :=
  by cases sp <;> exact ⟨by decide, by decide⟩

theorem hostWrite32 (sp : Space) : Statement (.hostWrite32 sp) :=
  by cases sp <;> exact ⟨by decide, by decide⟩

theorem hostWrite64 (sp : Space) : Statement (.hostWrite64 sp) :=
  by cases sp <;> exact ⟨by decide, by decide⟩

theorem hostTryWrite8 (sp : Space) : Statement (.hostTryWrite8 sp) :=
  by cases sp <;> exact ⟨by decide, by decide⟩

theorem hostTryWrite16 (sp : Space) : Statement (.hostTryWrite16 sp) :=
  by cases sp <;> exact ⟨by decide, by decide⟩

theorem hostTryWrite32 (sp : Space) : Statement (.hostTryWrite32 sp) :=
  by cases sp <;> exact ⟨by decide, by decide⟩

theorem hostTryWrite64 (sp : Space) : Statement (.hostTryWrite64 sp) :=
  by cases sp <;> exact ⟨by decide, by decide⟩

theorem hostIsRam (sp : Space) : Statement (.hostIsRam sp) :=
  by cases sp <;> exact ⟨by decide, by decide⟩

theorem hostIsIram (sp : Space) : Statement (.hostIsIram sp) :=
  by cases sp <;> exact ⟨by decide, by decide⟩

theorem hostGetString (sp : Space) (max : BitVec 16) : Statement (.hostGetString sp max) :=
  ⟨by simp [opcodeMap, row], by
    rw [selectsRow, beq_iff_eq, row, encode, withCount, BitVec.and_comm, BitVec.and_or_distrib_left,
      BitVec.and_comm _ (withSpace _ _), BitVec.and_comm _ (BitVec.setWidth _ _)]
    have h := withCount_mask 0#32 0xFF3F0000#32 max (by decide) (by decide)
    rw [withCount, BitVec.zero_or] at h
    rw [h, BitVec.or_zero]; cases sp <;> decide⟩

theorem hostGetU16String (sp : Space) (max : BitVec 16) : Statement (.hostGetU16String sp max) :=
  ⟨by simp [opcodeMap, row], by
    rw [selectsRow, beq_iff_eq, row, encode, withCount, BitVec.and_comm, BitVec.and_or_distrib_left,
      BitVec.and_comm _ (withSpace _ _), BitVec.and_comm _ (BitVec.setWidth _ _)]
    have h := withCount_mask 0#32 0xFF3F0000#32 max (by decide) (by decide)
    rw [withCount, BitVec.zero_or] at h
    rw [h, BitVec.or_zero]; cases sp <;> decide⟩

theorem stateSave : Statement .stateSave :=
  ⟨by decide, by decide⟩

theorem stateRestore : Statement .stateRestore :=
  ⟨by decide, by decide⟩

end OwnRow

end Sys2Proof.Laws
end

