-- ==== Sys2Proof/Laws/Snapshot.lean ====
section
/-! SUPPORT. What the words of the snapshot image are, and the canonical form of an image. -/

namespace Sys2Proof.Machine

variable {c : Config} {side : Side}

theorem snapIndex_lt {j k : Nat} (h : j < k) : snapIndex c side j + 5 ≤ snapIndex c side k := by
  simp only [snapIndex]; omega

theorem snapIndex_inj {j k i i' : Nat} (hi : i < 5) (hi' : i' < 5)
    (h : snapIndex c side j + i = snapIndex c side k + i') : j = k ∧ i = i' := by
  simp only [snapIndex] at h; omega

/-- The words of one cache lie inside the sets the cache lists. -/
theorem mem_sideImage {t : Tlb} {p : Nat × Word} (h : p ∈ sideImage c side t) :
    (∃ x ∈ t, snapIndex c side x.1 ≤ p.1 ∧ p.1 < snapIndex c side x.1 + 5) ∧ p.2 ≠ 0#32 := by
  simp only [sideImage, List.mem_flatMap] at h
  obtain ⟨x, hx, hp⟩ := h
  have := Sparse.mem_ofListFrom hp
  exact ⟨⟨x, hx, this.1, this.2.1⟩, this.2.2⟩

theorem words_empty (j : Nat) : TlbSet.empty.words.getD j 0#32 = 0#32 := by
  match j with
  | 0 | 1 | 2 | 3 | 4 => rfl
  | _ + 5 => rfl

/-- Word `j` of set `k` in the image of one cache (R141). -/
theorem get_sideImage {t : Tlb} (h : t.Pairwise (fun p q => p.1 < q.1)) (k : Nat) {j : Nat} (hj : j < 5) :
    Sparse.get 0#32 (sideImage c side t) (snapIndex c side k + j) =
      (Sparse.get TlbSet.empty t k).words.getD j 0#32 := by
  induction t with
  | nil => rw [Sparse.get_nil, words_empty]; rfl
  | cons x t ih =>
    obtain ⟨n, x⟩ := x
    obtain ⟨hx, ht⟩ := List.pairwise_cons.mp h
    have hs : sideImage c side ((n, x) :: t) = Sparse.ofListFrom 0#32 (snapIndex c side n) x.words ++ sideImage c side t :=
      rfl
    rw [hs, Sparse.get_append, Sparse.get_cons]
    by_cases hn : n = k
    · subst hn
      have hg : Sparse.get 0#32 (Sparse.ofListFrom 0#32 (snapIndex c side n) x.words) (snapIndex c side n + j) =
          x.words.getD j 0#32 := by
        rw [Sparse.get_ofListFrom, if_pos (by omega), Nat.add_sub_cancel_left]
      rw [if_pos rfl]
      split
      · exact hg
      · rename_i hm
        rw [← hg, Sparse.get_eq_default (m := Sparse.ofListFrom _ _ _) fun p hp he => hm (List.mem_map.mpr ⟨p, hp, he⟩)]
        refine Sparse.get_eq_default fun p hp he => ?_
        obtain ⟨⟨y, hy, hl, -⟩, -⟩ := mem_sideImage hp
        have := snapIndex_lt (c := c) (side := side) (hx y hy)
        dsimp only at this
        omega
    · rw [if_neg hn, if_neg, ih ht]
      intro hm
      obtain ⟨p, hp, he⟩ := List.mem_map.mp hm
      have := Sparse.mem_ofListFrom hp
      have hlen : x.words.length = 5 := rfl
      obtain ⟨i, hi⟩ : ∃ i, p.1 = snapIndex c side n + i := ⟨p.1 - snapIndex c side n, by omega⟩
      exact hn (snapIndex_inj (i := i) (i' := j) (c := c) (side := side) (by omega) hj (by omega)).1

theorem sideImage_sorted {t : Tlb} (h : t.Pairwise (fun p q => p.1 < q.1)) :
    (sideImage c side t).Pairwise (fun p q => p.1 < q.1) := by
  rw [sideImage, List.flatMap, List.pairwise_flatten]
  constructor
  · simp only [List.mem_map]
    rintro l ⟨x, -, rfl⟩
    exact (Sparse.ofListFrom_wf _ _ _).1
  · refine List.pairwise_map.mpr (h.imp fun {a b} hab p hp q hq => ?_)
    have h1 := Sparse.mem_ofListFrom hp
    have h2 := Sparse.mem_ofListFrom hq
    have : a.2.words.length = 5 := rfl
    have := snapIndex_lt (c := c) (side := side) hab
    omega

/-- The image of two caches within the platform's sets is in canonical form. -/
theorem snapshotImage_wf {itlb dtlb : Tlb} (hi : Sparse.WF TlbSet.empty itlb) (hd : Sparse.WF TlbSet.empty dtlb)
    (hb : ∀ x ∈ itlb, x.1 < c.tlbSets) : Sparse.WF 0#32 (snapshotImage c itlb dtlb) := by
  refine ⟨List.pairwise_append.mpr ⟨sideImage_sorted hi.1, sideImage_sorted hd.1, fun p hp q hq => ?_⟩, fun p hp => ?_⟩
  · obtain ⟨⟨x, hx, -, h1⟩, -⟩ := mem_sideImage hp
    obtain ⟨⟨y, -, h2, -⟩, -⟩ := mem_sideImage hq
    have := hb x hx
    simp only [snapIndex, Side.number] at h1 h2
    omega
  · rcases List.mem_append.mp hp with hp | hp <;> exact (mem_sideImage hp).2

/-- Reading a whole image at a word of the instruction side, and of the data side. -/
theorem get_snapshotImage_instruction {itlb dtlb : Tlb} {a : Nat} (h : a < 5 * c.tlbSets) :
    Sparse.get 0#32 (snapshotImage c itlb dtlb) a = Sparse.get 0#32 (sideImage c .instruction itlb) a := by
  rw [snapshotImage, Sparse.get_append]
  split
  · rfl
  · rename_i hm
    rw [Sparse.get_eq_default fun p hp he => ?_, Sparse.get_eq_default fun p hp he => hm (List.mem_map.mpr ⟨p, hp, he⟩)]
    obtain ⟨⟨x, -, h1, -⟩, -⟩ := mem_sideImage hp
    simp only [snapIndex, Side.number] at h1
    omega

theorem get_snapshotImage_data {itlb dtlb : Tlb} {a : Nat} (hb : ∀ x ∈ itlb, x.1 < c.tlbSets)
    (h : 5 * c.tlbSets ≤ a) :
    Sparse.get 0#32 (snapshotImage c itlb dtlb) a = Sparse.get 0#32 (sideImage c .data dtlb) a := by
  rw [snapshotImage, Sparse.get_append, if_neg]
  intro hm
  obtain ⟨p, hp, he⟩ := List.mem_map.mp hm
  obtain ⟨⟨x, hx, -, h1⟩, -⟩ := mem_sideImage hp
  have := hb x hx
  simp only [snapIndex, Side.number] at h1
  omega

theorem wayOfWords_tagWord (x : Way) : wayOfWords x.tagWord x.pte1 = x := by
  obtain ⟨v, tag, p⟩ := x
  have h1 : (Way.tagWord ⟨v, tag, p⟩).getLsbD 31 = v := by
    rw [Way.tagWord, BitVec.getLsbD_append, BitVec.getLsbD_append]; cases v <;> simp
  have h2 : (Way.tagWord ⟨v, tag, p⟩).extractLsb' 0 20 = tag := by
    refine BitVec.eq_of_getLsbD_eq fun i hi => ?_
    rw [Way.tagWord, BitVec.getLsbD_extractLsb', BitVec.getLsbD_append]; simp [hi]
  simp only [wayOfWords, h1, h2]

end Sys2Proof.Machine
end

