-- ==== Sys2Proof/Tests/Slice0.lean ====
section
/-! SUPPORT. The model's own tests: well-formedness, decoding of words written out from R129, one step of every
command on a small state (expected values from `95_test_vectors.md`, or worked by hand from the rule named). -/

namespace Sys2Proof.Tests
set_option Elab.async false
open Sys2Proof Sys2Proof.Machine

/-! ### Well-formedness: the reserved address space is refused (R122) -/

theorem test_wellFormed_refuses_reserved_reads :
    (Instr.hostRead8 .reserved).wellFormed = false ∧ (Instr.hostRead16 .reserved).wellFormed = false ∧
    (Instr.hostRead32 .reserved).wellFormed = false ∧ (Instr.hostRead64 .reserved).wellFormed = false ∧
    (Instr.hostTryRead8 .reserved).wellFormed = false ∧ (Instr.hostTryRead16 .reserved).wellFormed = false ∧
    (Instr.hostTryRead32 .reserved).wellFormed = false ∧ (Instr.hostTryRead64 .reserved).wellFormed = false := by
  decide

theorem test_wellFormed_refuses_reserved_writes :
    (Instr.hostWrite8 .reserved).wellFormed = false ∧ (Instr.hostWrite16 .reserved).wellFormed = false ∧
    (Instr.hostWrite32 .reserved).wellFormed = false ∧ (Instr.hostWrite64 .reserved).wellFormed = false ∧
    (Instr.hostTryWrite8 .reserved).wellFormed = false ∧ (Instr.hostTryWrite16 .reserved).wellFormed = false ∧
    (Instr.hostTryWrite32 .reserved).wellFormed = false ∧ (Instr.hostTryWrite64 .reserved).wellFormed = false := by
  decide

theorem test_wellFormed_refuses_reserved_probes :
    (Instr.hostIsRam .reserved).wellFormed = false ∧ (Instr.hostIsIram .reserved).wellFormed = false ∧
    (Instr.hostGetString .reserved 1#16).wellFormed = false ∧
    (Instr.hostGetU16String .reserved 1#16).wellFormed = false ∧
    (Instr.hostGetString .virtual 1#16).wellFormed = true ∧ Instr.stateSave.wellFormed = true := by
  decide

/-! ### Decoding: every row of R129, its word written out from the table -/

theorem test_decode_guest_access :
    decode 0x04000000#32 = .ok .read8 ∧ decode 0x05000000#32 = .ok .read16 ∧
    decode 0x06000000#32 = .ok .read32 ∧ decode 0x07000000#32 = .ok .read64 ∧
    decode 0x08000000#32 = .ok .write8 ∧ decode 0x09000000#32 = .ok .write16 ∧
    decode 0x0A000000#32 = .ok .write32 ∧ decode 0x0B000000#32 = .ok .write64 ∧
    decode 0x0C000000#32 = .ok .readOpcode ∧ decode 0x10000000#32 = .ok .tryReadInst := by
  decide

theorem test_decode_cache_lines_and_dma :
    decode 0x20000000#32 = .ok .dclClear ∧ decode 0x24000000#32 = .ok .dclStore ∧
    decode 0x28000000#32 = .ok .dclInvalidate ∧ decode 0x2C000000#32 = .ok .dclFlush ∧
    decode 0x30000000#32 = .ok .dclTouch ∧ decode 0x38008001#32 = .ok (.dmaLcToMem 0x8001#16) ∧
    decode 0x3C00FFFF#32 = .ok (.dmaMemToLc 0xFFFF#16) := by
  decide

theorem test_decode_maintenance :
    decode 0x40000000#32 = .ok .sdrUpdated ∧ decode 0x44000000#32 = .ok .dbatUpdated ∧
    decode 0x48000000#32 = .ok .ibatUpdated ∧ decode 0x4C000000#32 = .ok .tlbInvalidateEntry ∧
    decode 0xC0000000#32 = .ok .stateSave ∧ decode 0xC4000000#32 = .ok .stateRestore := by
  decide

theorem test_decode_jit :
    decode 0x60000000#32 = .ok .jitTranslate ∧ decode 0x64000000#32 = .ok .getTranslated ∧
    decode 0x68000000#32 = .ok .optRam8 ∧ decode 0x69000000#32 = .ok .optRam16 ∧
    decode 0x6A000000#32 = .ok .optRam32 ∧ decode 0x6B000000#32 = .ok .optRam64 ∧
    decode 0x6C000000#32 = .ok .optMmio8 ∧ decode 0x6D000000#32 = .ok .optMmio16 ∧
    decode 0x6E000000#32 = .ok .optMmio32 ∧ decode 0x6F000000#32 = .ok .optMmio64 ∧
    decode 0x70000000#32 = .ok .optGather := by
  decide

theorem test_decode_host_reads :
    decode 0x80000000#32 = .ok (.hostRead8 .effective) ∧ decode 0x81400000#32 = .ok (.hostRead16 .physical) ∧
    decode 0x82800000#32 = .ok (.hostRead32 .virtual) ∧ decode 0x83C00000#32 = .ok (.hostRead64 .reserved) ∧
    decode 0x84800000#32 = .ok (.hostTryRead8 .virtual) ∧ decode 0x85400000#32 = .ok (.hostTryRead16 .physical) ∧
    decode 0x86000000#32 = .ok (.hostTryRead32 .effective) ∧
    decode 0x87C00000#32 = .ok (.hostTryRead64 .reserved) := by
  decide

theorem test_decode_host_writes :
    decode 0x88400000#32 = .ok (.hostWrite8 .physical) ∧ decode 0x89000000#32 = .ok (.hostWrite16 .effective) ∧
    decode 0x8AC00000#32 = .ok (.hostWrite32 .reserved) ∧ decode 0x8B800000#32 = .ok (.hostWrite64 .virtual) ∧
    decode 0x8C800000#32 = .ok (.hostTryWrite8 .virtual) ∧
    decode 0x8D400000#32 = .ok (.hostTryWrite16 .physical) ∧
    decode 0x8EC00000#32 = .ok (.hostTryWrite32 .reserved) ∧
    decode 0x8F000000#32 = .ok (.hostTryWrite64 .effective) := by
  decide

theorem test_decode_host_probes :
    decode 0x90C00000#32 = .ok (.hostIsRam .reserved) ∧ decode 0x94400000#32 = .ok (.hostIsIram .physical) ∧
    decode 0x98400100#32 = .ok (.hostGetString .physical 256#16) ∧
    decode 0x9C800010#32 = .ok (.hostGetU16String .virtual 16#16) := by
  decide

/-- Table T0, the illegal words. -/
theorem test_decode_refuses :
    decode 0x00000000#32 = .error .unknownOp ∧ decode 0xFFFFFFFF#32 = .error .unknownOp ∧
    decode 0x14000000#32 = .error .unknownOp ∧ decode 0x34000000#32 = .error .unknownOp ∧
    decode 0x06000001#32 = .error .countNotZero ∧ decode 0x06400000#32 = .error .spaceNotZero ∧
    decode 0x0D000000#32 = .error .widthNotZero ∧ decode 0x04010000#32 = .error .zeroFieldNotZero ∧
    decode 0x41000000#32 = .error .widthNotZero ∧ decode 0x91000000#32 = .error .widthNotZero ∧
    decode 0xC4400000#32 = .error .spaceNotZero ∧ decode 0x30000020#32 = .error .countNotZero := by
  decide

/-! ### Small states -/

/-- The next state of an outcome; the reset state for a stop. -/
def nextOf : Result → State
  | .next t => t
  | .fault _ => State.reset
  | .refused _ => State.reset

/-- One command word, with its operands placed first on both ports, taken by one step. -/
def ask (s : State) (w : Nat) (a : Word) (d : DWord := 0#64) (b : Word := 0#32) : State :=
  nextOf (step (((s.setOperands .g a b d).setOperands .h a b d).withFetchWord 32 w))

/-- What a port answered: status, data, address, flag bits, length. -/
def said (r : Response) : Status × DWord × Word × BitVec 4 × BitVec 16 :=
  (r.status, r.data, r.addr, r.flags.bits, r.len)

/-- The four entries of a 128 KiB block at index `i` (`S` = 15), `d` the first one. -/
def blockEntries (i : Nat) (d : Word) : Cells 32 :=
  [(i, d), (i + 1, d + 0x8000#32), (i + 2, d + 0x10000#32), (i + 3, d + 0x18000#32)]

/-- Data BAT registers: 0x80000000 to frame 0; 0x80020000 to 0x00100000; 0x90000000 and 0x90020000 to two holes;
0xCC000000 to the MMIO range, inhibited (V8); 0xCC020000 to 0x00100000 again, 0xCC040000 to the MMIO range, 0xCC060000
to a hole, so that the page at 0xCC01F000 is a device before RAM, that at 0xCC03F000 RAM before a device, and that at
0xCC05F000 a device before a hole. -/
def batRegs : Vector BatPair 8 :=
  #v[⟨0x80000002#32, 0x00000002#32⟩, ⟨0xCC000002#32, 0x0C00002A#32⟩, ⟨0x90000002#32, 0x40000002#32⟩,
    ⟨0x80020002#32, 0x00100002#32⟩, ⟨0x90020002#32, 0x50000002#32⟩, ⟨0xCC020002#32, 0x00100002#32⟩, ⟨0xCC040002#32, 0x0C080002#32⟩,
    ⟨0xCC060002#32, 0x40000002#32⟩]

/-- The table those registers give, worked by hand from R210 to R213 (V1, V8). -/
def batTable : Cells 32 :=
  blockEntries 0x10000 0x00000003#32 ++ blockEntries 0x10004 0x00100003#32 ++ blockEntries 0x12000 0x40000001#32 ++
    blockEntries 0x12004 0x50000001#32 ++ blockEntries 0x19800 0x0C000005#32 ++
    blockEntries 0x19804 0x00100003#32 ++ blockEntries 0x19808 0x0C080001#32 ++ blockEntries 0x1980C 0x40000001#32

/-- RP0 with eight pairs a side. -/
def cfg8 : Config := { Config.rp0 with nBat := 8 }

/-- Both translations on, the data BAT table mapped, no page table. -/
def batOn : State :=
  { State.reset with
    cfg := cfg8
    cpu := { Cpu.zero with msrIr := true, msrDr := true, dbat := batRegs }
    dbatTable := batTable }

/-- `batOn` with operands on both ports. -/
def batAt (a : Word) (d : DWord := 0#64) (b : Word := 0#32) : State :=
  (batOn.setOperands .g a b d).setOperands .h a b d

/-- The state of V23: page 0x00402 in frame 0x00200, word 1 of its entry given. -/
def paged (w1 : Word) : State :=
  { State.reset with
    cpu := { Cpu.zero with msrIr := true, msrDr := true, sr := Cpu.zero.sr.set 0 0x123#32, sdr1 := 0x00100000#32 }
    ptBase := 0x00100000#32
    mem := Memory.writeBE (Memory.writeBE [] 0x00104840#32 4 0x80009181#64) 0x00104844#32 4 (w1.setWidth 64) }

/-- `paged` with operands on both ports. -/
def pagedAt (w1 a : Word) (d : DWord := 0#64) : State :=
  ((paged w1).setOperands .g a 0#32 d).setOperands .h a 0#32 d

/-- A cached copy of that page in set 2 of both caches, its word 1 given. -/
def cached (w1 a : Word) : State :=
  let set : TlbSet := ⟨⟨true, 0x402#20, w1⟩, Way.empty, false⟩
  { pagedAt w1 a with itlb := [(2, set)], dtlb := [(2, set)] }

/-- Translation off, with operands on both ports and a few bytes of RAM. -/
def directAt (a : Word) (d : DWord := 0#64) (b : Word := 0#32) : State :=
  (({ State.reset with mem := [(0x1000, 0x48#8), (0x1001, 0x69#8), (0x2003, 0x11#8)] } : State).setOperands
    .g a b d).setOperands .h a b d

/-! ### One step of every command -/

/-- T1, V1, V8: the rebuild gives the table worked by hand. -/
theorem test_dbatUpdated_builds :
    (ask { batOn with dbatTable := [] } 0x44000000 0#32).dbatTable = batTable ∧
    (ask { batOn with dbatTable := [] } 0x44000000 0#32).g.rsp = Response.zero := by
  decide +kernel

/-- V10, V11: an illegal mask gives a mapping with holes; a pair with bits under the mask is skipped. -/
theorem test_ibatUpdated_masks :
    (let t := ask { batOn with cpu := { batOn.cpu with ibat := Cpu.zero.ibat.set 0 ⟨0x80000017#32, 2#32⟩ } }
        0x48000000 0#32;
      (Sparse.get 0#32 t.ibatTable 0x10000, Sparse.get 0#32 t.ibatTable 0x10004,
        Sparse.get 0#32 t.ibatTable 0x10008, Sparse.get 0#32 t.ibatTable 0x10010,
        Sparse.get 0#32 t.ibatTable 0x10014)) = (0x3#32, 0x20003#32, 0#32, 0x80003#32, 0xA0003#32) ∧
    (ask { batOn with cpu := { batOn.cpu with ibat := Cpu.zero.ibat.set 0 ⟨0x80020007#32, 2#32⟩ } }
      0x48000000 0#32).ibatTable = [] := by
  decide +kernel

/-- V100, V22: the locator is latched, a cached way loses `valid` and keeps the rest. -/
theorem test_sdrUpdated_latches :
    (let s := cached 0x00200182#32 0#32
      let t := ask { s with cpu := { s.cpu with sdr1 := 0x00110001#32 } } 0x40000000 0#32;
      (t.ptBase, t.ptHashMask, t.dtlb)) =
    (0x00110000#32, 0x7FF#19, [(2, ⟨⟨false, 0x402#20, 0x00200182#32⟩, Way.empty, false⟩)]) := by
  decide +kernel

/-- V32: the set of the operand is cleared on both sides, whatever the tag; another set is kept. -/
theorem test_tlbInvalidateEntry_clears :
    (ask (cached 0x00200182#32 0#32) 0x4C000000 0xFFF82FFF#32).itlb =
      [(2, ⟨⟨false, 0x402#20, 0x00200182#32⟩, Way.empty, false⟩)] ∧
    (ask (cached 0x00200182#32 0#32) 0x4C000000 0xFFF83FFF#32).dtlb = (cached 0x00200182#32 0#32).dtlb := by
  decide +kernel

/-- V101: the image of one cached page. -/
theorem test_stateSave_image :
    (let s := { cached 0x00200182#32 0#32 with itlb := [] };
      ((ask s 0xC0000000 0#32).h.rsp.snapOut)) = [(650, 0x80000402#32), (651, 0x00200182#32)] := by
  decide +kernel

/-- V101, V102: a good image is loaded; a tag in the wrong set and a set bit 20 abort. -/
theorem test_stateRestore_loads :
    (let r := fun snap : Cells 32 => ask (State.reset.setReq .h { Request.zero with snapIn := snap }) 0xC4000000 0#32;
      ((r [(650, 0x80000402#32), (651, 0x00200182#32)]).dtlb,
        (r [(650, 0x80000403#32)]).abortReason, (r [(0, 0x00100000#32)]).h.rsp.status)) =
    ([(2, ⟨⟨true, 0x402#20, 0x00200182#32⟩, Way.empty, false⟩)], some .badSnapshot, .abort) := by
  decide +kernel

/-- V23: a load through the page table sets R and fills a way. -/
theorem test_read8_walk :
    (let t := ask (paged 0x00200002#32) 0x04000000 0x00402ABC#32;
      (said t.g.rsp, Memory.readBE t.mem 0x00104844#32 4, t.dtlb)) =
    ((.ok, 0#64, 0x00200ABC#32, 1#4, 0#16), 0x00200102#64,
      [(2, ⟨⟨true, 0x402#20, 0x00200102#32⟩, Way.empty, false⟩)]) := by
  decide +kernel

/-- V25, V31: no entry is one DSI at the operand; a stale cached frame still answers. -/
theorem test_read8_miss_and_stale :
    (ask (paged 0x00200002#32) 0x04000000 0x00403000#32).trace = [.fault ⟨.dsi, false, .pageMiss, 0x00403000#32⟩] ∧
    (let s := cached 0x00200182#32 0#32;
      (ask { s with mem := Memory.writeBE s.mem 0x00104844#32 4 0x00300182#64 } 0x04000000 0x00402ABC#32).g.rsp.addr) =
      0x00200ABC#32 := by
  decide +kernel

/-- V53, V54: the second page faults; two regions, or a hole, are `BUS_ERROR`. -/
theorem test_read16_boundaries :
    (ask batOn 0x05000000 0x8003FFFF#32).trace = [.fault ⟨.dsi, false, .pageMiss, 0x80040000#32⟩] ∧
    said (ask State.reset 0x05000000 0x0BFFFFFF#32).g.rsp = (.busError, 0#64, 0#32, 0#4, 0#16) := by
  decide +kernel

/-- R88, R240: one handler call for the device byte, none for the RAM byte, all four flags; a hole after a device is
`BUS_ERROR`, the device's handler called (log entry 18). -/
theorem test_read16_device_and_ram :
    (let t := ask batOn 0x05000000 0xCC01FFFF#32;
      (t.g.rsp.status, t.g.rsp.addr, t.g.rsp.flags.bits, t.handlerCalls)) = (.ok, 0x0C01FFFF#32, 15#4, 1) ∧
    (let u := ask batOn 0x05000000 0xCC05FFFF#32;
      (u.g.rsp, u.handlerCalls)) = (Response.only .busError, 1) := by
  decide +kernel

/-- V50: big-endian, unaligned. -/
theorem test_read32_big_endian :
    said (ask (batAt 0#32) 0x06000000 0x80001000#32).g.rsp = (.ok, 0#64, 0x1000#32, 3#4, 0#16) ∧
    said (ask (directAt 0#32) 0x06000000 0x0FFF#32).g.rsp = (.ok, 0x00486900#64, 0x0FFF#32, 0#4, 0#16) := by
  decide +kernel

/-- Eight bytes over two frames that are not adjacent (R88); an 8-byte read at the end of RAM is `BUS_ERROR`. -/
theorem test_read64_split :
    (let s := { batOn with mem := [(0x1FFFE, 0xA1#8), (0x1FFFF, 0xB2#8), (0x20000, 0xEE#8), (0x100000, 0xC3#8)] };
      said (ask s 0x07000000 0x8001FFFE#32).g.rsp) =
      (.ok, 0xA1B2C30000000000#64, 0x1FFFE#32, 3#4, 0#16) ∧
    said (ask State.reset 0x07000000 0x017FFFFC#32).g.rsp = (.busError, 0#64, 0#32, 0#4, 0#16) := by
  decide +kernel

/-- V23, V51: a store sets R and C and writes the low byte of `D` only. -/
theorem test_write8_walk :
    (let t := ask (paged 0x00200002#32) 0x08000000 0x00402ABC#32 0xFFFFFFFFFFFFFF7E#64;
      (Memory.readBE t.mem 0x00104844#32 4, Memory.byte t.mem 0x00200ABC#32, Memory.byte t.mem 0x00200ABB#32,
        t.g.rsp.data)) = (0x00200182#64, 0x7E#8, 0#8, 0#64) := by
  decide +kernel

/-- V23: a store that hits a way whose C is 0 drops it, walks and refills it. -/
theorem test_write16_drops_clean_way :
    (ask (cached 0x00200102#32 0#32) 0x09000000 0x00402ABC#32).dtlb =
      [(2, ⟨⟨true, 0x402#20, 0x00200182#32⟩, Way.empty, false⟩)] ∧
    (ask (cached 0x00200102#32 0#32) 0x09000000 0x00402ABC#32).itlb = (cached 0x00200102#32 0#32).itlb := by
  decide +kernel

/-- V8: one handler call, with the value; P3: bytes to two frames. -/
theorem test_write32_handler_and_split :
    (ask batOn 0x0A000000 0xCC003000#32 0x12345678#64).trace = [.mmioWrite 0x0C003000#32 4 0x12345678#64] ∧
    (let t := ask batOn 0x0A000000 0x8001FFFE#32 0xA1B2C3D4#64;
      t.mem) = [(0x1FFFE, 0xA1#8), (0x1FFFF, 0xB2#8), (0x100000, 0xC3#8), (0x100001, 0xD4#8)] := by
  decide +kernel

/-- R88: a store over RAM and a device; none at all when the second byte is in a hole, after a device. -/
theorem test_write16_device_and_ram :
    (let t := ask batOn 0x09000000 0xCC03FFFF#32 0xA1B2#64
      let u := ask batOn 0x09000000 0xCC05FFFF#32 0xA1B2#64;
      (t.mem, t.trace, u.g.rsp.status, u.trace)) =
    ([(0x11FFFF, 0xA1#8)], [.mmioWrite 0x0C080000#32 1 0xB2#64], .busError, []) := by
  decide +kernel

/-- V54: nothing is written when a byte is in a hole. -/
theorem test_write64_all_or_nothing :
    (let t := ask State.reset 0x0B000000 0x017FFFFC#32 0x1122334455667788#64;
      (t.g.rsp.status, t.mem)) = (.busError, []) := by
  decide +kernel

/-- V35, V41: a fetch fills the instruction cache; a no-execute segment is one ISI. -/
theorem test_readOpcode_fetch :
    (ask (paged 0x00200002#32) 0x0C000000 0x00402ABC#32).itlb =
      [(2, ⟨⟨true, 0x402#20, 0x00200102#32⟩, Way.empty, false⟩)] ∧
    (let s := paged 0x00200002#32;
      (ask { s with cpu := { s.cpu with sr := s.cpu.sr.set 0 0x10000123#32 } } 0x0C000000 0x00402ABC#32).trace) =
      [.fault ⟨.isi, false, .noExecute, 0x00402ABC#32⟩] := by
  decide +kernel

/-- V41, V61: no message on failure; a misaligned fetch aborts. -/
theorem test_tryReadInst_fails :
    (let t := ask (paged 0x00200002#32) 0x10000000 0x00403000#32;
      (t.g.rsp.status, t.trace)) = (.absent, []) ∧
    (ask State.reset 0x10000000 0x102#32).abortReason = some .misalignedFetch := by
  decide +kernel

/-- V70: the line of the operand, and no byte beside it. -/
theorem test_dclClear_line :
    (let s := { State.reset with mem := [(0xFFF, 1#8), (0x1000, 2#8), (0x101F, 3#8), (0x1020, 4#8)] };
      (ask s 0x20000000 0x1013#32).mem) = [(0xFFF, 1#8), (0x1020, 4#8)] := by
  decide +kernel

/-- V74, mapped: a line in the MMIO range is `BUS_ERROR` with no call; `ADDR` is the line's (R280), `FLAGS` is 0 (R128;
log entry 7). -/
theorem test_dclClear_device :
    (let t := ask batOn 0x20000000 0xCC003013#32;
      (said t.g.rsp, t.trace)) = ((.busError, 0#64, 0x0C003000#32, 0#4, 0#16), []) := by
  decide +kernel

/-- V72, V74: `EA` is the operand as given; nothing is dispatched. -/
theorem test_dclStore_fault_and_hole :
    (ask (paged 0x00200003#32) 0x24000000 0x00402AB3#32).trace = [.fault ⟨.dsi, true, .protection, 0x00402AB3#32⟩] ∧
    said (ask State.reset 0x24000000 0x0C003001#32).g.rsp = (.ok, 0#64, 0x0C003000#32, 0#4, 0#16) := by
  decide +kernel

/-- V75. -/
theorem test_dclInvalidate_moves_nothing :
    said (ask batOn 0x28000000 0x80001000#32).g.rsp = (.ok, 0#64, 0x1000#32, 3#4, 0#16) := by
  decide +kernel

/-- V73. -/
theorem test_dclFlush_miss :
    (ask (paged 0x00200002#32) 0x2C000000 0x00403AB3#32).trace =
      [.fault ⟨.dsi, true, .pageMiss, 0x00403AB3#32⟩] := by
  decide +kernel

/-- V73: a failed hint is dropped. -/
theorem test_dclTouch_drops_failure :
    (let t := ask (paged 0x00200002#32) 0x30000000 0x00403AB3#32;
      (said t.g.rsp, t.trace, t.dtlb)) = ((.ok, 0#64, 0#32, 0#4, 0#16), [], []) := by
  decide +kernel

/-- V76: one block to memory, both low five bits dropped. -/
theorem test_dmaLcToMem_block :
    (let s := { State.reset with mem := [(0xE0000000, 1#8), (0xE000001F, 2#8), (0xE0000020, 3#8)] }
      let t := ask s 0x38000001 0x201F#32 0#64 0xE0000005#32;
      (said t.g.rsp, t.mem)) =
    ((.ok, 0#64, 0#32, 0#4, 1#16),
      [(0x2000, 1#8), (0x201F, 2#8), (0xE0000000, 1#8), (0xE000001F, 2#8), (0xE0000020, 3#8)]) := by
  decide +kernel

/-- V77, V79: the second block is outside the locked cache. -/
theorem test_dmaMemToLc_stops :
    said (ask State.reset 0x3C000002 0x2000#32 0#64 0xE0003FE0#32).g.rsp = (.busError, 0#64, 0#32, 0#4, 1#16) ∧
    said (ask State.reset 0x3C000001 0x2000#32 0#64 0x3000#32).g.rsp = (.busError, 0#64, 0#32, 0#4, 0#16) := by
  decide +kernel

/-- R286: eight-byte handler calls on the memory side and the flag; no flag when the next block is bad (R128, log
entry 8). -/
theorem test_dma_device :
    (let t := ask { State.reset with mem := [(0xE0000007, 1#8), (0xE000001F, 2#8)] } 0x38000001 0x0C000000#32 0#64
        0xE0000000#32;
      said t.g.rsp = (.ok, 0#64, 0#32, 8#4, 1#16) ∧
        t.trace = [.mmioWrite 0x0C000000#32 8 1#64, .mmioWrite 0x0C000008#32 8 0#64,
          .mmioWrite 0x0C000010#32 8 0#64, .mmioWrite 0x0C000018#32 8 2#64]) ∧
    (let u := ask State.reset 0x3C000002 0x0C000000#32 0#64 0xE0003FE0#32;
      (said u.g.rsp, u.handlerCalls)) = ((.busError, 0#64, 0#32, 0#4, 1#16), 4) := by
  decide +kernel

/-- V2, T9: the instruction side has no such block; the data side has. -/
theorem test_translate_queries :
    (ask batOn 0x60000000 0x80001000#32).g.rsp.status = .absent ∧
    said (ask batOn 0x64000000 0xCC003000#32).g.rsp = (.ok, 0#64, 0x0C003000#32, 7#4, 0#16) := by
  decide +kernel

/-- T9: the last byte outside the mapping, and inside it. -/
theorem test_optRam_widths :
    ((ask batOn 0x68000000 0x8003FFFF#32).g.rsp.data, (ask batOn 0x69000000 0x8003FFFF#32).g.rsp.data,
      (ask batOn 0x6A000000 0x8003FFFC#32).g.rsp.data, (ask batOn 0x6B000000 0x8003FFF9#32).g.rsp.data) =
    (1#64, 0#64, 1#64, 0#64) := by
  decide +kernel

/-- T9: alignment and range. -/
theorem test_optMmio_widths :
    said (ask batOn 0x6C000000 0xCC003001#32).g.rsp = (.ok, 1#64, 0x0C003001#32, 15#4, 0#16) ∧
    said (ask batOn 0x6D000000 0xCC003001#32).g.rsp = (.ok, 0#64, 0#32, 0#4, 0#16) ∧
    said (ask batOn 0x6E000000 0xCC003000#32).g.rsp = (.ok, 1#64, 0x0C003000#32, 15#4, 0#16) ∧
    said (ask batOn 0x6F000000 0xCC003004#32).g.rsp = (.ok, 0#64, 0#32, 0#4, 0#16) := by
  decide +kernel

/-- T9. -/
theorem test_optGather_address :
    ((ask batOn 0x70000000 0xCC008000#32).g.rsp.data, (ask batOn 0x70000000 0xCC008004#32).g.rsp.data) =
    (1#64, 0#64) := by
  decide +kernel

/-- V80, V84: the three spaces; a read-only page is written by the host with no R, no C and no fill. -/
theorem test_host_read_and_write :
    ((ask (directAt 0#32) 0x81400000 0x1000#32).h.rsp.data, (ask (directAt 0#32) 0x81800000 0x1000#32).h.rsp.status,
      (ask batOn 0x80400000 0x80001000#32).h.rsp.status) = (0x4869#64, .absent, .absent) ∧
    (let t := ask (paged 0x00200003#32) 0x88000000 0x00402000#32 0x33#64;
      (t.h.rsp.status, Memory.byte t.mem 0x00200000#32, Memory.readBE t.mem 0x00104844#32 4, t.dtlb)) =
      (.ok, 0x33#8, 0x00200003#64, []) := by
  decide +kernel

/-- V81, V83: the `TRY` forms call no handler. -/
theorem test_host_try_forms :
    (let t := ask batOn 0x84000000 0xCC003000#32
      let u := ask batOn 0x8E000000 0xCC003000#32 0x12345678#64
      let v := ask batOn 0x82000000 0xCC003000#32;
      (t.h.rsp.status, t.handlerCalls, u.h.rsp.status, u.handlerCalls, v.h.rsp.status, v.handlerCalls)) =
    (.absent, 0, .absent, 0, .ok, 1) := by
  decide +kernel

/-- V83. -/
theorem test_host_predicates :
    ((ask batOn 0x90000000 0x80001000#32).h.rsp.data, (ask batOn 0x90000000 0xCC003000#32).h.rsp.data,
      (ask batOn 0x94000000 0x80001000#32).h.rsp.data, (ask batOn 0x94400000 0x1000#32).h.rsp.data) =
    (1#64, 0#64, 0#64, 1#64) := by
  decide +kernel

/-- V85. -/
theorem test_host_strings :
    (let t := ask (directAt 0#32) 0x98400010 0x1000#32;
      said t.h.rsp = (.ok, 0#64, 0#32, 0#4, 2#16) ∧ t.h.rsp.str = [(0, 0x48#16), (1, 0x69#16)]) ∧
    said (ask (directAt 0#32) 0x98400001 0x1000#32).h.rsp = (.ok, 1#64, 0#32, 0#4, 1#16) := by
  decide +kernel

/-- V85: 16-bit elements, the end of RAM. -/
theorem test_host_u16_strings :
    let t := ask { State.reset with mem := [(0x017FFFFC, 0x41#8), (0x017FFFFF, 0x42#8)] } 0x9C400010 0x017FFFFC#32
    said t.h.rsp = (.ok, 2#64, 0#32, 0#4, 2#16) ∧ t.h.rsp.str = [(0, 0x4100#16), (1, 0x42#16)] := by
  decide +kernel

/-- V110 to V112: the wrong port, the dead block, the held command. -/
theorem test_ports_and_abort :
    (let s := nextOf (step ((State.reset.present .h 0x06000000#32).park true));
      (s.h.rsp.status, s.fatal, s.abortReason, (ask s 0x04000000 0#32).g.rsp.status)) =
      (.abort, true, some .wrongPort, .abort) ∧
    nextOf (step ((State.reset.present .g 0x06000000#32).park true)) =
      (State.reset.present .g 0x06000000#32).park true := by
  decide +kernel

/-! ### Witnesses: the hypotheses of the statements of `Obligations.lean` can be met -/

/-- A test of every element of a list, as a Boolean. -/
theorem all_of {α : Type} {p : α → Bool} {l : List α} (h : l.all p = true) : ∀ b ∈ l, p b = true :=
  List.all_eq_true.1 h

/-- As `all_of`, for a test that fails. -/
theorem none_of {α : Type} {p : α → Bool} {l : List α} (h : (l.all fun b => !p b) = true) :
    ∀ b ∈ l, p b = false := fun b hb => by simpa using List.all_eq_true.1 h b hb

/-- A word that decodes (`EncodeOfDecode`, first clause of `DecodesExactlyTheRows`). -/
theorem witness_EncodeOfDecode : decode 0x9CBFFFFF#32 = .error .zeroFieldNotZero ∧
    decode 0x9C80FFFF#32 = .ok (.hostGetU16String .virtual 0xFFFF#16) ∧
    selectsRow 0x9C80FFFF#32 (0x9C000000#32, 0xFF3F0000#32) = true := by
  decide

theorem witness_StepRunsPresentedCommand :
    let s := (pagedAt 0x00200002#32 0x00402ABC#32).withFetchWord 32 0x04000000
    configOk s.cfg = true ∧ s.resetRequested = false ∧ s.fatal = false ∧ s.livePort = Instr.read8.port ∧
      (s.req Instr.read8.port).pending = true ∧ decode (s.req Instr.read8.port).cmd = .ok .read8 := by
  decide +kernel

theorem witness_IllegalWordAborts :
    let s := State.reset.present .g 0x0D000000#32
    configOk s.cfg = true ∧ s.resetRequested = false ∧ s.fatal = false ∧ s.livePort = .g ∧
      (s.req .g).pending = true ∧ ∀ row ∈ opcodeMap, selectsRow (s.req .g).cmd row = false :=
  ⟨by decide, by decide, by decide, by decide, by decide, none_of (by decide +kernel)⟩

theorem witness_PortArbitration_idle :
    let s := State.reset.present .h 0xC0000000#32
    configOk s.cfg = true ∧ s.resetRequested = false ∧ (s.req s.livePort).pending = false := by
  decide +kernel

theorem witness_PortArbitration_runs :
    let s := State.reset.present .h 0xC0000000#32
    configOk s.cfg = true ∧ s.resetRequested = false ∧ s.fatal = false ∧
      (s.req Instr.stateSave.port).pending = true ∧ decode (s.req Instr.stateSave.port).cmd = .ok .stateSave ∧
      (true = true ↔ Instr.stateSave.port = .h) := by
  decide +kernel

theorem witness_PortArbitration_wrongPort :
    let s := State.reset.present .g 0xC0000000#32
    configOk s.cfg = true ∧ s.resetRequested = false ∧ s.fatal = false ∧ (s.req s.livePort).pending = true ∧
      decode (s.req s.livePort).cmd = .ok .stateSave ∧ Instr.stateSave.port ≠ s.livePort := by
  decide +kernel

theorem witness_FatalIsSticky :
    let s := (State.reset.abort .g .wrongPort).present .g 0x04000000#32
    configOk s.cfg = true ∧ s.resetRequested = false ∧ s.fatal = true ∧ s.livePort = .g ∧
      (s.req .g).pending = true := by
  decide +kernel

theorem witness_ResetSequence :
    let s := { cached 0x00200182#32 0#32 with resetRequested := true, fatal := true }
    configOk s.cfg = true ∧ s.resetRequested = true ∧ (step s).ctorIdx = 0 := by
  decide +kernel

theorem witness_TranslationOffIsDirect : State.reset.translationOn (Mode.side .write) = false := by
  decide

/-- Both ends of a mapped block, and another state that agrees on what the lookup reads. -/
theorem witness_MappedEntryDecides :
    batOn.translationOn (Mode.side .read) = true ∧
      (batOn.descriptor (Mode.side .read) 0x80000000#32).getLsbD 0 = true ∧
      (batOn.descriptor (Mode.side .read) 0x8001FFFF#32).getLsbD 0 = true ∧
      (let s' := { batOn with mem := [(0, 1#8)], ptBase := 0x10000#32 }
       Mode.noException.side = Mode.read.side ∧ s'.cfg = batOn.cfg ∧ s'.translationOn .data = true ∧
         s'.table .data = batOn.table .data) := by
  decide +kernel

/-- The segment register 0 of `paged`, replaced. -/
def withSr0 (s : State) (v : Word) : State := { s with cpu := { s.cpu with sr := s.cpu.sr.set 0 v } }

theorem witness_PagePathFailures_directStore :
    let s := withSr0 (paged 0x00200002#32) 0x80000123#32
    s.translationOn .data = true ∧ descMapped (s.descriptor .data 0x00402ABC#32) = false ∧
      srT (s.segment 0x00402ABC#32) = true := by
  decide +kernel

theorem witness_PagePathFailures_noExecute :
    let s := withSr0 (paged 0x00200002#32) 0x10000123#32
    s.translationOn (Mode.side .opcode) = true ∧
      descMapped (s.descriptor (Mode.side .opcode) 0x00402ABC#32) = false ∧
      srT (s.segment 0x00402ABC#32) = false ∧ srN (s.segment 0x00402ABC#32) = true := by
  decide +kernel

theorem witness_PagePathFailures_pageMiss :
    let s := paged 0x00200002#32
    s.translationOn .data = true ∧ descMapped (s.descriptor .data 0x00403000#32) = false ∧
      srT (s.segment 0x00403000#32) = false ∧ srN (s.segment 0x00403000#32) = false ∧
      (s.tlbSet .data (setIndex s.cfg 0x00403000#32)).lookup (eaPage 0x00403000#32) = none ∧
      s.findPte 0x00403000#32 = none := by
  decide +kernel

/-- A store that hits a way whose cached C is 0, with no entry in the page table. -/
theorem witness_PagePathFailures_cleanWay :
    let s := { cached 0x00200102#32 0#32 with mem := [] }
    let ea := 0x00402ABC#32
    s.translationOn .data = true ∧ descMapped (s.descriptor .data ea) = false ∧ srT (s.segment ea) = false ∧
      (s.tlbSet .data (setIndex s.cfg ea)).lookup (eaPage ea) = some false ∧ Mode.isStore .write = true ∧
      permOk s.cfg (if s.cpu.msrPr then srKp (s.segment ea) else srKs (s.segment ea))
        (ptePp ((s.tlbSet .data (setIndex s.cfg ea)).way false).pte1) true = true ∧
      pteC ((s.tlbSet .data (setIndex s.cfg ea)).way false).pte1 = false ∧ s.findPte ea = none := by
  decide +kernel

/-- The same store, the page table's entry now read-only. -/
theorem witness_PagePermission_cleanWay :
    let s := { cached 0x00200102#32 0#32 with mem := (paged 0x00200003#32).mem }
    let ea := 0x00402ABC#32
    s.translationOn .data = true ∧ descMapped (s.descriptor .data ea) = false ∧ srT (s.segment ea) = false ∧
      Mode.isStore .write = true ∧ (s.tlbSet .data (setIndex s.cfg ea)).lookup (eaPage ea) = some false ∧
      permOk s.cfg (if s.cpu.msrPr then srKp (s.segment ea) else srKs (s.segment ea))
        (ptePp ((s.tlbSet .data (setIndex s.cfg ea)).way false).pte1) true = true ∧
      pteC ((s.tlbSet .data (setIndex s.cfg ea)).way false).pte1 = false ∧ s.findPte ea = some 0x00104840#32 ∧
      permOk s.cfg (if s.cpu.msrPr then srKp (s.segment ea) else srKs (s.segment ea))
        (ptePp (s.ramRead32 (0x00104840#32 + 4#32))) true = false := by
  decide +kernel

theorem witness_PagePermission_cacheHit :
    let s := cached 0x00200103#32 0#32
    let ea := 0x00402ABC#32
    s.translationOn .data = true ∧ descMapped (s.descriptor .data ea) = false ∧ srT (s.segment ea) = false ∧
      (s.tlbSet .data (setIndex s.cfg ea)).lookup (eaPage ea) = some false ∧
      permOk s.cfg (if s.cpu.msrPr then srKp (s.segment ea) else srKs (s.segment ea))
        (ptePp ((s.tlbSet .data (setIndex s.cfg ea)).way false).pte1) (Mode.isStore .write) = false := by
  decide +kernel

theorem witness_PagePermission_walkHit :
    let s := withSr0 (paged 0x00200000#32) 0x40000123#32
    let ea := 0x00402ABC#32
    s.translationOn .data = true ∧ descMapped (s.descriptor .data ea) = false ∧ srT (s.segment ea) = false ∧
      (s.tlbSet .data (setIndex s.cfg ea)).lookup (eaPage ea) = none ∧ s.findPte ea = some 0x00104840#32 ∧
      permOk s.cfg (if s.cpu.msrPr then srKp (s.segment ea) else srKs (s.segment ea))
        (ptePp (s.ramRead32 (0x00104840#32 + 4#32))) (Mode.isStore .read) = false := by
  decide +kernel

/-- A store to a way whose cached C is 1. -/
theorem witness_CacheHitAnswers :
    let s := cached 0x00200182#32 0#32
    let ea := 0x00402FFF#32
    s.translationOn .data = true ∧ descMapped (s.descriptor .data ea) = false ∧ srT (s.segment ea) = false ∧
      (s.tlbSet .data (setIndex s.cfg ea)).lookup (eaPage ea) = some false ∧
      permOk s.cfg (if s.cpu.msrPr then srKp (s.segment ea) else srKs (s.segment ea))
        (ptePp ((s.tlbSet .data (setIndex s.cfg ea)).way false).pte1) (Mode.isStore .write) = true ∧
      pteC ((s.tlbSet .data (setIndex s.cfg ea)).way false).pte1 = true := by
  decide +kernel

/-- V20, V23, V24: an entry in the primary group, and one in the secondary. -/
theorem witness_SearchFindsFirstMatch :
    (paged 0x00200002#32).findPte 0x00402ABC#32 = some 0x00104840#32 ∧
    ({ paged 0#32 with mem := Memory.writeBE [] 0x0010B798#32 4 0x800091C1#64 } : State).findPte 0x00402ABC#32 =
      some 0x0010B798#32 := by
  decide +kernel

theorem witness_WalkHitUpdates_noWay :
    let s := paged 0x00200002#32
    let ea := 0x00402ABC#32
    Memory.wf s.mem ∧ Sparse.WF TlbSet.empty (s.tlb .data) ∧ s.translationOn .data = true ∧
      descMapped (s.descriptor .data ea) = false ∧ srT (s.segment ea) = false ∧ Mode.mutates .read = true ∧
      (s.tlbSet .data (setIndex s.cfg ea)).lookup (eaPage ea) = none ∧ s.findPte ea = some 0x00104840#32 ∧
      permOk s.cfg (if s.cpu.msrPr then srKp (s.segment ea) else srKs (s.segment ea))
        (ptePp (s.ramRead32 (0x00104840#32 + 4#32))) (Mode.isStore .read) = true ∧
      ∀ j < 4, isRam s.cfg (0x00104840#32 + 4#32 + BitVec.ofNat 32 j) = true := by
  decide +kernel

theorem witness_WalkHitUpdates_cleanWay :
    let s := cached 0x00200102#32 0#32
    let ea := 0x00402ABC#32
    Memory.wf s.mem ∧ Sparse.WF TlbSet.empty (s.tlb .data) ∧ s.translationOn .data = true ∧
      descMapped (s.descriptor .data ea) = false ∧ srT (s.segment ea) = false ∧
      (s.tlbSet .data (setIndex s.cfg ea)).lookup (eaPage ea) = some false ∧
      permOk s.cfg (if s.cpu.msrPr then srKp (s.segment ea) else srKs (s.segment ea))
        (ptePp ((s.tlbSet .data (setIndex s.cfg ea)).way false).pte1) true = true ∧
      pteC ((s.tlbSet .data (setIndex s.cfg ea)).way false).pte1 = false ∧ s.findPte ea = some 0x00104840#32 ∧
      permOk s.cfg (if s.cpu.msrPr then srKp (s.segment ea) else srKs (s.segment ea))
        (ptePp (s.ramRead32 (0x00104840#32 + 4#32))) (Mode.isStore .write) = true := by
  decide +kernel

/-- One address of each kind of success. -/
theorem witness_PageOffsetPreserved :
    configOk batOn.cfg = true ∧ (batOn.translate .read 0x80027FFF#32 false).1.address = some 0x00107FFF#32 ∧
    configOk Config.rp0 = true ∧ (State.reset.translate .opcode 0xFFFFFFFF#32 false).1.address = some 0xFFFFFFFF#32 ∧
    ((paged 0x00200002#32).translate .write 0x00402FFF#32 true).1.address = some 0x00200FFF#32 := by
  decide +kernel

/-- A translation that changes something, one that fails, and a failing store that changes its cache. -/
theorem witness_TranslationFrame :
    Memory.wf (paged 0x00200002#32).mem ∧ Sparse.WF TlbSet.empty ((paged 0x00200002#32).tlb (Mode.side .write)) ∧
      ((paged 0x00200002#32).translate .write 0x00402ABC#32 false).1.address = some 0x00200ABC#32 ∧
      ((paged 0x00200002#32).translate .write 0x00403000#32 false).1.address = none ∧
      Mode.read ≠ Mode.write := by
  decide +kernel

/-- RP0 and the same platform with `S` = 17, each with the table of the same registers. -/
theorem witness_TranslationIndependentOfShift :
    SameButShift { batOn with ibatTable := [] }
      { batOn with
        cfg := { cfg8 with s := 17 }
        ibatTable := []
        dbatTable := updateBats { cfg8 with s := 17 } batRegs.toList } := by
  refine ⟨by decide +kernel, by decide +kernel, ⟨[], by decide +kernel, by decide +kernel⟩,
    ⟨batRegs.toList, by decide +kernel, rfl⟩, by decide +kernel⟩

/-- Such a pair with a read presented on both. -/
theorem witness_StepIndependentOfShift :
    let s := (batAt 0x80001000#32).withFetchWord 32 0x06000000
    SameButShift s
      { s with
        cfg := { cfg8 with s := 17 }
        ibatTable := []
        dbatTable := updateBats { cfg8 with s := 17 } batRegs.toList } ∧
    (step s).ctorIdx = 0 := by
  refine ⟨⟨by decide +kernel, by decide +kernel, ⟨[], by decide +kernel, by decide +kernel⟩,
    ⟨batRegs.toList, by decide +kernel, rfl⟩, by decide +kernel⟩, by decide +kernel⟩

/-- The last entry of the last block, and an index past the end. -/
theorem witness_RebuildIsTheLoop :
    configOk cfg8 = true ∧ 3 < 2 ^ (17 - cfg8.s) ∧ 2 ^ (32 - cfg8.s) ≤ 131072 ∧
    blockDecision cfg8 batRegs.toList 0x4001#15 = some (0x0008#15, false) ∧
    rebuiltEntry cfg8 batRegs.toList 0x4001#15 3 = 0x00118003#32 ∧
    blockDecision cfg8 batRegs.toList 0x4002#15 = none := by
  decide +kernel

theorem witness_RebuiltTableTranslates :
    configOk batOn.cfg = true ∧ batOn.table (Mode.side .write) = updateBats batOn.cfg batRegs.toList ∧
    batOn.translationOn (Mode.side .write) = true ∧
    blockDecision cfg8 batRegs.toList ((0xCC01FFFF#32).extractLsb' 17 15) = some (0x0600#15, true) ∧
    blockDecision cfg8 batRegs.toList ((0x8FFFFFFF#32).extractLsb' 17 15) = none := by
  decide +kernel

/-- The last clause, at pairs with no valid bit and with bits under the mask. -/
theorem witness_BatUpdatedRebuilds :
    Config.rp0.fakeBatEn = false ∧
    ∀ p ∈ [(⟨0x800001FC#32, 2#32⟩ : BatPair), ⟨0x80020007#32, 2#32⟩], batConfigured p.upper = false := by
  decide

theorem witness_SdrUpdatedRestarts :
    let s := cached 0x00200182#32 0x00402ABC#32
    Sparse.WF TlbSet.empty s.itlb ∧ Sparse.WF TlbSet.empty s.dtlb ∧ s.dtlb ≠ [] := by
  decide +kernel

/-- The set of the operand, and one beside it. -/
theorem witness_InvalidateEntryClearsItsSet :
    let s := cached 0x00200182#32 0x00402ABC#32
    Sparse.WF TlbSet.empty s.itlb ∧ Sparse.WF TlbSet.empty s.dtlb ∧
      (s.g.req.a >>> 12).toNat % s.cfg.tlbSets = 2 ∧ 3 ≠ (s.g.req.a >>> 12).toNat % s.cfg.tlbSets := by
  decide +kernel

theorem cached_tlbOk (w1 a : Word) : tlbOk (cached w1 a).cfg (cached w1 a).dtlb := by
  refine ⟨⟨by simp [cached], by simp [cached, TlbSet.empty, Way.empty]⟩, ?_⟩
  simp [cached, pagedAt, paged, State.setOperands, State.setReq, State.req, State.port, State.reset, Config.rp0,
    TlbSet.tagsDiffer, Way.inSet, Way.empty]

theorem witness_StateSaveWritesImage :
    let s := cached 0x00200182#32 0#32
    tlbOk s.cfg s.itlb ∧ tlbOk s.cfg s.dtlb ∧ 127 < s.cfg.tlbSets ∧ 10 * s.cfg.tlbSets ≤ 1280 :=
  ⟨cached_tlbOk _ _, cached_tlbOk _ _, by decide, by decide⟩

/-- `State.reset` with an image in `SNAP_IN`. -/
def withImage (snap : Cells 32) : State := State.reset.setReq .h { Request.zero with snapIn := snap }

/-- A well-formed image (V101) and a malformed one (V102), by the model's own check. -/
theorem witness_StateRestoreLoadsImage :
    snapshotOk Config.rp0 (withImage [(650, 0x80000402#32), (651, 0x00200182#32)]).h.req.snapIn = true ∧
    snapshotOk Config.rp0 (withImage [(650, 0x80000403#32)]).h.req.snapIn = false ∧
    snapshotOk Config.rp0 (withImage [(635, 0x8000007F#32), (637, 0x8000007F#32)]).h.req.snapIn = false := by
  decide +kernel

theorem witness_SaveRestoreRoundTrip :
    let s := { cached 0x00200182#32 0#32 with ibatTable := [] }
    tlbOk s.cfg s.itlb ∧ tlbOk s.cfg s.dtlb ∧ 0 < s.cfg.tlbSets ∧ (exec .stateSave s).ctorIdx = 0 ∧
      s.latchLocator = s ∧ s.rebuildBoth = s :=
  ⟨cached_tlbOk _ _, cached_tlbOk _ _, by decide, by decide +kernel, by decide +kernel, by decide +kernel⟩

/-- The clauses of an access within one page: a failed translation, RAM, a handler, a hole. -/
theorem witness_GuestReadWithinPage :
    configOk batOn.cfg = true ∧ samePage 0x80000FF8#32 (lastByte 0x80000FF8#32 8) = true ∧
    ((batAt 0x70000000#32).translate .read 0x70000000#32 false).1.faultCause = some .pageMiss ∧
    ((batAt 0x80000FF8#32).translate .read 0x80000FF8#32 false).1.address = some 0x00000FF8#32 ∧
    route cfg8 0x00000FF8#32 8 = some .ram ∧
    ((batAt 0xCC000FF8#32).translate .read 0xCC000FF8#32 false).1.address = some 0x0C000FF8#32 ∧
    route cfg8 0x0C000FF8#32 8 = some .mmio ∧
    ((batAt 0x90000FF8#32).translate .read 0x90000FF8#32 false).1.address = some 0x40000FF8#32 ∧
    route cfg8 0x40000FF8#32 8 = none := by
  decide +kernel

/-- The clauses of an access across pages: either page fails; adjacent frames in RAM, in a handler's range, in a
hole; other frames in RAM, in holes. -/
theorem witness_GuestReadAcrossPages :
    let t := fun a : Word => (batOn.translate .read a false).1
    samePage 0x8001FFFF#32 (lastByte 0x8001FFFF#32 2) = false ∧
    (t 0x7FFFFFFF#32).faultCause = some .pageMiss ∧
    (t 0x8003FFFF#32).address = some 0x0011FFFF#32 ∧ (t 0x80040000#32).faultCause = some .pageMiss ∧
    (t 0x80000FFF#32).address = some 0x00000FFF#32 ∧ (t 0x80001000#32).address = some 0x00001000#32 ∧
    (t 0xCC000FFF#32).address = some 0x0C000FFF#32 ∧ (t 0xCC001000#32).address = some 0x0C001000#32 ∧
    (t 0x90000FFF#32).address = some 0x40000FFF#32 ∧ (t 0x90001000#32).address = some 0x40001000#32 ∧
    (t 0x8001FFFF#32).address = some 0x0001FFFF#32 ∧ (t 0x80020000#32).address = some 0x00100000#32 ∧
    (t 0x9001FFFF#32).address = some 0x4001FFFF#32 ∧ (t 0x90020000#32).address = some 0x50000000#32 := by
  decide +kernel

theorem witness_GuestReadAcrossPages_bytes :
    firstPart 0x8001FFFF#32 = 1 ∧ route cfg8 0x00000FFF#32 2 = some .ram ∧ route cfg8 0x0C000FFF#32 2 = some .mmio ∧
    route cfg8 0x40000FFF#32 2 = none ∧ 0x00100000#32 ≠ 0x0001FFFF#32 + 1#32 ∧
    (∀ b ∈ byteRun 0x0001FFFF#32 1 ++ byteRun 0x00100000#32 1, isRam cfg8 b = true) ∧
    (∀ b ∈ byteRun 0x4001FFFF#32 1 ++ byteRun 0x50000000#32 1, isMmio cfg8 b = false) ∧
    (∃ b ∈ byteRun 0x4001FFFF#32 1 ++ byteRun 0x50000000#32 1, isRam cfg8 b = false) :=
  ⟨by decide +kernel, by decide +kernel, by decide +kernel, by decide +kernel, by decide,
    all_of (by decide +kernel), none_of (by decide +kernel), 0x50000000#32, by decide +kernel, by decide +kernel⟩

/-- Split frames with device bytes (`GuestReadAcrossPages`, `GuestWriteAcrossPages`, `HostAccessAcrossPages`): a device
before RAM, and a device before a hole. -/
theorem witness_AcrossPages_device :
    let t := fun a : Word => (batOn.translate .read a false).1
    let u := fun a : Word => (batOn.translate .write a false).1
    let h := fun a : Word => (hostTranslator .effective .noException a batOn).1
    samePage 0xCC01FFFF#32 (lastByte 0xCC01FFFF#32 2) = false ∧ firstPart 0xCC01FFFF#32 = 1 ∧
    samePage 0xCC05FFFF#32 (lastByte 0xCC05FFFF#32 2) = false ∧ firstPart 0xCC05FFFF#32 = 1 ∧
    (t 0xCC01FFFF#32).address = some 0x0C01FFFF#32 ∧ (t 0xCC020000#32).address = some 0x00100000#32 ∧
    (t 0xCC05FFFF#32).address = some 0x0C09FFFF#32 ∧ (t 0xCC060000#32).address = some 0x40000000#32 ∧
    (u 0xCC01FFFF#32).address = some 0x0C01FFFF#32 ∧ (u 0xCC020000#32).address = some 0x00100000#32 ∧
    (u 0xCC05FFFF#32).address = some 0x0C09FFFF#32 ∧ (u 0xCC060000#32).address = some 0x40000000#32 ∧
    (h 0xCC01FFFF#32).address = some 0x0C01FFFF#32 ∧ (h 0xCC020000#32).address = some 0x00100000#32 ∧
    (h 0xCC05FFFF#32).address = some 0x0C09FFFF#32 ∧ (h 0xCC060000#32).address = some 0x40000000#32 ∧
    0x00100000#32 ≠ 0x0C01FFFF#32 + 1#32 ∧ 0x40000000#32 ≠ 0x0C09FFFF#32 + 1#32 := by
  decide +kernel

theorem witness_AcrossPages_device_bytes :
    (∀ b ∈ byteRun 0x0C01FFFF#32 1 ++ byteRun 0x00100000#32 1, isHole cfg8 b = false) ∧
    (byteRun 0x0C01FFFF#32 1 ++ byteRun 0x00100000#32 1).any (isMmio cfg8) = true ∧
    (∃ b ∈ byteRun 0x0C01FFFF#32 1 ++ byteRun 0x00100000#32 1, isRam cfg8 b = false) ∧
    byteRun 0x0C09FFFF#32 1 ++ byteRun 0x40000000#32 1 = [0x0C09FFFF#32] ++ 0x40000000#32 :: [] ∧
    (∀ c ∈ [0x0C09FFFF#32], isHole cfg8 c = false) ∧ isHole cfg8 0x40000000#32 = true ∧
    ∃ b ∈ byteRun 0x0C09FFFF#32 1 ++ byteRun 0x40000000#32 1, isHole cfg8 b = true :=
  ⟨none_of (by decide +kernel), by decide +kernel, ⟨0x0C01FFFF#32, by decide +kernel, by decide +kernel⟩,
    by decide +kernel, none_of (by decide +kernel), by decide +kernel, 0x40000000#32, by decide +kernel,
    by decide +kernel⟩

/-- Two RAM regions that touch at 0x1000, no region over the seam. -/
def cfgSeam : Config :=
  { Config.rp0 with ramRegions := [⟨0#32, 0x1000⟩, ⟨0x1000#32, 0x1000⟩, ⟨0xE0000000#32, 0x4000⟩] }

/-- Adjacent frames over a seam, translation off (`GuestWriteAcrossPages`): no byte is a hole, and the access goes nowhere
(R84). -/
theorem witness_AcrossPages_seam :
    let s := { directAt 0x0FFC#32 with cfg := cfgSeam }
    configOk s.cfg = true ∧ samePage 0x0FFC#32 (lastByte 0x0FFC#32 8) = false ∧
      (s.translate .write 0x0FFC#32 false).1.address = some 0x0FFC#32 ∧
      (s.translate .write 0x1000#32 false).1.address = some 0x1000#32 ∧
      0x1000#32 = 0x0FFC#32 + BitVec.ofNat 32 (firstPart 0x0FFC#32) ∧ route cfgSeam 0x0FFC#32 8 = none ∧
      (byteRun 0x0FFC#32 8).any (isHole cfgSeam) = false := by
  decide +kernel

theorem witness_GuestWriteWithinPage :
    configOk batOn.cfg = true ∧ Memory.wf batOn.mem ∧
    samePage 0x8001FFFF#32 (lastByte 0x8001FFFF#32 1) = true ∧
    ((batAt 0x70000000#32).translate .write 0x70000000#32 false).1.faultCause = some .pageMiss ∧
    ((batAt 0x8001FFFF#32).translate .write 0x8001FFFF#32 false).1.address = some 0x0001FFFF#32 ∧
    route cfg8 0x0001FFFF#32 1 = some .ram ∧
    ((batAt 0xCC003000#32).translate .write 0xCC003000#32 false).1.address = some 0x0C003000#32 ∧
    route cfg8 0x0C003000#32 1 = some .mmio ∧
    ((batAt 0x90000000#32).translate .write 0x90000000#32 false).1.address = some 0x40000000#32 ∧
    route cfg8 0x40000000#32 1 = none := by
  decide +kernel

theorem witness_GuestWriteAcrossPages :
    let t := fun a : Word => (batOn.translate .write a false).1
    Memory.wf batOn.mem ∧ samePage 0x8001FFF9#32 (lastByte 0x8001FFF9#32 8) = false ∧
    (t 0x7FFFFFFF#32).faultCause = some .pageMiss ∧
    (t 0x8003FFFF#32).address = some 0x0011FFFF#32 ∧ (t 0x80040000#32).faultCause = some .pageMiss ∧
    (t 0x8001FFF9#32).address = some 0x0001FFF9#32 ∧ (t 0x80020000#32).address = some 0x00100000#32 ∧
    (t 0x9001FFF9#32).address = some 0x4001FFF9#32 ∧ (t 0x90020000#32).address = some 0x50000000#32 := by
  decide +kernel

theorem witness_GuestWriteAcrossPages_bytes :
    firstPart 0x8001FFF9#32 = 7 ∧ 0x00100000#32 ≠ 0x0001FFF9#32 + BitVec.ofNat 32 7 ∧
    (∀ b ∈ byteRun 0x0001FFF9#32 7 ++ byteRun 0x00100000#32 1, isRam cfg8 b = true) ∧
    ∃ b ∈ byteRun 0x4001FFF9#32 7 ++ byteRun 0x50000000#32 1, isHole cfg8 b = true :=
  ⟨by decide +kernel, by decide, all_of (by decide +kernel), 0x50000000#32, by decide +kernel, by decide +kernel⟩

/-- Two adjacent pages of one region, and of one handler's range. -/
theorem witness_GuestWriteAcrossPages_adjacent :
    (batOn.translate .write 0x80000FFC#32 false).1.address = some 0x00000FFC#32 ∧
    (batOn.translate .write 0x80001000#32 false).1.address = some 0x00001000#32 ∧
    0x00001000#32 = 0x00000FFC#32 + BitVec.ofNat 32 (firstPart 0x80000FFC#32) ∧
    route cfg8 0x00000FFC#32 8 = some .ram ∧
    (batOn.translate .write 0xCC000FFC#32 false).1.address = some 0x0C000FFC#32 ∧
    (batOn.translate .write 0xCC001000#32 false).1.address = some 0x0C001000#32 ∧
    0x0C001000#32 = 0x0C000FFC#32 + BitVec.ofNat 32 (firstPart 0xCC000FFC#32) ∧
    route cfg8 0x0C000FFC#32 8 = some .mmio := by
  decide +kernel

/-- A store over two frames, and one with translation off. -/
theorem witness_WriteThenReadRoundTrip :
    let s := batAt 0x8001FFFE#32 0x1122334455667788#64
    configOk s.cfg = true ∧ Memory.wf s.mem ∧ s.bypassesPages s.g.req.a 8 = true ∧
      (nextOf (exec .write64 s)).g.rsp.status = .ok ∧ (nextOf (exec .write64 s)).g.rsp.flags.mmio = false ∧
      (nextOf (exec .write64 s)).h.req.a = s.g.req.a ∧ (directAt 0#32).bypassesPages 0x1000#32 8 = true := by
  decide +kernel

/-- A read that changes a page-table word and the cache, and one that ends in a DSI. -/
theorem witness_GuestReadFrame :
    let s := pagedAt 0x00200002#32 0x00402ABC#32
    let u := pagedAt 0x00200002#32 0x00403000#32
    Memory.wf s.mem ∧ Sparse.WF TlbSet.empty s.dtlb ∧ (exec .read64 s).ctorIdx = 0 ∧
      (nextOf (exec .read64 s)).mem ≠ s.mem ∧ (nextOf (exec .read64 u)).g.rsp.status = .dsi := by
  decide +kernel

theorem witness_GuestWriteFrame :
    let s := pagedAt 0x00200002#32 0x00402ABC#32 0x7E#64
    let u := pagedAt 0x00200002#32 0x00402FFF#32 0x7E#64
    Memory.wf s.mem ∧ Sparse.WF TlbSet.empty s.dtlb ∧ (exec .write16 s).ctorIdx = 0 ∧
      (nextOf (exec .write16 s)).g.rsp.status = .ok ∧ (nextOf (exec .write16 u)).g.rsp.status ≠ .ok := by
  decide +kernel

/-- A fetch from RAM, and one whose address is a device. -/
theorem witness_FetchReadsRamOnly :
    let s := pagedAt 0x00200002#32 0x00402ABC#32
    s.g.req.a.extractLsb' 0 2 = 0#2 ∧
      (s.translate .opcode s.g.req.a false).1.address = some 0x00200ABC#32 ∧
      inOne s.cfg.ramRegions 0x00200ABC#32 4 = true ∧
      ((directAt 0x0C000000#32).translate .opcode 0x0C000000#32 false).1.address = some 0x0C000000#32 ∧
      inOne Config.rp0.ramRegions 0x0C000000#32 4 = false := by
  decide +kernel

theorem witness_FetchFailures :
    let s := pagedAt 0x00200002#32 0x00403000#32
    s.g.req.a.extractLsb' 0 2 = 0#2 ∧ (s.translate .opcode s.g.req.a false).1.faultCause = some .pageMiss ∧
      (directAt 0x102#32).g.req.a.extractLsb' 0 2 ≠ 0#2 := by
  decide +kernel

/-- A line in RAM, one in a hole, one whose translation fails. -/
theorem witness_DclClearZeroesTheLine :
    configOk batOn.cfg = true ∧ Memory.wf batOn.mem ∧
    (batOn.translate .write (0x8001FFFF#32 &&& 0xFFFFFFE0#32) false).1.address = some 0x0001FFE0#32 ∧
    inOne cfg8.ramRegions 0x0001FFE0#32 32 = true ∧
    (batOn.translate .write (0xCC00001F#32 &&& 0xFFFFFFE0#32) false).1.address = some 0x0C000000#32 ∧
    inOne cfg8.ramRegions 0x0C000000#32 32 = false ∧
    (batOn.translate .write (0x70000001#32 &&& 0xFFFFFFE0#32) false).1.faultCause = some .pageMiss := by
  decide +kernel

theorem witness_LineCommandsMoveNothing :
    (batOn.translate .write (0xCC00001F#32 &&& 0xFFFFFFE0#32) false).1.address = some 0x0C000000#32 ∧
    (batOn.translate .write (0x70000001#32 &&& 0xFFFFFFE0#32) false).1.faultCause = some .pageMiss := by
  decide +kernel

/-- One block, both operands with low bits set. -/
theorem witness_DmaCopiesEveryBlock :
    let s := directAt 0x201F#32 0#64 0xE0003FFF#32
    (Instr.dmaLcToMem 1#16, s.g.req.b, s.g.req.a, true) ∈ dmaCommands s 1#16 ∧ Memory.wf s.mem ∧
      (∀ k < (1#16).toNat, dmaBlockOk s.cfg s.g.req.b s.g.req.a true k = true) ∧
      dmaAllRam s.cfg s.g.req.b s.g.req.a (1#16).toNat = true := by
  decide +kernel

theorem witness_DmaCopiesEveryBlock_apart :
    let s := directAt 0x201F#32 0#64 0xE0003FFF#32
    ∀ b ∈ byteRun (lineAddress s.g.req.b) (32 * (1#16).toNat),
      b ∉ byteRun (lineAddress s.g.req.a) (32 * (1#16).toNat) := by
  intro s b hb
  have h : (byteRun (lineAddress s.g.req.b) 32).all (fun b => !(byteRun (lineAddress s.g.req.a) 32).contains b) =
      true := by decide +kernel
  simpa using List.all_eq_true.1 h b hb

/-- Three blocks written by a device; the same range as source and destination. -/
theorem witness_DmaCopiesEveryBlock_device :
    let s := directAt 0x0C000000#32 0#64 0xE0003FA0#32
    let u := directAt 0xE0000000#32 0#64 0xE0000000#32
    (∀ k < (3#16).toNat, dmaBlockOk s.cfg s.g.req.a s.g.req.b false k = true) ∧
      dmaViaHandler s.cfg s.g.req.a s.g.req.b (3#16).toNat = true ∧
      (∀ k < (2#16).toNat, dmaBlockOk u.cfg u.g.req.a u.g.req.b false k = true) ∧
      dmaAllRam u.cfg u.g.req.a u.g.req.b (2#16).toNat = true ∧ lineAddress u.g.req.a = lineAddress u.g.req.b := by
  decide +kernel

/-- V77: the second of two blocks is bad. -/
theorem witness_DmaStopsAtBadBlock :
    let s := directAt 0x2000#32 0#64 0xE0003FE0#32
    (Instr.dmaMemToLc 2#16, s.g.req.a, s.g.req.b, false) ∈ dmaCommands s 2#16 ∧
      (Instr.dmaMemToLc 1#16, s.g.req.a, s.g.req.b, false) ∈ dmaCommands s 1#16 ∧ (1#16 : BitVec 16) < 2#16 ∧
      (∀ j < (1#16).toNat, dmaBlockOk s.cfg s.g.req.a s.g.req.b false j = true) ∧
      dmaBlockOk s.cfg s.g.req.a s.g.req.b false (1#16).toNat = false := by
  decide +kernel

theorem witness_HostSpaces :
    batOn.translationOn (Mode.side .noException) = true ∧
    State.reset.translationOn (Mode.side .opcodeNoException) = false ∧
    (Instr.hostGetString .reserved 0#16).wellFormed = false := by
  decide

/-- The clauses of a host access within one page, in the virtual space. -/
theorem witness_HostReadWithinPage :
    Space.virtual.isLegal = true ∧ configOk batOn.cfg = true ∧
    samePage 0x80000FF8#32 (lastByte 0x80000FF8#32 8) = true ∧
    (hostTranslator .virtual .noException 0x70000000#32 batOn).1.address = none ∧
    (hostTranslator .virtual .noException 0x80000FF8#32 batOn).1.address = some 0x00000FF8#32 ∧
    route cfg8 0x00000FF8#32 8 = some .ram ∧
    (hostTranslator .virtual .noException 0xCC000FF8#32 batOn).1.address = some 0x0C000FF8#32 ∧
    route cfg8 0x0C000FF8#32 8 = some .mmio ∧
    (hostTranslator .virtual .noException 0x90000FF8#32 batOn).1.address = some 0x40000FF8#32 ∧
    route cfg8 0x40000FF8#32 8 = none := by
  decide +kernel

theorem witness_HostWriteWithinPage :
    Space.physical.isLegal = true ∧ configOk batOn.cfg = true ∧ Memory.wf batOn.mem ∧
    samePage 0x00001FFF#32 (lastByte 0x00001FFF#32 1) = true ∧
    (hostTranslator .virtual .noException 0x1000#32 State.reset).1.address = none ∧
    (hostTranslator .physical .noException 0x00001FFF#32 batOn).1.address = some 0x00001FFF#32 ∧
    route cfg8 0x00001FFF#32 1 = some .ram ∧ route cfg8 0x0C003000#32 1 = some .mmio ∧
    route cfg8 0x80000000#32 1 = none := by
  decide +kernel

theorem witness_HostAccessAcrossPages :
    let t := fun a : Word => (hostTranslator .effective .noException a batOn).1
    configOk batOn.cfg = true ∧ Memory.wf batOn.mem ∧ samePage 0x8001FFFF#32 (lastByte 0x8001FFFF#32 2) = false ∧
    (t 0x8003FFFF#32).address = some 0x0011FFFF#32 ∧ (t 0x80040000#32).address = none ∧
    (t 0x8001FFFF#32).address = some 0x0001FFFF#32 ∧ (t 0x80020000#32).address = some 0x00100000#32 ∧
    0x00100000#32 ≠ 0x0001FFFF#32 + BitVec.ofNat 32 (firstPart 0x8001FFFF#32) := by
  decide +kernel

/-- Adjacent frames of a host access: RAM, a handler's range, a hole. -/
theorem witness_HostAccessAcrossPages_adjacent :
    let t := fun a : Word => (hostTranslator .physical .noException a State.reset).1
    samePage 0x0FFC#32 (lastByte 0x0FFC#32 8) = false ∧ firstPart 0x0FFC#32 = 4 ∧
    (t 0x0FFC#32).address = some 0x0FFC#32 ∧ (t 0x1000#32).address = some 0x1000#32 ∧
    route Config.rp0 0x0FFC#32 8 = some .ram ∧
    (t 0x0C000FFC#32).address = some 0x0C000FFC#32 ∧ (t 0x0C001000#32).address = some 0x0C001000#32 ∧
    route Config.rp0 0x0C000FFC#32 8 = some .mmio ∧
    (t 0x40000FFC#32).address = some 0x40000FFC#32 ∧ (t 0x40001000#32).address = some 0x40001000#32 ∧
    route Config.rp0 0x40000FFC#32 8 = none := by
  decide +kernel

theorem witness_HostAccessAcrossPages_bytes :
    Space.effective.isLegal = true ∧ firstPart 0x8001FFFF#32 = 1 ∧
    ∀ b ∈ byteRun 0x0001FFFF#32 1 ++ byteRun 0x00100000#32 1, isRam cfg8 b = true :=
  ⟨by decide, by decide +kernel, all_of (by decide +kernel)⟩

/-- A host store that ends `OK`, and one that ends `ABSENT`. -/
theorem witness_HostWriteFrame :
    let s := batAt 0x8001FFFE#32 0x11223344#64
    let u := batAt 0x8003FFFE#32 0x11223344#64
    configOk s.cfg = true ∧ Memory.wf s.mem ∧ (exec (.hostTryWrite32 .effective) s).ctorIdx = 0 ∧
      (nextOf (exec (.hostTryWrite32 .effective) s)).h.rsp.status = .ok ∧
      (nextOf (exec (.hostWrite32 .effective) u)).h.rsp.status ≠ .ok := by
  decide +kernel

theorem witness_HostPredicatesAnswer :
    Space.physical.isLegal = true ∧ configOk batOn.cfg = true ∧
    (hostTranslator .physical .opcodeNoException 0x1000#32 batOn).1.address = some 0x1000#32 ∧
    (hostTranslator .effective .noException 0x70000000#32 batOn).1.address = none := by
  decide +kernel

/-- Strings that end for each of the three reasons, the first of no element at all. -/
theorem witness_HostStringReads :
    Space.physical.isLegal = true ∧ configOk Config.rp0 = true ∧
    (nextOf (exec (.hostGetString .physical 0#16) (directAt 0x1000#32))).h.rsp.data = 1#64 ∧
    (nextOf (exec (.hostGetU16String .physical 9#16) (directAt 0x1000#32))).h.rsp.data = 0#64 ∧
    (nextOf (exec (.hostGetString .physical 9#16) (directAt 0x40000000#32))).h.rsp.data = 2#64 := by
  decide +kernel

theorem witness_TranslateQueriesAnswer :
    (batOn.translate .opcodeNoException 0x80001000#32 false).1.address = none ∧
    (batOn.translate .noException 0x80001000#32 false).1.address = some 0x1000#32 := by
  decide +kernel

/-- The last eight bytes of the mapping, over nothing but RAM. -/
theorem witness_OptRamAnswerIsSound :
    let s := batAt 0x8003FFF8#32
    configOk s.cfg = true ∧ ramSeparated s.cfg = true ∧ Rebuilt s.cfg s.dbatTable ∧
      (exec .optRam64 s).ctorIdx = 0 ∧ (nextOf (exec .optRam64 s)).g.rsp.data = 1#64 :=
  ⟨by decide +kernel, by decide +kernel, ⟨batRegs.toList, by decide +kernel⟩, by decide +kernel, by decide +kernel⟩

/-- A query of each kind, a port H command, and a fetch that fails. -/
theorem witness_QueriesDisturbNothing :
    let s := pagedAt 0x00200002#32 0x00403000#32
    configOk s.cfg = true ∧ isQuery (.hostGetString .virtual 3#16) = true ∧
      (Instr.hostGetString .virtual 3#16).wellFormed = true ∧
      (exec (.hostGetString .virtual 3#16) s).ctorIdx = 0 ∧ (Instr.hostWrite8 .effective).port = .h ∧
      (exec (.hostWrite8 .effective) s).ctorIdx = 0 ∧
      (nextOf (exec .tryReadInst s)).g.rsp.status = .absent := by
  decide +kernel

/-- A step that sets `FATAL`, for each of the five reasons. -/
theorem witness_OnlyViolationsAbort :
    ∀ s ∈ [State.reset.withFetchWord 32 0x14000000, State.reset.present .g 0xC0000000#32,
        State.reset.withFetchWord 32 0x90C00000, (directAt 0x102#32).withFetchWord 32 0x0C000000,
        (withImage [(650, 0x80000403#32)]).withFetchWord 32 0xC4000000],
      (step s).ctorIdx = 0 ∧ s.fatal = false ∧ (nextOf (step s)).fatal = true := by
  decide +kernel

theorem witness_BorrowedStateIsReadOnly :
    let s := (pagedAt 0x00200002#32 0x00402ABC#32).withFetchWord 32 0x08000000
    let u := (pagedAt 0x00200002#32 0x00402ABC#32).withFetchWord 32 0xC0000000
    (step s).ctorIdx = 0 ∧ s.resetRequested = false ∧ s.livePort = .g ∧ (step u).ctorIdx = 0 ∧
      u.resetRequested = false ∧ u.livePort = .h := by
  decide +kernel

/-- A state other than reset that meets the invariant, and whose step changes memory and a cache. -/
theorem witness_InvariantKeptByStep :
    let s := (cached 0x00200102#32 0x00402ABC#32).withFetchWord 32 0x08000000
    Inv s ∧ (step s).ctorIdx = 0 ∧ (nextOf (step s)).mem ≠ s.mem := by
  refine ⟨⟨by decide +kernel, ⟨by decide +kernel, by decide +kernel⟩, ⟨[], by decide +kernel⟩,
    ⟨[], by decide +kernel⟩, cached_tlbOk 0x00200102#32 0x00402ABC#32, cached_tlbOk 0x00200102#32 0x00402ABC#32,
    by unfold locatorOk; decide +kernel, ?_, ?_, by decide +kernel⟩, by decide +kernel, by decide +kernel⟩ <;>
  · unfold responseOk; decide +kernel

end Sys2Proof.Tests
end

section
/-! Independence of `BAT_INDEX_SHIFT` (`00_scope.md` R8, `40_translate.md` R190).  What a rebuilt table answers does not
depend on `S`, and every operation of the machine keeps the relation `SameButShift`. -/

namespace Sys2Proof.Machine

/-! ### Reading a rebuilt table (R210 to R214) -/

/-- Reading an overlay of canonical arrays: the old array shows where the new one holds the default. -/
theorem Sparse.get_overlay_of_wf {α : Type} [DecidableEq α] {d : α} {new old : Sparse α} (hn : Sparse.WF d new)
    (ho : Sparse.WF d old) (a : Nat) :
    Sparse.get d (Sparse.overlay new old) a =
      if Sparse.get d new a = d then Sparse.get d old a else Sparse.get d new a := by
  rw [Sparse.get_overlay hn.1 ho.1]
  by_cases hk : a ∈ new.map Prod.fst
  · obtain ⟨⟨k, v⟩, hm, rfl⟩ := List.mem_map.1 hk
    rw [if_pos hk, Sparse.get_of_mem hn.1 hm, if_neg (hn.2 _ hm)]
  · have hd : Sparse.get d new a = d :=
      Sparse.get_eq_default fun p hp he => hk (List.mem_map.2 ⟨p, hp, he⟩)
    rw [if_neg hk, if_pos hd]

theorem pairCovers_eq (u : Word) (e : BitVec 15) : pairCovers u e = (batConfigured u && batCovers u e) := rfl

theorem fakeCovers_iff {c : Config} {e : BitVec 15} :
    fakeCovers c e = true ↔ c.fakeBatEn = true ∧ e.toNat ∈ fakeBlocks c := by
  rw [mem_fakeBlocks]
  simp [fakeCovers, batGranule, and_assoc]

/-- The table of the register pairs alone: the rebuild before the fake run is laid over it (R210). -/
def pairsTable (c : Config) (pairs : List BatPair) : Cells 32 :=
  (pairs.filter fun p => batConfigured p.upper).foldl (fun t p => Sparse.overlay (pairRun c p) t) []

theorem updateBats_eq (c : Config) (pairs : List BatPair) :
    updateBats c pairs = Sparse.overlay (fakeRun c) (pairsTable c pairs) := rfl

/-- A further pair is laid over the earlier ones when it is configured. -/
theorem pairsTable_concat (c : Config) (pairs : List BatPair) (p : BatPair) :
    pairsTable c (pairs ++ [p]) =
      if batConfigured p.upper then Sparse.overlay (pairRun c p) (pairsTable c pairs) else pairsTable c pairs := by
  unfold pairsTable
  rw [List.filter_append, List.foldl_append]
  cases h : batConfigured p.upper <;> simp [h]

theorem pairsTable_wf (c : Config) (pairs : List BatPair) : Sparse.WF 0#32 (pairsTable c pairs) := by
  induction pairs using List.reverseRecOn with
  | nil => exact Sparse.WF.nil _
  | append_singleton pairs p ih =>
    rw [pairsTable_concat]
    split
    · exact Sparse.overlay_wf (pairRun_wf c p) ih
    · exact ih

/-- The highest-numbered pair that covers a block decides its entries (R210, R211). -/
theorem get_pairsTable (c : Config) (pairs : List BatPair) (e : BitVec 15) {q : Nat} (hq : q < 2 ^ (17 - c.s)) :
    Sparse.get 0#32 (pairsTable c pairs) (e.toNat * 2 ^ (17 - c.s) + q) =
      match pairs.reverse.find? fun p => pairCovers p.upper e with
      | some p => batDescriptor c (batFrame p e) (wimgWi p.lower) q
      | none => 0#32 := by
  induction pairs using List.reverseRecOn with
  | nil => rfl
  | append_singleton pairs p ih =>
    rw [pairsTable_concat, List.reverse_append, List.reverse_singleton, List.singleton_append, List.find?_cons,
      pairCovers_eq]
    cases hp : batConfigured p.upper
    · simpa using ih
    · rw [if_pos rfl, Sparse.get_overlay_of_wf (pairRun_wf c p) (pairsTable_wf c pairs), get_pairRun c hp e hq, ih]
      cases batCovers p.upper e <;> simp [batDescriptor_ne_zero]

theorem configOk_fakeRun {c : Config} (h : configOk c = true) : fakeRunOk c = true := by
  simp only [configOk, Bool.and_eq_true] at h
  exact h.2

theorem configOk_shift {c : Config} (h : configOk c = true) : 12 ≤ c.s ∧ c.s ≤ 17 := by
  simp only [configOk, Bool.and_eq_true, decide_eq_true_eq] at h
  omega

theorem updateBats_wf {c : Config} (h : configOk c = true) (pairs : List BatPair) :
    Sparse.WF 0#32 (updateBats c pairs) :=
  Sparse.overlay_wf (fakeRun_wf (configOk_fakeRun h)) (pairsTable_wf c pairs)

/-- The descriptor of R210 in the bit fields of R139. -/
theorem batDescriptor_eq_blockDescriptor {c : Config} (pb : BitVec 15) (wi : Bool) {q : Nat}
    (hq : q < 2 ^ (17 - c.s)) : batDescriptor c pb wi q = blockDescriptor c pb wi q := by
  have frame : (pb ++ 0#17 : Word) = pb.setWidth 32 <<< 17 := by
    refine BitVec.eq_of_getLsbD_eq fun i hi => ?_
    rw [BitVec.getLsbD_append, BitVec.getLsbD_shiftLeft, BitVec.getLsbD_setWidth]
    by_cases h : i < 17
    · simp [h]
    · simp [h, hi, show i - 17 < 32 by omega]
  unfold batDescriptor batFlags blockDescriptor
  rw [Nat.mod_eq_of_lt hq, frame]
  simp only [BitVec.or_assoc, Bool.and_eq_true, Bool.not_eq_true']

/-- The entry at offset `q` of block `e` of a rebuilt table is the one the loop of R210 decides. -/
theorem get_updateBats {c : Config} (h : configOk c = true) (pairs : List BatPair) (e : BitVec 15) {q : Nat}
    (hq : q < 2 ^ (17 - c.s)) :
    Sparse.get 0#32 (updateBats c pairs) (e.toNat * 2 ^ (17 - c.s) + q) = rebuiltEntry c pairs e q := by
  have hf := configOk_fakeRun h
  rw [updateBats_eq, Sparse.get_overlay_of_wf (fakeRun_wf hf) (pairsTable_wf c pairs), get_fakeRun c hf e hq,
    get_pairsTable c pairs e hq, rebuiltEntry, blockDecision]
  simp only [← fakeCovers_iff]
  cases fakeCovers c e
  · cases pairs.reverse.find? fun p => pairCovers p.upper e with
    | none => rfl
    | some p => exact batDescriptor_eq_blockDescriptor _ _ hq
  · simpa [batDescriptor_ne_zero] using batDescriptor_eq_blockDescriptor e false hq

/-! ### The fields of a rebuilt entry (R139, R173) -/

/-- The bits of a written descriptor: the frame above, the sub-block number from `S` on, the three flags below. -/
theorem getLsbD_blockDescriptor (c : Config) (pb : BitVec 15) (wi : Bool) (q : Nat) {i : Nat} (hi : i < 32) :
    (blockDescriptor c pb wi q).getLsbD i =
      (!decide (i < 17) && pb.getLsbD (i - 17) || !decide (i < c.s) && q.testBit (i - c.s) || decide (i = 0) ||
        wi && decide (i = 2) || (!wi && isRamBlock c pb) && decide (i = 1)) := by
  have flag1 : ∀ i < 32, (1#32).getLsbD i = decide (i = 0) := by decide
  have flag2 : ∀ i < 32, (2#32).getLsbD i = decide (i = 1) := by decide
  have flag4 : ∀ i < 32, (4#32).getLsbD i = decide (i = 2) := by decide
  have frame : i - 17 < 32 := by omega
  have index : i - c.s < 32 := by omega
  unfold blockDescriptor
  simp only [BitVec.getLsbD_or, BitVec.getLsbD_shiftLeft, BitVec.getLsbD_setWidth, BitVec.getLsbD_ofNat,
    flag1 i hi, apply_ite (BitVec.getLsbD · i), flag2 i hi, flag4 i hi]
  cases wi <;> cases isRamBlock c pb <;> simp [hi, frame, index]

section
variable {c : Config} (hs : 12 ≤ c.s) (pb : BitVec 15) (wi : Bool) (q : Nat)

theorem descMapped_blockDescriptor : descMapped (blockDescriptor c pb wi q) = true := by
  rw [descMapped, getLsbD_blockDescriptor c pb wi q (by omega)]
  simp

include hs

theorem descPhysical_blockDescriptor :
    descPhysical (blockDescriptor c pb wi q) = (!wi && isRamBlock c pb) := by
  rw [descPhysical, getLsbD_blockDescriptor c pb wi q (by omega)]
  simp [show 1 < c.s by omega]

theorem descWi_blockDescriptor : descWi (blockDescriptor c pb wi q) = wi := by
  rw [descWi, getLsbD_blockDescriptor c pb wi q (by omega)]
  simp [show 2 < c.s by omega]

end

theorem getLsbD_batOffsetMask (k : Nat) {i : Nat} (hi : i < 32) :
    (batOffsetMask k).getLsbD i = decide (i < k) := by
  rw [batOffsetMask, BitVec.getLsbD_ofNat, Nat.testBit_two_pow_sub_one, decide_eq_true hi, Bool.true_and]

/-- The number of `ea`'s entry inside its 128 KiB block: the low `17 - S` bits of the index `ea >> S` (R173). -/
def subBlock (k : Nat) (ea : Word) : Nat := (ea.toNat >>> k) % 2 ^ (17 - k)

theorem subBlock_lt (k : Nat) (ea : Word) : subBlock k ea < 2 ^ (17 - k) :=
  Nat.mod_lt _ (Nat.two_pow_pos _)

theorem testBit_subBlock (k : Nat) (ea : Word) (j : Nat) :
    (subBlock k ea).testBit j = (decide (j < 17 - k) && ea.getLsbD (k + j)) := by
  rw [subBlock, Nat.testBit_mod_two_pow, Nat.testBit_shiftRight, BitVec.testBit_toNat]

/-- The index `ea >> S` is the block number and the entry's number inside the block (R173). -/
theorem index_eq_block_subBlock {k : Nat} (hk : k ≤ 17) (ea : Word) :
    ea.toNat >>> k = (ea.extractLsb' 17 15).toNat * 2 ^ (17 - k) + subBlock k ea := by
  have block : (ea.extractLsb' 17 15).toNat = ea.toNat >>> k / 2 ^ (17 - k) := by
    have hlt := ea.isLt
    rw [BitVec.extractLsb'_toNat, Nat.shiftRight_eq_div_pow, Nat.shiftRight_eq_div_pow, Nat.div_div_eq_div_mul,
      ← Nat.pow_add, Nat.add_sub_cancel' hk]
    omega
  rw [block, subBlock, Nat.mul_comm, Nat.div_add_mod]

/-- The physical address of a written descriptor does not show `S`: the frame and the low 17 bits of `ea` (R173, R190). -/
theorem batAddress_blockDescriptor {c : Config} (hs : 12 ≤ c.s) (hs' : c.s ≤ 17) (pb : BitVec 15) (wi : Bool)
    (ea : Word) :
    batAddress c.s (blockDescriptor c pb wi (subBlock c.s ea)) ea = pb ++ ea.extractLsb' 0 17 := by
  refine BitVec.eq_of_getLsbD_eq fun i hi => ?_
  rw [batAddress, batResultMask, BitVec.getLsbD_or, BitVec.getLsbD_and, BitVec.getLsbD_and, BitVec.getLsbD_not,
    getLsbD_batOffsetMask _ hi, getLsbD_blockDescriptor _ _ _ _ hi, testBit_subBlock, BitVec.getLsbD_append,
    BitVec.getLsbD_extractLsb']
  rcases Nat.lt_or_ge i c.s with low | high
  · simp [low, show i < 17 by omega]
  · have not_flag : i ≠ 0 ∧ i ≠ 1 ∧ i ≠ 2 := by omega
    rcases Nat.lt_or_ge i 17 with mid | top
    · simp [not_flag, mid, hi, Nat.not_lt.2 high, Nat.add_sub_cancel' high, show i - c.s < 17 - c.s by omega]
    · simp [not_flag, hi, Nat.not_lt.2 high, Nat.not_lt.2 top, show ¬ i - c.s < 17 - c.s by omega]

/-- The descriptor the lookup reads in a rebuilt table is the entry decided for the block of `ea` (R173, R210). -/
theorem State.descriptor_of_rebuilt {s : State} (h : configOk s.cfg = true) {side : Side} {pairs : List BatPair}
    (ht : s.table side = updateBats s.cfg pairs) (ea : Word) :
    s.descriptor side ea = rebuiltEntry s.cfg pairs (ea.extractLsb' 17 15) (subBlock s.cfg.s ea) := by
  rw [State.descriptor, ht, index_eq_block_subBlock (configOk_shift h).2,
    get_updateBats h pairs _ (subBlock_lt _ _)]

/-! ### What the two machines read alike -/

/-- The state on another platform with other tables: the only fields in which a pair of `SameButShift` differs. -/
def State.onPlatform (s : State) (c : Config) (it dt : Cells 32) : State :=
  { s with cfg := c, ibatTable := it, dbatTable := dt }

namespace SameButShift

variable {s t : State} (h : SameButShift s t)
include h

theorem configOk_left : configOk s.cfg = true := h.1

theorem configOk_right : configOk t.cfg = true := h.2.1

theorem cfg_eq : t.cfg = { s.cfg with s := t.cfg.s } := by
  obtain ⟨-, -, -, -, e⟩ := h
  exact congrArg State.cfg e

theorem eq_onPlatform : t = s.onPlatform t.cfg t.ibatTable t.dbatTable := by
  obtain ⟨-, -, -, -, e⟩ := h
  rw [e]
  rfl

theorem cpu_eq : t.cpu = s.cpu := by rw [h.eq_onPlatform]; rfl

theorem mem_eq : t.mem = s.mem := by rw [h.eq_onPlatform]; rfl

theorem req_eq (p : Port) : t.req p = s.req p := by rw [h.eq_onPlatform]; cases p <;> rfl

theorem tlb_eq (d : Side) : t.tlb d = s.tlb d := by rw [h.eq_onPlatform]; cases d <;> rfl

theorem tlbSet_eq (d : Side) (k : Nat) : t.tlbSet d k = s.tlbSet d k := by
  rw [State.tlbSet, h.tlb_eq, State.tlbSet]

theorem segment_eq (ea : Word) : t.segment ea = s.segment ea := by rw [State.segment, h.cpu_eq, State.segment]

theorem protectionKey_eq (sr : Word) : t.protectionKey sr = s.protectionKey sr := by
  rw [State.protectionKey, h.cpu_eq, State.protectionKey]

theorem translationOn_eq (d : Side) : t.translationOn d = s.translationOn d := by
  rw [h.eq_onPlatform]; cases d <;> rfl

theorem batPairs_eq (d : Side) : t.batPairs d = s.batPairs d := by
  rw [h.eq_onPlatform, h.cfg_eq]; cases d <;> rfl

theorem ramRegions_eq : t.cfg.ramRegions = s.cfg.ramRegions := by rw [h.cfg_eq]

theorem route_eq (pa : Word) (n : Nat) : route t.cfg pa n = route s.cfg pa n := by rw [h.cfg_eq]; rfl

theorem setIndex_eq (ea : Word) : setIndex t.cfg ea = setIndex s.cfg ea := by rw [h.cfg_eq]; rfl

theorem permOk_eq (key : Bool) (pp : BitVec 2) (store : Bool) :
    permOk t.cfg key pp store = permOk s.cfg key pp store := by rw [h.cfg_eq]; rfl

theorem ramRead32_eq (pa : Word) : t.ramRead32 pa = s.ramRead32 pa := by
  rw [State.ramRead32, h.ramRegions_eq, h.mem_eq, State.ramRead32]

theorem findPte_eq (ea : Word) : t.findPte ea = s.findPte ea := by
  rw [h.eq_onPlatform, h.cfg_eq]; rfl

/-- The two tables of a side are rebuilt from the same register contents. -/
theorem table_rebuilt (d : Side) :
    ∃ pairs, s.table d = updateBats s.cfg pairs ∧ t.table d = updateBats t.cfg pairs := by
  obtain ⟨-, -, hi, hd, -⟩ := h
  cases d
  · exact hi
  · exact hd

/-- The lookup in the BAT table does not show `S` (R190): the three flags agree, and so does the address wherever the
descriptor is mapped.  (An unmapped descriptor is 0, and its `batAddress` does depend on `S`.) -/
theorem lookup_eq (d : Side) (ea : Word) :
    descMapped (t.descriptor d ea) = descMapped (s.descriptor d ea) ∧
      descWi (t.descriptor d ea) = descWi (s.descriptor d ea) ∧
      descPhysical (t.descriptor d ea) = descPhysical (s.descriptor d ea) ∧
      (descMapped (s.descriptor d ea) = true →
        batAddress t.cfg.s (t.descriptor d ea) ea = batAddress s.cfg.s (s.descriptor d ea) ea) := by
  obtain ⟨pairs, hs, ht⟩ := h.table_rebuilt d
  obtain ⟨ls, us⟩ := configOk_shift h.configOk_left
  obtain ⟨lt, ut⟩ := configOk_shift h.configOk_right
  have decision : blockDecision t.cfg pairs (ea.extractLsb' 17 15) =
      blockDecision s.cfg pairs (ea.extractLsb' 17 15) := by
    rw [h.cfg_eq]; rfl
  have ram (pb : BitVec 15) : isRamBlock t.cfg pb = isRamBlock s.cfg pb := by rw [h.cfg_eq]; rfl
  rw [State.descriptor_of_rebuilt h.configOk_left hs, State.descriptor_of_rebuilt h.configOk_right ht, rebuiltEntry,
    rebuiltEntry, decision]
  cases blockDecision s.cfg pairs (ea.extractLsb' 17 15) with
  | none => exact ⟨rfl, rfl, rfl, fun mapped => by simp [descMapped] at mapped⟩
  | some frame =>
    obtain ⟨pb, wi⟩ := frame
    dsimp only
    rw [descMapped_blockDescriptor, descMapped_blockDescriptor, descWi_blockDescriptor ls, descWi_blockDescriptor lt,
      descPhysical_blockDescriptor ls, descPhysical_blockDescriptor lt, ram, batAddress_blockDescriptor ls us,
      batAddress_blockDescriptor lt ut]
    exact ⟨rfl, rfl, rfl, fun _ => rfl⟩

theorem descMapped_eq (d : Side) (ea : Word) : descMapped (t.descriptor d ea) = descMapped (s.descriptor d ea) :=
  (h.lookup_eq d ea).1

theorem descWi_eq (d : Side) (ea : Word) : descWi (t.descriptor d ea) = descWi (s.descriptor d ea) :=
  (h.lookup_eq d ea).2.1

theorem descPhysical_eq (d : Side) (ea : Word) : descPhysical (t.descriptor d ea) = descPhysical (s.descriptor d ea) :=
  (h.lookup_eq d ea).2.2.1

theorem batAddress_eq {d : Side} {ea : Word} (hm : descMapped (s.descriptor d ea) = true) :
    batAddress t.cfg.s (t.descriptor d ea) ea = batAddress s.cfg.s (s.descriptor d ea) ea :=
  (h.lookup_eq d ea).2.2.2 hm

/-! ### The updates keep the pair -/

/-- An update that neither reads nor writes the platform and the tables keeps the pair. -/
theorem update {f : State → State} (hf : ∀ s c it dt, f (s.onPlatform c it dt) = (f s).onPlatform c it dt) :
    SameButShift (f s) (f t) := by
  have own : f s = (f s).onPlatform s.cfg s.ibatTable s.dbatTable := hf s s.cfg s.ibatTable s.dbatTable
  have other : f t = (f s).onPlatform t.cfg t.ibatTable t.dbatTable := by
    rw [← hf s t.cfg t.ibatTable t.dbatTable, ← h.eq_onPlatform]
  have cfg := h.cfg_eq
  obtain ⟨hs, ht, hi, hd, -⟩ := h
  rw [own, other]
  exact ⟨hs, ht, hi, hd, congrArg (fun c => (f s).onPlatform c t.ibatTable t.dbatTable) cfg⟩

theorem respond (p : Port) (r : Response) : SameButShift (s.respond p r) (t.respond p r) :=
  h.update (f := fun s => s.respond p r) fun _ _ _ _ => by cases p <;> rfl

theorem take (p : Port) : SameButShift (s.take p) (t.take p) :=
  h.update (f := fun s => s.take p) fun _ _ _ _ => by cases p <;> rfl

theorem raise (p : Port) (msg : FaultMsg) : SameButShift (s.raise p msg) (t.raise p msg) :=
  h.update (f := fun s => s.raise p msg) fun _ _ _ _ => by cases p <;> rfl

theorem abort (p : Port) (why : AbortReason) : SameButShift (s.abort p why) (t.abort p why) :=
  h.update (f := fun s => s.abort p why) fun _ _ _ _ => by cases p <;> rfl

theorem withTlb (d : Side) (x : Tlb) : SameButShift (s.withTlb d x) (t.withTlb d x) :=
  h.update (f := fun s => s.withTlb d x) fun _ _ _ _ => by cases d <;> rfl

theorem withTlbSet (d : Side) (k : Nat) (x : TlbSet) : SameButShift (s.withTlbSet d k x) (t.withTlbSet d k x) :=
  h.update (f := fun s => s.withTlbSet d k x) fun _ _ _ _ => by cases d <;> rfl

theorem latchLocator : SameButShift s.latchLocator t.latchLocator :=
  h.update (f := State.latchLocator) fun _ _ _ _ => rfl

theorem invalidateAll : SameButShift s.invalidateAll t.invalidateAll :=
  h.update (f := State.invalidateAll) fun _ _ _ _ => rfl

theorem invalidateSet (k : Nat) : SameButShift (s.invalidateSet k) (t.invalidateSet k) :=
  h.update (f := fun s => s.invalidateSet k) fun _ _ _ _ => rfl

theorem withMem (m : Memory) : SameButShift (s.withMem m) (t.withMem m) :=
  h.update (f := fun s => s.withMem m) fun _ _ _ _ => rfl

theorem mmioWrite (pa : Word) (n : Nat) (v : DWord) : SameButShift (s.mmioWrite pa n v) (t.mmioWrite pa n v) :=
  h.update (f := fun s => s.mmioWrite pa n v) fun _ _ _ _ => rfl

/-- Tables rebuilt from the same registers, each on its own platform, keep the pair (R210). -/
theorem withRebuilt (d : Side) (pairs : List BatPair) :
    SameButShift (s.withTable d (updateBats s.cfg pairs)) (t.withTable d (updateBats t.cfg pairs)) := by
  have cfg := h.cfg_eq
  have e := h.eq_onPlatform
  obtain ⟨hs, ht, hi, hd, -⟩ := h
  cases d
  · refine ⟨hs, ht, ⟨pairs, rfl, rfl⟩, hd, ?_⟩
    rw [e]
    exact congrArg (fun c => { s with cfg := c, ibatTable := updateBats t.cfg pairs, dbatTable := t.dbatTable }) cfg
  · refine ⟨hs, ht, hi, ⟨pairs, rfl, rfl⟩, ?_⟩
    rw [e]
    exact congrArg (fun c => { s with cfg := c, ibatTable := t.ibatTable, dbatTable := updateBats t.cfg pairs }) cfg

theorem rebuild (d : Side) : SameButShift (s.rebuild d) (t.rebuild d) := by
  rw [State.rebuild, State.rebuild, h.batPairs_eq]
  exact h.withRebuilt d _

theorem rebuildBoth : SameButShift s.rebuildBoth t.rebuildBoth :=
  (h.rebuild .instruction).rebuild .data

theorem loadCaches (snap : Cells 32) : SameButShift (s.loadCaches snap) (t.loadCaches snap) := by
  have image (d : Side) : sideOfImage t.cfg snap d = sideOfImage s.cfg snap d := by rw [h.cfg_eq]; rfl
  rw [State.loadCaches, State.loadCaches, image, image]
  exact (h.withTlb .instruction _).withTlb .data _

/-- Reset keeps the pair: it rebuilds both tables from the registers the two machines share (R410). -/
theorem releaseReset : SameButShift s.releaseReset t.releaseReset := by
  have cleared := h.update
    (f := fun s => { s with resetRequested := false, fatal := false, abortReason := none, itlb := [], dtlb := [] })
    fun _ _ _ _ => rfl
  exact ((cleared.respond .g _).respond .h _).latchLocator.rebuildBoth

end SameButShift

/-! ### Operations that answer a value -/

/-- Two runs of one operation: the same value, and states that still differ only in `S`. -/
def Alike {α : Type} (r r' : α × State) : Prop :=
  ∃ a u v, r = (a, u) ∧ r' = (a, v) ∧ SameButShift u v

theorem Alike.intro {α : Type} (a : α) {u v : State} (h : SameButShift u v) : Alike (a, u) (a, v) :=
  ⟨a, u, v, rfl, rfl, h⟩

namespace SameButShift

variable {s t : State} (h : SameButShift s t)
include h

/-! ### Translation (R171 to R188) -/

theorem touchPte (pte : Word) (store : Bool) : SameButShift (s.touchPte pte store) (t.touchPte pte store) := by
  have ram : isRam t.cfg = isRam s.cfg := by rw [h.cfg_eq]; rfl
  unfold State.touchPte State.ramWrite32
  rw [h.ramRead32_eq, h.mem_eq, ram]
  split
  · exact h
  · split
    · exact h.withMem _
    · exact h

theorem walk (m : Mode) (ea : Word) : Alike (s.walk m ea) (t.walk m ea) := by
  unfold State.walk
  rw [h.findPte_eq]
  cases s.findPte ea with
  | none => exact .intro _ h
  | some pte =>
    dsimp only
    rw [h.permOk_eq, h.protectionKey_eq, h.segment_eq, h.ramRead32_eq, h.setIndex_eq]
    split
    · split
      · have touched := h.touchPte pte m.isStore
        unfold State.touchPte at touched
        rw [h.ramRead32_eq] at touched
        rw [touched.tlbSet_eq]
        exact .intro _ (touched.withTlbSet _ _ _)
      · exact .intro _ h
    · exact .intro _ h

theorem translatePage (m : Mode) (ea : Word) : Alike (s.translatePage m ea) (t.translatePage m ea) := by
  unfold State.translatePage
  dsimp only
  rw [h.segment_eq, h.setIndex_eq, h.tlbSet_eq]
  split
  · exact .intro _ h
  · split
    · exact .intro _ h
    · cases (s.tlbSet m.side (setIndex s.cfg ea)).lookup (eaPage ea) with
      | none => exact h.walk m ea
      | some w =>
        dsimp only
        rw [h.permOk_eq, h.protectionKey_eq]
        split
        · exact .intro _ h
        · split
          · exact (h.withTlbSet _ _ _).walk m ea
          · split
            · exact .intro _ (h.withTlbSet _ _ _)
            · exact .intro _ h

/-- Every translation answers alike on the two machines (R190). -/
theorem translate (m : Mode) (ea : Word) (v : Bool) : Alike (s.translate m ea v) (t.translate m ea v) := by
  unfold State.translate
  dsimp only
  rw [h.translationOn_eq, h.descMapped_eq, h.descWi_eq]
  split
  · split
    · next mapped =>
      rw [h.batAddress_eq mapped]
      exact .intro _ h
    · exact h.translatePage m ea
  · split <;> exact .intro _ h

/-! ### The physical dispatch (R80 to R88) -/

theorem mmioRead (pa : Word) (n : Nat) : Alike (s.mmioRead pa n) (t.mmioRead pa n) := by
  have value : (t.mmioRead pa n).1 = (s.mmioRead pa n).1 := by rw [h.eq_onPlatform]; rfl
  refine ⟨(s.mmioRead pa n).1, (s.mmioRead pa n).2, (t.mmioRead pa n).2, rfl, Prod.ext value rfl, ?_⟩
  exact h.update (f := fun s => (s.mmioRead pa n).2) fun _ _ _ _ => rfl

theorem memRead (pa : Word) (n : Nat) : Alike (s.memRead pa n) (t.memRead pa n) := by
  have same := h.route_eq pa n
  rcases e : route s.cfg pa n with _ | _ | _ <;> rw [e] at same
  · rw [s.memRead_bus e, t.memRead_bus same]
    exact .intro _ h
  · rw [s.memRead_ram e, t.memRead_ram same, h.mem_eq]
    exact .intro _ h
  · rw [s.memRead_mmio e, t.memRead_mmio same]
    obtain ⟨v, u, w, eu, ew, huw⟩ := h.mmioRead pa n
    rw [eu, ew]
    exact .intro _ huw

theorem memWrite (pa : Word) (n : Nat) (v : DWord) : Alike (s.memWrite pa n v) (t.memWrite pa n v) := by
  have same := h.route_eq pa n
  rcases e : route s.cfg pa n with _ | _ | _ <;> rw [e] at same
  · rw [s.memWrite_bus v e, t.memWrite_bus v same]
    exact .intro _ h
  · rw [s.memWrite_ram v e, t.memWrite_ram v same, h.mem_eq]
    exact .intro _ (h.withMem _)
  · rw [s.memWrite_mmio v e, t.memWrite_mmio v same]
    exact .intro _ (h.mmioWrite _ _ _)

theorem readEach (acc : Loaded) (pas : List Word) : Alike (s.readEach acc pas) (t.readEach acc pas) := by
  induction pas generalizing s t acc with
  | nil => exact .intro _ h
  | cons p ps ih =>
    obtain ⟨l, u, v, eu, ev, huv⟩ := h.memRead p 1
    rw [State.readEach, State.readEach, eu, ev]
    cases l with
    | none => exact .intro _ huv
    | some l => exact ih huv _

theorem performRead (pas : List Word) : Alike (s.performRead pas) (t.performRead pas) := by
  unfold State.performRead
  split
  · exact h.memRead _ _
  · exact h.readEach _ _

theorem writeEach (via : Bool) (ws : List (Word × Byte)) : Alike (s.writeEach via ws) (t.writeEach via ws) := by
  induction ws generalizing s t via with
  | nil => exact .intro _ h
  | cons w ws ih =>
    obtain ⟨l, u, v, eu, ev, huv⟩ := h.memWrite w.1 1 (w.2.setWidth 64)
    rw [State.writeEach, State.writeEach, eu, ev]
    cases l with
    | none => exact ih huv _
    | some l => exact ih huv _

theorem performWrite (pas : List Word) (d : DWord) : Alike (s.performWrite pas d) (t.performWrite pas d) := by
  unfold State.performWrite
  split
  · exact h.memWrite _ _ _
  · simp only [h.route_eq]
    split
    · obtain ⟨l, u, v, eu, ev, huv⟩ := h.writeEach false (pas.zip (beBytes pas.length d))
      rw [eu, ev]
      exact .intro _ huv
    · exact .intro _ h

/-! ### Planned accesses (R87, R240, R241, R310) -/

theorem planAccess {tr : Word → State → Translation × State}
    (htr : ∀ a {s t}, SameButShift s t → Alike (tr a s) (tr a t)) (ea : Word) (n : Nat) :
    Alike (planAccess tr ea n s) (planAccess tr ea n t) := by
  unfold Machine.planAccess
  obtain ⟨t1, u1, v1, eu1, ev1, h1⟩ := htr ea h
  rw [eu1, ev1]
  dsimp only
  cases t1.address with
  | none => exact .intro _ h1
  | some pa1 =>
    dsimp only
    split
    · exact .intro _ h1
    · obtain ⟨t2, u2, v2, eu2, ev2, h2⟩ := htr (secondPage ea n) h1
      rw [eu2, ev2]
      dsimp only
      cases t2.address with
      | none => exact .intro _ h2
      | some pa2 => exact .intro _ h2

theorem plan (m : Mode) (ea : Word) (n : Nat) (nt : Bool) : Alike (s.plan m ea n nt) (t.plan m ea n nt) := by
  refine h.planAccess (fun a s t h => ?_) ea n
  unfold guestTranslator
  split
  · exact .intro _ h
  · exact h.translate m a false

theorem hostPlan (sp : Space) (d : Side) (ea : Word) (n : Nat) :
    Alike (s.hostPlan sp d ea n) (t.hostPlan sp d ea n) := by
  refine h.planAccess (fun a s t h => ?_) ea n
  cases sp with
  | physical => exact .intro _ h
  | effective => exact h.translate d.hostMode a false
  | virtual => exact h.translate d.hostMode a true
  | reserved => exact .intro _ h

theorem readHW (m : Mode) (n : Nat) (ea : Word) (nt : Bool) : Alike (s.readHW m n ea nt) (t.readHW m n ea nt) := by
  unfold State.readHW
  obtain ⟨p, u, v, eu, ev, h1⟩ := h.plan m ea n nt
  rw [eu, ev]
  cases p with
  | fail eaF x => exact .intro _ h1
  | ok p =>
    dsimp only
    obtain ⟨l, u, v, eu, ev, h2⟩ := h1.performRead p.pas
    rw [eu, ev]
    cases l with
    | none => exact .intro _ h2
    | some l => exact .intro _ h2

theorem writeHW (m : Mode) (n : Nat) (ea : Word) (d : DWord) (nt : Bool) :
    Alike (s.writeHW m n ea d nt) (t.writeHW m n ea d nt) := by
  unfold State.writeHW
  obtain ⟨p, u, v, eu, ev, h1⟩ := h.plan m ea n nt
  rw [eu, ev]
  cases p with
  | fail eaF x => exact .intro _ h1
  | ok p =>
    dsimp only
    obtain ⟨l, u, v, eu, ev, h2⟩ := h1.performWrite p.pas d
    rw [eu, ev]
    cases l with
    | none => exact .intro _ h2
    | some via => exact .intro _ h2

/-! ### Guest reads, writes and fetches (R242 to R252) -/

omit h in
theorem endAccess (write : Bool) {r r' : Access × State} (h : Alike r r') :
    SameButShift (State.endAccess write r) (State.endAccess write r') := by
  obtain ⟨x, u, v, rfl, rfl, huv⟩ := h
  cases x with
  | done d pa flags => exact huv.respond .g _
  | fault ea cause => exact huv.raise .g _
  | bus => exact huv.respond .g _

theorem guestRead (n : Nat) : SameButShift (s.guestRead n) (t.guestRead n) := by
  unfold State.guestRead
  rw [h.req_eq]
  exact endAccess false (h.readHW _ _ _ _)

theorem guestWrite (n : Nat) : SameButShift (s.guestWrite n) (t.guestWrite n) := by
  unfold State.guestWrite
  rw [h.req_eq]
  exact endAccess true (h.writeHW _ _ _ _ _)

theorem tryFetch (ea : Word) : Alike (s.tryFetch ea) (t.tryFetch ea) := by
  unfold State.tryFetch
  obtain ⟨x, u, v, eu, ev, huv⟩ := h.translate .opcode ea false
  rw [eu, ev]
  dsimp only
  cases x.address with
  | none => exact .intro _ huv
  | some pa =>
    dsimp only
    rw [huv.ramRegions_eq, huv.mem_eq]
    split <;> exact .intro _ huv

/-! ### Cache lines and DMA (R280 to R288) -/

theorem lineStore {body : Word → Translation → State → State}
    (hb : ∀ pa x {s t}, SameButShift s t → SameButShift (body pa x s) (body pa x t)) :
    SameButShift (s.lineStore body) (t.lineStore body) := by
  unfold State.lineStore
  rw [h.req_eq]
  obtain ⟨x, u, v, eu, ev, huv⟩ := h.translate .write (lineAddress (s.req .g).a) false
  dsimp only
  rw [eu, ev]
  dsimp only
  cases x.address with
  | none => exact huv.raise .g _
  | some pa => exact hb pa x huv

theorem lineZeroFill (pa : Word) (x : Translation) : SameButShift (lineZeroFill pa x s) (lineZeroFill pa x t) := by
  unfold Machine.lineZeroFill
  rw [h.ramRegions_eq, h.mem_eq]
  split
  · exact (h.withMem _).respond .g _
  · exact h.respond .g _

theorem linePassThrough (pa : Word) (x : Translation) :
    SameButShift (linePassThrough pa x s) (linePassThrough pa x t) := h.respond .g _

theorem readPieces (via : Bool) (ps : List Word) : Alike (s.readPieces via ps) (t.readPieces via ps) := by
  induction ps generalizing s t via with
  | nil => exact .intro _ h
  | cons p ps ih =>
    obtain ⟨l, u, v, eu, ev, huv⟩ := h.memRead p 8
    rw [State.readPieces, State.readPieces, eu, ev]
    cases l with
    | none =>
      obtain ⟨r, u', v', eu', ev', h'⟩ := ih huv via
      dsimp only
      rw [eu', ev']
      exact .intro _ h'
    | some l =>
      obtain ⟨r, u', v', eu', ev', h'⟩ := ih huv (via || l.viaHandler)
      dsimp only
      rw [eu', ev']
      exact .intro _ h'

theorem writePieces (via : Bool) (ws : List (Word × DWord)) :
    Alike (s.writePieces via ws) (t.writePieces via ws) := by
  induction ws generalizing s t via with
  | nil => exact .intro _ h
  | cons w ws ih =>
    obtain ⟨l, u, v, eu, ev, huv⟩ := h.memWrite w.1 8 w.2
    rw [State.writePieces, State.writePieces, eu, ev]
    cases l with
    | none => exact ih huv _
    | some l => exact ih huv _

/-- A block fails on both machines, or is copied on both (R286). -/
theorem dmaBlock (sk dk : Word) (lcIsSrc : Bool) :
    (s.dmaBlock sk dk lcIsSrc = none ∧ t.dmaBlock sk dk lcIsSrc = none) ∨
    ∃ r r', s.dmaBlock sk dk lcIsSrc = some r ∧ t.dmaBlock sk dk lcIsSrc = some r' ∧ Alike r r' := by
  have check : (inLockedCache t.cfg (if lcIsSrc then sk else dk) && dmaReachable t.cfg sk dk) =
      (inLockedCache s.cfg (if lcIsSrc then sk else dk) && dmaReachable s.cfg sk dk) := by rw [h.cfg_eq]; rfl
  unfold State.dmaBlock
  rw [check]
  by_cases ok : (inLockedCache s.cfg (if lcIsSrc then sk else dk) && dmaReachable s.cfg sk dk) = true
  · obtain ⟨r, u, v, eu, ev, huv⟩ := h.readPieces false (dmaPieces sk)
    rw [if_pos ok, if_pos ok, eu, ev]
    exact .inr ⟨_, _, rfl, rfl, huv.writePieces _ _⟩
  · rw [if_neg ok, if_neg ok]
    exact .inl ⟨rfl, rfl⟩

theorem dmaBlocks (sk dk : Word) (lcIsSrc : Bool) (done : Nat) (via : Bool) (n : Nat) :
    Alike (s.dmaBlocks sk dk lcIsSrc done via n) (t.dmaBlocks sk dk lcIsSrc done via n) := by
  induction n generalizing s t sk dk done via with
  | zero => exact .intro _ h
  | succ n ih =>
    rw [State.dmaBlocks, State.dmaBlocks]
    rcases h.dmaBlock sk dk lcIsSrc with ⟨eu, ev⟩ | ⟨_, _, eu, ev, x, u, v, rfl, rfl, huv⟩
    · rw [eu, ev]
      exact .intro _ h
    · rw [eu, ev]
      exact ih huv _ _ _ _

theorem dmaCopy (src dst : Word) (lcIsSrc : Bool) (n : Nat) :
    SameButShift (s.dmaCopy src dst lcIsSrc n) (t.dmaCopy src dst lcIsSrc n) := by
  unfold State.dmaCopy
  obtain ⟨x, u, v, eu, ev, huv⟩ := h.dmaBlocks (lineAddress src) (lineAddress dst) lcIsSrc 0 false n
  rw [eu, ev]
  exact huv.respond .g _

/-! ### JIT queries (R340 to R350) -/

theorem translateQuery (m : Mode) : SameButShift (s.translateQuery m) (t.translateQuery m) := by
  unfold State.translateQuery
  rw [h.req_eq]
  obtain ⟨x, u, v, eu, ev, huv⟩ := h.translate m (s.req .g).a false
  rw [eu, ev]
  dsimp only
  cases x.address with
  | none => exact huv.respond .g _
  | some pa => exact huv.respond .g _

theorem optRamQuery (n : Nat) : SameButShift (s.optRamQuery n) (t.optRamQuery n) := by
  have condition (a : Word) : t.optRam n a = s.optRam n a := by
    simp only [State.optRam, h.cpu_eq, h.descPhysical_eq]
  unfold State.optRamQuery
  rw [h.req_eq, condition]
  exact h.respond .g _

theorem optAddress_eq {a : Word} (mapped : descMapped (s.descriptor .data a) = true) :
    t.optAddress a = s.optAddress a := h.batAddress_eq mapped

/-- The condition of `OPT_MMIO.n` asks for a mapped descriptor before it looks at the address (R346). -/
theorem optMmio_eq (n : Nat) (a : Word) : t.optMmio n a = s.optMmio n a := by
  have range (pa pb : Word) : sameMmioRange t.cfg pa pb = sameMmioRange s.cfg pa pb := by rw [h.cfg_eq]; rfl
  simp only [State.optMmio, h.cpu_eq, h.descMapped_eq, range]
  cases mapped : descMapped (s.descriptor .data a)
  · simp
  · rw [h.optAddress_eq mapped]

omit h in
theorem mapped_of_optMmio {n : Nat} {a : Word} (ok : s.optMmio n a = true) :
    descMapped (s.descriptor .data a) = true := by
  simp only [State.optMmio, Bool.and_eq_true] at ok
  obtain ⟨⟨⟨-, mapped⟩, -⟩, -⟩ := ok
  exact mapped

theorem optMmioQuery (n : Nat) : SameButShift (s.optMmioQuery n) (t.optMmioQuery n) := by
  unfold State.optMmioQuery
  dsimp only
  rw [h.req_eq, h.optMmio_eq, h.descWi_eq]
  cases ok : s.optMmio n (s.req .g).a
  · exact h.respond .g _
  · rw [h.optAddress_eq (mapped_of_optMmio ok)]
    exact h.respond .g _

/-- The condition of `OPT_GATHER` asks for a mapped descriptor too (R350). -/
theorem optGather_eq (a : Word) : t.optGather a = s.optGather a := by
  have gather : t.cfg.gatherPipePa = s.cfg.gatherPipePa := by rw [h.cfg_eq]
  simp only [State.optGather, h.cpu_eq, h.descMapped_eq, gather]
  cases mapped : descMapped (s.descriptor .data a)
  · simp
  · rw [h.optAddress_eq mapped]

/-! ### The host surface (R310 to R331) -/

theorem allRam_eq (pas : List Word) : allRam t.cfg pas = allRam s.cfg pas := by rw [h.cfg_eq]; rfl

theorem hostLoad (sp : Space) (n : Nat) (a : Word) (ramOnly : Bool) :
    Alike (s.hostLoad sp n a ramOnly) (t.hostLoad sp n a ramOnly) := by
  unfold State.hostLoad
  obtain ⟨p, u, v, eu, ev, h1⟩ := h.hostPlan sp .data a n
  rw [eu, ev]
  cases p with
  | fail eaF x => exact .intro _ h1
  | ok p =>
    dsimp only
    rw [h1.allRam_eq]
    split
    · exact .intro _ h1
    · obtain ⟨l, u, v, eu, ev, h2⟩ := h1.performRead p.pas
      rw [eu, ev]
      cases l with
      | none => exact .intro _ h2
      | some l => exact .intro _ h2

theorem hostStore (sp : Space) (n : Nat) (a : Word) (d : DWord) (ramOnly : Bool) :
    Alike (s.hostStore sp n a d ramOnly) (t.hostStore sp n a d ramOnly) := by
  unfold State.hostStore
  obtain ⟨p, u, v, eu, ev, h1⟩ := h.hostPlan sp .data a n
  rw [eu, ev]
  cases p with
  | fail eaF x => exact .intro _ h1
  | ok p =>
    dsimp only
    rw [h1.allRam_eq]
    split
    · exact .intro _ h1
    · obtain ⟨l, u, v, eu, ev, h2⟩ := h1.performWrite p.pas d
      rw [eu, ev]
      cases l with
      | none => exact .intro _ h2
      | some via => exact .intro _ h2

theorem hostRead (sp : Space) (n : Nat) (ramOnly : Bool) :
    SameButShift (State.hostRead sp n ramOnly s) (State.hostRead sp n ramOnly t) := by
  unfold State.hostRead
  rw [h.req_eq]
  obtain ⟨l, u, v, eu, ev, huv⟩ := h.hostLoad sp n (s.req .h).a ramOnly
  rw [eu, ev]
  cases l with
  | none => exact huv.respond .h _
  | some l => exact huv.respond .h _

theorem hostWrite (sp : Space) (n : Nat) (ramOnly : Bool) :
    SameButShift (State.hostWrite sp n ramOnly s) (State.hostWrite sp n ramOnly t) := by
  unfold State.hostWrite
  rw [h.req_eq]
  obtain ⟨l, u, v, eu, ev, huv⟩ := h.hostStore sp n (s.req .h).a (writeData n (s.req .h).d) ramOnly
  rw [eu, ev]
  cases l with
  | none => exact huv.respond .h _
  | some l => exact huv.respond .h _

theorem hostPredicate (sp : Space) (d : Side) :
    SameButShift (State.hostPredicate sp d s) (State.hostPredicate sp d t) := by
  have ram {s t : State} (h : SameButShift s t) (pa : Word) : isRam t.cfg pa = isRam s.cfg pa := by
    rw [h.cfg_eq]; rfl
  unfold State.hostPredicate State.hostIsRam
  rw [h.req_eq]
  obtain ⟨p, u, v, eu, ev, huv⟩ := h.hostPlan sp d (s.req .h).a 1
  rw [eu, ev]
  cases p with
  | fail eaF x => exact huv.respond .h _
  | ok p =>
    dsimp only
    rw [ram huv]
    exact huv.respond .h _

theorem hostString (sp : Space) (w : Nat) (a : Word) (n : Nat) :
    Alike (s.hostString sp w a n) (t.hostString sp w a n) := by
  induction n generalizing s t a with
  | zero => exact .intro _ h
  | succ n ih =>
    obtain ⟨l, u, v, eu, ev, huv⟩ := h.hostLoad sp w a true
    rw [State.hostString, State.hostString, eu, ev]
    cases l with
    | none => exact .intro _ huv
    | some l =>
      have terminator : v.cfg.strTerminator = u.cfg.strTerminator := by rw [huv.cfg_eq]
      obtain ⟨r, u', v', eu', ev', h'⟩ := ih huv (a + BitVec.ofNat 32 w)
      dsimp only
      rw [terminator, eu', ev']
      split
      · exact .intro _ huv
      · exact .intro _ h'

theorem hostGetString (sp : Space) (w : Nat) (max : BitVec 16) :
    SameButShift (State.hostGetString sp w max s) (State.hostGetString sp w max t) := by
  unfold State.hostGetString
  rw [h.req_eq]
  obtain ⟨r, u, v, eu, ev, huv⟩ := h.hostString sp w (s.req .h).a max.toNat
  rw [eu, ev]
  exact huv.respond .h _

end SameButShift

/-! ### Commands and the step -/

/-- Two commands that both answer a next state, of a pair that still differs only in `S`. -/
def NextAlike (r r' : Result) : Prop := ∃ u v, r = .next u ∧ r' = .next v ∧ SameButShift u v

theorem NextAlike.intro {u v : State} (h : SameButShift u v) : NextAlike (.next u) (.next v) :=
  ⟨u, v, rfl, rfl, h⟩

namespace SameButShift

variable {s t : State} (h : SameButShift s t)
include h

theorem execReadOpcode : NextAlike (execReadOpcode s) (execReadOpcode t) := by
  unfold Machine.execReadOpcode
  dsimp only
  rw [h.req_eq]
  split
  · obtain ⟨x, u, v, eu, ev, huv⟩ := h.tryFetch (s.req .g).a
    rw [eu, ev]
    cases x with
    | inst hex pa flags => exact .intro (huv.respond .g _)
    | invalid x => exact .intro (huv.raise .g _)
    | bus => exact .intro (huv.respond .g _)
  · exact .intro (h.abort .g _)

theorem execTryReadInst : NextAlike (execTryReadInst s) (execTryReadInst t) := by
  unfold Machine.execTryReadInst
  dsimp only
  rw [h.req_eq]
  split
  · obtain ⟨x, u, v, eu, ev, huv⟩ := h.tryFetch (s.req .g).a
    rw [eu, ev]
    cases x <;> exact .intro (huv.respond .g _)
  · exact .intro (h.abort .g _)

theorem execDclTouch : NextAlike (execDclTouch s) (execDclTouch t) := by
  unfold Machine.execDclTouch
  rw [h.req_eq]
  obtain ⟨x, u, v, eu, ev, huv⟩ := h.translate .noException (lineAddress (s.req .g).a) false
  rw [eu, ev]
  dsimp only
  cases x.address with
  | none => exact .intro (huv.respond .g _)
  | some pa => exact .intro (huv.respond .g _)

theorem execDmaLcToMem (blocks : BitVec 16) : NextAlike (execDmaLcToMem blocks s) (execDmaLcToMem blocks t) := by
  unfold Machine.execDmaLcToMem
  rw [h.req_eq]
  exact .intro (h.dmaCopy _ _ _ _)

theorem execDmaMemToLc (blocks : BitVec 16) : NextAlike (execDmaMemToLc blocks s) (execDmaMemToLc blocks t) := by
  unfold Machine.execDmaMemToLc
  rw [h.req_eq]
  exact .intro (h.dmaCopy _ _ _ _)

theorem execTlbInvalidateEntry : NextAlike (execTlbInvalidateEntry s) (execTlbInvalidateEntry t) := by
  unfold Machine.execTlbInvalidateEntry
  rw [h.req_eq, h.setIndex_eq]
  exact .intro ((h.invalidateSet _).rebuildBoth.respond .g _)

theorem execOptGather : NextAlike (execOptGather s) (execOptGather t) := by
  unfold Machine.execOptGather
  rw [h.req_eq, h.optGather_eq]
  exact .intro (h.respond .g _)

/-- The image holds the two caches, whose shape `S` does not enter (R219). -/
theorem execStateSave : NextAlike (execStateSave s) (execStateSave t) := by
  have image : snapshotImage t.cfg t.itlb t.dtlb = snapshotImage s.cfg s.itlb s.dtlb := by
    rw [h.eq_onPlatform, h.cfg_eq]; rfl
  unfold Machine.execStateSave
  rw [image]
  exact .intro (h.respond .h _)

theorem execStateRestore : NextAlike (execStateRestore s) (execStateRestore t) := by
  have wellFormed (snap : Cells 32) : snapshotOk t.cfg snap = snapshotOk s.cfg snap := by rw [h.cfg_eq]; rfl
  unfold Machine.execStateRestore
  dsimp only
  rw [h.req_eq, wellFormed]
  split
  · exact .intro ((h.loadCaches _).latchLocator.rebuildBoth.respond .h _)
  · exact .intro (h.abort .h _)

theorem inLegalSpace (sp : Space) {run : State → State} (hr : SameButShift (run s) (run t)) :
    NextAlike (inLegalSpace sp run s) (inLegalSpace sp run t) := by
  unfold Machine.inLegalSpace
  split
  · exact .intro hr
  · exact .intro (h.abort .h _)

/-- No command depends on `S` (R8). -/
theorem exec (i : Instr) : NextAlike (exec i s) (exec i t) := by
  cases i with
  | read8 => exact .intro (h.guestRead 1)
  | read16 => exact .intro (h.guestRead 2)
  | read32 => exact .intro (h.guestRead 4)
  | read64 => exact .intro (h.guestRead 8)
  | write8 => exact .intro (h.guestWrite 1)
  | write16 => exact .intro (h.guestWrite 2)
  | write32 => exact .intro (h.guestWrite 4)
  | write64 => exact .intro (h.guestWrite 8)
  | readOpcode => exact h.execReadOpcode
  | tryReadInst => exact h.execTryReadInst
  | dclClear => exact .intro (h.lineStore fun pa x _ _ h => h.lineZeroFill pa x)
  | dclStore => exact .intro (h.lineStore fun pa x _ _ h => h.linePassThrough pa x)
  | dclInvalidate => exact .intro (h.lineStore fun pa x _ _ h => h.linePassThrough pa x)
  | dclFlush => exact .intro (h.lineStore fun pa x _ _ h => h.linePassThrough pa x)
  | dclTouch => exact h.execDclTouch
  | dmaLcToMem blocks => exact h.execDmaLcToMem blocks
  | dmaMemToLc blocks => exact h.execDmaMemToLc blocks
  | sdrUpdated => exact .intro (h.latchLocator.invalidateAll.rebuildBoth.respond .g _)
  | dbatUpdated => exact .intro ((h.rebuild .data).respond .g _)
  | ibatUpdated => exact .intro ((h.rebuild .instruction).respond .g _)
  | tlbInvalidateEntry => exact h.execTlbInvalidateEntry
  | jitTranslate => exact .intro (h.translateQuery .opcodeNoException)
  | getTranslated => exact .intro (h.translateQuery .noException)
  | optRam8 => exact .intro (h.optRamQuery 1)
  | optRam16 => exact .intro (h.optRamQuery 2)
  | optRam32 => exact .intro (h.optRamQuery 4)
  | optRam64 => exact .intro (h.optRamQuery 8)
  | optMmio8 => exact .intro (h.optMmioQuery 1)
  | optMmio16 => exact .intro (h.optMmioQuery 2)
  | optMmio32 => exact .intro (h.optMmioQuery 4)
  | optMmio64 => exact .intro (h.optMmioQuery 8)
  | optGather => exact h.execOptGather
  | hostRead8 sp => exact h.inLegalSpace sp (h.hostRead sp 1 false)
  | hostRead16 sp => exact h.inLegalSpace sp (h.hostRead sp 2 false)
  | hostRead32 sp => exact h.inLegalSpace sp (h.hostRead sp 4 false)
  | hostRead64 sp => exact h.inLegalSpace sp (h.hostRead sp 8 false)
  | hostTryRead8 sp => exact h.inLegalSpace sp (h.hostRead sp 1 true)
  | hostTryRead16 sp => exact h.inLegalSpace sp (h.hostRead sp 2 true)
  | hostTryRead32 sp => exact h.inLegalSpace sp (h.hostRead sp 4 true)
  | hostTryRead64 sp => exact h.inLegalSpace sp (h.hostRead sp 8 true)
  | hostWrite8 sp => exact h.inLegalSpace sp (h.hostWrite sp 1 false)
  | hostWrite16 sp => exact h.inLegalSpace sp (h.hostWrite sp 2 false)
  | hostWrite32 sp => exact h.inLegalSpace sp (h.hostWrite sp 4 false)
  | hostWrite64 sp => exact h.inLegalSpace sp (h.hostWrite sp 8 false)
  | hostTryWrite8 sp => exact h.inLegalSpace sp (h.hostWrite sp 1 true)
  | hostTryWrite16 sp => exact h.inLegalSpace sp (h.hostWrite sp 2 true)
  | hostTryWrite32 sp => exact h.inLegalSpace sp (h.hostWrite sp 4 true)
  | hostTryWrite64 sp => exact h.inLegalSpace sp (h.hostWrite sp 8 true)
  | hostIsRam sp => exact h.inLegalSpace sp (h.hostPredicate sp .data)
  | hostIsIram sp => exact h.inLegalSpace sp (h.hostPredicate sp .instruction)
  | hostGetString sp max => exact h.inLegalSpace sp (h.hostGetString sp 1 max)
  | hostGetU16String sp max => exact h.inLegalSpace sp (h.hostGetString sp 2 max)
  | stateSave => exact h.execStateSave
  | stateRestore => exact h.execStateRestore

theorem accept_eq : t.accept = s.accept := by rw [h.eq_onPlatform]; rfl

/-- One step of each machine: both answer, and the pair is kept. -/
theorem step : NextAlike (step s) (step t) := by
  have reset : t.resetRequested = s.resetRequested := by rw [h.eq_onPlatform]; rfl
  unfold Machine.step
  rw [if_pos h.configOk_left, if_pos h.configOk_right, reset, h.accept_eq]
  split
  · exact .intro h.releaseReset
  · cases s.accept with
    | idle => exact .intro h
    | dead p => exact .intro ((h.take p).respond p _)
    | violation p reason => exact .intro ((h.take p).abort p reason)
    | run i => exact (h.take i.port).exec i

end SameButShift

end Sys2Proof.Machine

/-- Settles O22: each operation a step is made of keeps the pair, because a rebuilt table answers every lookup without
showing `S`. -/
theorem stepIndependentOfShift : Obligations.StepIndependentOfShift := by
  intro s t s' h hs
  obtain ⟨u, v, eu, ev, huv⟩ := h.step
  rw [hs] at eu
  cases eu
  exact ⟨v, ev, huv⟩
end

section
/-! What a command may do, said once: every command is a run of a few kinds of update (`10_state.md` R30 to R36), each
of which writes only what the block owns.  What every step keeps is then shown update by update. -/

namespace Sys2Proof.Machine

/-! ### Responses that carry no more than their status allows (R128, R374) -/

theorem responseOk_of_ok {r : Response} (status : r.status = .ok) (str : r.str = []) (snapOut : r.snapOut = []) :
    responseOk r := by
  refine ⟨fun failed => absurd status failed, fun failed => absurd status failed, ?_, ?_, ?_⟩
  · rw [str]; exact Sparse.WF.nil _
  · rw [str]; simp
  · rw [snapOut]; exact Sparse.WF.nil _

theorem responseOk_only (st : Status) : responseOk (Response.only st) :=
  ⟨fun _ => ⟨rfl, rfl⟩, fun _ _ => rfl, Sparse.WF.nil _, fun _ hx => (List.not_mem_nil hx).elim, Sparse.WF.nil _⟩

theorem responseOk_access (data : DWord) (addr : Word) (flags : Flags) : responseOk (Response.access data addr flags) :=
  responseOk_of_ok rfl rfl rfl

theorem responseOk_line (pa : Word) (x : Translation) : responseOk (Response.line pa x) := responseOk_of_ok rfl rfl rfl

theorem responseOk_answer (b : Bool) : responseOk (Response.answer b) := responseOk_of_ok rfl rfl rfl

/-- A response written with `ended` has lost its flags when it is not `OK`. -/
theorem responseOk_ended {r : Response} (data : r.data = 0#64) (addr : r.status ≠ .busError → r.addr = 0#32)
    (str : r.str = []) (snapOut : r.snapOut = []) : responseOk r.ended := by
  refine ⟨fun failed => ⟨?_, ?_⟩, fun _ other => ?_, ?_, ?_, ?_⟩
  · rw [Response.ended_status] at failed
    rw [Response.ended_flags, if_neg failed]
  · rw [Response.ended_data, data]
  · rw [Response.ended_status] at other
    rw [Response.ended_addr, addr other]
  · rw [Response.ended_str, str]; exact Sparse.WF.nil _
  · rw [Response.ended_str, str]; simp
  · rw [Response.ended_snapOut, snapOut]; exact Sparse.WF.nil _

/-- A string of at most 65535 elements keeps all of them below `LEN` (R330). -/
theorem responseOk_string {es : List (BitVec 16)} (short : es.length < 2 ^ 16) (why : StringEnd) :
    responseOk (Response.string es why) := by
  refine ⟨fun failed => absurd rfl failed, fun failed => absurd rfl failed, Sparse.ofListFrom_wf _ _ _, fun x hx => ?_,
    Sparse.WF.nil _⟩
  obtain ⟨-, below, -⟩ := Sparse.mem_ofListFrom hx
  simp only [Response.string, BitVec.toNat_ofNat, Nat.mod_eq_of_lt short]
  omega

/-! ### The updates, and runs of them -/

/-- The updates that the commands of port `p` are made of: what they answer and send out, one translation, one access
through the physical dispatch, and the whole-table operations of maintenance. -/
inductive Update (p : Port) (s : State) : State → Prop where
  | respond (r : Response) (clean : responseOk r) : Update p s (s.respond p r)
  | save : Update p s (s.respond p { Response.zero with snapOut := snapshotImage s.cfg s.itlb s.dtlb })
  | raise (msg : FaultMsg) : Update p s (s.raise p msg)
  | abort (why : AbortReason) : Update p s (s.abort p why)
  | translate (m : Mode) (ea : Word) (v : Bool) : Update p s (s.translate m ea v).2
  | store {pas : List Word} {t : State} (stores : Stores s pas t) : Update p s t
  | rebuild (d : Side) : Update p s (s.rebuild d)
  | latchLocator : Update p s s.latchLocator
  | invalidateAll : Update p s s.invalidateAll
  | invalidateSet (ea : Word) : Update p s (s.invalidateSet (setIndex s.cfg ea))
  | loadCaches (snap : Cells 32) (wellFormed : snapshotOk s.cfg snap = true) : Update p s (s.loadCaches snap)

/-- `t` is reached from `s` by updates of port `p`. -/
abbrev Runs (p : Port) : State → State → Prop := Relation.ReflTransGen (Update p)

/-- What every update keeps, every run keeps. -/
theorem Runs.keeps {p : Port} {P : State → Prop} (update : ∀ {s t}, Update p s t → P s → P t) {s t : State}
    (run : Runs p s t) (hs : P s) : P t := by
  induction run with
  | refl => exact hs
  | tail _ last ih => exact update last ih

/-- An operation that answers a value, its state reached by updates of port `p`. -/
def Reaches {α : Type} (p : Port) (s : State) (r : α × State) : Prop := ∃ a t, r = (a, t) ∧ Runs p s t

section
variable {p : Port} {s t : State}

theorem Runs.refl : Runs p s s := Relation.ReflTransGen.refl

theorem Runs.trans {u : State} (run : Runs p s t) (more : Runs p t u) : Runs p s u :=
  Relation.ReflTransGen.trans run more

theorem Runs.update {u : State} (run : Runs p s t) (last : Update p t u) : Runs p s u :=
  Relation.ReflTransGen.tail run last

theorem Runs.respond (run : Runs p s t) {r : Response} (clean : responseOk r) : Runs p s (t.respond p r) :=
  run.update (.respond r clean)

theorem Runs.answerOnly (run : Runs p s t) (st : Status) : Runs p s (t.respond p (Response.only st)) :=
  run.respond (responseOk_only st)

theorem Runs.answerAccess (run : Runs p s t) (data : DWord) (addr : Word) (flags : Flags) :
    Runs p s (t.respond p (Response.access data addr flags)) :=
  run.respond (responseOk_access data addr flags)

theorem Runs.raise (run : Runs p s t) (msg : FaultMsg) : Runs p s (t.raise p msg) := run.update (.raise msg)

theorem Runs.rebuildBoth (run : Runs p s t) : Runs p s t.rebuildBoth :=
  (run.update (.rebuild .instruction)).update (.rebuild .data)

theorem Runs.reaches {α : Type} (run : Runs p s t) (a : α) : Reaches p s (a, t) := ⟨a, t, rfl, run⟩

theorem Runs.reachesStore {α : Type} {pas : List Word} {r : α × State} (run : Runs p s t)
    (stores : Stores t pas r.2) : Reaches p s r := ⟨r.1, r.2, rfl, run.update (.store stores)⟩

theorem Runs.reachesCalls {α : Type} {r : α × State} (run : Runs p s t) (calls : HandlerCalls t r.2) :
    Reaches p s r := run.reachesStore (calls.stores [])

theorem Runs.reachesFrom {α : Type} {r : α × State} (run : Runs p s t) (more : Reaches p t r) : Reaches p s r := by
  obtain ⟨a, u, e, tail⟩ := more
  exact ⟨a, u, e, run.trans tail⟩

end

/-! ### Planned accesses (R87, R240, R241) -/

section
variable (p : Port) (s : State)

theorem State.translate_reaches (m : Mode) (ea : Word) (v : Bool) : Reaches p s (s.translate m ea v) :=
  ⟨_, _, rfl, Runs.refl.update (.translate m ea v)⟩

theorem planAccess_reaches {tr : Word → State → Translation × State} (htr : ∀ a s, Reaches p s (tr a s)) (ea : Word)
    (n : Nat) : Reaches p s (planAccess tr ea n s) := by
  unfold planAccess
  obtain ⟨t1, s1, e1, first⟩ := htr ea s
  rw [e1]
  dsimp only
  split
  · exact first.reaches _
  · split
    · exact first.reaches _
    · obtain ⟨t2, s2, e2, second⟩ := first.reachesFrom (htr (secondPage ea n) s1)
      rw [e2]
      dsimp only
      split <;> exact second.reaches _

theorem State.plan_reaches (m : Mode) (ea : Word) (n : Nat) (nt : Bool) : Reaches p s (s.plan m ea n nt) := by
  refine planAccess_reaches p s (fun a s => ?_) ea n
  unfold guestTranslator
  split
  · exact Runs.refl.reaches _
  · exact s.translate_reaches p m a false

theorem State.readHW_reaches (m : Mode) (n : Nat) (ea : Word) (nt : Bool) : Reaches p s (s.readHW m n ea nt) := by
  unfold State.readHW
  obtain ⟨pl | ⟨eaF, x⟩, s1, e, planned⟩ := s.plan_reaches p m ea n nt <;> rw [e] <;> dsimp only
  · obtain ⟨_ | l, s2, e, read⟩ := planned.reachesCalls (s1.performRead_calls pl.pas) <;> rw [e] <;>
      exact read.reaches _
  · exact planned.reaches _

theorem State.writeHW_reaches (m : Mode) {n : Nat} (width : n ≤ 8) (ea : Word) (v : DWord) (nt : Bool) :
    Reaches p s (s.writeHW m n ea v nt) := by
  unfold State.writeHW
  obtain ⟨pl | ⟨eaF, x⟩, s1, e, planned⟩ := s.plan_reaches p m ea n nt <;> rw [e] <;> dsimp only
  · have length := planAccess_length e
    obtain ⟨_ | via, s2, e, written⟩ :=
      planned.reachesStore (s1.performWrite_stores (pas := pl.pas) v (by omega)).1 <;> rw [e] <;>
      exact written.reaches _
  · exact planned.reaches _

end

/-! ### Guest reads, writes and fetches (R242 to R252) -/

section
variable (s : State)

theorem State.endAccess_runs (write : Bool) {r : Access × State} (run : Reaches .g s r) :
    Runs .g s (State.endAccess write r) := by
  obtain ⟨x, t, rfl, run⟩ := run
  cases x with
  | done v pa0 flags => exact run.answerAccess v pa0 flags
  | fault ea cause => exact run.raise _
  | bus => exact run.answerOnly .busError

theorem State.guestRead_runs (n : Nat) : Runs .g s (s.guestRead n) :=
  s.endAccess_runs false (s.readHW_reaches .g .read n _ false)

theorem State.guestWrite_runs {n : Nat} (width : n ≤ 8) : Runs .g s (s.guestWrite n) :=
  s.endAccess_runs true (s.writeHW_reaches .g .write width _ _ false)

theorem State.tryFetch_reaches (p : Port) (ea : Word) : Reaches p s (s.tryFetch ea) := by
  unfold State.tryFetch
  obtain ⟨x, t, e, translated⟩ := s.translate_reaches p .opcode ea false
  rw [e]
  dsimp only
  split
  · exact translated.reaches _
  · split <;> exact translated.reaches _

/-! ### Cache lines and DMA (R280 to R288) -/

theorem State.lineStore_runs {body : Word → Translation → State → State}
    (hb : ∀ pa x t, Runs .g t (body pa x t)) : Runs .g s (s.lineStore body) := by
  unfold State.lineStore
  obtain ⟨x, t, e, translated⟩ := s.translate_reaches .g .write (lineAddress (s.req .g).a) false
  dsimp only
  rw [e]
  dsimp only
  split
  · exact translated.raise _
  · exact translated.trans (hb _ x t)

theorem linePassThrough_runs (pa : Word) (x : Translation) : Runs .g s (linePassThrough pa x s) :=
  Runs.refl.respond (responseOk_line pa x)

theorem State.withMem_stores {m : Memory} {pas : List Word} (wf : Memory.wf s.mem → Memory.wf m)
    (outside : Memory.wf s.mem → ∀ b, b ∉ pas → m.byte b = s.mem.byte b)
    (ram : memoryOk s.cfg s.mem → memoryOk s.cfg m) : Stores s pas (s.withMem m) :=
  ⟨.refl (s.withMem m), wf, outside, ram⟩

/-- Zeroing a line of RAM stores to its own bytes (R281). -/
theorem zeroLine_stores {pa : Word} (ram : inOne s.cfg.ramRegions pa cacheLine = true) :
    Stores s (byteRun pa cacheLine)
      (s.withMem (Memory.putBytes s.mem ((byteRun pa cacheLine).map fun b => (b, 0#8)))) := by
  refine s.withMem_stores (fun canonical => Memory.putBytes_wf canonical _) (fun canonical b outside => ?_) fun ok => ?_
  · refine Memory.byte_putBytes_of_not_mem canonical ?_
    rintro w hw rfl
    obtain ⟨a, ha, rfl⟩ := List.mem_map.1 hw
    exact outside ha
  · refine memoryOk_putBytes ok fun w hw => ?_
    obtain ⟨a, ha, rfl⟩ := List.mem_map.1 hw
    obtain ⟨i, hi, e⟩ := mem_byteRun.1 ha
    rw [e]
    exact isRam_of_inOne ram (by decide) hi

theorem lineZeroFill_runs (pa : Word) (x : Translation) : Runs .g s (lineZeroFill pa x s) := by
  unfold lineZeroFill
  split
  · next ram => exact (Runs.refl.update (.store (zeroLine_stores s ram))).respond (responseOk_line pa x)
  · exact Runs.refl.respond (responseOk_ended rfl (fun other => absurd rfl other) rfl rfl)

theorem State.dmaCopy_runs (src dst : Word) (lcIsSrc : Bool) (n : Nat) : Runs .g s (s.dmaCopy src dst lcIsSrc n) := by
  obtain ⟨copied, -⟩ := s.dmaBlocks_stores (lineAddress src) (lineAddress dst) lcIsSrc 0 false n
  exact (Runs.refl.update (.store copied)).respond (responseOk_ended rfl (fun _ => rfl) rfl rfl)

/-! ### JIT queries (R340 to R350) -/

theorem State.translateQuery_runs (m : Mode) : Runs .g s (s.translateQuery m) := by
  unfold State.translateQuery
  obtain ⟨x, t, e, translated⟩ := s.translate_reaches .g m (s.req .g).a false
  rw [e]
  dsimp only
  split
  · exact translated.answerOnly .absent
  · exact translated.answerAccess _ _ _

theorem State.optRamQuery_runs (n : Nat) : Runs .g s (s.optRamQuery n) := Runs.refl.respond (responseOk_answer _)

theorem State.optMmioQuery_runs (n : Nat) : Runs .g s (s.optMmioQuery n) :=
  Runs.refl.respond (responseOk_of_ok rfl rfl rfl)

/-! ### The host surface (R310 to R331) -/

theorem State.hostRead_runs (sp : Space) (n : Nat) (ramOnly : Bool) : Runs .h s (State.hostRead sp n ramOnly s) := by
  unfold State.hostRead
  obtain ⟨_ | ⟨v, pa0, flags⟩, t, e, loaded⟩ :=
    Runs.refl.reachesCalls (p := .h) (s.hostLoad_calls sp n (s.req .h).a ramOnly) <;> rw [e]
  · exact loaded.answerOnly .absent
  · exact loaded.answerAccess v pa0 flags

theorem State.hostWrite_runs (sp : Space) {n : Nat} (width : n ≤ 8) (ramOnly : Bool) :
    Runs .h s (State.hostWrite sp n ramOnly s) := by
  unfold State.hostWrite
  obtain ⟨_ | ⟨pa0, flags⟩, t, e, stored⟩ := Runs.refl.reachesStore (p := .h)
    (s.hostStore_stores sp width (s.req .h).a (writeData n (s.req .h).d) ramOnly).1 <;> rw [e]
  · exact stored.answerOnly .absent
  · exact stored.answerAccess _ pa0 flags

theorem State.hostPlan_reaches (sp : Space) (d : Side) (ea : Word) (n : Nat) : Reaches p s (s.hostPlan sp d ea n) :=
  Runs.refl.reachesCalls (by rw [State.hostPlan_snd]; exact .refl s)

theorem State.hostPredicate_runs (sp : Space) (d : Side) : Runs .h s (State.hostPredicate sp d s) := by
  unfold State.hostPredicate State.hostIsRam
  obtain ⟨_ | _, t, e, planned⟩ := s.hostPlan_reaches (p := .h) sp d (s.req .h).a 1 <;> rw [e] <;>
    exact planned.respond (responseOk_answer _)

/-- Reading a string changes nothing but the record of handler calls. -/
theorem State.hostString_calls (sp : Space) (w : Nat) (a : Word) (n : Nat) :
    HandlerCalls s (s.hostString sp w a n).2 := by
  induction n generalizing s a with
  | zero => exact .refl s
  | succ n ih =>
    rw [State.hostString]
    have first := s.hostLoad_calls sp w a true
    split <;> rename_i e <;> rw [e] at first
    · exact first
    · split
      · exact first
      · exact first.trans (ih _ _)

theorem State.hostGetString_runs (sp : Space) (w : Nat) (max : BitVec 16) :
    Runs .h s (State.hostGetString sp w max s) := by
  have short := s.hostString_length sp w (s.req .h).a max.toNat
  unfold State.hostGetString
  obtain ⟨⟨es, why⟩, t, e, read⟩ :=
    Runs.refl.reachesCalls (p := .h) (s.hostString_calls sp w (s.req .h).a max.toNat)
  rw [e] at short ⊢
  exact read.respond (responseOk_string (Nat.lt_of_le_of_lt short max.isLt) why)

/-! ### Commands and the step -/

/-- A command of port `p` that answers a next state, reached by updates of that port. -/
def Answers (p : Port) (s : State) (r : Result) : Prop := ∃ t, r = .next t ∧ Runs p s t

variable {s}

theorem Answers.intro {p : Port} {t : State} (run : Runs p s t) : Answers p s (.next t) := ⟨t, rfl, run⟩

theorem answers_abort (p : Port) (why : AbortReason) : Answers p s (.next (s.abort p why)) :=
  .intro (Runs.refl.update (.abort why))

variable (s)

theorem execReadOpcode_answers : Answers .g s (execReadOpcode s) := by
  unfold execReadOpcode
  dsimp only
  split
  · obtain ⟨hex | x | _, t, e, fetched⟩ := s.tryFetch_reaches .g (s.req .g).a <;> rw [e]
    · exact .intro (fetched.answerAccess _ _ _)
    · exact .intro (fetched.raise _)
    · exact .intro (fetched.answerOnly .busError)
  · exact answers_abort .g _

theorem execTryReadInst_answers : Answers .g s (execTryReadInst s) := by
  unfold execTryReadInst
  dsimp only
  split
  · obtain ⟨hex | x | _, t, e, fetched⟩ := s.tryFetch_reaches .g (s.req .g).a <;> rw [e]
    · exact .intro (fetched.answerAccess _ _ _)
    · exact .intro (fetched.answerOnly .absent)
    · exact .intro (fetched.answerOnly .busError)
  · exact answers_abort .g _

theorem execDclTouch_answers : Answers .g s (execDclTouch s) := by
  unfold execDclTouch
  obtain ⟨x, t, e, translated⟩ := s.translate_reaches .g .noException (lineAddress (s.req .g).a) false
  rw [e]
  dsimp only
  split
  · exact .intro (translated.answerOnly .ok)
  · exact .intro (translated.respond (responseOk_line _ x))

theorem execStateRestore_answers : Answers .h s (execStateRestore s) := by
  unfold execStateRestore
  dsimp only
  split
  · next wellFormed =>
    have loaded : Runs .h s (s.loadCaches (s.req .h).snapIn) := Runs.refl.update (.loadCaches _ wellFormed)
    exact .intro ((loaded.update .latchLocator).rebuildBoth.answerOnly .ok)
  · exact answers_abort .h _

theorem inLegalSpace_answers (sp : Space) {run : State → State} (hr : Runs .h s (run s)) :
    Answers .h s (inLegalSpace sp run s) := by
  unfold inLegalSpace
  split
  · exact .intro hr
  · exact answers_abort .h _

/-- Every command is a run of updates of its own port (R30, R36). -/
theorem exec_answers (i : Instr) : Answers i.port s (exec i s) := by
  have start {p : Port} : Runs p s s := Runs.refl
  cases i with
  | read8 => exact .intro (s.guestRead_runs 1)
  | read16 => exact .intro (s.guestRead_runs 2)
  | read32 => exact .intro (s.guestRead_runs 4)
  | read64 => exact .intro (s.guestRead_runs 8)
  | write8 => exact .intro (s.guestWrite_runs (n := 1) (by decide))
  | write16 => exact .intro (s.guestWrite_runs (n := 2) (by decide))
  | write32 => exact .intro (s.guestWrite_runs (n := 4) (by decide))
  | write64 => exact .intro (s.guestWrite_runs (n := 8) (by decide))
  | readOpcode => exact execReadOpcode_answers s
  | tryReadInst => exact execTryReadInst_answers s
  | dclClear => exact .intro (s.lineStore_runs fun pa x t => lineZeroFill_runs t pa x)
  | dclStore => exact .intro (s.lineStore_runs fun pa x t => linePassThrough_runs t pa x)
  | dclInvalidate => exact .intro (s.lineStore_runs fun pa x t => linePassThrough_runs t pa x)
  | dclFlush => exact .intro (s.lineStore_runs fun pa x t => linePassThrough_runs t pa x)
  | dclTouch => exact execDclTouch_answers s
  | dmaLcToMem blocks => exact .intro (s.dmaCopy_runs _ _ true blocks.toNat)
  | dmaMemToLc blocks => exact .intro (s.dmaCopy_runs _ _ false blocks.toNat)
  | sdrUpdated =>
    exact .intro (((start.update .latchLocator).update .invalidateAll).rebuildBoth.answerOnly .ok)
  | dbatUpdated => exact .intro ((start.update (.rebuild .data)).answerOnly .ok)
  | ibatUpdated => exact .intro ((start.update (.rebuild .instruction)).answerOnly .ok)
  | tlbInvalidateEntry =>
    exact .intro ((start.update (.invalidateSet (s.req .g).a)).rebuildBoth.answerOnly .ok)
  | jitTranslate => exact .intro (s.translateQuery_runs .opcodeNoException)
  | getTranslated => exact .intro (s.translateQuery_runs .noException)
  | optRam8 => exact .intro (s.optRamQuery_runs 1)
  | optRam16 => exact .intro (s.optRamQuery_runs 2)
  | optRam32 => exact .intro (s.optRamQuery_runs 4)
  | optRam64 => exact .intro (s.optRamQuery_runs 8)
  | optMmio8 => exact .intro (s.optMmioQuery_runs 1)
  | optMmio16 => exact .intro (s.optMmioQuery_runs 2)
  | optMmio32 => exact .intro (s.optMmioQuery_runs 4)
  | optMmio64 => exact .intro (s.optMmioQuery_runs 8)
  | optGather => exact .intro (start.respond (responseOk_answer _))
  | hostRead8 sp => exact inLegalSpace_answers s sp (s.hostRead_runs sp 1 false)
  | hostRead16 sp => exact inLegalSpace_answers s sp (s.hostRead_runs sp 2 false)
  | hostRead32 sp => exact inLegalSpace_answers s sp (s.hostRead_runs sp 4 false)
  | hostRead64 sp => exact inLegalSpace_answers s sp (s.hostRead_runs sp 8 false)
  | hostTryRead8 sp => exact inLegalSpace_answers s sp (s.hostRead_runs sp 1 true)
  | hostTryRead16 sp => exact inLegalSpace_answers s sp (s.hostRead_runs sp 2 true)
  | hostTryRead32 sp => exact inLegalSpace_answers s sp (s.hostRead_runs sp 4 true)
  | hostTryRead64 sp => exact inLegalSpace_answers s sp (s.hostRead_runs sp 8 true)
  | hostWrite8 sp => exact inLegalSpace_answers s sp (s.hostWrite_runs sp (n := 1) (by decide) false)
  | hostWrite16 sp => exact inLegalSpace_answers s sp (s.hostWrite_runs sp (n := 2) (by decide) false)
  | hostWrite32 sp => exact inLegalSpace_answers s sp (s.hostWrite_runs sp (n := 4) (by decide) false)
  | hostWrite64 sp => exact inLegalSpace_answers s sp (s.hostWrite_runs sp (n := 8) (by decide) false)
  | hostTryWrite8 sp => exact inLegalSpace_answers s sp (s.hostWrite_runs sp (n := 1) (by decide) true)
  | hostTryWrite16 sp => exact inLegalSpace_answers s sp (s.hostWrite_runs sp (n := 2) (by decide) true)
  | hostTryWrite32 sp => exact inLegalSpace_answers s sp (s.hostWrite_runs sp (n := 4) (by decide) true)
  | hostTryWrite64 sp => exact inLegalSpace_answers s sp (s.hostWrite_runs sp (n := 8) (by decide) true)
  | hostIsRam sp => exact inLegalSpace_answers s sp (s.hostPredicate_runs sp .data)
  | hostIsIram sp => exact inLegalSpace_answers s sp (s.hostPredicate_runs sp .instruction)
  | hostGetString sp max => exact inLegalSpace_answers s sp (s.hostGetString_runs sp 1 max)
  | hostGetU16String sp max => exact inLegalSpace_answers s sp (s.hostGetString_runs sp 2 max)
  | stateSave => exact .intro (start.update .save)
  | stateRestore => exact execStateRestore_answers s

end

/-- What acceptance finds, always about the live port: no command, one it turns away, or one that runs (R378, R389). -/
theorem State.accept_cases (s : State) :
    s.accept = .idle ∨ s.accept = .dead s.livePort ∨
      (∃ why, s.accept = .violation s.livePort why) ∨ ∃ i, i.port = s.livePort ∧ s.accept = .run i := by
  unfold State.accept
  dsimp only
  split
  · split
    · exact .inr (.inl rfl)
    · split
      · exact .inr (.inr (.inl ⟨_, rfl⟩))
      · split
        · next port => exact .inr (.inr (.inr ⟨_, port, rfl⟩))
        · exact .inr (.inr (.inl ⟨_, rfl⟩))
  · exact .inl rfl

/-- Everything a step can do: release a reset, nothing, or take the command of the live port and run updates of that
port (R389, R410). -/
theorem step_cases {s t : State} (h : step s = .next t) :
    (s.resetRequested = true ∧ t = s.releaseReset) ∨
      (s.resetRequested = false ∧ (t = s ∨ Runs s.livePort (s.take s.livePort) t)) := by
  unfold step at h
  split at h
  · split at h
    · next reset => cases h; exact .inl ⟨reset, rfl⟩
    · next reset =>
      refine .inr ⟨by simpa using reset, ?_⟩
      rcases s.accept_cases with e | e | ⟨why, e⟩ | ⟨i, port, e⟩
      · rw [e] at h; cases h; exact .inl rfl
      · rw [e] at h; cases h; exact .inr (Runs.refl.answerOnly .abort)
      · rw [e] at h; cases h; exact .inr (Runs.refl.update (.abort why))
      · rw [e] at h
        obtain ⟨u, answer, run⟩ := exec_answers (s.take i.port) i
        have same : u = t := by simpa [answer] using h
        rw [← port, ← same]
        exact .inr run
  · cases h

end Sys2Proof.Machine
end

section
/-! What no step writes (`10_state.md` R30, R36, R40), and `FATAL` (R35), each shown for one update at a time. -/

namespace Sys2Proof.Machine

/-! ### What is borrowed (R30, R36, R412) -/

/-- What an update of port `p` leaves alone: the platform, the processor, the input, every request register, and the
registers of the other port. -/
structure BorrowedKept (p : Port) (s t : State) : Prop where
  cfg : t.cfg = s.cfg
  cpu : t.cpu = s.cpu
  cpuParked : t.cpuParked = s.cpuParked
  req : ∀ q, t.req q = s.req q
  other : ∀ q, q ≠ p → t.port q = s.port q

section
variable {p : Port} {s t : State}

theorem BorrowedKept.refl : BorrowedKept p s s := ⟨rfl, rfl, rfl, fun _ => rfl, fun _ _ => rfl⟩

theorem BorrowedKept.trans {u : State} (h : BorrowedKept p s t) (k : BorrowedKept p t u) : BorrowedKept p s u :=
  ⟨k.cfg.trans h.cfg, k.cpu.trans h.cpu, k.cpuParked.trans h.cpuParked, fun q => (k.req q).trans (h.req q),
    fun q hq => (k.other q hq).trans (h.other q hq)⟩

/-- An update that writes no port register at all. -/
theorem BorrowedKept.of_ports (cfg : t.cfg = s.cfg) (cpu : t.cpu = s.cpu) (cpuParked : t.cpuParked = s.cpuParked)
    (g : t.g = s.g) (h : t.h = s.h) : BorrowedKept p s t := by
  have ports : ∀ q, t.port q = s.port q := fun q => by
    cases q
    · exact g
    · exact h
  exact ⟨cfg, cpu, cpuParked, fun q => congrArg PortRegs.req (ports q), fun q _ => ports q⟩

theorem State.respond_port_other {q : Port} (h : q ≠ p) (r : Response) : (s.respond p r).port q = s.port q := by
  cases p <;> cases q
  case g.g | h.h => exact absurd rfl h
  case g.h | h.g => rfl

theorem State.respond_borrowedKept (r : Response) : BorrowedKept p s (s.respond p r) :=
  ⟨s.respond_cfg p r, s.respond_cpu p r, s.respond_cpuParked p r, fun q => s.respond_req p q r,
    fun _ hq => State.respond_port_other hq r⟩

theorem Update.borrowedKept (update : Update p s t) : BorrowedKept p s t := by
  cases update with
  | respond r => exact State.respond_borrowedKept r
  | save => exact State.respond_borrowedKept _
  | raise msg =>
    have sent : BorrowedKept p s (s.emit (.fault msg)) := .of_ports rfl rfl rfl rfl rfl
    exact sent.trans (State.respond_borrowedKept _)
  | abort why =>
    have marked : BorrowedKept p s { s with fatal := true, abortReason := some (s.abortReason.getD why) } :=
      .of_ports rfl rfl rfl rfl rfl
    exact marked.trans (State.respond_borrowedKept _)
  | translate m ea v =>
    obtain ⟨⟨tlb, mem, e⟩, -⟩ := s.translate_owned m ea v
    rw [e]
    exact .of_ports (by simp) (by simp) (by simp) (by simp) (by simp)
  | store stores =>
    obtain ⟨e, -⟩ := stores.calls
    rw [e]
    exact .of_ports rfl rfl rfl rfl rfl
  | rebuild d => exact .of_ports (by simp) (by simp) (by simp) (by simp) (by simp)
  | latchLocator => exact .of_ports rfl rfl rfl rfl rfl
  | invalidateAll => exact .of_ports rfl rfl rfl rfl rfl
  | invalidateSet ea => exact .of_ports rfl rfl rfl rfl rfl
  | loadCaches snap => exact .of_ports rfl rfl rfl rfl rfl

theorem Runs.borrowedKept (run : Runs p s t) : BorrowedKept p s t :=
  run.keeps (P := BorrowedKept p s) (fun update kept => kept.trans update.borrowedKept) .refl

end

/-- Accepting a command writes only the model's own pending bit (R389; log entry 3). -/
theorem State.take_req_eq (s : State) (p q : Port) :
    (s.take p).req q = { s.req q with pending := ((s.take p).req q).pending } := by
  cases p <;> cases q <;> rfl

/-! ### `FATAL` (R35, R378) -/

/-- No update clears `FATAL`. -/
theorem Update.fatal_kept {p : Port} {s t : State} (update : Update p s t) (fatal : s.fatal = true) :
    t.fatal = true := by
  cases update with
  | respond r => rw [State.respond_fatal, fatal]
  | save => rw [State.respond_fatal, fatal]
  | raise msg => rw [State.raise_fatal, fatal]
  | abort why => exact s.abort_fatal p why
  | translate m ea v =>
    obtain ⟨⟨tlb, mem, e⟩, -⟩ := s.translate_owned m ea v
    rw [e, State.withMem_fatal, State.withTlb_fatal, fatal]
  | store stores =>
    obtain ⟨e, -⟩ := stores.calls
    rw [e]
    exact fatal
  | rebuild d => rw [State.rebuild_fatal, fatal]
  | latchLocator => exact fatal
  | invalidateAll => exact fatal
  | invalidateSet ea => exact fatal
  | loadCaches snap => exact fatal

/-- While `FATAL` is set every presented command of the live port, whichever it is, is turned away (R35). -/
theorem State.accept_of_fatal {s : State} (pending : (s.req s.livePort).pending = true) (fatal : s.fatal = true) :
    s.accept = .dead s.livePort := by
  unfold State.accept
  dsimp only
  rw [if_pos pending, if_pos fatal]

theorem step_of_accept_dead {s : State} {p : Port} (config : configOk s.cfg = true) (noReset : s.resetRequested = false)
    (dead : s.accept = .dead p) : step s = .next (s.refuseDead p) := by
  unfold step
  rw [if_pos config, noReset, dead]
  rfl

end Sys2Proof.Machine

open Sys2Proof Sys2Proof.Machine

/-- Settles O58: a reset writes no borrowed register, and a command is a run of updates of its own port. -/
theorem borrowedStateIsReadOnly : Obligations.BorrowedStateIsReadOnly := by
  intro s t h
  rcases step_cases h with ⟨reset, rfl⟩ | ⟨-, rfl | run⟩
  · have impossible (noReset : s.resetRequested = false) : False := by simp [reset] at noReset
    exact ⟨rfl, rfl, rfl, rfl, rfl, fun noReset => (impossible noReset).elim, fun noReset => (impossible noReset).elim⟩
  · exact ⟨rfl, rfl, rfl, rfl, rfl, fun _ _ => rfl, fun _ _ => rfl⟩
  · have kept := run.borrowedKept
    have request (q : Port) : t.req q = { s.req q with pending := (t.req q).pending } := by
      rw [kept.req q]
      exact s.take_req_eq s.livePort q
    refine ⟨by rw [kept.cfg, State.take_cfg], by rw [kept.cpu, State.take_cpu],
      by rw [kept.cpuParked, State.take_cpuParked], request .g, request .h, fun _ live => ?_, fun _ live => ?_⟩
    · rw [live] at kept
      exact kept.other .h (by decide)
    · rw [live] at kept
      exact kept.other .g (by decide)

/-- Settles O8: acceptance turns every command away while `FATAL` is set, no update clears it, and a reset does. -/
theorem fatalIsSticky : Obligations.FatalIsSticky := by
  refine ⟨rfl, State.abort_fatal, ?_, ?_, ?_⟩
  · rintro s p config noReset fatal rfl pending
    exact step_of_accept_dead config noReset (State.accept_of_fatal pending fatal)
  · intro s t fatal h noReset
    rcases step_cases h with ⟨reset, -⟩ | ⟨-, rfl | run⟩
    · rw [noReset] at reset
      cases reset
    · exact fatal
    · exact run.keeps (P := fun u => u.fatal = true) Update.fatal_kept (by rw [State.take_fatal, fatal])
  · intro s t reset h
    rcases step_cases h with ⟨-, rfl⟩ | ⟨noReset, -⟩
    · rfl
    · rw [reset] at noReset
      cases noReset
end

section
/-! The invariant of the machine: what it says of a cache set, of the locator and of the reset state, and that every
update keeps it (`10_state.md` R31, R33, R34; `20_memory.md` R80). -/

namespace Sys2Proof.Machine

/-! ### One set of a page-table cache (R33, R140) -/

/-- What the invariant says of set `k`: no tag twice, and every valid way in the set its tag selects. -/
def SetOk (c : Config) (k : Nat) (t : TlbSet) : Prop :=
  t.tagsDiffer = true ∧ t.way0.inSet c k = true ∧ t.way1.inSet c k = true

theorem tlbOk_iff {c : Config} {t : Tlb} :
    tlbOk c t ↔ Sparse.WF TlbSet.empty t ∧ ∀ x ∈ t, x.1 < c.tlbSets ∧ SetOk c x.1 x.2 := Iff.rfl

theorem Way.inSet_iff {c : Config} {k : Nat} {x : Way} :
    x.inSet c k = true ↔ (x.valid = true → x.tag.toNat % c.tlbSets = k) := by
  unfold Way.inSet
  cases x.valid <;> simp

theorem TlbSet.tagsDiffer_iff {t : TlbSet} :
    t.tagsDiffer = true ↔ (t.way0.valid = true → t.way1.valid = true → t.way0.tag ≠ t.way1.tag) := by
  unfold TlbSet.tagsDiffer
  cases t.way0.valid <;> cases t.way1.valid <;> simp

theorem Way.hits_iff {x : Way} {tag : BitVec 20} : x.hits tag = true ↔ x.valid = true ∧ x.tag = tag := by
  simp [Way.hits]

theorem TlbSet.lookup_eq_none {t : TlbSet} {tag : BitVec 20} :
    t.lookup tag = none ↔ t.way0.hits tag = false ∧ t.way1.hits tag = false := by
  unfold TlbSet.lookup
  cases t.way0.hits tag <;> cases t.way1.hits tag <;> simp

theorem TlbSet.hits_of_lookup {t : TlbSet} {tag : BitVec 20} {w : Bool} (h : t.lookup tag = some w) :
    (t.way w).hits tag = true := by
  unfold TlbSet.lookup at h
  split at h
  · next hit => cases h; exact hit
  · split at h
    · next hit => cases h; exact hit
    · cases h

/-- A set with no valid way asks for nothing. -/
theorem setOk_invalidate (c : Config) (k : Nat) (t : TlbSet) : SetOk c k t.invalidate := ⟨rfl, rfl, rfl⟩

namespace SetOk

variable {c : Config} {k : Nat} {t : TlbSet} {tag : BitVec 20}

theorem empty : SetOk c k TlbSet.empty := ⟨rfl, rfl, rfl⟩

theorem withRecent (h : SetOk c k t) (r : Bool) : SetOk c k { t with recent := r } := h

/-- Replacing way `w` asks for a way in its set that shares no tag with the way that stays. -/
theorem setWay (h : SetOk c k t) {w : Bool} {x : Way} (inSet : x.inSet c k = true)
    (differ : x.valid = true → (t.way !w).valid = true → (t.way !w).tag ≠ x.tag) : SetOk c k (t.setWay w x) := by
  obtain ⟨-, in0, in1⟩ := h
  cases w
  · exact ⟨TlbSet.tagsDiffer_iff.2 fun v0 v1 => (differ v0 v1).symm, inSet, in1⟩
  · exact ⟨TlbSet.tagsDiffer_iff.2 fun v0 v1 => differ v1 v0, in0, inSet⟩

theorem dropWay (h : SetOk c k t) (w : Bool) : SetOk c k (t.dropWay w) :=
  h.setWay rfl fun valid => by cases valid

/-- A fill after a miss puts its tag in the set for the first time (R185). -/
theorem fill (h : SetOk c k t) (own : tag.toNat % c.tlbSets = k) (miss : t.lookup tag = none) (pte1 : Word) :
    SetOk c k (t.fill tag pte1) := by
  obtain ⟨miss0, miss1⟩ := TlbSet.lookup_eq_none.1 miss
  have other (w : Bool) : (t.way w).hits tag = false := by
    cases w
    · exact miss0
    · exact miss1
  refine (h.setWay (w := t.victim) (x := ⟨true, tag, pte1⟩) (Way.inSet_iff.2 fun _ => own)
    fun _ valid same => ?_).withRecent _
  have hit := Way.hits_iff.2 ⟨valid, same⟩
  rw [other] at hit
  cases hit

/-- No tag stands twice, so dropping the way that hits leaves none that does (R179). -/
theorem lookup_dropWay (h : SetOk c k t) {w : Bool} (hit : t.lookup tag = some w) :
    (t.dropWay w).lookup tag = none := by
  obtain ⟨differ, -, -⟩ := h
  obtain ⟨valid, own⟩ := Way.hits_iff.1 (TlbSet.hits_of_lookup hit)
  have dropped (x : Way) : Way.hits { x with valid := false } tag = false := rfl
  rw [TlbSet.lookup_eq_none]
  cases w
  · refine ⟨dropped _, Bool.eq_false_iff.2 fun again => ?_⟩
    obtain ⟨valid1, own1⟩ := Way.hits_iff.1 again
    exact TlbSet.tagsDiffer_iff.1 differ valid valid1 (own.trans own1.symm)
  · refine ⟨Bool.eq_false_iff.2 fun again => ?_, dropped _⟩
    obtain ⟨valid0, own0⟩ := Way.hits_iff.1 again
    exact TlbSet.tagsDiffer_iff.1 differ valid0 valid (own0.trans own.symm)

/-- Whatever one translation does to the set of its address keeps the set well formed. -/
theorem move (h : SetOk c k t) (own : tag.toNat % c.tlbSets = k) {u : TlbSet} (move : SetMove t tag u) :
    SetOk c k u := by
  cases move with
  | hit w => exact h.withRecent w
  | drop w => exact h.dropWay w
  | fill pte1 miss => exact h.fill own miss pte1
  | refill w pte1 hit => exact (h.dropWay w).fill own (h.lookup_dropWay hit) pte1

end SetOk

/-! ### A whole cache -/

theorem tlbOk_nil {c : Config} : tlbOk c [] := tlbOk_iff.2 ⟨Sparse.WF.nil _, fun _ hx => (List.not_mem_nil hx).elim⟩

/-- Every set of the cache is well formed, listed or not. -/
theorem setOk_get {c : Config} {t : Tlb} (h : tlbOk c t) (k : Nat) : SetOk c k (Sparse.get TlbSet.empty t k) := by
  obtain ⟨-, sets⟩ := tlbOk_iff.1 h
  by_cases listed : Sparse.get TlbSet.empty t k = TlbSet.empty
  · rw [listed]; exact .empty
  · exact (sets _ (Sparse.mem_of_get_ne listed)).2

theorem tlbOk_set {c : Config} {t : Tlb} (h : tlbOk c t) {k : Nat} (below : k < c.tlbSets) {x : TlbSet}
    (hx : SetOk c k x) : tlbOk c (Sparse.set TlbSet.empty t k x) := by
  obtain ⟨wf, sets⟩ := tlbOk_iff.1 h
  refine tlbOk_iff.2 ⟨Sparse.set_wf wf k x, fun y hy => ?_⟩
  rcases Sparse.mem_set hy with ⟨rfl, -⟩ | old
  · exact ⟨below, hx⟩
  · exact sets y old

theorem mem_invalidated {t : Tlb} {y : Nat × TlbSet}
    (h : y ∈ Sparse.mapValues TlbSet.empty TlbSet.invalidate t) : ∃ x ∈ t, y = (x.1, x.2.invalidate) := by
  obtain ⟨x, hx, rfl⟩ := List.mem_map.1 (List.mem_filter.1 h).1
  exact ⟨x, hx, rfl⟩

theorem tlbOk_invalidated {c : Config} {t : Tlb} (h : tlbOk c t) :
    tlbOk c (Sparse.mapValues TlbSet.empty TlbSet.invalidate t) := by
  obtain ⟨wf, sets⟩ := tlbOk_iff.1 h
  refine tlbOk_iff.2 ⟨Sparse.mapValues_wf wf _, fun y hy => ?_⟩
  obtain ⟨x, hx, rfl⟩ := mem_invalidated hy
  exact ⟨(sets x hx).1, setOk_invalidate c x.1 x.2⟩

/-- The check of `STATE_RESTORE` is what the invariant asks of a cache (R220). -/
theorem tlbOk_sideOfImage {c : Config} {snap : Cells 32} (h : snapshotOk c snap = true) (d : Side) :
    tlbOk c (sideOfImage c snap d) := by
  have sets (k : Nat) (below : k < c.tlbSets) : SetOk c k (snapSet c snap d k) := by
    have checked := List.all_eq_true.1 h k (List.mem_range.2 below)
    have side : snapSetOk c snap d k = true := by
      rw [Bool.and_eq_true] at checked
      cases d
      · exact checked.1
      · exact checked.2
    simp only [snapSetOk, Bool.and_eq_true] at side
    obtain ⟨⟨⟨-, differ⟩, in0⟩, in1⟩ := side
    exact ⟨differ, in0, in1⟩
  refine tlbOk_iff.2 ⟨Sparse.ofFun_wf _ _ _, fun x hx => ?_⟩
  obtain ⟨below, value, -⟩ := Sparse.mem_ofFun.1 hx
  rw [value]
  exact ⟨below, sets _ below⟩

theorem tlbSets_pos {c : Config} (h : configOk c = true) : 0 < c.tlbSets := by
  simp only [configOk, Bool.and_eq_true] at h
  obtain ⟨⟨⟨⟨⟨⟨-, sets⟩, -⟩, -⟩, -⟩, -⟩, -⟩ := h
  obtain ⟨k, -, power⟩ := List.any_eq_true.1 sets
  rw [beq_iff_eq] at power
  rw [power]
  exact Nat.two_pow_pos k

theorem setIndex_lt {c : Config} (h : configOk c = true) (ea : Word) : setIndex c ea < c.tlbSets :=
  Nat.mod_lt _ (tlbSets_pos h)

/-! ### The locator and the store -/

/-- Latching gives the locator its shape whatever `SDR1` holds (R34). -/
theorem locatorOk_latched (sdr1 : Word) : locatorOk (sdr1PtBase sdr1) (sdr1HashMask sdr1) :=
  ⟨BitVec.extractLsb'_append_eq_right, BitVec.extractLsb'_append_eq_right⟩

theorem memoryOk_move {s : State} {ea : Word} {m : Memory} (h : memoryOk s.cfg s.mem) (move : MemMove s ea m) :
    memoryOk s.cfg m := by
  cases move with
  | same => exact h
  | touch pte w1 found ram => exact memoryOk_writeBE h ram _

/-! ### Every update keeps the invariant -/

namespace Inv

variable {s : State} (h : Inv s)
include h

theorem tlbOk_tlb (d : Side) : tlbOk s.cfg (s.tlb d) := by
  cases d
  · exact h.itlb
  · exact h.dtlb

theorem setReq (p : Port) (q : Request) : Inv (s.setReq p q) := by
  cases p <;> exact { h with }

theorem take (p : Port) : Inv (s.take p) := h.setReq p _

theorem respond (p : Port) {r : Response} (clean : responseOk r) : Inv (s.respond p r) := by
  cases p
  · exact { h with gResponse := clean }
  · exact { h with hResponse := clean }

theorem emit (e : Event) : Inv (s.emit e) := { h with }

theorem raise (p : Port) (msg : FaultMsg) : Inv (s.raise p msg) := (h.emit _).respond p (responseOk_only _)

theorem abort (p : Port) (why : AbortReason) : Inv (s.abort p why) := by
  have marked : Inv { s with fatal := true, abortReason := some (s.abortReason.getD why) } := { h with fatal := rfl }
  exact marked.respond p (responseOk_only .abort)

theorem withMem {m : Memory} (hm : memoryOk s.cfg m) : Inv (s.withMem m) := { h with memory := hm }

theorem withTlb (d : Side) {t : Tlb} (ht : tlbOk s.cfg t) : Inv (s.withTlb d t) := by
  cases d
  · exact { h with itlb := ht }
  · exact { h with dtlb := ht }

theorem withTable (d : Side) {t : Cells 32} (ht : Rebuilt s.cfg t) : Inv (s.withTable d t) := by
  cases d
  · exact { h with ibatTable := ht }
  · exact { h with dbatTable := ht }

theorem handlerCalls {t : State} (calls : HandlerCalls s t) : Inv t := by
  obtain ⟨e, -⟩ := calls
  rw [e]
  exact { h with }

theorem store {t : State} {pas : List Word} (stores : Stores s pas t) : Inv t :=
  (h.withMem (stores.ram h.memory)).handlerCalls stores.calls

theorem latchLocator : Inv s.latchLocator := { h with locator := locatorOk_latched s.cpu.sdr1 }

theorem rebuild (d : Side) : Inv (s.rebuild d) := h.withTable d ⟨s.batPairs d, rfl⟩

theorem rebuildBoth : Inv s.rebuildBoth := (h.rebuild .instruction).rebuild .data

theorem withTlbSet (d : Side) {k : Nat} (below : k < s.cfg.tlbSets) {x : TlbSet} (hx : SetOk s.cfg k x) :
    Inv (s.withTlbSet d k x) := h.withTlb d (tlbOk_set (h.tlbOk_tlb d) below hx)

theorem invalidateAll : Inv s.invalidateAll :=
  { h with itlb := tlbOk_invalidated h.itlb, dtlb := tlbOk_invalidated h.dtlb }

theorem invalidateSet (ea : Word) : Inv (s.invalidateSet (setIndex s.cfg ea)) :=
  { h with
    itlb := tlbOk_set h.itlb (setIndex_lt h.config ea) (setOk_invalidate _ _ _)
    dtlb := tlbOk_set h.dtlb (setIndex_lt h.config ea) (setOk_invalidate _ _ _) }

theorem loadCaches {snap : Cells 32} (wellFormed : snapshotOk s.cfg snap = true) : Inv (s.loadCaches snap) :=
  { h with itlb := tlbOk_sideOfImage wellFormed .instruction, dtlb := tlbOk_sideOfImage wellFormed .data }

/-- A translation moves its own set and word 1 of the entry it finds, and each move keeps its clause. -/
theorem translate (m : Mode) (ea : Word) (v : Bool) : Inv (s.translate m ea v).2 := by
  obtain ⟨wf, -⟩ := h.tlbOk_tlb m.side
  rcases State.translate_moves wf (Prod.mk.eta (p := s.translate m ea v)).symm with
    same | ⟨-, mem, set, memMove, setMove, -, moved⟩
  · rw [same]; exact h
  · rw [moved]
    exact (h.withMem (memoryOk_move h.memory memMove)).withTlbSet m.side (setIndex_lt h.config ea)
      ((setOk_get (h.tlbOk_tlb m.side) _).move rfl setMove)

theorem responseOk_snapshot :
    responseOk { Response.zero with snapOut := snapshotImage s.cfg s.itlb s.dtlb } := by
  obtain ⟨wfI, sets⟩ := h.itlb
  obtain ⟨wfD, -⟩ := h.dtlb
  refine ⟨fun failed => absurd rfl failed, fun failed => absurd rfl failed, Sparse.WF.nil _,
    fun _ hx => (List.not_mem_nil hx).elim, snapshotImage_wf wfI wfD fun x hx => (sets x hx).1⟩

theorem update {p : Port} {t : State} (update : Update p s t) : Inv t := by
  cases update with
  | respond r clean => exact h.respond p clean
  | save => exact h.respond p h.responseOk_snapshot
  | raise msg => exact h.raise p msg
  | abort why => exact h.abort p why
  | translate m ea v => exact h.translate m ea v
  | store stores => exact h.store stores
  | rebuild d => exact h.rebuild d
  | latchLocator => exact h.latchLocator
  | invalidateAll => exact h.invalidateAll
  | invalidateSet ea => exact h.invalidateSet ea
  | loadCaches snap wellFormed => exact h.loadCaches wellFormed

/-- Reset starts the caches and `FATAL` afresh and rebuilds the rest (R410). -/
theorem releaseReset : Inv s.releaseReset := by
  have cleared :
      Inv { s with resetRequested := false, fatal := false, abortReason := none, itlb := [], dtlb := [] } :=
    { h with itlb := tlbOk_nil, dtlb := tlbOk_nil, fatal := rfl }
  exact ((cleared.respond .g (responseOk_only .ok)).respond .h (responseOk_only .ok)).latchLocator.rebuildBoth

end Inv

/-! ### The reset state (R47, R410) -/

theorem configOk_rp0 : configOk Config.rp0 = true := by decide

/-- With every BAT register 0 no pair is configured, and RP0 has no fake run: the rebuild gives the empty table. -/
theorem updateBats_reset (d : Side) : updateBats Config.rp0 (State.reset.batPairs d) = [] := by
  cases d <;> rfl

theorem inv_reset : Inv State.reset where
  config := configOk_rp0
  memory := ⟨Sparse.WF.nil _, fun _ hx => (List.not_mem_nil hx).elim⟩
  ibatTable := ⟨_, (updateBats_reset .instruction).symm⟩
  dbatTable := ⟨_, (updateBats_reset .data).symm⟩
  itlb := tlbOk_nil
  dtlb := tlbOk_nil
  locator := ⟨rfl, rfl⟩
  gResponse := responseOk_only .ok
  hResponse := responseOk_only .ok
  fatal := rfl

theorem rebuild_reset (d : Side) : State.reset.rebuild d = State.reset := by
  have empty : State.reset.rebuild d = State.reset.withTable d [] :=
    congrArg (State.reset.withTable d) (updateBats_reset d)
  rw [empty]
  cases d <;> rfl

theorem releaseReset_reset : State.reset.releaseReset = State.reset := by
  have cleared : State.reset.releaseReset = State.reset.rebuildBoth := rfl
  rw [cleared, State.rebuildBoth, rebuild_reset, rebuild_reset]

end Sys2Proof.Machine

open Sys2Proof Sys2Proof.Machine

/-- Settles O60: a reset rebuilds every clause of the invariant, and each update a command is made of keeps it. -/
theorem invariantKeptByStep : Obligations.InvariantKeptByStep := by
  intro s t inv h
  rcases step_cases h with ⟨-, rfl⟩ | ⟨-, rfl | run⟩
  · exact inv.releaseReset
  · exact inv
  · exact run.keeps (P := Inv) (fun update inv => inv.update update) (inv.take _)

/-- Settles O59: the base case of the invariant, clause by clause. -/
theorem invariantAtReset : Obligations.InvariantAtReset := inv_reset

/-- Settles O10: the tables rebuilt from zero registers are empty, and with `MSR` zero no table is read. -/
theorem resetStateIsReset : Obligations.ResetStateIsReset := by
  refine ⟨releaseReset_reset, rfl, rfl, rfl, rfl, rfl, fun ea => ⟨rfl, rfl⟩, fun side k => ?_, fun m ea => ?_⟩
  · cases side <;> rfl
  · rcases State.reset.translate_cases m ea false with ⟨-, e⟩ | ⟨on, -⟩ | ⟨on, -⟩
    · exact e
    · cases m <;> cases on
    · cases m <;> cases on
end

section
/-! What one translation may change (`20_memory.md` R94, `40_translate.md` R184, R187, R191), read off the two moves of
`State.translate_moves`, and the step of a command that is accepted (`20_memory.md` R90, `60_exceptions.md` R389). -/

namespace Sys2Proof.Machine

/-! ### The move on the backing store (R184) -/

theorem State.pteBytes_of_findPte {s : State} {ea pte : Word} (h : s.findPte ea = some pte) :
    s.pteBytes ea = byteRun (pte + 4#32) 4 := by
  unfold State.pteBytes
  rw [h]

theorem MemMove.wf {s : State} {ea : Word} {m : Memory} (h : Memory.wf s.mem) (move : MemMove s ea m) :
    Memory.wf m := by
  cases move with
  | same => exact h
  | touch pte w1 found ram => exact Memory.writeBE_wf h _ _ _

/-- The walk stores to word 1 of the entry it finds and to no other byte. -/
theorem MemMove.byte_of_not_mem {s : State} {ea b : Word} {m : Memory} (h : Memory.wf s.mem) (move : MemMove s ea m)
    (outside : b ∉ s.pteBytes ea) : m.byte b = s.mem.byte b := by
  cases move with
  | same => rfl
  | touch pte w1 found ram =>
    rw [State.pteBytes_of_findPte found] at outside
    exact Memory.byte_writeBE_of_not_mem h _ outside

/-! ### The two moves together -/

theorem Mode.isStore_iff {m : Mode} : m.isStore = true ↔ m = .write := by
  cases m <;> decide

theorem State.withMem_tlbSet (s : State) (mem : Memory) (d : Side) (k : Nat) :
    (s.withMem mem).tlbSet d k = s.tlbSet d k := by
  rw [State.tlbSet, State.withMem_tlb, State.tlbSet]

/-- A move of the store and of one set writes no field but the backing store and the cache of that side. -/
theorem State.withMem_withTlbSet_eq (s : State) (mem : Memory) (d : Side) (k : Nat) (x : TlbSet) :
    (s.withMem mem).withTlbSet d k x =
      (s.withTlb d (((s.withMem mem).withTlbSet d k x).tlb d)).withMem ((s.withMem mem).withTlbSet d k x).mem := by
  cases d <;> rfl

/-! ### The step of an accepted command (R389) -/

theorem State.accept_of_decode {s : State} {i : Instr} (live : s.livePort = i.port) (noFatal : s.fatal = false)
    (pending : (s.req i.port).pending = true) (word : decode (s.req i.port).cmd = .ok i) : s.accept = .run i := by
  unfold State.accept
  rw [live, if_pos pending, noFatal, word]
  exact if_pos rfl

theorem step_of_accept_run {s : State} {i : Instr} (config : configOk s.cfg = true) (noReset : s.resetRequested = false)
    (run : s.accept = .run i) : step s = exec i (s.take i.port) := by
  unfold step
  rw [if_pos config, noReset, run]
  rfl

end Sys2Proof.Machine

open Sys2Proof Sys2Proof.Machine

/-- Settles O20: a translation leaves the state as it is, or moves the set of the address and word 1 of the entry the
walk finds; a failure moves the set only, and only under the store mode. -/
theorem translationFrame : Obligations.TranslationFrame := by
  intro s s' m ea v t memWf tlbWf h
  rcases State.translate_moves tlbWf h with rfl | ⟨-, mem, set, memMove, -, failed, rfl⟩
  · refine ⟨?_, memWf, tlbWf, fun _ _ => rfl, fun _ _ => rfl, fun _ => rfl, fun _ _ => rfl⟩
    rw [State.withTlb_self]
    rfl
  · have tlbWf' : Sparse.WF TlbSet.empty ((s.withMem mem).tlb m.side) := by rwa [State.withMem_tlb]
    refine ⟨s.withMem_withTlbSet_eq mem _ _ _, ?_, ?_, fun b outside => ?_, fun k other => ?_, fun failure => ?_,
      fun failure notWrite => ?_⟩
    · rw [State.withTlbSet_mem]
      exact memMove.wf memWf
    · rw [State.withTlbSet_tlb]
      exact Sparse.set_wf tlbWf' _ _
    · rw [State.withTlbSet_mem]
      exact memMove.byte_of_not_mem memWf outside
    · rw [State.tlbSet_withTlbSet_ne tlbWf' other, State.withMem_tlbSet]
    · rw [State.withTlbSet_mem]
      exact (failed failure).1
    · exact absurd (Mode.isStore_iff.1 (failed failure).2) notWrite

/-- Settles O5: acceptance finds the decoded command, and the step runs what acceptance finds. -/
theorem stepRunsPresentedCommand : Obligations.StepRunsPresentedCommand := by
  intro s i config noReset noFatal live pending word
  exact step_of_accept_run config noReset (State.accept_of_decode live noFatal pending word)
end

section
/-! The command word (`30_encoding.md` R120 to R123, R129, R130).  `commandWord` writes a word by its fields; one rule
per class of command says which words `decode` takes, and the round trips, the opcode map and the abort of an illegal
word are read off these rules. -/

namespace Sys2Proof

/-! ### A word and its fields (R120) -/

/-- The word with the given fields and its `zero` field zero (R120). -/
def commandWord (op : BitVec 6) (sz sp : BitVec 2) (imm : BitVec 16) : Word :=
  op ++ sz ++ sp ++ 0#6 ++ imm

section
variable (op : BitVec 6) (sz sp : BitVec 2) (imm : BitVec 16)

theorem toNat_commandWord : (commandWord op sz sp imm).toNat =
    op.toNat * 2 ^ 26 + sz.toNat * 2 ^ 24 + sp.toNat * 2 ^ 22 + imm.toNat := by
  unfold commandWord
  simp only [BitVec.toNat_append, ← Nat.shiftLeft_add_eq_or_of_lt, BitVec.isLt]
  simp only [Nat.shiftLeft_eq, BitVec.toNat_ofNat]
  omega

@[simp] theorem cmdOp_commandWord : cmdOp (commandWord op sz sp imm) = op := by
  rw [cmdOp, ← BitVec.toNat_inj, BitVec.extractLsb'_toNat, toNat_commandWord, Nat.shiftRight_eq_div_pow]
  omega

@[simp] theorem cmdSz_commandWord : cmdSz (commandWord op sz sp imm) = sz := by
  rw [cmdSz, ← BitVec.toNat_inj, BitVec.extractLsb'_toNat, toNat_commandWord, Nat.shiftRight_eq_div_pow]
  omega

@[simp] theorem cmdSp_commandWord : cmdSp (commandWord op sz sp imm) = sp := by
  rw [cmdSp, ← BitVec.toNat_inj, BitVec.extractLsb'_toNat, toNat_commandWord, Nat.shiftRight_eq_div_pow]
  omega

@[simp] theorem cmdZero_commandWord : cmdZero (commandWord op sz sp imm) = 0#6 := by
  rw [cmdZero, ← BitVec.toNat_inj, BitVec.extractLsb'_toNat, toNat_commandWord, Nat.shiftRight_eq_div_pow,
    BitVec.toNat_ofNat]
  omega

@[simp] theorem cmdImm_commandWord : cmdImm (commandWord op sz sp imm) = imm := by
  rw [cmdImm, ← BitVec.toNat_inj, BitVec.extractLsb'_toNat, toNat_commandWord, Nat.shiftRight_eq_div_pow]
  omega

end

/-- A word whose `zero` field is zero is the word of its other fields. -/
theorem commandWord_fields {w : Word} (zero : cmdZero w = 0#6) :
    commandWord (cmdOp w) (cmdSz w) (cmdSp w) (cmdImm w) = w := by
  rw [cmdZero, ← BitVec.toNat_inj, BitVec.extractLsb'_toNat, Nat.shiftRight_eq_div_pow, BitVec.toNat_ofNat] at zero
  rw [← BitVec.toNat_inj, toNat_commandWord]
  simp only [cmdOp, cmdSz, cmdSp, cmdImm, BitVec.extractLsb'_toNat, Nat.shiftRight_eq_div_pow]
  omega

theorem eq_commandWord_iff {w : Word} {op : BitVec 6} {sz sp : BitVec 2} {imm : BitVec 16} :
    w = commandWord op sz sp imm ↔
      cmdOp w = op ∧ cmdSz w = sz ∧ cmdSp w = sp ∧ cmdZero w = 0#6 ∧ cmdImm w = imm := by
  constructor
  · rintro rfl
    simp
  · rintro ⟨rfl, rfl, rfl, zero, rfl⟩
    exact (commandWord_fields zero).symm

/-- The count of R123 is the `imm` field. -/
@[simp] theorem withCount_commandWord (op : BitVec 6) (sz sp : BitVec 2) (n : BitVec 16) :
    withCount (commandWord op sz sp 0#16) n = commandWord op sz sp n := by
  have row : (commandWord op sz sp 0#16).toNat =
      (op.toNat * 2 ^ 10 + sz.toNat * 2 ^ 8 + sp.toNat * 2 ^ 6) <<< 16 := by
    rw [toNat_commandWord, BitVec.toNat_ofNat, Nat.shiftLeft_eq]
    omega
  rw [withCount, ← BitVec.toNat_inj, BitVec.toNat_or, row, BitVec.toNat_setWidth_of_le (by decide),
    ← Nat.shiftLeft_add_eq_or_of_lt n.isLt, toNat_commandWord, Nat.shiftLeft_eq]
  omega

/-- The code of R122 is the `sp` field. -/
@[simp] theorem withSpace_commandWord (op : BitVec 6) (sz : BitVec 2) (sp : Space) :
    withSpace (commandWord op sz 0#2 0#16) sp = commandWord op sz sp.code 0#16 := by
  have row : (commandWord op sz 0#2 0#16).toNat = (op.toNat * 2 ^ 2 + sz.toNat) <<< 24 := by
    rw [toNat_commandWord, BitVec.toNat_ofNat, BitVec.toNat_ofNat, Nat.shiftLeft_eq]
    omega
  have code : (sp.code.setWidth 32 <<< 22).toNat = sp.code.toNat * 2 ^ 22 := by cases sp <;> rfl
  have small : sp.code.toNat * 2 ^ 22 < 2 ^ 24 := by omega
  rw [withSpace, ← BitVec.toNat_inj, BitVec.toNat_or, row, code, ← Nat.shiftLeft_add_eq_or_of_lt small,
    toNat_commandWord, BitVec.toNat_ofNat, Nat.shiftLeft_eq]
  omega

@[simp] theorem Space.ofCode_code (sp : Space) : Space.ofCode sp.code = sp := by cases sp <;> rfl

@[simp] theorem Space.code_ofCode (c : BitVec 2) : (Space.ofCode c).code = c := by
  revert c
  decide

/-! ### Which words each class of command takes (R121 to R123, R130) -/

theorem checkedDecode_eq_ok {checks : List (Bool × DecodeError)} {i j : Instr} :
    checkedDecode checks i = .ok j ↔ (∀ c ∈ checks, c.1 = false) ∧ i = j := by
  unfold checkedDecode
  cases h : checks.find? (·.1) with
  | none => simpa using fun _ => List.find?_eq_none.1 h
  | some c =>
    have failed : ¬ ∀ c ∈ checks, c.1 = false := fun all => by
      simpa [all c (List.mem_of_find?_eq_some h)] using List.find?_some h
    exact iff_of_false (by simp) fun passed => failed passed.1

section
variable {w : Word} {j : Instr}

theorem decodePlain_eq_ok {i : Instr} :
    decodePlain w i = .ok j ↔ w = commandWord (cmdOp w) 0#2 0#2 0#16 ∧ i = j := by
  simp [decodePlain, checkedDecode_eq_ok, needsNoWidth, needsNoSpace, needsZeroField, needsNoCount,
    eq_commandWord_iff]

theorem decodeSized_eq_ok {i8 i16 i32 i64 : Instr} :
    decodeSized w i8 i16 i32 i64 = .ok j ↔
      w = commandWord (cmdOp w) (cmdSz w) 0#2 0#16 ∧ byWidth w i8 i16 i32 i64 = j := by
  simp [decodeSized, checkedDecode_eq_ok, needsNoSpace, needsZeroField, needsNoCount, eq_commandWord_iff]

theorem decodeCounted_eq_ok {f : BitVec 16 → Instr} :
    decodeCounted w f = .ok j ↔ w = commandWord (cmdOp w) 0#2 0#2 (cmdImm w) ∧ f (cmdImm w) = j := by
  simp [decodeCounted, checkedDecode_eq_ok, needsNoWidth, needsNoSpace, needsZeroField, eq_commandWord_iff]

theorem decodeSpacedSized_eq_ok {f8 f16 f32 f64 : Space → Instr} :
    decodeSpacedSized w f8 f16 f32 f64 = .ok j ↔
      w = commandWord (cmdOp w) (cmdSz w) (cmdSp w) 0#16 ∧
        byWidth w f8 f16 f32 f64 (Space.ofCode (cmdSp w)) = j := by
  simp [decodeSpacedSized, checkedDecode_eq_ok, needsZeroField, needsNoCount, eq_commandWord_iff]

theorem decodeSpaced_eq_ok {f : Space → Instr} :
    decodeSpaced w f = .ok j ↔
      w = commandWord (cmdOp w) 0#2 (cmdSp w) 0#16 ∧ f (Space.ofCode (cmdSp w)) = j := by
  simp [decodeSpaced, checkedDecode_eq_ok, needsNoWidth, needsZeroField, needsNoCount, eq_commandWord_iff]

theorem decodeSpacedCounted_eq_ok {f : Space → BitVec 16 → Instr} :
    decodeSpacedCounted w f = .ok j ↔
      w = commandWord (cmdOp w) 0#2 (cmdSp w) (cmdImm w) ∧ f (Space.ofCode (cmdSp w)) (cmdImm w) = j := by
  simp [decodeSpacedCounted, checkedDecode_eq_ok, needsNoWidth, needsZeroField, eq_commandWord_iff]

end

/-! ### From a legal word back to its encoding

`op` is the operation the branch of `decode` has found, and the hypotheses say that the words of the branch's commands
are the rows of R129 with that operation. -/

/-- What holds of the four widths with their codes holds of the width a word asks for (R121). -/
theorem byWidth_of {α : Type} {P : BitVec 2 → α → Prop} {x8 x16 x32 x64 : α} (w : Word) (h8 : P 0#2 x8)
    (h16 : P 1#2 x16) (h32 : P 2#2 x32) (h64 : P 3#2 x64) : P (cmdSz w) (byWidth w x8 x16 x32 x64) := by
  have codes : ∀ c : BitVec 2, c = 0#2 ∨ c = 1#2 ∨ c = 2#2 ∨ c = 3#2 := by decide
  unfold byWidth
  rcases codes (cmdSz w) with e | e | e | e <;> rw [e] <;> assumption

section
variable {w : Word} {j : Instr} {op : BitVec 6} (hop : cmdOp w = op)
include hop

theorem encode_of_decodePlain {i : Instr} (row : encode i = commandWord op 0#2 0#2 0#16)
    (h : decodePlain w i = .ok j) : encode j = w := by
  obtain ⟨word, rfl⟩ := decodePlain_eq_ok.1 h
  rw [row, ← hop, ← word]

theorem encode_of_decodeSized {i8 i16 i32 i64 : Instr} (row8 : encode i8 = commandWord op 0#2 0#2 0#16)
    (row16 : encode i16 = commandWord op 1#2 0#2 0#16) (row32 : encode i32 = commandWord op 2#2 0#2 0#16)
    (row64 : encode i64 = commandWord op 3#2 0#2 0#16) (h : decodeSized w i8 i16 i32 i64 = .ok j) :
    encode j = w := by
  obtain ⟨word, rfl⟩ := decodeSized_eq_ok.1 h
  rw [byWidth_of (P := fun sz i => encode i = commandWord op sz 0#2 0#16) w row8 row16 row32 row64, ← hop, ← word]

theorem encode_of_decodeCounted {f : BitVec 16 → Instr}
    (row : ∀ n, encode (f n) = withCount (commandWord op 0#2 0#2 0#16) n) (h : decodeCounted w f = .ok j) :
    encode j = w := by
  obtain ⟨word, rfl⟩ := decodeCounted_eq_ok.1 h
  rw [row, withCount_commandWord, ← hop, ← word]

theorem encode_of_decodeSpacedSized {f8 f16 f32 f64 : Space → Instr}
    (row8 : ∀ sp, encode (f8 sp) = withSpace (commandWord op 0#2 0#2 0#16) sp)
    (row16 : ∀ sp, encode (f16 sp) = withSpace (commandWord op 1#2 0#2 0#16) sp)
    (row32 : ∀ sp, encode (f32 sp) = withSpace (commandWord op 2#2 0#2 0#16) sp)
    (row64 : ∀ sp, encode (f64 sp) = withSpace (commandWord op 3#2 0#2 0#16) sp)
    (h : decodeSpacedSized w f8 f16 f32 f64 = .ok j) : encode j = w := by
  obtain ⟨word, rfl⟩ := decodeSpacedSized_eq_ok.1 h
  have row := byWidth_of
    (P := fun sz (f : Space → Instr) => ∀ sp, encode (f sp) = withSpace (commandWord op sz 0#2 0#16) sp)
    w row8 row16 row32 row64
  rw [row, withSpace_commandWord, Space.code_ofCode, ← hop, ← word]

theorem encode_of_decodeSpaced {f : Space → Instr}
    (row : ∀ sp, encode (f sp) = withSpace (commandWord op 0#2 0#2 0#16) sp) (h : decodeSpaced w f = .ok j) :
    encode j = w := by
  obtain ⟨word, rfl⟩ := decodeSpaced_eq_ok.1 h
  rw [row, withSpace_commandWord, Space.code_ofCode, ← hop, ← word]

theorem encode_of_decodeSpacedCounted {f : Space → BitVec 16 → Instr}
    (row : ∀ sp n, encode (f sp n) = withCount (withSpace (commandWord op 0#2 0#2 0#16) sp) n)
    (h : decodeSpacedCounted w f = .ok j) : encode j = w := by
  obtain ⟨word, rfl⟩ := decodeSpacedCounted_eq_ok.1 h
  rw [row, withSpace_commandWord, Space.code_ofCode, withCount_commandWord, ← hop, ← word]

end

/-- No bit of a legal word is dropped.  The cases are the decoder's branches in its own order, grouped by class: `h_1`
is operation 1, `h_31` the unassigned operations (R129). -/
theorem encode_of_decode {w : Word} {i : Instr} (h : decode w = .ok i) : encode i = w := by
  unfold decode at h
  split at h
  case h_1 hop | h_2 hop | h_18 hop | h_19 hop => exact encode_of_decodeSized hop rfl rfl rfl rfl h
  case h_10 hop | h_11 hop => exact encode_of_decodeCounted hop (fun _ => rfl) h
  case h_21 hop | h_22 hop | h_23 hop | h_24 hop =>
    exact encode_of_decodeSpacedSized hop (fun _ => rfl) (fun _ => rfl) (fun _ => rfl) (fun _ => rfl) h
  case h_25 hop | h_26 hop => exact encode_of_decodeSpaced hop (fun _ => rfl) h
  case h_27 hop | h_28 hop => exact encode_of_decodeSpacedCounted hop (fun _ _ => rfl) h
  case h_31 => cases h
  all_goals
    next hop => exact encode_of_decodePlain hop rfl h

/-! ### From a command to its word and back -/

section
variable (sp : Space) (n : BitVec 16)

theorem decode_dmaLcToMem : decode (withCount 0x38000000#32 n) = .ok (.dmaLcToMem n) := by
  rw [show 0x38000000#32 = commandWord 0x0E#6 0#2 0#2 0#16 from rfl, withCount_commandWord]
  simp [decode, decodeCounted_eq_ok]

theorem decode_dmaMemToLc : decode (withCount 0x3C000000#32 n) = .ok (.dmaMemToLc n) := by
  rw [show 0x3C000000#32 = commandWord 0x0F#6 0#2 0#2 0#16 from rfl, withCount_commandWord]
  simp [decode, decodeCounted_eq_ok]

theorem decode_hostGetString :
    decode (withCount (withSpace 0x98000000#32 sp) n) = .ok (.hostGetString sp n) := by
  rw [show 0x98000000#32 = commandWord 0x26#6 0#2 0#2 0#16 from rfl, withSpace_commandWord, withCount_commandWord]
  simp [decode, decodeSpacedCounted_eq_ok]

theorem decode_hostGetU16String :
    decode (withCount (withSpace 0x9C000000#32 sp) n) = .ok (.hostGetU16String sp n) := by
  rw [show 0x9C000000#32 = commandWord 0x27#6 0#2 0#2 0#16 from rfl, withSpace_commandWord, withCount_commandWord]
  simp [decode, decodeSpacedCounted_eq_ok]

end

/-- Decoding gives every command back.  A command without a count has at most four words, one per space, and the decoder
runs on each; a count is carried by the rules above. -/
theorem decode_encode (i : Instr) : decode (encode i) = .ok i := by
  cases i with
  | dmaLcToMem n => exact decode_dmaLcToMem n
  | dmaMemToLc n => exact decode_dmaMemToLc n
  | hostGetString sp n => exact decode_hostGetString sp n
  | hostGetU16String sp n => exact decode_hostGetU16String sp n
  | hostRead8 sp | hostRead16 sp | hostRead32 sp | hostRead64 sp
  | hostTryRead8 sp | hostTryRead16 sp | hostTryRead32 sp | hostTryRead64 sp
  | hostWrite8 sp | hostWrite16 sp | hostWrite32 sp | hostWrite64 sp
  | hostTryWrite8 sp | hostTryWrite16 sp | hostTryWrite32 sp | hostTryWrite64 sp
  | hostIsRam sp | hostIsIram sp => cases sp <;> rfl
  | _ => rfl

/-! ### The rows of the opcode map (R129) -/

/-- A word with its count masked off, and its count (R123). -/
theorem withCount_and (w mask : Word) : withCount (w &&& mask) (cmdImm w) = w &&& (mask ||| 0x0000FFFF#32) := by
  have low : ∀ i < 32, (0x0000FFFF#32).getLsbD i = decide (i < 16) := by decide
  have count : (cmdImm w).setWidth 32 = w &&& 0x0000FFFF#32 := by
    refine BitVec.eq_of_getLsbD_eq fun i hi => ?_
    rw [BitVec.getLsbD_and, low i hi]
    simp [cmdImm, hi, Bool.and_comm]
  rw [withCount, count, ← BitVec.and_or_distrib_left]

/-- A word with its space masked off, and its space (R122). -/
theorem withSpace_and (w mask : Word) :
    withSpace (w &&& mask) (Space.ofCode (cmdSp w)) = w &&& (mask ||| 0x00C00000#32) := by
  have field : ∀ i < 32, (0x00C00000#32).getLsbD i = (!decide (i < 22) && decide (i - 22 < 2)) := by decide
  have space : (cmdSp w).setWidth 32 <<< 22 = w &&& 0x00C00000#32 := by
    refine BitVec.eq_of_getLsbD_eq fun i hi => ?_
    rw [BitVec.getLsbD_and, field i hi]
    by_cases h : i < 22
    · simp [h]
    · simp [cmdSp, h, hi, show 22 + (i - 22) = i by omega, Bool.and_comm]
  rw [withSpace, Space.code_ofCode, space, ← BitVec.and_or_distrib_left]

section
variable {w m : Word}

theorem eq_of_selectsRow_full (h : selectsRow w (m, 0xFFFFFFFF#32) = true) : w = m := by
  have masked : w &&& 0xFFFFFFFF#32 = m := by simpa only [selectsRow, beq_iff_eq] using h
  rw [← masked]
  exact BitVec.and_allOnes.symm

theorem eq_withCount_of_selectsRow (h : selectsRow w (m, 0xFFFF0000#32) = true) : ∃ n, w = withCount m n := by
  have masked : w &&& 0xFFFF0000#32 = m := by simpa only [selectsRow, beq_iff_eq] using h
  refine ⟨cmdImm w, ?_⟩
  rw [← masked, withCount_and]
  exact BitVec.and_allOnes.symm

theorem eq_withSpace_of_selectsRow (h : selectsRow w (m, 0xFF3FFFFF#32) = true) : ∃ sp, w = withSpace m sp := by
  have masked : w &&& 0xFF3FFFFF#32 = m := by simpa only [selectsRow, beq_iff_eq] using h
  refine ⟨Space.ofCode (cmdSp w), ?_⟩
  rw [← masked, withSpace_and]
  exact BitVec.and_allOnes.symm

theorem eq_withCount_withSpace_of_selectsRow (h : selectsRow w (m, 0xFF3F0000#32) = true) :
    ∃ sp n, w = withCount (withSpace m sp) n := by
  have masked : w &&& 0xFF3F0000#32 = m := by simpa only [selectsRow, beq_iff_eq] using h
  refine ⟨Space.ofCode (cmdSp w), cmdImm w, ?_⟩
  rw [← masked, withSpace_and, withCount_and]
  exact BitVec.and_allOnes.symm

end

/-- A word on the row of a command is a command of the same row: the bits outside the mask are fields. -/
theorem decode_of_selectsRow_row {w : Word} {i : Instr} (h : selectsRow w (Laws.OwnRow.row i) = true) :
    ∃ j, decode w = .ok j ∧ Laws.OwnRow.row j = Laws.OwnRow.row i := by
  cases i with
  | dmaLcToMem _ =>
    obtain ⟨n, rfl⟩ := eq_withCount_of_selectsRow h
    exact ⟨_, decode_dmaLcToMem n, rfl⟩
  | dmaMemToLc _ =>
    obtain ⟨n, rfl⟩ := eq_withCount_of_selectsRow h
    exact ⟨_, decode_dmaMemToLc n, rfl⟩
  | hostGetString _ _ =>
    obtain ⟨sp, n, rfl⟩ := eq_withCount_withSpace_of_selectsRow h
    exact ⟨_, decode_hostGetString sp n, rfl⟩
  | hostGetU16String _ _ =>
    obtain ⟨sp, n, rfl⟩ := eq_withCount_withSpace_of_selectsRow h
    exact ⟨_, decode_hostGetU16String sp n, rfl⟩
  | hostRead8 _ | hostRead16 _ | hostRead32 _ | hostRead64 _
  | hostTryRead8 _ | hostTryRead16 _ | hostTryRead32 _ | hostTryRead64 _
  | hostWrite8 _ | hostWrite16 _ | hostWrite32 _ | hostWrite64 _
  | hostTryWrite8 _ | hostTryWrite16 _ | hostTryWrite32 _ | hostTryWrite64 _
  | hostIsRam _ | hostIsIram _ =>
    obtain ⟨sp, rfl⟩ := eq_withSpace_of_selectsRow h
    cases sp <;> exact ⟨_, rfl, rfl⟩
  | _ =>
    obtain rfl := eq_of_selectsRow_full h
    exact ⟨_, rfl, rfl⟩

/-- The `match` column holds a command of each row. -/
theorem decode_match_row :
    opcodeMap.map (fun row => (decode row.1).map Laws.OwnRow.row) = opcodeMap.map .ok := rfl

theorem decode_of_selectsRow {w : Word} {row : Word × Word} (mem : row ∈ opcodeMap)
    (selects : selectsRow w row = true) : ∃ i, decode w = .ok i ∧ Laws.OwnRow.row i = row := by
  have ownRow : (decode row.1).map Laws.OwnRow.row = .ok row := List.map_inj_left.1 decode_match_row row mem
  cases command : decode row.1 with
  | error why =>
    rw [command] at ownRow
    cases ownRow
  | ok i =>
    rw [command] at ownRow
    cases ownRow
    exact decode_of_selectsRow_row selects

namespace Laws.OwnRow

/-- The family `OwnRow` as one statement. -/
theorem statement : ∀ i : Instr, Statement i
  | .read8 => read8 | .read16 => read16 | .read32 => read32 | .read64 => read64
  | .write8 => write8 | .write16 => write16 | .write32 => write32 | .write64 => write64
  | .readOpcode => readOpcode | .tryReadInst => tryReadInst
  | .dclClear => dclClear | .dclStore => dclStore | .dclInvalidate => dclInvalidate
  | .dclFlush => dclFlush | .dclTouch => dclTouch
  | .dmaLcToMem n => dmaLcToMem n | .dmaMemToLc n => dmaMemToLc n
  | .sdrUpdated => sdrUpdated | .dbatUpdated => dbatUpdated | .ibatUpdated => ibatUpdated
  | .tlbInvalidateEntry => tlbInvalidateEntry
  | .jitTranslate => jitTranslate | .getTranslated => getTranslated
  | .optRam8 => optRam8 | .optRam16 => optRam16 | .optRam32 => optRam32 | .optRam64 => optRam64
  | .optMmio8 => optMmio8 | .optMmio16 => optMmio16 | .optMmio32 => optMmio32 | .optMmio64 => optMmio64
  | .optGather => optGather
  | .hostRead8 sp => hostRead8 sp | .hostRead16 sp => hostRead16 sp
  | .hostRead32 sp => hostRead32 sp | .hostRead64 sp => hostRead64 sp
  | .hostTryRead8 sp => hostTryRead8 sp | .hostTryRead16 sp => hostTryRead16 sp
  | .hostTryRead32 sp => hostTryRead32 sp | .hostTryRead64 sp => hostTryRead64 sp
  | .hostWrite8 sp => hostWrite8 sp | .hostWrite16 sp => hostWrite16 sp
  | .hostWrite32 sp => hostWrite32 sp | .hostWrite64 sp => hostWrite64 sp
  | .hostTryWrite8 sp => hostTryWrite8 sp | .hostTryWrite16 sp => hostTryWrite16 sp
  | .hostTryWrite32 sp => hostTryWrite32 sp | .hostTryWrite64 sp => hostTryWrite64 sp
  | .hostIsRam sp => hostIsRam sp | .hostIsIram sp => hostIsIram sp
  | .hostGetString sp n => hostGetString sp n | .hostGetU16String sp n => hostGetU16String sp n
  | .stateSave => stateSave | .stateRestore => stateRestore

end Laws.OwnRow

theorem decode_ok_iff_selectsRow {w : Word} :
    (∃ i, decode w = .ok i) ↔ ∃ row ∈ opcodeMap, selectsRow w row = true := by
  constructor
  · rintro ⟨i, h⟩
    obtain ⟨mem, selects⟩ := Laws.OwnRow.statement i
    exact ⟨_, mem, encode_of_decode h ▸ selects⟩
  · rintro ⟨row, mem, selects⟩
    obtain ⟨i, h, -⟩ := decode_of_selectsRow mem selects
    exact ⟨i, h⟩

theorem decode_error_iff_selectsRow {w : Word} :
    (∃ why, decode w = .error why) ↔ ∀ row ∈ opcodeMap, selectsRow w row = false := by
  have legal := decode_ok_iff_selectsRow (w := w)
  cases command : decode w with
  | error why => simpa [command] using legal
  | ok i => simpa [command] using legal

end Sys2Proof

/-! ### The step of an illegal word (R130, R384) -/

namespace Sys2Proof.Machine

theorem State.accept_of_decode_error {s : State} {why : DecodeError} (noFatal : s.fatal = false)
    (pending : (s.req s.livePort).pending = true) (word : decode (s.req s.livePort).cmd = .error why) :
    s.accept = .violation s.livePort .illegalCommand := by
  unfold State.accept
  rw [if_pos pending, noFatal, word]
  rfl

theorem step_of_accept_violation {s : State} {p : Port} {reason : AbortReason} (config : configOk s.cfg = true)
    (noReset : s.resetRequested = false) (violation : s.accept = .violation p reason) :
    step s = .next ((s.take p).abort p reason) := by
  unfold step
  rw [if_pos config, noReset, violation]
  rfl

end Sys2Proof.Machine

open Sys2Proof Sys2Proof.Machine

/-- Settles O1: by command; the few words of a command without a count are decoded one by one, a count by its fields. -/
theorem decodeOfEncode : Obligations.DecodeOfEncode := decode_encode

/-- Settles O2: by operation, as the decoder branches; what each class checks leaves only the fields it reads. -/
theorem encodeOfDecode : Obligations.EncodeOfDecode := fun _ _ => encode_of_decode

/-- Settles O3: a word on a row decodes to a command of that row, so the command fixes the row. -/
theorem decodesExactlyTheRows : Obligations.DecodesExactlyTheRows := by
  refine ⟨fun w => decode_ok_iff_selectsRow, fun w row mem other otherMem selects otherSelects => ?_⟩
  obtain ⟨i, command, rfl⟩ := decode_of_selectsRow mem selects
  obtain ⟨j, sameCommand, rfl⟩ := decode_of_selectsRow otherMem otherSelects
  rw [command] at sameCommand
  cases sameCommand
  rfl

/-- Settles O6: a word on no row is refused by the decoder, and acceptance turns the refusal into an abort. -/
theorem illegalWordAborts : Obligations.IllegalWordAborts := by
  refine ⟨?_, decode_error_iff_selectsRow.1 ⟨.unknownOp, rfl⟩, decode_error_iff_selectsRow.1 ⟨.unknownOp, rfl⟩⟩
  rintro s p config noReset noFatal rfl pending illegal
  obtain ⟨why, word⟩ := decode_error_iff_selectsRow.2 illegal
  exact ⟨_, step_of_accept_violation config noReset (State.accept_of_decode_error noFatal pending word)⟩

/-- Settles O4: the legal words are encodings, and the decoder runs on the illegal ones. -/
theorem sampleWordsDecode : Obligations.SampleWordsDecode :=
  ⟨decode_encode .read32, decode_encode .write32, decode_encode (.dmaLcToMem 2#16),
    decode_encode (.dmaMemToLc 0xFFFF#16), decode_encode (.hostRead32 .physical),
    decode_encode (.hostTryRead8 .virtual), decode_encode (.hostTryWrite32 .reserved),
    decode_encode (.hostGetString .physical 256#16), decode_encode (.hostGetU16String .virtual 16#16),
    decode_encode .tlbInvalidateEntry, decode_encode .dclTouch, decode_encode .optRam64,
    decode_encode .stateRestore, rfl, rfl, rfl, rfl, rfl⟩
end

section
/-! One translation, path by path (`40_translate.md` R171 to R188): an equation for each branch of the walk, of the page
path and of the whole function; the modes that change nothing (R187), and the page offset (R138). -/

namespace Sys2Proof.Machine

/-! ### The permission table (R183) -/

section
variable {c : Config} {key : Bool} {pp : BitVec 2} {store : Bool}

theorem permOk_of_notEnforced (off : c.pageProtEnforce = false) : permOk c key pp store = true := by
  unfold permOk
  rw [off]
  rfl

theorem permOk_of_readWrite (cell : pagePermission key pp = .readWrite) : permOk c key pp store = true := by
  unfold permOk
  rw [cell]
  exact Bool.or_true _

theorem permOk_of_readOnly (enforce : c.pageProtEnforce = true) (cell : pagePermission key pp = .readOnly) :
    permOk c key pp store = !store := by
  unfold permOk
  rw [enforce, cell]
  rfl

theorem permOk_of_noAccess (enforce : c.pageProtEnforce = true) (cell : pagePermission key pp = .noAccess) :
    permOk c key pp store = false := by
  unfold permOk
  rw [enforce, cell]
  rfl

end

/-! ### The walk (R182 to R184) -/

section
variable {s : State} {m : Mode} {ea pte : Word}

theorem State.walk_of_miss (missing : s.findPte ea = none) : s.walk m ea = (.pageFault .pageMiss, s) := by
  unfold State.walk
  rw [missing]

theorem State.walk_of_denied (found : s.findPte ea = some pte)
    (denied : permOk s.cfg (s.protectionKey (s.segment ea)) (ptePp (s.ramRead32 (pte + 4#32))) m.isStore = false) :
    s.walk m ea = (.pageFault .protection, s) := by
  unfold State.walk
  simp only [found, denied, Bool.false_eq_true, if_false]

theorem State.walk_of_granted_pure (found : s.findPte ea = some pte)
    (granted : permOk s.cfg (s.protectionKey (s.segment ea)) (ptePp (s.ramRead32 (pte + 4#32))) m.isStore = true)
    (pure : m.mutates = false) : s.walk m ea = (pageResult (s.ramRead32 (pte + 4#32)) ea, s) := by
  unfold State.walk
  simp only [found, granted, pure, Bool.false_eq_true, if_false, if_true]

/-- A permitted walk hit under a mutating mode: R and C in word 1, then the fill (R184, R185). -/
theorem State.walk_of_granted (found : s.findPte ea = some pte)
    (granted : permOk s.cfg (s.protectionKey (s.segment ea)) (ptePp (s.ramRead32 (pte + 4#32))) m.isStore = true)
    (mutates : m.mutates = true) :
    s.walk m ea = (pageResult (s.ramRead32 (pte + 4#32)) ea,
      (s.touchPte pte m.isStore).withTlbSet m.side (setIndex s.cfg ea)
        ((s.tlbSet m.side (setIndex s.cfg ea)).fill (eaPage ea)
          (pteTouched (s.ramRead32 (pte + 4#32)) m.isStore))) := by
  rcases State.walk_cases (Prod.mk.eta (p := s.walk m ea)).symm with
    ⟨missing, -⟩ | ⟨pte', found', ⟨denied, -⟩ | ⟨-, result, ⟨pure, -⟩ | ⟨-, after⟩⟩⟩
  · rw [found] at missing; cases missing
  all_goals rw [found] at found'; cases found'
  · rw [granted] at denied; cases denied
  · rw [mutates] at pure; cases pure
  · exact Prod.ext result after

/-! ### The page path before the walk (R175 to R179) -/

theorem State.translatePage_of_directStore (direct : srT (s.segment ea) = true) :
    s.translatePage m ea = (.directStoreSegment, s) := by
  unfold State.translatePage
  simp only [direct, if_true]

theorem State.translatePage_of_noExecute (notDirect : srT (s.segment ea) = false) (side : m.side = .instruction)
    (noExecute : srN (s.segment ea) = true) : s.translatePage m ea = (.pageFault .noExecute, s) := by
  unfold State.translatePage
  simp only [notDirect, side, noExecute, Bool.false_eq_true, if_false, decide_true, Bool.and_self, if_true]

/-- A store is a data access, so only a direct-store segment can stop it before the lookup (R170, R176). -/
theorem State.pageOpen_of_store (notDirect : srT (s.segment ea) = false) (store : m.isStore = true) :
    s.pageOpen m ea := by
  cases Mode.isStore_iff.1 store
  exact ⟨notDirect, fun fetch => by cases fetch.1⟩

section
variable (openPath : s.pageOpen m ea)
include openPath

theorem State.translatePage_of_noWay (noWay : (s.tlbSet m.side (setIndex s.cfg ea)).lookup (eaPage ea) = none) :
    s.translatePage m ea = s.walk m ea := by
  obtain ⟨notDirect, executable⟩ := openPath
  unfold State.translatePage
  simp [notDirect, executable, noWay]

variable {w : Bool} (hit : (s.tlbSet m.side (setIndex s.cfg ea)).lookup (eaPage ea) = some w)
include hit

theorem State.translatePage_of_denied
    (denied : permOk s.cfg (s.protectionKey (s.segment ea))
      (ptePp ((s.tlbSet m.side (setIndex s.cfg ea)).way w).pte1) m.isStore = false) :
    s.translatePage m ea = (.pageFault .protection, s) := by
  obtain ⟨notDirect, executable⟩ := openPath
  unfold State.translatePage
  simp [notDirect, executable, hit, denied]

/-- A store to a way whose cached C is 0 drops the way and walks (R179). -/
theorem State.translatePage_of_clean (store : m.isStore = true)
    (granted : permOk s.cfg (s.protectionKey (s.segment ea))
      (ptePp ((s.tlbSet m.side (setIndex s.cfg ea)).way w).pte1) true = true)
    (clean : pteC ((s.tlbSet m.side (setIndex s.cfg ea)).way w).pte1 = false) :
    s.translatePage m ea = (s.withTlbSet m.side (setIndex s.cfg ea)
      ((s.tlbSet m.side (setIndex s.cfg ea)).dropWay w)).walk m ea := by
  obtain ⟨notDirect, executable⟩ := openPath
  unfold State.translatePage
  simp [notDirect, executable, hit, granted, store, clean]

theorem State.translatePage_of_granted
    (granted : permOk s.cfg (s.protectionKey (s.segment ea))
      (ptePp ((s.tlbSet m.side (setIndex s.cfg ea)).way w).pte1) m.isStore = true)
    (marked : m.isStore = true → pteC ((s.tlbSet m.side (setIndex s.cfg ea)).way w).pte1 = true) :
    s.translatePage m ea = (pageResult ((s.tlbSet m.side (setIndex s.cfg ea)).way w).pte1 ea,
      if m.mutates then s.withTlbSet m.side (setIndex s.cfg ea)
        { s.tlbSet m.side (setIndex s.cfg ea) with recent := w } else s) := by
  obtain ⟨notDirect, executable⟩ := openPath
  have answers : (m.isStore && !pteC ((s.tlbSet m.side (setIndex s.cfg ea)).way w).pte1) = false := by
    simpa using marked
  unfold State.translatePage
  simp [notDirect, executable, hit, granted, answers]

end

/-! ### The whole function (R172 to R174) -/

theorem State.translate_of_off (off : s.translationOn m.side = false) (v : Bool) :
    s.translate m ea v = (if v then .failVirtualOnly else .untranslated ea, s) := by
  unfold State.translate
  rw [off]
  cases v <;> rfl

theorem State.translate_of_mapped (on : s.translationOn m.side = true)
    (mapped : descMapped (s.descriptor m.side ea) = true) (v : Bool) :
    s.translate m ea v = (.batTranslated (batAddress s.cfg.s (s.descriptor m.side ea) ea)
      (descWi (s.descriptor m.side ea)), s) := by
  unfold State.translate
  simp only [on, mapped, if_true]

theorem State.translate_of_unmapped (on : s.translationOn m.side = true)
    (unmapped : descMapped (s.descriptor m.side ea) = false) (v : Bool) :
    s.translate m ea v = s.translatePage m ea := by
  unfold State.translate
  simp only [on, unmapped, if_true, Bool.false_eq_true, if_false]

end

/-! ### The non-mutating modes (R187) -/

section
variable {m pureMode : Mode} (store : m.isStore = false) (pureStore : pureMode.isStore = false)
  (pure : pureMode.mutates = false) (s : State) (ea : Word)
include store pureStore pure

/-- A walk that mutates answers as the same walk that does not: R and C do not show in the result. -/
theorem State.walk_pure : s.walk pureMode ea = ((s.walk m ea).1, s) := by
  have sameStore : m.isStore = pureMode.isStore := store.trans pureStore.symm
  rcases State.walk_cases (Prod.mk.eta (p := s.walk m ea)).symm with
    ⟨missing, result, -⟩ | ⟨pte, found, ⟨denied, result, -⟩ | ⟨granted, result, -⟩⟩
  · rw [State.walk_of_miss missing, result]
  · rw [sameStore] at denied
    rw [State.walk_of_denied found denied, result]
  · rw [sameStore] at granted
    rw [State.walk_of_granted_pure found granted pure, result]

variable (side : pureMode.side = m.side)
include side

theorem State.translatePage_pure : s.translatePage pureMode ea = ((s.translatePage m ea).1, s) := by
  have sameStore : m.isStore = pureMode.isStore := store.trans pureStore.symm
  have openPure (openPath : s.pageOpen m ea) : s.pageOpen pureMode ea := by
    unfold State.pageOpen
    rwa [side]
  rcases s.translatePage_cases m ea with
    ⟨direct, e⟩ | ⟨notDirect, fetch, noExecute, e⟩ | ⟨openPath, noWay, e⟩ | ⟨openPath, w, hit, path⟩
  · rw [e, State.translatePage_of_directStore direct]
  · rw [e, State.translatePage_of_noExecute notDirect (side.trans fetch) noExecute]
  · rw [← side] at noWay
    rw [e, State.translatePage_of_noWay (openPure openPath) noWay]
    exact s.walk_pure store pureStore pure ea
  · rw [← side, sameStore] at path
    rw [← side] at hit
    rcases path with ⟨denied, e⟩ | ⟨-, isStore, -⟩ | ⟨granted, -, e⟩
    · rw [e, State.translatePage_of_denied (openPure openPath) hit denied]
    · rw [pureStore] at isStore; cases isStore
    · rw [e, State.translatePage_of_granted (openPure openPath) hit granted (by simp [pureStore]), pure]
      rfl

theorem State.translate_pure (v : Bool) : s.translate pureMode ea v = ((s.translate m ea v).1, s) := by
  rcases s.translate_cases m ea v with ⟨off, e⟩ | ⟨on, mapped, e⟩ | ⟨on, unmapped, e⟩
  · rw [← side] at off
    rw [e, State.translate_of_off off]
  · rw [← side] at on mapped e
    rw [e, State.translate_of_mapped on mapped]
  · rw [← side] at on unmapped
    rw [e, State.translate_of_unmapped on unmapped]
    exact s.translatePage_pure store pureStore pure ea side

end

/-! ### The page offset (R138, R173, R186) -/

/-- Below `S` the address comes from `ea`, and `S` is at least 12. -/
theorem extractLsb'_batAddress {k : Nat} (hk : 12 ≤ k) (d ea : Word) :
    (batAddress k d ea).extractLsb' 0 12 = ea.extractLsb' 0 12 := by
  refine BitVec.eq_of_getLsbD_eq fun i hi => ?_
  have inWord : i < 32 := by omega
  have below : i < k := by omega
  have mask := getLsbD_batOffsetMask k inWord
  rw [decide_eq_true below] at mask
  rw [BitVec.getLsbD_extractLsb', BitVec.getLsbD_extractLsb', Nat.zero_add, batAddress, batResultMask, BitVec.getLsbD_or,
    BitVec.getLsbD_and, BitVec.getLsbD_and, BitVec.getLsbD_not, mask]
  simp

theorem pageOffset_of_pageResult {w1 ea pa : Word} (success : (pageResult w1 ea).address = some pa) :
    pa.extractLsb' 0 12 = ea.extractLsb' 0 12 := by
  cases success
  exact BitVec.extractLsb'_append_eq_right

/-- The page path answers from a word 1 or has no address (R186, R188). -/
theorem State.translatePage_result (s : State) (m : Mode) (ea : Word) :
    (∃ w1, (s.translatePage m ea).1 = pageResult w1 ea) ∨ (s.translatePage m ea).1.address = none := by
  have walk (s : State) :
      (∃ w1, (s.walk m ea).1 = pageResult w1 ea) ∨ (s.walk m ea).1.address = none := by
    rcases State.walk_result (Prod.mk.eta (p := s.walk m ea)).symm with miss | denied | granted
    · exact .inr (by rw [miss]; rfl)
    · exact .inr (by rw [denied]; rfl)
    · exact .inl granted
  rcases s.translatePage_cases m ea with
    ⟨-, e⟩ | ⟨-, -, -, e⟩ | ⟨-, -, e⟩ | ⟨-, w, -, ⟨-, e⟩ | ⟨-, -, -, e⟩ | ⟨-, -, e⟩⟩ <;> rw [e]
  · exact .inr rfl
  · exact .inr rfl
  · exact walk _
  · exact .inr rfl
  · exact walk _
  · exact .inl ⟨_, rfl⟩

end Sys2Proof.Machine

open Sys2Proof Sys2Proof.Machine

/-- Settles O21: an instance of the relation `Alike`, which the proof of O22 carries through every translation; the
`PHYSICAL` flag is part of what a rebuilt table answers without showing `S`. -/
theorem translationIndependentOfShift : Obligations.TranslationIndependentOfShift := by
  intro s t h m ea v
  obtain ⟨result, s', t', es, et, h'⟩ := h.translate m ea v
  rw [es, et]
  exact ⟨rfl, h.descPhysical_eq m.side ea, h'⟩

/-- Settles O14: the table cell by cell; the three denied accesses are one equation of the page path or of the walk
each. -/
theorem pagePermission : Obligations.PagePermission := by
  refine ⟨fun m => Mode.isStore_iff, fun c store enforce => ?_,
    fun c key pp store off => permOk_of_notEnforced off, ?_, ?_, ?_⟩
  · exact ⟨permOk_of_readWrite rfl, permOk_of_readWrite rfl, permOk_of_readWrite rfl, permOk_of_readOnly enforce rfl,
      permOk_of_noAccess enforce rfl, permOk_of_readOnly enforce rfl, permOk_of_readWrite rfl,
      permOk_of_readOnly enforce rfl⟩
  · intro s m ea v w on unmapped notDirect executable hit denied
    rw [State.translate_of_unmapped on unmapped]
    exact State.translatePage_of_denied ⟨notDirect, executable⟩ hit denied
  · intro s m ea v pte on unmapped notDirect executable noWay found denied
    rw [State.translate_of_unmapped on unmapped, State.translatePage_of_noWay ⟨notDirect, executable⟩ noWay]
    exact State.walk_of_denied found denied
  · intro s m ea v w pte on unmapped notDirect store hit granted clean found denied
    rw [State.translate_of_unmapped on unmapped,
      State.translatePage_of_clean (State.pageOpen_of_store notDirect store) hit store granted clean]
    exact State.walk_of_denied (by simpa using found) (by simpa [State.protectionKey, store] using denied)

/-- Settles O15: the branch of the page path that answers from the cached word. -/
theorem cacheHitAnswers : Obligations.CacheHitAnswers := by
  intro s m ea v w on unmapped notDirect executable hit granted marked
  rw [State.translate_of_unmapped on unmapped]
  exact State.translatePage_of_granted ⟨notDirect, executable⟩ hit granted marked

/-- Settles O18: each non-mutating mode shares its side with a mutating load mode. -/
theorem nonMutatingModesArePure : Obligations.NonMutatingModesArePure := fun s ea v =>
  ⟨s.translate_pure (m := .read) (pureMode := .noException) rfl rfl rfl ea rfl v,
    s.translate_pure (m := .opcode) (pureMode := .opcodeNoException) rfl rfl rfl ea rfl v⟩

/-- Settles O19: each kind of success takes its low bits from the effective address. -/
theorem pageOffsetPreserved : Obligations.PageOffsetPreserved := by
  intro s m ea pa v config success
  rcases s.translate_cases m ea v with ⟨-, e⟩ | ⟨-, -, e⟩ | ⟨-, -, e⟩
  · rw [e] at success
    cases v <;> cases success
    rfl
  · rw [e] at success
    cases success
    exact extractLsb'_batAddress (configOk_shift config).1 _ _
  · rw [e] at success
    rcases s.translatePage_result m ea with ⟨w1, result⟩ | failure
    · rw [result] at success
      exact pageOffset_of_pageResult success
    · rw [failure] at success
      cases success

/-- Settles O11: the branch of a clear enable bit, with and without virtual-only. -/
theorem translationOffIsDirect : Obligations.TranslationOffIsDirect := fun _ _ _ off =>
  ⟨State.translate_of_off off false, State.translate_of_off off true, rfl, rfl⟩

/-- Settles O12: the branch of a mapped descriptor names only the configuration and the descriptor, and the descriptor
is read from the table of the side alone. -/
theorem mappedEntryDecides : Obligations.MappedEntryDecides := by
  intro s m ea v on mapped
  rw [State.translate_of_mapped on mapped]
  refine ⟨rfl, fun s' m' v' side cfg on' table => ?_⟩
  have descriptor : s'.descriptor m.side ea = s.descriptor m.side ea := by
    rw [State.descriptor, table, cfg, State.descriptor]
  have mapped' : descMapped (s'.descriptor m'.side ea) = true := by
    rw [side, descriptor]
    exact mapped
  rw [State.translate_of_mapped (by rwa [side]) mapped', side, descriptor, cfg]

/-- Settles O13: the segment decides first, then a walk that misses, from the state as it was or with the clean way
dropped. -/
theorem pagePathFailures : Obligations.PagePathFailures := by
  intro s m ea v on unmapped
  rw [State.translate_of_unmapped on unmapped]
  refine ⟨State.translatePage_of_directStore, State.translatePage_of_noExecute,
    fun notDirect executable noWay missing => ?_, fun notDirect w hit store granted clean missing => ?_⟩
  · rw [State.translatePage_of_noWay ⟨notDirect, executable⟩ noWay]
    exact State.walk_of_miss missing
  · rw [State.translatePage_of_clean (State.pageOpen_of_store notDirect store) hit store granted clean]
    exact State.walk_of_miss (by simpa using missing)
end

section
/-! The search of the page table (`40_translate.md` R180 to R182): its sixteen entries in order, and a walk hit with what
it leaves in word 1 and in the set (R184 to R186). -/

namespace Sys2Proof.Machine

/-! ### The hash and the wanted word (R180, R182) -/

/-- The hash reads the low 19 bits of the VSID, which are those of the segment register. -/
theorem pageHash_srVsid (sr : Word) (pi : BitVec 16) (h : Bool) :
    pageHash (srVsid sr) pi h =
      if h then ~~~(sr.extractLsb' 0 19 ^^^ pi.setWidth 19) else sr.extractLsb' 0 19 ^^^ pi.setWidth 19 := by
  have low : (srVsid sr).extractLsb' 0 19 = sr.extractLsb' 0 19 := by
    refine BitVec.eq_of_getLsbD_eq fun i hi => ?_
    have inVsid : i < 24 := by omega
    simp only [srVsid, BitVec.getLsbD_extractLsb', Nat.zero_add, hi, inVsid, decide_true, Bool.true_and]
  unfold pageHash
  rw [low]

/-- The fields of the wanted word do not overlap, so joining them is or-ing them in place. -/
theorem pteWant_eq_or (vsid : BitVec 24) (h : Bool) (api : BitVec 6) :
    pteWant vsid h api =
      0x80000000#32 ||| (vsid.setWidth 32 <<< 7) ||| (if h then 0x40#32 else 0#32) ||| api.setWidth 32 := by
  have valid : ∀ i < 32, (0x80000000#32).getLsbD i = decide (i = 31) := by decide
  have secondary : ∀ i < 32, (0x40#32).getLsbD i = decide (i = 6) := by decide
  refine BitVec.eq_of_getLsbD_eq fun i hi => ?_
  have hashBit : (if h then 0x40#32 else 0#32).getLsbD i = (h && decide (i = 6)) := by
    cases h
    · exact BitVec.getLsbD_zero
    · exact secondary i hi
  unfold pteWant
  simp only [BitVec.getLsbD_or, BitVec.getLsbD_append, BitVec.getLsbD_shiftLeft, BitVec.getLsbD_setWidth,
    BitVec.getLsbD_ofBool, valid i hi, hashBit, hi, decide_true, Bool.true_and]
  have fields : i < 6 ∨ i = 6 ∨ (7 ≤ i ∧ i < 31) ∨ i = 31 := by omega
  rcases fields with inApi | rfl | ⟨aboveHash, belowValid⟩ | rfl
  · simp [inApi, show i < 7 by omega, show i ≠ 31 by omega, show i ≠ 6 by omega]
  · simp
  · simp [show ¬ i < 6 by omega, show ¬ i - 6 < 1 by omega, show i - 7 < 24 by omega, show ¬ i < 7 by omega,
      show i ≠ 31 by omega, show i ≠ 6 by omega, show i - 7 < 32 by omega, BitVec.getLsbD_of_ge api i (by omega),
      Nat.sub_sub]
  · simp

/-! ### One group (R182) -/

/-- The search of a group answers the first of its eight entries that matches. -/
theorem State.searchGroup_eq_some {s : State} {pteg want pte : Word} :
    s.searchGroup pteg want = some pte ↔
      ∃ i < 8, pte = pteg + BitVec.ofNat 32 (8 * i) ∧ s.ramRead32 (pteg + BitVec.ofNat 32 (8 * i)) = want ∧
        ∀ j < i, s.ramRead32 (pteg + BitVec.ofNat 32 (8 * j)) ≠ want := by
  unfold State.searchGroup ptegEntries
  rw [List.find?_map, Option.map_eq_some_iff]
  simp only [List.find?_range_eq_some, List.mem_range, Function.comp_apply, beq_iff_eq, Bool.not_eq_true',
    beq_eq_false_iff_ne]
  constructor
  · rintro ⟨i, ⟨matching, inGroup, first⟩, rfl⟩
    exact ⟨i, inGroup, rfl, matching, first⟩
  · rintro ⟨i, inGroup, rfl, matching, first⟩
    exact ⟨i, ⟨matching, inGroup, first⟩, rfl⟩

theorem State.searchGroup_eq_none {s : State} {pteg want : Word} :
    s.searchGroup pteg want = none ↔ ∀ i < 8, s.ramRead32 (pteg + BitVec.ofNat 32 (8 * i)) ≠ want := by
  simp [State.searchGroup, ptegEntries]

/-! ### Both groups (R181, R182) -/

/-- Entry `i` of group `h` of an address: `false` is the primary group. -/
def State.pteEntry (s : State) (ea : Word) (h : Bool) (i : Nat) : Word :=
  ptegAddress s (pageHash (srVsid (s.segment ea)) (eaPageIndex ea) h) + BitVec.ofNat 32 (8 * i)

/-- Word 0 of entry `i` of group `h` is the one looked for in that group. -/
def State.pteMatches (s : State) (ea : Word) (h : Bool) (i : Nat) : Prop :=
  s.ramRead32 (s.pteEntry ea h i) = pteWant (srVsid (s.segment ea)) h (eaApi ea)

/-- The search of one group of an address. -/
def State.findInGroup (s : State) (ea : Word) (h : Bool) : Option Word :=
  s.searchGroup (ptegAddress s (pageHash (srVsid (s.segment ea)) (eaPageIndex ea) h))
    (pteWant (srVsid (s.segment ea)) h (eaApi ea))

theorem State.findInGroup_eq_some {s : State} {ea pte : Word} {h : Bool} :
    s.findInGroup ea h = some pte ↔
      ∃ i < 8, pte = s.pteEntry ea h i ∧ s.pteMatches ea h i ∧ ∀ j < i, ¬ s.pteMatches ea h j :=
  State.searchGroup_eq_some

theorem State.findInGroup_eq_none {s : State} {ea : Word} {h : Bool} :
    s.findInGroup ea h = none ↔ ∀ i < 8, ¬ s.pteMatches ea h i :=
  State.searchGroup_eq_none

theorem State.findPte_eq_or (s : State) (ea : Word) :
    s.findPte ea = (s.findInGroup ea false).or (s.findInGroup ea true) := by
  unfold State.findPte
  dsimp only
  split
  · next pa found => rw [State.findInGroup, found, Option.some_or]
  · next missing => rw [State.findInGroup, missing, Option.none_or, State.findInGroup]

theorem State.findPte_eq_some {s : State} {ea pte : Word} :
    s.findPte ea = some pte ↔
      ∃ h i, i < 8 ∧ pte = s.pteEntry ea h i ∧ s.pteMatches ea h i ∧ (∀ j < i, ¬ s.pteMatches ea h j) ∧
        (h = true → ∀ j < 8, ¬ s.pteMatches ea false j) := by
  rw [State.findPte_eq_or, Option.or_eq_some_iff, State.findInGroup_eq_some, State.findInGroup_eq_none,
    State.findInGroup_eq_some]
  constructor
  · rintro (⟨i, inGroup, place, matching, first⟩ | ⟨primary, i, inGroup, place, matching, first⟩)
    · exact ⟨false, i, inGroup, place, matching, first, fun secondary => by cases secondary⟩
    · exact ⟨true, i, inGroup, place, matching, first, fun _ => primary⟩
  · rintro ⟨h, i, inGroup, place, matching, first, primary⟩
    cases h
    · exact .inl ⟨i, inGroup, place, matching, first⟩
    · exact .inr ⟨primary rfl, i, inGroup, place, matching, first⟩

theorem State.findPte_eq_none {s : State} {ea : Word} :
    s.findPte ea = none ↔ ∀ h, ∀ i < 8, ¬ s.pteMatches ea h i := by
  rw [State.findPte_eq_or, Option.or_eq_none_iff, State.findInGroup_eq_none, State.findInGroup_eq_none,
    Bool.forall_bool]

/-! ### Word 1 after a walk hit (R184) -/

theorem pteTouched_eq_or (w1 : Word) (store : Bool) :
    pteTouched w1 store = w1 ||| (if store then 0x180#32 else 0x100#32) := by
  unfold pteTouched
  rw [BitVec.or_assoc]
  cases store <;> rfl

/-- A touched word is never the 0 that stands for a word outside RAM (R85): its R bit is set. -/
theorem pteTouched_ne_zero (w1 : Word) (store : Bool) : pteTouched w1 store ≠ 0#32 := by
  intro zero
  have bit := congrArg (BitVec.getLsbD · 8) zero
  cases store <;> simp [pteTouched] at bit

/-- A word that does not read as 0 is RAM, and reads as memory holds it (R85). -/
theorem State.ramRead32_of_ne_zero {s : State} {pa : Word} (h : s.ramRead32 pa ≠ 0#32) :
    s.ramRead32 pa = (Memory.readBE s.mem pa 4).setWidth 32 := by
  unfold State.ramRead32 at h ⊢
  split
  · rfl
  · next outside =>
    rw [if_neg outside] at h
    exact absurd rfl h

theorem lowBytes_four_word (v : Word) : (lowBytes 4 (v.setWidth 64)).setWidth 32 = v := by
  simp [lowBytes]

/-- Memory holds the touched word, written or there already. -/
theorem State.readBE_touchPte {s : State} {pte : Word} (wf : Memory.wf s.mem)
    (ram : ∀ i < 4, isRam s.cfg (pte + 4#32 + BitVec.ofNat 32 i) = true) (store : Bool) :
    (Memory.readBE (s.touchPte pte store).mem (pte + 4#32) 4).setWidth 32 =
      pteTouched (s.ramRead32 (pte + 4#32)) store := by
  unfold State.touchPte
  split
  · next same =>
    have inRam := State.ramRead32_of_ne_zero (same ▸ pteTouched_ne_zero (s.ramRead32 (pte + 4#32)) store)
    rw [same, inRam]
  · rcases s.ramWrite32_cases (pte + 4#32) (pteTouched (s.ramRead32 (pte + 4#32)) store) with
      ⟨-, outside⟩ | ⟨written, -⟩
    · exact absurd ram outside
    · rw [written, State.withMem_mem, Memory.readBE_writeBE wf _ (by omega), lowBytes_four_word]

theorem State.byte_touchPte_of_not_mem {s : State} {ea pte b : Word} (wf : Memory.wf s.mem)
    (found : s.findPte ea = some pte) (outside : b ∉ byteRun (pte + 4#32) 4) (store : Bool) :
    (s.touchPte pte store).mem.byte b = s.mem.byte b := by
  rw [← State.pteBytes_of_findPte found] at outside
  exact (State.touchPte_memMove found store).byte_of_not_mem wf outside

/-! ### The set after a fill (R185) -/

@[simp] theorem TlbSet.way_setWay (t : TlbSet) (w : Bool) (x : Way) : (t.setWay w x).way w = x := by
  cases w <;> rfl

@[simp] theorem TlbSet.way_setWay_not (t : TlbSet) (w : Bool) (x : Way) : (t.setWay w x).way (!w) = t.way (!w) := by
  cases w <;> rfl

theorem TlbSet.way_fill_victim (t : TlbSet) (tag : BitVec 20) (pte1 : Word) :
    (t.fill tag pte1).way t.victim = ⟨true, tag, pte1⟩ := t.way_setWay t.victim _

theorem TlbSet.way_fill_not_victim (t : TlbSet) (tag : BitVec 20) (pte1 : Word) :
    (t.fill tag pte1).way (!t.victim) = t.way (!t.victim) := t.way_setWay_not t.victim _

theorem TlbSet.recent_fill (t : TlbSet) (tag : BitVec 20) (pte1 : Word) : (t.fill tag pte1).recent = t.victim := rfl

/-! ### A translation that walks (R174, R178, R179) -/

/-- The lookup sends the access to the walk, which starts from `u`: no way hits, or a store has dropped the way that
hits with C 0 (R179). -/
inductive State.StartsWalk (s : State) (m : Mode) (ea : Word) : State → Prop where
  | noWay (miss : (s.tlbSet m.side (setIndex s.cfg ea)).lookup (eaPage ea) = none) : StartsWalk s m ea s
  | clean (w : Bool) (hit : (s.tlbSet m.side (setIndex s.cfg ea)).lookup (eaPage ea) = some w)
      (store : m.isStore = true)
      (granted : permOk s.cfg (s.protectionKey (s.segment ea))
        (ptePp ((s.tlbSet m.side (setIndex s.cfg ea)).way w).pte1) true = true)
      (clean : pteC ((s.tlbSet m.side (setIndex s.cfg ea)).way w).pte1 = false) :
      StartsWalk s m ea (s.withTlbSet m.side (setIndex s.cfg ea)
        ((s.tlbSet m.side (setIndex s.cfg ea)).dropWay w))

section
variable {s u : State} {m : Mode} {ea pte : Word}

/-- The page path of a permitted walk hit, whichever way the walk began: word 1 touched, and the set filled as the walk
found it. -/
theorem State.StartsWalk.translatePage_of_granted (start : s.StartsWalk m ea u)
    (wf : Sparse.WF TlbSet.empty (s.tlb m.side)) (openPath : s.pageOpen m ea) (mutates : m.mutates = true)
    (found : s.findPte ea = some pte)
    (granted : permOk s.cfg (s.protectionKey (s.segment ea)) (ptePp (s.ramRead32 (pte + 4#32))) m.isStore = true) :
    s.translatePage m ea = (pageResult (s.ramRead32 (pte + 4#32)) ea,
      (s.touchPte pte m.isStore).withTlbSet m.side (setIndex s.cfg ea)
        ((u.tlbSet m.side (setIndex s.cfg ea)).fill (eaPage ea)
          (pteTouched (s.ramRead32 (pte + 4#32)) m.isStore))) := by
  cases start with
  | noWay miss =>
    rw [State.translatePage_of_noWay openPath miss, State.walk_of_granted found granted mutates]
  | clean w hit store granted' clean =>
    have touchedWf : Sparse.WF TlbSet.empty ((s.touchPte pte m.isStore).tlb m.side) := by
      rwa [State.touchPte_eq, State.withMem_tlb]
    rw [State.translatePage_of_clean openPath hit store granted' clean,
      State.walk_of_granted (by simpa using found) (by simpa using granted) mutates, State.touchPte_withTlbSet]
    simp only [State.withTlbSet_ramRead32, State.withTlbSet_cfg]
    rw [State.withTlbSet_withTlbSet touchedWf]

end

end Sys2Proof.Machine

open Sys2Proof Sys2Proof.Machine

/-- Settles O16: the search in the words of the rule, once its hash and its wanted word are written out. -/
theorem searchFindsFirstMatch : Obligations.SearchFindsFirstMatch := by
  intro s ea hash entry want matchesAt
  have sameEntry : entry = s.pteEntry ea := by
    funext h i
    rw [State.pteEntry, pageHash_srVsid]
    rfl
  have sameMatches : matchesAt = s.pteMatches ea := by
    funext h i
    rw [State.pteMatches, ← sameEntry, pteWant_eq_or]
    rfl
  rw [sameEntry, sameMatches]
  exact ⟨fun pte => State.findPte_eq_some, State.findPte_eq_none⟩

/-- Settles O17: the state of a permitted walk hit is word 1 touched and one set filled; each clause is read off one of
the two. -/
theorem walkHitUpdates : Obligations.WalkHitUpdates := by
  intro s s0 s' m ea v t pte memWf tlbWf on unmapped notDirect executable mutates origin found granted run
  have start : s.StartsWalk m ea s0 := by
    rcases origin with ⟨miss, rfl⟩ | ⟨w, hit, store, granted', clean, rfl⟩
    · exact .noWay miss
    · exact .clean w hit store granted' clean
  rw [State.translate_of_unmapped on unmapped,
    start.translatePage_of_granted tlbWf ⟨notDirect, executable⟩ mutates found granted, pteTouched_eq_or,
    Prod.mk.injEq] at run
  obtain ⟨rfl, rfl⟩ := run
  have touchedWf : Sparse.WF TlbSet.empty ((s.touchPte pte m.isStore).tlb m.side) := by
    rwa [State.touchPte_eq, State.withMem_tlb]
  intro w1 w1n set victim
  rw [State.tlbSet_withTlbSet touchedWf]
  refine ⟨rfl, fun ram => ?_, fun b outside => ?_, TlbSet.way_fill_victim _ _ _,
    TlbSet.way_fill_not_victim _ _ _, TlbSet.recent_fill _ _ _, fun k other => ?_, ?_⟩
  · rw [State.withTlbSet_mem, State.readBE_touchPte memWf ram, pteTouched_eq_or]
  · rw [State.withTlbSet_mem]
    exact State.byte_touchPte_of_not_mem memWf found outside _
  · rw [State.tlbSet_withTlbSet_ne touchedWf other, State.touchPte_eq, State.withMem_tlbSet]
  · rw [State.touchPte_eq]
    exact s.withMem_withTlbSet_eq _ _ _ _
end

section
/-! The rebuild of a BAT table (`41_maintenance.md` R210 to R216): how far a rebuilt table reaches, what is left when
nothing maps, and what a translation answers from it (`40_translate.md` R173). -/

namespace Sys2Proof.Machine

/-! ### The extent of a table (R31, R210) -/

theorem pairsTable_lt (c : Config) (pairs : List BatPair) :
    ∀ x ∈ pairsTable c pairs, x.1 < 2 ^ 15 * 2 ^ (17 - c.s) := by
  induction pairs using List.reverseRecOn with
  | nil => exact fun _ hx => (List.not_mem_nil hx).elim
  | append_singleton pairs p ih =>
    rw [pairsTable_concat]
    split
    · exact fun x hx => (Sparse.mem_overlay hx).elim (pairRun_lt c p x) (ih x)
    · exact ih

/-- A rebuild writes inside the `2 ^ (32 - S)` entries of the table. -/
theorem updateBats_lt {c : Config} (h : configOk c = true) (pairs : List BatPair) :
    ∀ x ∈ updateBats c pairs, x.1 < 2 ^ (32 - c.s) := by
  have entries : 2 ^ 15 * 2 ^ (17 - c.s) = 2 ^ (32 - c.s) := by
    have := configOk_shift h
    rw [← Nat.pow_add]
    congr 1
    omega
  rw [← entries]
  exact fun x hx => (Sparse.mem_overlay hx).elim (fakeRun_lt (configOk_fakeRun h) x) (pairsTable_lt c pairs x)

theorem updateBats_of_unconfigured {c : Config} {pairs : List BatPair} (noFake : c.fakeBatEn = false)
    (none : ∀ p ∈ pairs, batConfigured p.upper = false) : updateBats c pairs = [] := by
  have noPair : pairs.filter (fun p => batConfigured p.upper) = [] :=
    List.filter_eq_nil_iff.2 fun p hp => by simp [none p hp]
  rw [updateBats_eq, pairsTable, noPair, fakeRun, noFake]
  rfl

/-! ### Translation from a rebuilt table (R173, R212) -/

theorem State.descMapped_of_empty {s : State} {d : Side} (empty : s.table d = []) (ea : Word) :
    descMapped (s.descriptor d ea) = false := by
  rw [State.descriptor, empty, Sparse.get_nil]
  rfl

section
variable {s : State} {pairs : List BatPair} {m : Mode} {ea : Word} (config : configOk s.cfg = true)
  (rebuilt : s.table m.side = updateBats s.cfg pairs) (on : s.translationOn m.side = true)
include config rebuilt on

theorem State.translate_of_covered {pb : BitVec 15} {wi : Bool}
    (covered : blockDecision s.cfg pairs (ea.extractLsb' 17 15) = some (pb, wi)) (v : Bool) :
    s.translate m ea v = (.batTranslated (pb ++ ea.extractLsb' 0 17) wi, s) := by
  obtain ⟨low, high⟩ := configOk_shift config
  have desc : s.descriptor m.side ea = blockDescriptor s.cfg pb wi (subBlock s.cfg.s ea) := by
    rw [State.descriptor_of_rebuilt config rebuilt, rebuiltEntry, covered]
  rw [State.translate_of_mapped on (by rw [desc]; exact descMapped_blockDescriptor pb wi _), desc,
    batAddress_blockDescriptor low high, descWi_blockDescriptor low]

theorem State.translate_of_uncovered (uncovered : blockDecision s.cfg pairs (ea.extractLsb' 17 15) = none) (v : Bool) :
    s.translate m ea v = s.translatePage m ea := by
  have desc : s.descriptor m.side ea = 0#32 := by
    rw [State.descriptor_of_rebuilt config rebuilt, rebuiltEntry, uncovered]
  exact State.translate_of_unmapped on (by rw [desc]; rfl) v

end

/-! ### The two commands (R215, R216) -/

theorem exec_dbatUpdated (s : State) :
    exec .dbatUpdated s = .next ((s.rebuild .data).respond .g Response.zero) := rfl

theorem exec_ibatUpdated (s : State) :
    exec .ibatUpdated s = .next ((s.rebuild .instruction).respond .g Response.zero) := rfl

/-- A rebuild reads only registers, so a second one finds what the first one wrote. -/
theorem State.rebuild_respond_twice (s : State) (d : Side) (p : Port) (r : Response) :
    (((s.rebuild d).respond p r).rebuild d).respond p r = (s.rebuild d).respond p r := by
  cases d <;> cases p <;> rfl

end Sys2Proof.Machine

open Sys2Proof Sys2Proof.Machine

/-- Settles O23: each entry is the loop's decision about its block, and no run of blocks leaves the table. -/
theorem rebuildIsTheLoop : Obligations.RebuildIsTheLoop := by
  intro c pairs config
  refine ⟨fun e q inBlock => get_updateBats config pairs e inBlock, fun idx past => ?_, updateBats_wf config pairs⟩
  refine Sparse.get_eq_default fun x hx same => ?_
  have inside := updateBats_lt config pairs x hx
  omega

/-- Settles O24: by the decision about the block of the address. -/
theorem rebuiltTableTranslates : Obligations.RebuiltTableTranslates := by
  intro s pairs m ea v config rebuilt on
  split
  · next pb wi covered => exact State.translate_of_covered config rebuilt on covered v
  · next uncovered => exact State.translate_of_uncovered config rebuilt on uncovered v

/-- Settles O25: both commands are one rebuild and one response. -/
theorem batUpdatedRebuilds : Obligations.BatUpdatedRebuilds := by
  refine ⟨decode_encode .dbatUpdated, decode_encode .ibatUpdated, rfl, rfl,
    fun s => ⟨exec_dbatUpdated s, exec_ibatUpdated s⟩, ?_, ?_,
    fun c pairs noFake none => updateBats_of_unconfigured noFake none,
    fun s m ea v empty on => State.translate_of_unmapped on (State.descMapped_of_empty empty ea) v⟩
  · rintro s t ⟨⟩
    rw [exec_dbatUpdated, State.rebuild_respond_twice]
  · rintro s t ⟨⟩
    rw [exec_ibatUpdated, State.rebuild_respond_twice]
end

section
/-! Dropping cached translations (`41_maintenance.md` R217, R218): what each invalidation leaves of a set, and the two
commands that invalidate and rebuild. -/

namespace Sys2Proof.Machine

/-! ### One set -/

theorem TlbSet.way_invalidate (t : TlbSet) (w : Bool) : t.invalidate.way w = { t.way w with valid := false } := by
  cases w <;> rfl

@[simp] theorem TlbSet.recent_invalidate (t : TlbSet) : t.invalidate.recent = t.recent := rfl

/-! ### The caches -/

section
variable {s : State} (instructionWf : Sparse.WF TlbSet.empty s.itlb) (dataWf : Sparse.WF TlbSet.empty s.dtlb)
include instructionWf dataWf

theorem State.tlbSet_invalidateAll (d : Side) (k : Nat) :
    s.invalidateAll.tlbSet d k = (s.tlbSet d k).invalidate := by
  cases d
  · exact Sparse.get_mapValues instructionWf rfl k
  · exact Sparse.get_mapValues dataWf rfl k

theorem State.tlbSet_invalidateSet (d : Side) (k j : Nat) :
    (s.invalidateSet k).tlbSet d j = if j = k then (s.tlbSet d k).invalidate else s.tlbSet d j := by
  cases d
  · exact Sparse.get_set instructionWf k _ j
  · exact Sparse.get_set dataWf k _ j

end

/-- The set of an address in the words of R218: the page number is the address without its low 12 bits. -/
theorem setIndex_eq_shiftRight (c : Config) (ea : Word) : setIndex c ea = (ea >>> 12).toNat % c.tlbSets := by
  have page : (eaPage ea).toNat = (ea >>> 12).toNat := by
    have := ea.isLt
    rw [eaPage, BitVec.extractLsb'_toNat, BitVec.toNat_ushiftRight, Nat.shiftRight_eq_div_pow]
    omega
  rw [setIndex, page]

/-! ### Latching, rebuilding and answering touch no cache -/

@[simp] theorem State.latchLocator_tlbSet (s : State) (d : Side) (k : Nat) :
    s.latchLocator.tlbSet d k = s.tlbSet d k := by cases d <;> rfl

@[simp] theorem State.rebuildBoth_tlbSet (s : State) (d : Side) (k : Nat) :
    s.rebuildBoth.tlbSet d k = s.tlbSet d k := by cases d <;> rfl

@[simp] theorem State.respond_tlbSet (s : State) (p : Port) (r : Response) (d : Side) (k : Nat) :
    (s.respond p r).tlbSet d k = s.tlbSet d k := by rw [State.tlbSet, State.respond_tlb, State.tlbSet]

/-! ### The two commands (R217, R218) -/

theorem exec_sdrUpdated (s : State) :
    exec .sdrUpdated s = .next (s.latchLocator.invalidateAll.rebuildBoth.respond .g Response.zero) := rfl

theorem exec_tlbInvalidateEntry (s : State) :
    exec .tlbInvalidateEntry s =
      .next ((s.invalidateSet (setIndex s.cfg s.g.req.a)).rebuildBoth.respond .g Response.zero) := rfl

end Sys2Proof.Machine

open Sys2Proof Sys2Proof.Machine

/-- Settles O26: latching keeps the caches, and every set of them is the old one invalidated. -/
theorem sdrUpdatedRestarts : Obligations.SdrUpdatedRestarts := by
  refine ⟨decode_encode .sdrUpdated, rfl, fun s instructionWf dataWf => ?_⟩
  have dropped (d : Side) (k : Nat) : s.latchLocator.invalidateAll.tlbSet d k = (s.tlbSet d k).invalidate := by
    rw [State.tlbSet_invalidateAll (s := s.latchLocator) instructionWf dataWf, State.latchLocator_tlbSet]
  refine ⟨_, exec_sdrUpdated s, fun d k w => ?_, fun d k => ?_, rfl⟩
  · rw [State.respond_tlbSet, State.rebuildBoth_tlbSet, dropped, TlbSet.way_invalidate]
  · rw [State.respond_tlbSet, State.rebuildBoth_tlbSet, dropped, TlbSet.recent_invalidate]

/-- Settles O27: the set of the operand is the old one invalidated, any other set the old one. -/
theorem invalidateEntryClearsItsSet : Obligations.InvalidateEntryClearsItsSet := by
  refine ⟨decode_encode .tlbInvalidateEntry, rfl, fun s instructionWf dataWf => ?_⟩
  rw [← setIndex_eq_shiftRight]
  have left (k j : Nat) (d : Side) := State.tlbSet_invalidateSet instructionWf dataWf d k j
  refine ⟨_, exec_tlbInvalidateEntry s, fun d w => ?_, fun d => ?_, fun d k other => ?_, rfl⟩
  · rw [State.respond_tlbSet, State.rebuildBoth_tlbSet, left, if_pos rfl, TlbSet.way_invalidate]
  · rw [State.respond_tlbSet, State.rebuildBoth_tlbSet, left, if_pos rfl, TlbSet.recent_invalidate]
  · rw [State.respond_tlbSet, State.rebuildBoth_tlbSet, left, if_neg other]
end

section
/-! The snapshot commands (`30_encoding.md` R141, `41_maintenance.md` R219, R220): what an image of two caches holds at
each word, when an image is well formed, and that a cache comes back from its image. -/

namespace Sys2Proof.Machine

/-! ### Reading a saved image (R141) -/

section
variable {s : State} (instructionOk : tlbOk s.cfg s.itlb) (dataOk : tlbOk s.cfg s.dtlb)
include instructionOk dataOk

theorem State.tlbOk_tlb (d : Side) : tlbOk s.cfg (s.tlb d) := by
  cases d
  · exact instructionOk
  · exact dataOk

/-- Word `j` of set `k` of a side in the saved image is word `j` of that set. -/
theorem snapWord_snapshotImage (d : Side) {k j : Nat} (below : k < s.cfg.tlbSets) (word : j < 5) :
    snapWord s.cfg (snapshotImage s.cfg s.itlb s.dtlb) d k j = (s.tlbSet d k).words.getD j 0#32 := by
  cases d with
  | instruction =>
    have inside : snapIndex s.cfg .instruction k + j < 5 * s.cfg.tlbSets := by
      simp only [snapIndex, Side.number]; omega
    rw [snapWord, get_snapshotImage_instruction inside, get_sideImage instructionOk.1.1 k word]
    rfl
  | data =>
    have beyond : 5 * s.cfg.tlbSets ≤ snapIndex s.cfg .data k + j := by
      simp only [snapIndex, Side.number]; omega
    rw [snapWord, get_snapshotImage_data (fun x hx => (instructionOk.2 x hx).1) beyond,
      get_sideImage dataOk.1.1 k word]
    rfl

/-- The image ends after the last set of the data side. -/
theorem get_snapshotImage_past {a : Nat} (past : 10 * s.cfg.tlbSets ≤ a) :
    Sparse.get 0#32 (snapshotImage s.cfg s.itlb s.dtlb) a = 0#32 := by
  rw [get_snapshotImage_data (fun x hx => (instructionOk.2 x hx).1) (by omega)]
  refine Sparse.get_eq_default fun p hp same => ?_
  obtain ⟨⟨x, hx, -, last⟩, -⟩ := mem_sideImage hp
  have below := (dataOk.2 x hx).1
  simp only [snapIndex, Side.number] at last
  omega

end

/-! ### The fields of a set's words (R140, R141) -/

theorem Way.tagWord_reserved (x : Way) : x.tagWord.extractLsb' 20 11 = 0#11 := by
  refine BitVec.eq_of_getLsbD_eq fun i hi => ?_
  rw [Way.tagWord, BitVec.getLsbD_extractLsb', BitVec.getLsbD_append, BitVec.getLsbD_append]
  simp [hi]

theorem recentWord_eq (b : Bool) : (BitVec.ofBool b).setWidth 32 = if b then 1#32 else 0#32 := by
  cases b <;> rfl

theorem recentWord_reserved (b : Bool) : ((BitVec.ofBool b).setWidth 32).extractLsb' 1 31 = 0#31 := by
  cases b <;> rfl

theorem getLsbD_recentWord (b : Bool) : ((BitVec.ofBool b).setWidth 32).getLsbD 0 = b := by
  cases b <;> rfl

/-! ### Well-formed images (R220) -/

/-- What the check asks of one set: reserved bits zero, and the set it stands for well formed. -/
theorem snapSetOk_iff {c : Config} {snap : Cells 32} {d : Side} {k : Nat} :
    snapSetOk c snap d k = true ↔
      (snapWord c snap d k 0).extractLsb' 20 11 = 0#11 ∧ (snapWord c snap d k 2).extractLsb' 20 11 = 0#11 ∧
        (snapWord c snap d k 4).extractLsb' 1 31 = 0#31 ∧ SetOk c k (snapSet c snap d k) := by
  simp only [snapSetOk, SetOk, Bool.and_eq_true, beq_iff_eq, and_assoc]

/-- The same, each way asked in the words that stand for it. -/
theorem snapSetOk_iff_words {c : Config} {snap : Cells 32} {d : Side} {k : Nat} :
    snapSetOk c snap d k = true ↔
      (∀ w < 2, (snapWord c snap d k (2 * w)).extractLsb' 20 11 = 0#11 ∧
        ((snapWord c snap d k (2 * w)).getLsbD 31 = true →
          ((snapWord c snap d k (2 * w)).extractLsb' 0 20).toNat % c.tlbSets = k)) ∧
      (snapWord c snap d k 4).extractLsb' 1 31 = 0#31 ∧
      ((snapWord c snap d k 0).getLsbD 31 = true → (snapWord c snap d k 2).getLsbD 31 = true →
        (snapWord c snap d k 0).extractLsb' 0 20 ≠ (snapWord c snap d k 2).extractLsb' 0 20) := by
  rw [snapSetOk_iff]
  constructor
  · rintro ⟨reserved0, reserved1, recent, differ, in0, in1⟩
    refine ⟨fun w hw => ?_, recent, TlbSet.tagsDiffer_iff.1 differ⟩
    obtain rfl | rfl : w = 0 ∨ w = 1 := by omega
    · exact ⟨reserved0, Way.inSet_iff.1 in0⟩
    · exact ⟨reserved1, Way.inSet_iff.1 in1⟩
  · rintro ⟨ways, recent, differ⟩
    obtain ⟨reserved0, in0⟩ := ways 0 (by decide)
    obtain ⟨reserved1, in1⟩ := ways 1 (by decide)
    exact ⟨reserved0, reserved1, recent, TlbSet.tagsDiffer_iff.2 differ, Way.inSet_iff.2 in0, Way.inSet_iff.2 in1⟩

theorem snapshotOk_iff {c : Config} {snap : Cells 32} :
    snapshotOk c snap = true ↔ ∀ d : Side, ∀ k < c.tlbSets, snapSetOk c snap d k = true := by
  simp only [snapshotOk, List.all_eq_true, List.mem_range, Bool.and_eq_true]
  constructor
  · intro checked d k below
    cases d
    · exact (checked k below).1
    · exact (checked k below).2
  · exact fun checked k below => ⟨checked .instruction k below, checked .data k below⟩

/-! ### Saving and loading back -/

section
variable {s : State} (instructionOk : tlbOk s.cfg s.itlb) (dataOk : tlbOk s.cfg s.dtlb)
include instructionOk dataOk

theorem snapSet_snapshotImage (d : Side) {k : Nat} (below : k < s.cfg.tlbSets) :
    snapSet s.cfg (snapshotImage s.cfg s.itlb s.dtlb) d k = s.tlbSet d k := by
  have word {j : Nat} := snapWord_snapshotImage (j := j) instructionOk dataOk d below
  rw [snapSet, word (by decide), word (by decide), word (by decide), word (by decide), word (by decide)]
  simp only [TlbSet.words, List.getD_cons_zero, List.getD_cons_succ, wayOfWords_tagWord, getLsbD_recentWord]

theorem snapshotOk_snapshotImage : snapshotOk s.cfg (snapshotImage s.cfg s.itlb s.dtlb) = true := by
  refine snapshotOk_iff.2 fun d k below => snapSetOk_iff.2 ?_
  have word {j : Nat} := snapWord_snapshotImage (j := j) instructionOk dataOk d below
  have setOk : SetOk s.cfg k (s.tlbSet d k) := setOk_get (State.tlbOk_tlb instructionOk dataOk d) k
  rw [word (by decide), word (by decide), word (by decide), snapSet_snapshotImage instructionOk dataOk d below]
  exact ⟨Way.tagWord_reserved _, Way.tagWord_reserved _, recentWord_reserved _, setOk⟩

/-- A well-formed cache comes back from the image. -/
theorem sideOfImage_snapshotImage (d : Side) :
    sideOfImage s.cfg (snapshotImage s.cfg s.itlb s.dtlb) d = s.tlb d := by
  obtain ⟨wf, sets⟩ := tlbOk_iff.1 (State.tlbOk_tlb instructionOk dataOk d)
  refine Sparse.ext (Sparse.ofFun_wf _ _ _) wf fun k => ?_
  rw [sideOfImage, Sparse.get_ofFun]
  split
  · next below => exact snapSet_snapshotImage instructionOk dataOk d below
  · next beyond =>
    refine (Sparse.get_eq_default fun x hx same => beyond ?_).symm
    rw [← same]
    exact (sets x hx).1

end

/-! ### The two commands (R219, R220) -/

theorem exec_stateSave (s : State) :
    exec .stateSave s =
      .next (s.respond .h { Response.zero with snapOut := snapshotImage s.cfg s.itlb s.dtlb }) := rfl

/-- The state after a restore, field by field. -/
theorem exec_stateRestore_of_ok {s : State} (wellFormed : snapshotOk s.cfg s.h.req.snapIn = true) :
    exec .stateRestore s = .next
      { s with
        itlb := sideOfImage s.cfg s.h.req.snapIn .instruction
        dtlb := sideOfImage s.cfg s.h.req.snapIn .data
        ptBase := sdr1PtBase s.cpu.sdr1
        ptHashMask := sdr1HashMask s.cpu.sdr1
        ibatTable := updateBats s.cfg (s.batPairs .instruction)
        dbatTable := updateBats s.cfg (s.batPairs .data)
        h := { s.h with rsp := Response.zero } } := by
  refine (if_pos wellFormed).trans ?_
  cases s
  rfl

theorem exec_stateRestore_of_not_ok {s : State} (malformed : snapshotOk s.cfg s.h.req.snapIn ≠ true) :
    exec .stateRestore s = .next (s.abort .h .badSnapshot) :=
  if_neg malformed

/-- Restoring the caches a block already has, with locator and tables those of its registers, only answers. -/
theorem exec_stateRestore_of_current {s : State} (wellFormed : snapshotOk s.cfg s.h.req.snapIn = true)
    (caches : ∀ d, sideOfImage s.cfg s.h.req.snapIn d = s.tlb d) (latched : s.latchLocator = s)
    (rebuilt : s.rebuildBoth = s) : exec .stateRestore s = .next (s.respond .h Response.zero) := by
  have loaded : s.loadCaches s.h.req.snapIn = s := by
    rw [State.loadCaches, caches, caches]
    rfl
  have restored : exec .stateRestore s =
      .next ((s.loadCaches s.h.req.snapIn).latchLocator.rebuildBoth.respond .h Response.zero) := if_pos wellFormed
  rw [restored, loaded, latched, rebuilt]

/-- What a restore computes from the registers does not show in port H. -/
theorem State.latchLocator_of_port {s : State} (latched : s.latchLocator = s) (p : PortRegs) :
    ({ s with h := p } : State).latchLocator = { s with h := p } :=
  congrArg (fun t : State => { t with h := p }) latched

theorem State.rebuildBoth_of_port {s : State} (rebuilt : s.rebuildBoth = s) (p : PortRegs) :
    ({ s with h := p } : State).rebuildBoth = { s with h := p } :=
  congrArg (fun t : State => { t with h := p }) rebuilt

end Sys2Proof.Machine

open Sys2Proof Sys2Proof.Machine

/-- Settles O28: the words of the image are those of the sets, side by side. -/
theorem stateSaveWritesImage : Obligations.StateSaveWritesImage := by
  refine ⟨decode_encode .stateSave, rfl, fun s instructionOk dataOk => ⟨_, exec_stateSave s, ?_, fun j past =>
    get_snapshotImage_past instructionOk dataOk past⟩⟩
  intro d k below
  have word {j : Nat} := snapWord_snapshotImage (j := j) instructionOk dataOk d below
  intro base set
  have sameBase : base = snapIndex s.cfg d k := by cases d <;> rfl
  rw [sameBase, ← recentWord_eq]
  exact ⟨word (j := 0) (by decide), word (j := 1) (by decide), word (j := 2) (by decide), word (j := 3) (by decide),
    word (j := 4) (by decide)⟩

/-- Settles O29: the statement's check is the model's, set by set. -/
theorem stateRestoreLoadsImage : Obligations.StateRestoreLoadsImage := by
  intro s word valid tag wellFormed
  have sameWord : word = snapWord s.cfg s.h.req.snapIn := by
    funext d k j
    cases d <;> rfl
  clear_value word
  subst sameWord
  have sameCheck : snapshotOk s.cfg s.h.req.snapIn = true ↔ wellFormed :=
    snapshotOk_iff.trans (forall_congr' fun d => forall₂_congr fun k _ => snapSetOk_iff_words)
  refine ⟨fun ok => ⟨_, exec_stateRestore_of_ok (sameCheck.2 ok), fun d k below => ?_, rfl⟩,
    fun malformed => exec_stateRestore_of_not_ok (mt sameCheck.1 malformed)⟩
  have held : Sparse.get TlbSet.empty (sideOfImage s.cfg s.h.req.snapIn d) k = snapSet s.cfg s.h.req.snapIn d k := by
    rw [sideOfImage, Sparse.get_ofFun, if_pos below]
  cases d <;> exact held

/-- Settles O30: the saved image passes the check and holds the saved caches. -/
theorem saveRestoreRoundTrip : Obligations.SaveRestoreRoundTrip := by
  rintro s u instructionOk dataOk - ⟨⟩
  have check := snapshotOk_snapshotImage instructionOk dataOk
  have caches := sideOfImage_snapshotImage instructionOk dataOk
  refine ⟨fun r platform image => ?_, fun latched rebuilt => ?_⟩
  · have image : r.h.req.snapIn = snapshotImage s.cfg s.itlb s.dtlb := image
    refine ⟨_, exec_stateRestore_of_ok (by rwa [platform, image]), ?_, ?_, rfl⟩
    · rw [platform, image]
      exact caches .instruction
    · rw [platform, image]
      exact caches .data
  · exact exec_stateRestore_of_current check caches (State.latchLocator_of_port latched _)
      (State.rebuildBoth_of_port rebuilt _)
end

section
/-! What a plan of a guest access rests on (`20_memory.md` R87): where one translation leads and what it leaves, the
plans over one page and over two, and the bytes of two frames. -/

namespace Sys2Proof.Machine

/-! ### One translation -/

theorem Translation.address_of_faultCause {x : Translation} {c : FaultCause} (cause : x.faultCause = some c) :
    x.address = none := by
  cases x <;> cases cause <;> rfl

section
variable {s s1 : State} {m : Mode} {ea : Word} {v : Bool} {x : Translation}

theorem State.translate_borrowedKept (translated : s.translate m ea v = (x, s1)) : BorrowedKept .g s s1 := by
  have kept := (Update.translate (p := .g) (s := s) m ea v).borrowedKept
  rwa [translated] at kept

theorem State.translate_sameOffset {pa : Word} (config : configOk s.cfg = true)
    (translated : s.translate m ea v = (x, s1)) (success : x.address = some pa) : sameOffset pa ea :=
  pageOffsetPreserved s m ea pa v config (by rw [translated]; exact success)

end

/-- A walk moves the backing store as R184 says, whatever the cache holds. -/
theorem State.walk_memMove (s : State) (m : Mode) (ea : Word) : MemMove s ea (s.walk m ea).2.mem := by
  rcases State.walk_cases (Prod.mk.eta (p := s.walk m ea)).symm with
    ⟨-, -, e⟩ | ⟨pte, found, ⟨-, -, e⟩ | ⟨-, -, ⟨-, e⟩ | ⟨-, e⟩⟩⟩ <;> rw [e]
  · exact .same
  · exact .same
  · exact .same
  · rw [State.withTlbSet_mem]
    exact State.touchPte_memMove found m.isStore

/-- The canonical form of the backing store does not hang on the cache being in canonical form. -/
theorem State.translate_memWf {s s1 : State} {m : Mode} {ea : Word} {v : Bool} {x : Translation}
    (wf : Memory.wf s.mem) (translated : s.translate m ea v = (x, s1)) : Memory.wf s1.mem := by
  obtain rfl : (s.translate m ea v).2 = s1 := by rw [translated]
  have walk (u : State) (same : u.mem = s.mem) : Memory.wf (u.walk m ea).2.mem :=
    (u.walk_memMove m ea).wf (by rwa [same])
  rcases s.translate_cases m ea v with ⟨-, e⟩ | ⟨-, -, e⟩ | ⟨-, -, e⟩ <;> rw [e]
  · exact wf
  · exact wf
  · rcases s.translatePage_cases m ea with
      ⟨-, e⟩ | ⟨-, -, -, e⟩ | ⟨-, -, e⟩ | ⟨-, w, -, ⟨-, e⟩ | ⟨-, -, -, e⟩ | ⟨-, -, e⟩⟩ <;> rw [e]
    · exact wf
    · exact wf
    · exact walk s rfl
    · exact wf
    · exact walk _ (s.withTlbSet_mem _ _ _)
    · cases m.mutates <;> simpa using wf

/-! ### The bytes of two frames (R87) -/

/-- The bytes of an access across a page, from the two addresses its pages translate to. -/
def twoFrames (ea : Word) (n : Nat) (pa1 pa2 : Word) : List Word :=
  byteRun pa1 (firstPart ea) ++ byteRun pa2 (n - firstPart ea)

theorem firstPart_pos (ea : Word) : 0 < firstPart ea := by
  have := (eaOffset ea).isLt
  unfold firstPart
  omega

section
variable {ea : Word} {n : Nat} (width : 0 < n ∧ n ≤ 8) (crosses : samePage ea (lastByte ea n) = false)
include width crosses

theorem firstPart_lt : firstPart ea < n := by
  have leaves : ¬ ea.toNat % 4096 + n ≤ 4096 := by
    rw [← onePage_iff width.1 (by omega), crosses]
    exact Bool.false_ne_true
  rw [firstPart, eaOffset_toNat]
  omega

theorem twoFrames_length (pa1 pa2 : Word) : (twoFrames ea n pa1 pa2).length = n := by
  have := firstPart_lt width crosses
  rw [twoFrames, List.length_append, byteRun_length, byteRun_length]
  omega

theorem isContiguous_twoFrames (pa1 pa2 : Word) :
    isContiguous (twoFrames ea n pa1 pa2) = true ↔ pa2 = pa1 + BitVec.ofNat 32 (firstPart ea) :=
  isContiguous_append pa1 pa2 (firstPart_pos ea) (Nat.sub_pos_of_lt (firstPart_lt width crosses))

/-- Adjacent frames make one run. -/
theorem twoFrames_adjacent (pa1 : Word) :
    twoFrames ea n pa1 (pa1 + BitVec.ofNat 32 (firstPart ea)) = byteRun pa1 n := by
  rw [twoFrames, byteRun_append, Nat.add_sub_cancel' (firstPart_lt width crosses).le]

/-- The second page starts inside the access. -/
theorem secondPage_mem_byteRun : secondPage ea n ∈ byteRun ea n := by
  refine mem_byteRun.2 ⟨firstPart ea, firstPart_lt width crosses, ?_⟩
  rw [← BitVec.toNat_inj, secondPage_toNat width.1 (by omega) crosses, BitVec.toNat_add, BitVec.toNat_ofNat, firstPart,
    eaOffset_toNat]
  omega

end

theorem twoFrames_head (ea : Word) (n : Nat) (pa1 pa2 : Word) : (twoFrames ea n pa1 pa2).headD 0#32 = pa1 := by
  obtain ⟨m, e⟩ : ∃ m, firstPart ea = m + 1 := ⟨_, (Nat.succ_pred_eq_of_pos (firstPart_pos ea)).symm⟩
  simp [twoFrames, byteRun, e, List.range_succ_eq_map]

theorem twoFrames_getElem_first {ea : Word} {n j : Nat} (pa1 pa2 : Word) (hj : j < firstPart ea)
    (listed : j < (twoFrames ea n pa1 pa2).length) : (twoFrames ea n pa1 pa2)[j] = pa1 + BitVec.ofNat 32 j := by
  simp only [twoFrames]
  rw [List.getElem_append_left (by simpa using hj), byteRun_getElem]

theorem twoFrames_getElem_second {ea : Word} {n j : Nat} (pa1 pa2 : Word)
    (listed : firstPart ea + j < (twoFrames ea n pa1 pa2).length) :
    (twoFrames ea n pa1 pa2)[firstPart ea + j] = pa2 + BitVec.ofNat 32 j := by
  simp only [twoFrames]
  rw [List.getElem_append_right (by simp), byteRun_getElem, byteRun_length, Nat.add_sub_cancel_left]

/-! ### The plan of a guest access (R87) -/

section
variable {s s1 s2 : State} {m : Mode} {ea pa1 pa2 : Word} {n : Nat} {t1 t2 : Translation}

theorem State.plan_onePage (width : 0 < n ∧ n ≤ 8) (config : configOk s.cfg = true)
    (within : samePage ea (lastByte ea n) = true) (translated : s.translate m ea false = (t1, s1))
    (success : t1.address = some pa1) : s.plan m ea n false = (.ok ⟨byteRun pa1 n, [t1]⟩, s1) :=
  planAccess_onePage (tr := guestTranslator m false) width.1 (by omega) within translated success
    (State.translate_sameOffset config translated success)

theorem State.plan_firstFails (translated : s.translate m ea false = (t1, s1)) (failure : t1.address = none) :
    s.plan m ea n false = (.fail ea t1, s1) :=
  planAccess_firstFails (tr := guestTranslator m false) translated failure

section
variable (crosses : samePage ea (lastByte ea n) = false) (first : s.translate m ea false = (t1, s1))
  (success1 : t1.address = some pa1) (second : s1.translate m (secondPage ea n) false = (t2, s2))
include crosses first success1 second

theorem State.plan_secondFails (failure : t2.address = none) :
    s.plan m ea n false = (.fail (secondPage ea n) t2, s2) :=
  planAccess_secondFails (tr := guestTranslator m false) crosses first success1 second failure

theorem State.plan_twoPages (width : 0 < n ∧ n ≤ 8) (config : configOk s.cfg = true)
    (success2 : t2.address = some pa2) :
    s.plan m ea n false = (.ok ⟨twoFrames ea n pa1 pa2, [t1, t2]⟩, s2) := by
  have config1 : configOk s1.cfg = true := by rwa [(State.translate_borrowedKept first).cfg]
  exact planAccess_twoPages (tr := guestTranslator m false) width.1 (by omega) crosses first success1
    (State.translate_sameOffset config first success1) second success2
    (State.translate_sameOffset config1 second success2)

end

/-- No byte stands twice in a plan: the bytes keep their offsets, and at most one page of offsets is read. -/
theorem planAccess_nodup {tr : Word → State → Translation × State} {p : Plan} (short : n ≤ 4096)
    (planned : planAccess tr ea n s = (.ok p, s1)) : p.pas.Nodup := by
  have distinct (f : Word → Word) : ((byteRun ea n).map fun b => byteAddress (f b) b).Nodup := by
    rw [byteRun, List.map_map]
    refine (List.nodup_map_iff_inj_on List.nodup_range).2 fun i hi j hj same => ?_
    rw [List.mem_range] at hi hj
    have offsets := congrArg (fun b : Word => b.toNat % 4096) same
    simp only [Function.comp, byteAddress_toNat, BitVec.toNat_add, BitVec.toNat_ofNat] at offsets
    omega
  unfold planAccess at planned
  split at planned
  split at planned
  · cases planned
  · split at planned
    · cases planned
      exact distinct _
    · split at planned
      split at planned
      · cases planned
      · cases planned
        exact distinct _

end

end Sys2Proof.Machine
end

section
/-! A planned access to RAM (`20_memory.md` R82, R84, R88): one rule for contiguous bytes and for others, when a write
took it, and what reading returns after it. -/

namespace Sys2Proof.Machine

/-! ### Byte lists -/

section
variable {m : Memory} (wf : Memory.wf m) {pas : List Word} (distinct : pas.Nodup) (d : DWord)
include wf

theorem Memory.byte_putBytes_zip_of_not_mem {b : Word} (outside : b ∉ pas) :
    Memory.byte (Memory.putBytes m (pas.zip (beBytes pas.length d))) b = Memory.byte m b :=
  Memory.byte_putBytes_of_not_mem wf fun _ hw same => outside (same ▸ (List.of_mem_zip hw).1)

include distinct

/-- Each listed byte holds its byte of the value (R82). -/
theorem Memory.byte_putBytes_zip {j : Nat} (hj : j < pas.length) :
    Memory.byte (Memory.putBytes m (pas.zip (beBytes pas.length d))) pas[j] = beByte pas.length d j := by
  have keys : (pas.zip (beBytes pas.length d)).map Prod.fst = pas := List.map_fst_zip (by simp)
  have listed : (pas[j], beByte pas.length d j) ∈ pas.zip (beBytes pas.length d) :=
    List.mem_iff_getElem.2 ⟨j, by simpa using hj, by simp [beBytes]⟩
  exact Memory.byte_putBytes_of_mem wf (by rwa [keys]) listed

theorem Memory.map_byte_putBytes_zip :
    pas.map (Memory.byte (Memory.putBytes m (pas.zip (beBytes pas.length d)))) = beBytes pas.length d := by
  refine List.ext_getElem (by simp) fun j hj _ => ?_
  rw [List.length_map] at hj
  rw [List.getElem_map, Memory.byte_putBytes_zip wf distinct d hj]
  simp [beBytes]

end

/-! ### Plans that go to RAM -/

/-- A planned access over these bytes goes to RAM: every byte is RAM, and contiguous bytes lie in one region, since
they are one access (R84, R88; log entry 22). -/
def GoesToRam (c : Config) (pas : List Word) : Prop :=
  (∀ b ∈ pas, isRam c b = true) ∧
    (isContiguous pas = true → route c (pas.headD 0#32) pas.length = some .ram)

theorem goesToRam_byteRun {c : Config} {pa : Word} {n : Nat} (width : 0 < n ∧ n ≤ 8)
    (routed : route c pa n = some .ram) : GoesToRam c (byteRun pa n) := by
  refine ⟨fun b hb => ?_, fun _ => by rwa [byteRun_head pa width.1, byteRun_length]⟩
  obtain ⟨i, hi, rfl⟩ := mem_byteRun.1 hb
  exact isRam_of_inOne (route_eq_ram.1 routed) (by omega) hi

section
variable (s : State) {pas : List Word}

theorem State.performRead_ram (ram : GoesToRam s.cfg pas) :
    s.performRead pas = (some ⟨beValue (pas.map s.mem.byte), false⟩, s) := by
  obtain ⟨bytes, routed⟩ := ram
  cases contiguous : isContiguous pas
  · exact s.performRead_split contiguous bytes
  · rw [State.performRead, if_pos contiguous, s.memRead_ram (routed contiguous), Memory.readBE,
      ← isContiguous_eq contiguous]

theorem State.performWrite_ram (d : DWord) (ram : GoesToRam s.cfg pas) :
    s.performWrite pas d = (some false, s.withMem (Memory.putBytes s.mem (pas.zip (beBytes pas.length d)))) := by
  obtain ⟨bytes, routed⟩ := ram
  cases contiguous : isContiguous pas
  · exact s.performWrite_split d contiguous bytes
  · rw [State.performWrite, if_pos contiguous, s.memWrite_ram d (routed contiguous), Memory.writeBE,
      ← isContiguous_eq contiguous]

/-- A planned write that calls no handler went to RAM (R88). -/
theorem State.goesToRam_of_performWrite {n : Nat} {d : DWord} {u : State} (config : configOk s.cfg = true)
    (length : pas.length = n) (width : 0 < n ∧ n ≤ 8) (written : s.performWrite pas (writeData n d) = (some false, u)) :
    GoesToRam s.cfg pas := by
  subst length
  cases contiguous : isContiguous pas
  · have noHole : ∀ b ∈ pas, isHole s.cfg b = false := fun b hb => by
      by_contra hole
      have hole : isRam s.cfg b = false ∧ isMmio s.cfg b = false := by simpa [isHole] using hole
      rw [s.performWrite_split_bus _ contiguous ⟨b, hb, hole⟩] at written
      cases written
    rw [writeData, s.performWrite_units config d width.2 contiguous noHole] at written
    have noDevice : pas.any (isMmio s.cfg) = false := by simpa using congrArg Prod.fst written
    refine ⟨fun b hb => ?_, fun run => by rw [contiguous] at run; cases run⟩
    have := noHole b hb
    simpa [isHole, List.any_eq_false.1 noDevice b hb] using this
  · rw [State.performWrite, if_pos contiguous] at written
    rcases routed : route s.cfg (pas.headD 0#32) pas.length with _ | _ | _
    · rw [s.memWrite_bus _ routed] at written; cases written
    · rw [isContiguous_eq contiguous]
      exact goesToRam_byteRun width routed
    · rw [s.memWrite_mmio _ routed] at written; cases written

/-- Reading returns what was written (R82, R88), whatever else has changed since but the platform and the store. -/
theorem State.performRead_after_write {s t : State} {n : Nat} (d : DWord) (wf : Memory.wf s.mem)
    (ram : GoesToRam s.cfg pas) (distinct : pas.Nodup) (length : pas.length = n) (platform : t.cfg = s.cfg)
    (store : t.mem = Memory.putBytes s.mem (pas.zip (beBytes pas.length (writeData n d)))) :
    t.performRead pas = (some ⟨lowBytes n d, false⟩, t) := by
  rw [t.performRead_ram (by rwa [platform]), store, Memory.map_byte_putBytes_zip wf distinct, beValue_beBytes, length,
    writeData, lowBytes_lowBytes]

end

end Sys2Proof.Machine
end

section
/-! Guest reads and writes (`42_access.md` R240 to R249): what a command answers from its plan, and the four places an
access can go (`20_memory.md` R84, R88). -/

namespace Sys2Proof.Machine

/-! ### The commands of one shape -/

theorem guestReads_width {n : Nat} {i : Instr} (command : (n, i) ∈ guestReads) : 0 < n ∧ n ≤ 8 := by
  simp only [guestReads, List.mem_cons, Prod.mk.injEq, List.not_mem_nil, or_false] at command
  omega

theorem guestWrites_width {n : Nat} {i : Instr} (command : (n, i) ∈ guestWrites) : 0 < n ∧ n ≤ 8 := by
  simp only [guestWrites, List.mem_cons, Prod.mk.injEq, List.not_mem_nil, or_false] at command
  omega

theorem exec_guestReads {n : Nat} {i : Instr} (command : (n, i) ∈ guestReads) (s : State) :
    exec i s = .next (s.guestRead n) := by
  simp only [guestReads, List.mem_cons, Prod.mk.injEq, List.not_mem_nil, or_false] at command
  rcases command with ⟨rfl, rfl⟩ | ⟨rfl, rfl⟩ | ⟨rfl, rfl⟩ | ⟨rfl, rfl⟩ <;> rfl

theorem exec_guestWrites {n : Nat} {i : Instr} (command : (n, i) ∈ guestWrites) (s : State) :
    exec i s = .next (s.guestWrite n) := by
  simp only [guestWrites, List.mem_cons, Prod.mk.injEq, List.not_mem_nil, or_false] at command
  rcases command with ⟨rfl, rfl⟩ | ⟨rfl, rfl⟩ | ⟨rfl, rfl⟩ | ⟨rfl, rfl⟩ <;> rfl

/-! ### Flags (R128) -/

@[simp] theorem accessFlags_one (x : Translation) (via : Bool) :
    accessFlags [x] via = { x.flags with mmio := via } := by
  simp [accessFlags, Translation.flags]

@[simp] theorem accessFlags_two (x y : Translation) (via : Bool) : accessFlags [x, y] via = pairFlags x y via := by
  simp [accessFlags, pairFlags]

@[simp] theorem writeData_mmioWrite (s : State) (pa : Word) (n : Nat) (d : DWord) :
    s.mmioWrite pa n (writeData n d) = s.mmioWrite pa n d := by
  rw [State.mmioWrite, writeData, lowBytes_lowBytes, State.mmioWrite]

/-! ### From a plan to the answer (R240, R241) -/

section
variable {s s1 s2 : State} {n : Nat} {eaF pa : Word} {x : Translation} {p : Plan} {pas : List Word}
  {pages : List Translation}

theorem State.guestRead_eq : s.guestRead n = State.endAccess false (s.readHW .read n s.g.req.a false) := rfl

theorem State.guestWrite_eq :
    s.guestWrite n = State.endAccess true (s.writeHW .write n s.g.req.a (writeData n s.g.req.d) false) := rfl

theorem State.guestRead_of_fail (planned : s.plan .read s.g.req.a n false = (.fail eaF x, s1)) :
    s.guestRead n = s1.raise .g ⟨.dsi, false, x.faultCause.getD .pageMiss, eaF⟩ := by
  rw [State.guestRead_eq, State.readHW, planned]
  rfl

theorem State.guestRead_of_cause {c : FaultCause} (planned : s.plan .read s.g.req.a n false = (.fail eaF x, s1))
    (cause : x.faultCause = some c) : s.guestRead n = s1.raise .g ⟨.dsi, false, c, eaF⟩ := by
  rw [State.guestRead_of_fail planned, cause]
  rfl

theorem State.guestRead_of_bus (planned : s.plan .read s.g.req.a n false = (.ok p, s1))
    (performed : s1.performRead p.pas = (none, s2)) : s.guestRead n = s2.respond .g (Response.only .busError) := by
  rw [State.guestRead_eq, State.readHW, planned]
  simp only [performed]
  rfl

theorem State.guestRead_of_loaded {l : Loaded} (planned : s.plan .read s.g.req.a n false = (.ok p, s1))
    (performed : s1.performRead p.pas = (some l, s2)) :
    s.guestRead n =
      s2.respond .g (Response.done (accessFlags p.pages l.viaHandler) l.value (p.pas.headD 0#32)) := by
  rw [State.guestRead_eq, State.readHW, planned]
  simp only [performed]
  rfl

theorem State.guestWrite_of_fail (planned : s.plan .write s.g.req.a n false = (.fail eaF x, s1)) :
    s.guestWrite n = s1.raise .g ⟨.dsi, true, x.faultCause.getD .pageMiss, eaF⟩ := by
  rw [State.guestWrite_eq, State.writeHW, planned]
  rfl

theorem State.guestWrite_of_cause {c : FaultCause} (planned : s.plan .write s.g.req.a n false = (.fail eaF x, s1))
    (cause : x.faultCause = some c) : s.guestWrite n = s1.raise .g ⟨.dsi, true, c, eaF⟩ := by
  rw [State.guestWrite_of_fail planned, cause]
  rfl

theorem State.guestWrite_of_bus (planned : s.plan .write s.g.req.a n false = (.ok p, s1))
    (performed : s1.performWrite p.pas (writeData n s.g.req.d) = (none, s2)) :
    s.guestWrite n = s2.respond .g (Response.only .busError) := by
  rw [State.guestWrite_eq, State.writeHW, planned]
  simp only [performed]
  rfl

theorem State.guestWrite_of_stored {via : Bool} (planned : s.plan .write s.g.req.a n false = (.ok p, s1))
    (performed : s1.performWrite p.pas (writeData n s.g.req.d) = (some via, s2)) :
    s.guestWrite n = s2.respond .g (Response.done (accessFlags p.pages via) 0#64 (p.pas.headD 0#32)) := by
  rw [State.guestWrite_eq, State.writeHW, planned]
  simp only [performed]
  rfl

/-! ### One access: the bytes of the plan are a run (R84) -/

/-- A read over a run of bytes goes where the dispatch sends it. -/
theorem State.guestRead_run (width : 0 < n ∧ n ≤ 8)
    (planned : s.plan .read s.g.req.a n false = (.ok ⟨byteRun pa n, pages⟩, s1)) :
    (route s1.cfg pa n = some .ram → s.guestRead n =
      s1.respond .g (Response.done (accessFlags pages false) (Memory.readBE s1.mem pa n) pa)) ∧
    (route s1.cfg pa n = some .mmio → s.guestRead n = (s1.mmioRead pa n).2.respond .g
      (Response.done (accessFlags pages true) (s1.mmioRead pa n).1 pa)) ∧
    (route s1.cfg pa n = none → s.guestRead n = s1.respond .g (Response.only .busError)) := by
  have oneAccess := s1.performRead_run pa width.1
  refine ⟨fun ram => ?_, fun mmio => ?_, fun bus => ?_⟩
  · rw [State.guestRead_of_loaded planned (oneAccess.trans (s1.memRead_ram ram)), byteRun_head pa width.1]
  · rw [State.guestRead_of_loaded planned (oneAccess.trans (s1.memRead_mmio mmio)), byteRun_head pa width.1]
  · exact State.guestRead_of_bus planned (oneAccess.trans (s1.memRead_bus bus))

/-- A write over a run of bytes goes where the dispatch sends it; RAM is `State.guestWrite_ram`. -/
theorem State.guestWrite_run (width : 0 < n ∧ n ≤ 8)
    (planned : s.plan .write s.g.req.a n false = (.ok ⟨byteRun pa n, pages⟩, s1)) :
    (route s1.cfg pa n = some .mmio → s.guestWrite n = (s1.mmioWrite pa n s.g.req.d).respond .g
      (Response.done (accessFlags pages true) 0#64 pa)) ∧
    (route s1.cfg pa n = none → s.guestWrite n = s1.respond .g (Response.only .busError)) := by
  have oneAccess := s1.performWrite_run pa (writeData n s.g.req.d) width.1
  refine ⟨fun mmio => ?_, fun bus => ?_⟩
  · rw [State.guestWrite_of_stored planned (oneAccess.trans (s1.memWrite_mmio _ mmio)), byteRun_head pa width.1,
      writeData_mmioWrite]
  · exact State.guestWrite_of_bus planned (oneAccess.trans (s1.memWrite_bus _ bus))

/-! ### Byte by byte: the bytes of the plan are no run (R88) -/

section
variable (split : isContiguous pas = false)
include split

theorem State.guestRead_split_ram (planned : s.plan .read s.g.req.a n false = (.ok ⟨pas, pages⟩, s1))
    (ram : ∀ b ∈ pas, isRam s1.cfg b = true) :
    s.guestRead n =
      s1.respond .g (Response.done (accessFlags pages false) (beValue (pas.map s1.mem.byte)) (pas.headD 0#32)) :=
  State.guestRead_of_loaded planned (s1.performRead_split split ram)

theorem State.guestRead_split_units (config : configOk s1.cfg = true)
    (planned : s.plan .read s.g.req.a n false = (.ok ⟨pas, pages⟩, s1))
    (noHole : ∀ b ∈ pas, isHole s1.cfg b = false) :
    s.guestRead n = (s1.unitsRead 1 pas).2.respond .g (Response.done (accessFlags pages (pas.any (isMmio s1.cfg)))
      (beValue ((s1.unitsRead 1 pas).1.map (·.setWidth 8))) (pas.headD 0#32)) :=
  State.guestRead_of_loaded planned (s1.performRead_units config split noHole)

theorem State.guestWrite_split_units (config : configOk s1.cfg = true) (width : 0 < n ∧ n ≤ 8)
    (length : pas.length = n) (planned : s.plan .write s.g.req.a n false = (.ok ⟨pas, pages⟩, s1))
    (noHole : ∀ b ∈ pas, isHole s1.cfg b = false) :
    s.guestWrite n = (s1.unitsWritten 1 (pas.zip (byteValues n s.g.req.d))).respond .g
      (Response.done (accessFlags pages (pas.any (isMmio s1.cfg))) 0#64 (pas.headD 0#32)) := by
  subst length
  exact State.guestWrite_of_stored planned (s1.performWrite_units config s.g.req.d width.2 split noHole)

end

/-! ### Writes to RAM, and to a hole (R88) -/

/-- A write to RAM puts each byte of the data at its place in the plan and touches no other byte. -/
theorem State.guestWrite_ram (width : 0 < n ∧ n ≤ 8) (length : pas.length = n) (wf : Memory.wf s1.mem)
    (distinct : pas.Nodup) (planned : s.plan .write s.g.req.a n false = (.ok ⟨pas, pages⟩, s1))
    (ram : GoesToRam s1.cfg pas) :
    ∃ mem, s.guestWrite n =
        (s1.withMem mem).respond .g (Response.done (accessFlags pages false) 0#64 (pas.headD 0#32)) ∧
      (∀ (j : Nat) (hj : j < pas.length), Memory.byte mem pas[j] = beByte n s.g.req.d j) ∧
      (∀ b, b ∉ pas → Memory.byte mem b = s1.mem.byte b) := by
  refine ⟨_, State.guestWrite_of_stored planned (s1.performWrite_ram _ ram), fun j hj => ?_, fun b outside =>
    Memory.byte_putBytes_zip_of_not_mem wf _ outside⟩
  rw [Memory.byte_putBytes_zip wf distinct _ hj, length, writeData, beByte_lowBytes width.2 (by omega)]

/-- A write with a byte in a hole is `BUS_ERROR` and writes nothing, as one access or byte by byte. -/
theorem State.guestWrite_hole (length : pas.length = n) (width : 0 < n ∧ n ≤ 8)
    (planned : s.plan .write s.g.req.a n false = (.ok ⟨pas, pages⟩, s1))
    (hole : ∃ b ∈ pas, isHole s1.cfg b = true) : s.guestWrite n = s1.respond .g (Response.only .busError) := by
  obtain ⟨b, hb, hole⟩ := hole
  have unmapped : isRam s1.cfg b = false ∧ isMmio s1.cfg b = false := by simpa [isHole] using hole
  refine State.guestWrite_of_bus planned ?_
  cases contiguous : isContiguous pas
  · exact s1.performWrite_split_bus _ contiguous ⟨b, hb, unmapped⟩
  · have run := isContiguous_eq contiguous
    rw [run, length] at hb
    obtain ⟨i, hi, rfl⟩ := mem_byteRun.1 hb
    have bus : route s1.cfg (pas.headD 0#32) n = none := by
      refine route_eq_none.2 ⟨?_, ?_⟩ <;> by_contra one <;> rw [Bool.not_eq_false] at one
      · rw [isRam_of_inOne one (by omega) hi] at unmapped
        cases unmapped.1
      · have device := inOne_part one (i := i) (k := 1) (by omega) (by omega) (by omega)
        rw [inOne_mmio_one, unmapped.2] at device
        cases device
    rw [run, length, s1.performWrite_run _ _ width.1, s1.memWrite_bus _ bus]

/-- `R82`'s byte `j` of the data, as the statements write it. -/
theorem beByte_eq_shift (n j : Nat) (d : DWord) : beByte n d j = (d >>> (8 * (n - j - 1))).setWidth 8 := by
  rw [beByte, Nat.sub_right_comm]

end

end Sys2Proof.Machine

open Sys2Proof Sys2Proof.Machine

/-- Settles O31: the plan of one page is one run of bytes. -/
theorem guestReadWithinPage : Obligations.GuestReadWithinPage := by
  intro n i command s s1 x config within translated
  have width := guestReads_width command
  rw [exec_guestReads command, ← (State.translate_borrowedKept translated).cfg]
  refine ⟨fun c cause => ?_, fun pa success => ?_⟩
  · exact congrArg _
      (State.guestRead_of_cause (State.plan_firstFails translated (Translation.address_of_faultCause cause)) cause)
  · obtain ⟨ram, mmio, bus⟩ :=
      State.guestRead_run width (State.plan_onePage width config within translated success)
    simp only [accessFlags_one] at ram mmio
    exact ⟨fun h => congrArg _ (ram h), fun h => congrArg _ (mmio h), fun h => congrArg _ (bus h)⟩

/-- Settles O32: the plan of two pages is one run when the frames are adjacent and is read byte by byte when they are
not. -/
theorem guestReadAcrossPages : Obligations.GuestReadAcrossPages := by
  intro n i command s s1 s2 t1 t2 config crosses first
  have width := guestReads_width command
  rw [exec_guestReads command]
  refine ⟨fun c cause => ?_, fun pa1 success1 second => ⟨fun c cause => ?_, fun pa2 success2 => ?_⟩⟩
  · exact congrArg _
      (State.guestRead_of_cause (State.plan_firstFails first (Translation.address_of_faultCause cause)) cause)
  · exact congrArg _ (State.guestRead_of_cause
      (State.plan_secondFails crosses first success1 second (Translation.address_of_faultCause cause)) cause)
  · have planned := State.plan_twoPages crosses first success1 second width config success2
    have contiguous := isContiguous_twoFrames width crosses pa1 pa2
    have head := twoFrames_head s.g.req.a n pa1 pa2
    have adjacentRun := twoFrames_adjacent width crosses pa1
    have platform := ((State.translate_borrowedKept first).trans (State.translate_borrowedKept second)).cfg
    rw [← platform] at config ⊢
    dsimp only
    rw [← twoFrames]
    refine ⟨fun adjacent => ?_, fun apart => ?_⟩
    · subst adjacent
      rw [adjacentRun] at planned
      obtain ⟨ram, mmio, bus⟩ := State.guestRead_run width planned
      simp only [accessFlags_two] at ram mmio
      exact ⟨fun h => congrArg _ (ram h), fun h => congrArg _ (mmio h), fun h => congrArg _ (bus h)⟩
    · have split : isContiguous (twoFrames s.g.req.a n pa1 pa2) = false := by rwa [← Bool.not_eq_true, contiguous]
      refine ⟨fun ram => ?_, fun noDevice hole => ?_, fun noHole => ?_, fun pre b post parts before hole => ?_⟩
      · rw [State.guestRead_split_ram split planned ram, accessFlags_two, head]
      · rw [State.guestRead_of_bus planned (s2.performRead_split_bus split noDevice hole)]
      · rw [State.guestRead_split_units split config planned noHole, accessFlags_two, head]
      · rw [parts] at planned split
        rw [State.guestRead_of_bus planned (s2.performRead_hole split before hole)]

/-- Settles O33: the plan of one page is one run of bytes. -/
theorem guestWriteWithinPage : Obligations.GuestWriteWithinPage := by
  intro n i command s s1 x config wf within translated
  have width := guestWrites_width command
  have wf1 := State.translate_memWf wf translated
  rw [exec_guestWrites command, ← (State.translate_borrowedKept translated).cfg]
  refine ⟨fun c cause => ?_, fun pa success => ?_⟩
  · exact congrArg _
      (State.guestWrite_of_cause (State.plan_firstFails translated (Translation.address_of_faultCause cause)) cause)
  · have planned := State.plan_onePage width config within translated success
    obtain ⟨mmio, bus⟩ := State.guestWrite_run width planned
    simp only [accessFlags_one] at mmio
    refine ⟨fun routed => ?_, fun h => congrArg _ (mmio h), fun h => congrArg _ (bus h)⟩
    obtain ⟨mem, answer, bytes, outside⟩ := State.guestWrite_ram width (byteRun_length pa n) wf1
      (byteRun_nodup pa (by omega)) planned (goesToRam_byteRun width routed)
    rw [accessFlags_one, byteRun_head pa width.1] at answer
    refine ⟨mem, congrArg _ answer, fun j hj => ?_, outside⟩
    rw [← beByte_eq_shift, ← bytes j (by simpa using hj), byteRun_getElem]

/-- Settles O34: the plan of two pages is one run when the frames are adjacent and is checked, then written byte by
byte when they are not. -/
theorem guestWriteAcrossPages : Obligations.GuestWriteAcrossPages := by
  intro n i command s s1 s2 t1 t2 config wf crosses first
  have width := guestWrites_width command
  rw [exec_guestWrites command]
  refine ⟨fun c cause => ?_, fun pa1 success1 second => ⟨fun c cause => ?_, fun pa2 success2 => ?_⟩⟩
  · exact congrArg _
      (State.guestWrite_of_cause (State.plan_firstFails first (Translation.address_of_faultCause cause)) cause)
  · exact congrArg _ (State.guestWrite_of_cause
      (State.plan_secondFails crosses first success1 second (Translation.address_of_faultCause cause)) cause)
  · have wf2 := State.translate_memWf (State.translate_memWf wf first) second
    have planned := State.plan_twoPages crosses first success1 second width config success2
    have contiguous := isContiguous_twoFrames width crosses pa1 pa2
    have head := twoFrames_head s.g.req.a n pa1 pa2
    have length := twoFrames_length width crosses pa1 pa2
    have adjacentRun := twoFrames_adjacent width crosses pa1
    have platform := ((State.translate_borrowedKept first).trans (State.translate_borrowedKept second)).cfg
    rw [← platform] at config ⊢
    dsimp only
    rw [← twoFrames]
    refine ⟨fun ram oneRegion => ?_, fun adjacent => ?_, fun apart noHole => ?_, fun hole => ?_⟩
    · have inside := firstPart_lt width crosses
      have goes : GoesToRam s2.cfg (twoFrames s.g.req.a n pa1 pa2) :=
        ⟨ram, fun run => by rw [head, length]; exact oneRegion (contiguous.1 run)⟩
      obtain ⟨mem, answer, written, outside⟩ := State.guestWrite_ram width length wf2
        (planAccess_nodup (by omega) planned) planned goes
      rw [accessFlags_two, head] at answer
      refine ⟨mem, congrArg _ answer, fun j hj => ?_, fun j hj => ?_, outside⟩
      · have placed := written j (by omega)
        rwa [twoFrames_getElem_first pa1 pa2 hj, beByte_eq_shift] at placed
      · have placed := written (firstPart s.g.req.a + j) (by omega)
        rwa [twoFrames_getElem_second, beByte_eq_shift, Nat.sub_add_eq] at placed
    · subst adjacent
      rw [adjacentRun] at planned
      obtain ⟨mmio, bus⟩ := State.guestWrite_run width planned
      simp only [accessFlags_two] at mmio
      exact ⟨fun h => congrArg _ (mmio h), fun h => congrArg _ (bus h)⟩
    · have split : isContiguous (twoFrames s.g.req.a n pa1 pa2) = false := by rwa [← Bool.not_eq_true, contiguous]
      rw [State.guestWrite_split_units split config width length planned noHole, accessFlags_two, head]
    · rw [State.guestWrite_hole length width planned hole]
end

section
/-! A guest store to RAM read back (source property E3): where no page of the access goes through the page table, its
plan is the same before and after the store, for the guest and for the host. -/

namespace Sys2Proof.Machine

section
variable {s t : State} {a : Word}

/-- The access to this address does not reach the page table: translation is off or a descriptor maps it. -/
def State.bypassesAt (s : State) (a : Word) : Prop :=
  s.cpu.msrDr = false ∨ descMapped (s.descriptor .data a) = true

theorem State.bypassesAt_of_mem {ea : Word} {n : Nat} (bypass : s.bypassesPages ea n = true)
    (inside : a ∈ byteRun ea n) : s.bypassesAt a := by
  rw [State.bypassesPages, Bool.or_eq_true, Bool.not_eq_true', List.all_eq_true] at bypass
  exact bypass.imp_right fun mapped => mapped a inside

/-- Every data mode answers alike there, in every state with the same platform, processor and table, and changes
nothing. -/
theorem State.translate_of_bypasses {m m' : Mode} (side : m.side = .data) (side' : m'.side = .data)
    (platform : t.cfg = s.cfg) (processor : t.cpu = s.cpu) (table : t.dbatTable = s.dbatTable)
    (bypass : s.bypassesAt a) :
    ∃ x, s.translate m a false = (x, s) ∧ t.translate m' a false = (x, t) := by
  have enable : t.translationOn .data = s.translationOn .data := congrArg Cpu.msrDr processor
  have entry : t.descriptor .data a = s.descriptor .data a := by
    rw [State.descriptor, State.descriptor, platform]
    exact congrArg (fun cells => Sparse.get 0#32 cells _) table
  cases on : s.translationOn .data
  · exact ⟨.untranslated a, State.translate_of_off (by rwa [side]) false,
      State.translate_of_off (by rwa [side', enable]) false⟩
  · have mapped : descMapped (s.descriptor .data a) = true :=
      bypass.resolve_left fun off => Bool.false_ne_true (off.symm.trans on)
    refine ⟨_, State.translate_of_mapped (by rwa [side]) (by rwa [side]) false, ?_⟩
    rw [State.translate_of_mapped (by rwa [side', enable]) (by rwa [side', entry]) false, side, side', entry, platform]

end

/-- Two translators that answer alike and change nothing, on the pages of the access, make the same plan. -/
theorem planAccess_of_same {tr tr' : Word → State → Translation × State} {s s1 t : State} {ea : Word} {n : Nat}
    {r : Planned} (first : ∃ x, tr ea s = (x, s) ∧ tr' ea t = (x, t))
    (second : samePage ea (lastByte ea n) = false →
      ∃ x, tr (secondPage ea n) s = (x, s) ∧ tr' (secondPage ea n) t = (x, t))
    (planned : planAccess tr ea n s = (r, s1)) : s1 = s ∧ planAccess tr' ea n t = (r, t) := by
  obtain ⟨x, e, e'⟩ := first
  unfold planAccess at planned ⊢
  rw [e] at planned
  rw [e']
  dsimp only at planned ⊢
  split at planned
  · cases planned; exact ⟨rfl, rfl⟩
  · split at planned
    · rename_i within
      cases planned; exact ⟨rfl, by rw [if_pos within]⟩
    · rename_i crosses
      obtain ⟨y, f, f'⟩ := second (by simpa using crosses)
      rw [f] at planned
      rw [if_neg crosses, f']
      dsimp only at planned ⊢
      split at planned <;> cases planned <;> exact ⟨rfl, rfl⟩

/-- The plan of a store that bypasses the page table is the plan of a later guest read or host access. -/
theorem State.plan_of_bypasses {s s1 t : State} {ea : Word} {n : Nat} {r : Planned} (width : 0 < n ∧ n ≤ 8)
    (platform : t.cfg = s.cfg) (processor : t.cpu = s.cpu) (table : t.dbatTable = s.dbatTable)
    (bypass : s.bypassesPages ea n = true) (planned : s.plan .write ea n false = (r, s1)) :
    s1 = s ∧ t.plan .read ea n false = (r, t) ∧ t.hostPlan .effective .data ea n = (r, t) := by
  have alike {a : Word} (inside : a ∈ byteRun ea n) {m' : Mode} (side' : m'.side = .data) :=
    State.translate_of_bypasses (m := .write) rfl side' platform processor table
      (State.bypassesAt_of_mem bypass inside)
  have head : ea ∈ byteRun ea n := mem_byteRun.2 ⟨0, width.1, by simp⟩
  have same {m' : Mode} (side' : m'.side = .data) {tr' : Word → State → Translation × State}
      (hostOrGuest : tr' = fun a u => u.translate m' a false) : s1 = s ∧ planAccess tr' ea n t = (r, t) := by
    subst hostOrGuest
    exact planAccess_of_same (tr := guestTranslator .write false) (alike head side')
      (fun crosses => alike (secondPage_mem_byteRun width crosses) side') planned
  obtain ⟨unchanged, read⟩ := same (m' := .read) rfl (tr' := guestTranslator .read false) rfl
  obtain ⟨-, host⟩ := same (m' := .noException) rfl (tr' := hostTranslator .effective .noException) rfl
  exact ⟨unchanged, read, host⟩

/-- A guest write that ends `OK` and called no handler: what it planned and performed. -/
theorem State.guestWrite_ok {s : State} {n : Nat} (ok : (s.guestWrite n).g.rsp.status = .ok)
    (noDevice : (s.guestWrite n).g.rsp.flags.mmio = false) :
    ∃ p s1 s2, s.plan .write s.g.req.a n false = (.ok p, s1) ∧
      s1.performWrite p.pas (writeData n s.g.req.d) = (some false, s2) ∧
      s.guestWrite n = s2.respond .g (Response.done (accessFlags p.pages false) 0#64 (p.pas.headD 0#32)) := by
  rcases planned : s.plan .write s.g.req.a n false with ⟨p | ⟨eaF, x⟩, s1⟩
  · rcases performed : s1.performWrite p.pas (writeData n s.g.req.d) with ⟨_ | via, s2⟩
    · rw [State.guestWrite_of_bus planned performed] at ok
      cases ok
    · have answer := State.guestWrite_of_stored planned performed
      rw [answer] at noDevice
      cases (noDevice : via = false)
      exact ⟨p, s1, s2, rfl, performed, answer⟩
  · rw [State.guestWrite_of_fail planned] at ok
    cases ok

/-- After a store to RAM that bypasses the page table, guest and host plan the bytes stored to and read the value. -/
theorem State.guestWrite_readBack {s t : State} {n : Nat} (config : configOk s.cfg = true) (wf : Memory.wf s.mem)
    (width : 0 < n ∧ n ≤ 8) (bypass : s.bypassesPages s.g.req.a n = true) (run : s.guestWrite n = t)
    (ok : t.g.rsp.status = .ok) (noDevice : t.g.rsp.flags.mmio = false) :
    ∃ p, t.plan .read s.g.req.a n false = (.ok p, t) ∧ t.hostPlan .effective .data s.g.req.a n = (.ok p, t) ∧
      (∀ b ∈ p.pas, isRam t.cfg b = true) ∧
      t.performRead p.pas = (some ⟨lowBytes n s.g.req.d, false⟩, t) ∧
      t.g.req = s.g.req ∧ t.g.rsp.addr = p.pas.headD 0#32 := by
  obtain ⟨p, s1, s2, planned, performed, answer⟩ := State.guestWrite_ok (run ▸ ok) (run ▸ noDevice)
  obtain ⟨rfl, -⟩ := State.plan_of_bypasses width rfl rfl rfl bypass planned
  have length := planAccess_length planned
  have ram := s1.goesToRam_of_performWrite config length width performed
  rw [s1.performWrite_ram _ ram] at performed
  cases performed
  rw [run] at answer
  have platform : t.cfg = s1.cfg := by rw [answer]; rfl
  have processor : t.cpu = s1.cpu := by rw [answer]; rfl
  have table : t.dbatTable = s1.dbatTable := by rw [answer]; rfl
  obtain ⟨-, planRead, planHost⟩ := State.plan_of_bypasses width platform processor table bypass planned
  have back := State.performRead_after_write s1.g.req.d wf ram (planAccess_nodup (by omega) planned) length platform
    (by rw [answer]; rfl)
  exact ⟨p, planRead, planHost, by rw [platform]; exact ram.1, back, by rw [answer]; rfl, by rw [answer]; rfl⟩

/-! ### Host reads (R312, R316) -/

/-- A command that reads `n` bytes for the host in the effective space. -/
theorem exec_hostReads {n : Nat} {ih it i : Instr} (read : (n, ih) ∈ hostReads .effective)
    (tryRead : (n, it) ∈ hostTryReads .effective) (command : i ∈ [ih, it]) (s : State) :
    ∃ ramOnly, exec i s = .next (State.hostRead .effective n ramOnly s) := by
  simp only [hostReads, List.mem_cons, Prod.mk.injEq, List.not_mem_nil, or_false] at read
  simp only [hostTryReads, List.mem_cons, Prod.mk.injEq, List.not_mem_nil, or_false] at tryRead
  simp only [List.mem_cons, List.not_mem_nil, or_false] at command
  rcases command with rfl | rfl
  · refine ⟨false, ?_⟩
    rcases read with ⟨rfl, rfl⟩ | ⟨rfl, rfl⟩ | ⟨rfl, rfl⟩ | ⟨rfl, rfl⟩ <;> rfl
  · refine ⟨true, ?_⟩
    rcases tryRead with ⟨rfl, rfl⟩ | ⟨rfl, rfl⟩ | ⟨rfl, rfl⟩ | ⟨rfl, rfl⟩ <;> rfl

/-- A host read of RAM, of either form. -/
theorem State.hostRead_of_loaded {s s1 s2 : State} {n : Nat} {p : Plan} {l : Loaded} (ramOnly : Bool)
    (planned : s.hostPlan .effective .data s.h.req.a n = (.ok p, s1)) (ram : ∀ b ∈ p.pas, isRam s1.cfg b = true)
    (performed : s1.performRead p.pas = (some l, s2)) :
    State.hostRead .effective n ramOnly s =
      s2.respond .h (Response.access l.value (p.pas.headD 0#32) (accessFlags p.pages l.viaHandler)) := by
  have allowed : (ramOnly && !allRam s1.cfg p.pas) = false := by
    rw [allRam, List.all_eq_true.2 ram]
    simp
  have loaded : s.hostLoad .effective n s.h.req.a ramOnly =
      (some (l.value, p.pas.headD 0#32, accessFlags p.pages l.viaHandler), s2) := by
    rw [State.hostLoad, planned]
    simp only [allowed, performed, Bool.false_eq_true, if_false]
  rw [State.hostRead, show (s.req .h).a = s.h.req.a from rfl, loaded]

end Sys2Proof.Machine

open Sys2Proof Sys2Proof.Machine

/-- Settles O35: the store went to RAM by a plan that any later read makes again. -/
theorem writeThenReadRoundTrip : Obligations.WriteThenReadRoundTrip := by
  intro n iw ir ih it write read host tryHost s t config wf bypass run ok noDevice
  rw [exec_guestWrites write, Host.Outcome.next.injEq] at run
  obtain ⟨p, planRead, planHost, ram, back, request, addr⟩ :=
    State.guestWrite_readBack config wf (guestWrites_width write) bypass run ok noDevice
  rw [← request] at planRead planHost
  refine ⟨⟨_, (exec_guestReads read t).trans (congrArg _ (State.guestRead_of_loaded planRead back)), rfl, addr.symm,
    rfl, rfl⟩, fun sameAddress i command => ?_⟩
  obtain ⟨ramOnly, run⟩ := exec_hostReads host tryHost command t
  rw [request, ← sameAddress] at planHost
  exact ⟨_, run.trans (congrArg _ (State.hostRead_of_loaded ramOnly planHost ram back)), rfl, rfl, rfl⟩
end

section
/-! What a guest access leaves unchanged (`20_memory.md` R87, R94, `60_exceptions.md` R376): the frame of each part, one
translation, one performed access and one answer, and the frames in a row. -/

namespace Sys2Proof.Machine

/-- `t` is `s` but for the response of port G, the listed data cache sets, the listed bytes of the store, and the record
of handler calls and messages; store and data cache are in canonical form. -/
structure AccessFrame (s : State) (written : List Word) (moved : List Nat) (t : State) : Prop where
  fields : t = { s with
    g := { s.g with rsp := t.g.rsp }
    dtlb := t.dtlb
    mem := t.mem
    handlerCalls := t.handlerCalls
    trace := t.trace }
  memWf : Memory.wf t.mem
  tlbWf : Sparse.WF TlbSet.empty t.dtlb
  bytes : ∀ b, b ∉ written → t.mem.byte b = s.mem.byte b
  sets : ∀ k, k ∉ moved → t.tlbSet .data k = s.tlbSet .data k

namespace AccessFrame

variable {s t u : State} {ws vs : List Word} {ks js : List Nat}

theorem refl (memWf : Memory.wf s.mem) (tlbWf : Sparse.WF TlbSet.empty s.dtlb) : AccessFrame s [] [] s :=
  ⟨rfl, memWf, tlbWf, fun _ _ => rfl, fun _ _ => rfl⟩

theorem trans (frame : AccessFrame s ws ks t) (next : AccessFrame t vs js u) :
    AccessFrame s (ws ++ vs) (ks ++ js) u := by
  refine ⟨?_, next.memWf, next.tlbWf, fun b outside => ?_, fun k other => ?_⟩
  · rw [next.fields, frame.fields]
  · rw [List.mem_append, not_or] at outside
    rw [next.bytes b outside.2, frame.bytes b outside.1]
  · rw [List.mem_append, not_or] at other
    rw [next.sets k other.2, frame.sets k other.1]

theorem mono (frame : AccessFrame s ws ks t) (bytes : ws ⊆ vs) (sets : ks ⊆ js) : AccessFrame s vs js t :=
  { frame with
    bytes := fun b outside => frame.bytes b fun hb => outside (bytes hb)
    sets := fun k other => frame.sets k fun hk => other (sets hk) }

theorem respond (frame : AccessFrame s ws ks t) (r : Response) : AccessFrame s ws ks (t.respond .g r) :=
  { frame with fields := by rw [frame.fields]; rfl }

theorem raise (frame : AccessFrame s ws ks t) (msg : FaultMsg) : AccessFrame s ws ks (t.raise .g msg) :=
  { frame with fields := by rw [frame.fields]; rfl }

theorem stores (frame : AccessFrame s ws ks t) (stored : Stores t vs u) : AccessFrame s (ws ++ vs) ks u := by
  obtain ⟨fields, -⟩ := stored.calls
  have cache : u.dtlb = t.dtlb := by rw [fields]; rfl
  have access : AccessFrame t vs [] u := by
    refine ⟨by rw [fields]; rfl, stored.wf frame.memWf, by rw [cache]; exact frame.tlbWf, stored.outside frame.memWf,
      fun k _ => ?_⟩
    rw [State.tlbSet, State.tlbSet]
    exact congrArg (fun tlb => Sparse.get TlbSet.empty tlb k) cache
  simpa using frame.trans access

/-- One translation on the data side (O20's frame); it calls no handler. -/
theorem translate {m : Mode} {ea : Word} {x : Translation} (side : m.side = .data)
    (frame : AccessFrame s ws ks t) (translated : t.translate m ea false = (x, u)) :
    AccessFrame s (ws ++ t.pteBytes ea) (ks ++ [setIndex t.cfg ea]) u ∧ u.handlerCalls = t.handlerCalls := by
  have tlbWf : Sparse.WF TlbSet.empty (t.tlb m.side) := by rw [side]; exact frame.tlbWf
  obtain ⟨fields, memWf, tlbWf, bytes, sets, -⟩ :=
    translationFrame t u m ea false x frame.memWf tlbWf translated
  rw [side] at fields tlbWf sets
  refine ⟨frame.trans ⟨?_, memWf, tlbWf, bytes, fun k other => sets k (by simpa using other)⟩, ?_⟩
  · rw [fields]
    rfl
  · rw [fields]
    rfl

end AccessFrame

/-! ### The plan (R87) -/

theorem setIndex_secondPage (c : Config) (ea : Word) (n : Nat) :
    setIndex c (secondPage ea n) = setIndex c (lastByte ea n) := by
  have page : secondPage ea n = byteAddress (lastByte ea n) 0#32 := by simp [secondPage, byteAddress]
  rw [setIndex, setIndex, eaPage_toNat, eaPage_toNat, page, byteAddress_toNat]
  simp

/-- A plan moves the sets of its pages and the page-table words of its pages, and calls no handler. -/
theorem State.plan_frame {s s1 : State} {m : Mode} {ea : Word} {n : Nat} {r : Planned} (memWf : Memory.wf s.mem)
    (tlbWf : Sparse.WF TlbSet.empty s.dtlb) (side : m.side = .data) (planned : s.plan m ea n false = (r, s1)) :
    AccessFrame s (s.touchedPtes m ea n) [setIndex s.cfg ea, setIndex s.cfg (lastByte ea n)] s1 ∧
      s1.handlerCalls = s.handlerCalls := by
  rcases e1 : s.translate m ea false with ⟨x, u⟩
  obtain ⟨first, quiet⟩ := (AccessFrame.refl memWf tlbWf).translate side e1
  have firstOnly : AccessFrame s (s.touchedPtes m ea n) [setIndex s.cfg ea, setIndex s.cfg (lastByte ea n)] u :=
    first.mono (List.subset_append_left _ _) (by simp)
  rcases failure : x.address with _ | pa1
  · rw [State.plan_firstFails e1 failure] at planned
    cases planned
    exact ⟨firstOnly, quiet⟩
  · unfold State.plan planAccess at planned
    rw [show guestTranslator m false ea s = (x, u) from e1] at planned
    simp only [failure] at planned
    split at planned
    · cases planned
      exact ⟨firstOnly, quiet⟩
    · rename_i crosses
      rcases e2 : u.translate m (secondPage ea n) false with ⟨y, v⟩
      obtain ⟨second, quiet'⟩ := first.translate side e2
      rw [show guestTranslator m false (secondPage ea n) u = (y, v) from e2] at planned
      have last : s1 = v := by
        dsimp only at planned
        split at planned <;> cases planned <;> rfl
      rw [last, quiet', quiet]
      refine ⟨second.mono ?_ ?_, rfl⟩
      · rw [State.touchedPtes, if_neg crosses, e1]
        simp
      · rw [(State.translate_borrowedKept e1).cfg, setIndex_secondPage]
        simp

/-! ### The two commands (R240, R241) -/

section
variable {s : State} (memWf : Memory.wf s.mem) (tlbWf : Sparse.WF TlbSet.empty s.dtlb) (n : Nat)
include memWf tlbWf

/-- Performing a read only calls handlers, and a fault comes before it. -/
theorem State.guestRead_frame :
    AccessFrame s (s.touchedPtes .read s.g.req.a n) [setIndex s.cfg s.g.req.a, setIndex s.cfg (lastByte s.g.req.a n)]
        (s.guestRead n) ∧
      ((s.guestRead n).g.rsp.status = .dsi → (s.guestRead n).handlerCalls = s.handlerCalls) := by
  rcases planned : s.plan .read s.g.req.a n false with ⟨p | ⟨eaF, x⟩, s1⟩ <;>
    obtain ⟨frame, quiet⟩ := State.plan_frame memWf tlbWf rfl planned
  · have performed := frame.stores ((s1.performRead_calls p.pas).stores [])
    rw [List.append_nil] at performed
    rcases e : s1.performRead p.pas with ⟨_ | l, s2⟩ <;> rw [e] at performed
    · rw [State.guestRead_of_bus planned e]
      exact ⟨performed.respond _, fun dsi => by cases dsi⟩
    · rw [State.guestRead_of_loaded planned e]
      exact ⟨performed.respond _, fun dsi => by cases dsi⟩
  · rw [State.guestRead_of_fail planned]
    exact ⟨frame.raise _, fun _ => quiet⟩

/-- Performing a write stores to its target bytes and calls handlers when it ends `OK`, and does nothing when it does
not. -/
theorem State.guestWrite_frame (width : n ≤ 8) :
    AccessFrame s (s.touchedPtes .write s.g.req.a n ++ s.targets .write s.g.req.a n)
        [setIndex s.cfg s.g.req.a, setIndex s.cfg (lastByte s.g.req.a n)] (s.guestWrite n) ∧
      ((s.guestWrite n).g.rsp.status ≠ .ok →
        AccessFrame s (s.touchedPtes .write s.g.req.a n)
            [setIndex s.cfg s.g.req.a, setIndex s.cfg (lastByte s.g.req.a n)] (s.guestWrite n) ∧
          (s.guestWrite n).handlerCalls = s.handlerCalls) := by
  have unstored {t : State} (frame : AccessFrame s (s.touchedPtes .write s.g.req.a n)
      [setIndex s.cfg s.g.req.a, setIndex s.cfg (lastByte s.g.req.a n)] t) :=
    frame.mono (List.subset_append_left _ (s.targets .write s.g.req.a n)) (List.Subset.refl _)
  rcases planned : s.plan .write s.g.req.a n false with ⟨p | ⟨eaF, x⟩, s1⟩ <;>
    obtain ⟨frame, quiet⟩ := State.plan_frame memWf tlbWf rfl planned
  · have length := planAccess_length planned
    obtain ⟨stored, bus⟩ := s1.performWrite_stores (pas := p.pas) (writeData n s.g.req.d) (by omega)
    rcases e : s1.performWrite p.pas (writeData n s.g.req.d) with ⟨_ | via, s2⟩ <;> rw [e] at stored bus
    · cases bus rfl
      rw [State.guestWrite_of_bus planned e]
      exact ⟨unstored (frame.respond _), fun _ => ⟨frame.respond _, quiet⟩⟩
    · rw [State.guestWrite_of_stored planned e, State.targets, planned]
      exact ⟨(frame.stores stored).respond _, fun failed => absurd rfl failed⟩
  · rw [State.guestWrite_of_fail planned]
    exact ⟨unstored (frame.raise _), fun _ => ⟨frame.raise _, quiet⟩⟩

end

end Sys2Proof.Machine

open Sys2Proof Sys2Proof.Machine

/-- Settles O36: the frame of a guest read, set by set. -/
theorem guestReadFrame : Obligations.GuestReadFrame := by
  intro n i command s t memWf tlbWf run
  rw [exec_guestReads command, Host.Outcome.next.injEq] at run
  subst run
  obtain ⟨⟨fields, -, -, bytes, sets⟩, quiet⟩ := State.guestRead_frame memWf tlbWf n
  exact ⟨fields, bytes, fun k first last => sets k (by simp [first, last]), quiet⟩

/-- Settles O37: the frame of a guest write, and the smaller one when it does not end `OK`. -/
theorem guestWriteFrame : Obligations.GuestWriteFrame := by
  intro n i command s t memWf tlbWf run
  rw [exec_guestWrites command, Host.Outcome.next.injEq] at run
  subst run
  obtain ⟨⟨fields, -, -, bytes, sets⟩, failure⟩ := State.guestWrite_frame memWf tlbWf n (guestWrites_width command).2
  refine ⟨fields, fun b untouched untargeted => bytes b (by simp [untouched, untargeted]),
    fun k first last => sets k (by simp [first, last]), fun failed => ?_⟩
  obtain ⟨frame, quiet⟩ := failure failed
  exact ⟨frame.bytes, quiet⟩
end

section
/-! Instruction fetch (`42_access.md` R250 to R252): what the shared body answers, and what each command makes of it. -/

namespace Sys2Proof.Machine

section
variable {s s1 : State} {ea pa : Word} {x : Translation}

theorem wordAligned_iff {a : Word} : wordAligned a = true ↔ a.extractLsb' 0 2 = 0#2 := beq_iff_eq

section
variable (translated : s.translate .opcode ea false = (x, s1))
include translated

theorem State.tryFetch_of_fail (failure : x.address = none) : s.tryFetch ea = (.invalid x, s1) := by
  rw [State.tryFetch, translated]
  simp only [failure]

theorem State.tryFetch_of_ram (success : x.address = some pa) (ram : inOne s1.cfg.ramRegions pa 4 = true) :
    s.tryFetch ea = (.inst ((Memory.readBE s1.mem pa 4).setWidth 32) pa x.flags, s1) := by
  rw [State.tryFetch, translated]
  simp only [success, ram, if_true]

theorem State.tryFetch_of_bus (success : x.address = some pa) (notRam : inOne s1.cfg.ramRegions pa 4 = false) :
    s.tryFetch ea = (.bus, s1) := by
  rw [State.tryFetch, translated]
  simp only [success, notRam, Bool.false_eq_true, if_false]

end

/-! ### The two commands (R251, R252) -/

theorem exec_fetch_of_misaligned {i : Instr} (fetch : i ∈ [Instr.readOpcode, Instr.tryReadInst])
    (misaligned : s.g.req.a.extractLsb' 0 2 ≠ 0#2) : exec i s = .next (s.abort .g .misalignedFetch) := by
  have notWord : ¬ wordAligned (s.req .g).a = true := mt wordAligned_iff.1 misaligned
  simp only [List.mem_cons, List.not_mem_nil, or_false] at fetch
  rcases fetch with rfl | rfl <;> exact if_neg notWord

section
variable (aligned : s.g.req.a.extractLsb' 0 2 = 0#2) {t : State}
include aligned

theorem exec_fetch_of_inst {i : Instr} (fetch : i ∈ [Instr.readOpcode, Instr.tryReadInst]) {hex : Word}
    {flags : Flags} (found : s.tryFetch s.g.req.a = (.inst hex pa flags, t)) :
    exec i s = .next (t.respond .g (Response.fetched hex pa flags)) := by
  simp only [List.mem_cons, List.not_mem_nil, or_false] at fetch
  rcases fetch with rfl | rfl <;>
    exact (if_pos (wordAligned_iff.2 aligned)).trans (by rw [State.req, State.port, found])

theorem exec_fetch_of_bus {i : Instr} (fetch : i ∈ [Instr.readOpcode, Instr.tryReadInst])
    (found : s.tryFetch s.g.req.a = (.bus, t)) : exec i s = .next (t.respond .g (Response.only .busError)) := by
  simp only [List.mem_cons, List.not_mem_nil, or_false] at fetch
  rcases fetch with rfl | rfl <;>
    exact (if_pos (wordAligned_iff.2 aligned)).trans (by rw [State.req, State.port, found])

section
variable (found : s.tryFetch s.g.req.a = (.invalid x, t))
include found

theorem exec_readOpcode_of_invalid :
    exec .readOpcode s = .next (t.raise .g ⟨.isi, false, x.faultCause.getD .pageMiss, s.g.req.a⟩) :=
  (if_pos (wordAligned_iff.2 aligned)).trans (by rw [State.req, State.port, found])

theorem exec_tryReadInst_of_invalid : exec .tryReadInst s = .next (t.respond .g (Response.only .absent)) :=
  (if_pos (wordAligned_iff.2 aligned)).trans (by rw [State.req, State.port, found])

end

end

end

end Sys2Proof.Machine

open Sys2Proof Sys2Proof.Machine

/-- Settles O38: both commands answer from the shared body, which reads RAM of one region and nothing else. -/
theorem fetchReadsRamOnly : Obligations.FetchReadsRamOnly := by
  intro i fetch s s1 x pa aligned translated success
  rw [← (State.translate_borrowedKept translated).cfg]
  exact ⟨fun ram => exec_fetch_of_inst aligned fetch (State.tryFetch_of_ram translated success ram),
    fun notRam => exec_fetch_of_bus aligned fetch (State.tryFetch_of_bus translated success notRam)⟩

/-- Settles O39: the alignment check comes first; the two commands part only on a failed translation. -/
theorem fetchFailures : Obligations.FetchFailures := by
  intro s
  refine ⟨fun s1 x c aligned translated cause => ?_, fun misaligned =>
    ⟨exec_fetch_of_misaligned (by simp) misaligned, exec_fetch_of_misaligned (by simp) misaligned⟩⟩
  have invalid := State.tryFetch_of_fail translated (Translation.address_of_faultCause cause)
  have sent := exec_readOpcode_of_invalid aligned invalid
  rw [cause] at sent
  exact ⟨sent, exec_tryReadInst_of_invalid aligned invalid⟩
end

section
/-! Bytes written one after the other at a base address, and the big-endian bytes of a value that was read
(`20_memory.md` R80, R82). -/

namespace Sys2Proof.Machine

theorem Memory.putBytes_append (m : Memory) (ws vs : List (Word × Byte)) :
    Memory.putBytes m (ws ++ vs) = Memory.putBytes (Memory.putBytes m ws) vs := List.foldl_append

/-- The writes of byte `f i` at `pa + i`, for `i < n`. -/
def runWrites (pa : Word) (n : Nat) (f : Nat → Byte) : List (Word × Byte) :=
  (List.range n).map fun i => (pa + BitVec.ofNat 32 i, f i)

theorem runWrites_keys (pa : Word) (n : Nat) (f : Nat → Byte) : (runWrites pa n f).map Prod.fst = byteRun pa n := by
  rw [runWrites, List.map_map]
  rfl

section
variable {m : Memory} (wf : Memory.wf m) {pa : Word} {n : Nat} (f : Nat → Byte)
include wf

theorem Memory.byte_putBytes_runWrites {i : Nat} (small : n ≤ 2 ^ 32) (inside : i < n) :
    Memory.byte (Memory.putBytes m (runWrites pa n f)) (pa + BitVec.ofNat 32 i) = f i := by
  have distinct : ((runWrites pa n f).map Prod.fst).Nodup := by
    rw [runWrites_keys]
    exact byteRun_nodup pa small
  have listed : (pa + BitVec.ofNat 32 i, f i) ∈ runWrites pa n f :=
    List.mem_map.2 ⟨i, List.mem_range.2 inside, rfl⟩
  exact Memory.byte_putBytes_of_mem wf distinct listed

theorem Memory.byte_putBytes_runWrites_of_not_mem {b : Word} (outside : b ∉ byteRun pa n) :
    Memory.byte (Memory.putBytes m (runWrites pa n f)) b = Memory.byte m b := by
  rw [← runWrites_keys pa n f] at outside
  exact Memory.byte_putBytes_of_not_mem wf fun w listed same => outside (List.mem_map.2 ⟨w, listed, same⟩)

end

/-- Byte `i` of a value that was read is byte `i` of the memory read (R82). -/
theorem beByte_readBE {n i : Nat} (width : n ≤ 8) (inside : i < n) (m : Memory) (pa : Word) :
    beByte n (Memory.readBE m pa n) i = Memory.byte m (pa + BitVec.ofNat 32 i) := by
  refine BitVec.eq_of_getLsbD_eq fun j below => ?_
  have bit : 8 * (n - 1 - i) + j < 8 * n := by omega
  have inWord : 8 * (n - 1 - i) + j < 64 := by omega
  have index : n - 1 - (8 * (n - 1 - i) + j) / 8 = i := by omega
  have offset : (8 * (n - 1 - i) + j) % 8 = j := by omega
  rw [beByte, BitVec.getLsbD_setWidth, BitVec.getLsbD_ushiftRight, Memory.readBE, beValue,
    getLsbD_beFold _ _ _ inWord, List.length_map, byteRun_length, if_pos bit, index, offset]
  simp [below, inside, byteRun, List.getD_eq_getElem?_getD]

/-- Storing a value that was read copies its bytes. -/
theorem zip_beBytes_readBE {n : Nat} (width : n ≤ 8) (m : Memory) (src dst : Word) :
    (byteRun dst n).zip (beBytes n (Memory.readBE m src n)) =
      runWrites dst n fun i => m.byte (src + BitVec.ofNat 32 i) := by
  rw [byteRun, beBytes, List.zip_map', runWrites]
  refine List.map_congr_left fun i inside => ?_
  rw [beByte_readBE width (List.mem_range.1 inside)]

end Sys2Proof.Machine
end

section
/-! The cache-line commands (`43_cacheline_dma.md` R280 to R285): one equation per outcome of the translation. -/

namespace Sys2Proof.Machine

/-- The low five bits of a line address are 0 (R280). -/
theorem extractLsb'_lineAddress (a : Word) : (lineAddress a).extractLsb' 0 5 = 0#5 := by
  have mask : ∀ i < 5, (0xFFFFFFE0#32).getLsbD i = false := by decide
  refine BitVec.eq_of_getLsbD_eq fun i hi => ?_
  rw [BitVec.getLsbD_extractLsb', Nat.zero_add, lineAddress, BitVec.getLsbD_and, mask i hi]
  simp

/-- An address with the page offset of a line address is aligned to a line too. -/
theorem lineAligned_of_sameOffset {pa a : Word} (same : sameOffset pa (lineAddress a)) : pa.extractLsb' 0 5 = 0#5 := by
  have low (x : Word) : x.extractLsb' 0 5 = (x.extractLsb' 0 12).extractLsb' 0 5 := by
    refine BitVec.eq_of_getLsbD_eq fun i below => ?_
    simp [below]
  rw [low, same, ← low, extractLsb'_lineAddress]

theorem State.req_g (s : State) : s.req .g = s.g.req := rfl

section
variable {s s1 : State} {x : Translation} {pa : Word}

/-! ### Translated as a store (R280) -/

section
variable (translated : s.translate .write (lineAddress s.g.req.a) false = (x, s1))
  (body : Word → Translation → State → State)
include translated

theorem State.lineStore_of_cause {c : FaultCause} (cause : x.faultCause = some c) :
    s.lineStore body = s1.raise .g ⟨.dsi, true, c, s.g.req.a⟩ := by
  rw [State.lineStore, State.req_g, translated]
  simp only [Translation.address_of_faultCause cause, cause, Option.getD_some]

theorem State.lineStore_of_address (success : x.address = some pa) : s.lineStore body = body pa x s1 := by
  rw [State.lineStore, State.req_g, translated]
  simp only [success]

end

theorem exec_linePassThroughs {i : Instr} (command : i ∈ linePassThroughs) (s : State) :
    exec i s = .next (s.lineStore linePassThrough) := by
  simp only [linePassThroughs, List.mem_cons, List.not_mem_nil, or_false] at command
  rcases command with rfl | rfl | rfl <;> rfl

theorem exec_dclClear (s : State) : exec .dclClear s = .next (s.lineStore lineZeroFill) := rfl

/-! ### The zero-fill (R281) -/

theorem zeroLine_eq (pa : Word) : ((byteRun pa cacheLine).map fun b => (b, 0#8)) = runWrites pa 32 fun _ => 0#8 := by
  rw [byteRun, List.map_map]
  rfl

theorem lineZeroFill_of_ram (ram : inOne s.cfg.ramRegions pa 32 = true) :
    lineZeroFill pa x s = (s.withMem (Memory.putBytes s.mem (runWrites pa 32 fun _ => 0#8))).respond .g
      (Response.done x.flags 0#64 pa) := by
  rw [← zeroLine_eq]
  exact if_pos ram

theorem lineZeroFill_of_not_ram (notRam : inOne s.cfg.ramRegions pa 32 = false) :
    lineZeroFill pa x s = s.respond .g { Response.done Flags.none 0#64 pa with status := .busError } := by
  unfold lineZeroFill cacheLine
  rw [notRam]
  rfl

/-! ### The hint (R285) -/

theorem State.translate_noException_unchanged (s : State) (ea : Word) (v : Bool) :
    s.translate .noException ea v = ((s.translate .noException ea v).1, s) := by
  rw [(nonMutatingModesArePure s ea v).1]

theorem exec_dclTouch_of_dropped
    (failure : (s.translate .noException (lineAddress s.g.req.a) false).1.address = none) :
    exec .dclTouch s = .next (s.respond .g Response.zero) := by
  rw [exec, execDclTouch, State.req_g, State.translate_noException_unchanged]
  simp only [failure]
  rfl

theorem exec_dclTouch_of_address
    (success : (s.translate .noException (lineAddress s.g.req.a) false).1.address = some pa) :
    exec .dclTouch s = .next (s.respond .g
      (Response.done (s.translate .noException (lineAddress s.g.req.a) false).1.flags 0#64 pa)) := by
  rw [exec, execDclTouch, State.req_g, State.translate_noException_unchanged]
  simp only [success]
  rfl

end

end Sys2Proof.Machine

open Sys2Proof Sys2Proof.Machine

/-- Settles O40: the line keeps its alignment through the translation, and the zero-fill is 32 byte writes in a row. -/
theorem dclClearZeroesTheLine : Obligations.DclClearZeroesTheLine := by
  refine ⟨decode_encode .dclClear, fun s s1 x config wf translated => ⟨fun c cause => ?_, fun pa success => ?_⟩⟩
  · rw [exec_dclClear, State.lineStore_of_cause translated _ cause]
  · have run : exec .dclClear s = .next (lineZeroFill pa x s1) := by
      rw [exec_dclClear, State.lineStore_of_address translated _ success]
    have wf1 : Memory.wf s1.mem := State.translate_memWf wf translated
    rw [run, ← (State.translate_borrowedKept translated).cfg]
    refine ⟨lineAligned_of_sameOffset (State.translate_sameOffset config translated success), fun ram => ?_,
      fun notRam => congrArg _ (lineZeroFill_of_not_ram notRam)⟩
    exact ⟨_, congrArg _ (lineZeroFill_of_ram ram),
      fun j inside => Memory.byte_putBytes_runWrites wf1 (fun _ => 0#8) (by omega) inside,
      fun b outside => Memory.byte_putBytes_runWrites_of_not_mem wf1 (fun _ => 0#8) outside⟩

/-- Settles O41: the three commands share one body, which only responds. -/
theorem lineCommandsMoveNothing : Obligations.LineCommandsMoveNothing := by
  refine ⟨decode_encode .dclStore, decode_encode .dclInvalidate, decode_encode .dclFlush,
    fun i command s s1 x translated => ⟨fun c cause => ?_, fun pa success => ?_⟩⟩
  · rw [exec_linePassThroughs command, State.lineStore_of_cause translated _ cause]
  · rw [exec_linePassThroughs command, State.lineStore_of_address translated _ success]
    rfl

/-- Settles O42: the hint translates under a non-mutating mode (O18), so only the response is written. -/
theorem touchChangesNothing : Obligations.TouchChangesNothing := by
  refine ⟨decode_encode .dclTouch, fun s => ?_⟩
  split
  next failure => exact exec_dclTouch_of_dropped failure
  next pa success => exact exec_dclTouch_of_address success
end

section
/-! Locked-cache DMA (`43_cacheline_dma.md` R286 to R288): the loop over blocks cut in two, and what the copy of RAM to
RAM leaves in each byte. -/

namespace Sys2Proof.Machine

/-! ### The loop over blocks -/

theorem exec_dmaCommands {s : State} {n : BitVec 16} {i : Instr} {src dst : Word} {lcIsSrc : Bool}
    (command : (i, src, dst, lcIsSrc) ∈ dmaCommands s n) : exec i s = .next (s.dmaCopy src dst lcIsSrc n.toNat) := by
  simp only [dmaCommands, List.mem_cons, Prod.mk.injEq, List.not_mem_nil, or_false] at command
  rcases command with ⟨rfl, rfl, rfl, rfl⟩ | ⟨rfl, rfl, rfl, rfl⟩ <;> rfl

@[simp] theorem dmaStart_zero (a : Word) : dmaStart a 0 = lineAddress a := by simp [dmaStart]

theorem State.dmaCopy_eq (s : State) (src dst : Word) (lcIsSrc : Bool) (n : Nat) :
    s.dmaCopy src dst lcIsSrc n =
      (s.dmaBlocks (dmaStart src 0) (dmaStart dst 0) lcIsSrc 0 false n).2.respond .g
        (s.dmaBlocks (dmaStart src 0) (dmaStart dst 0) lcIsSrc 0 false n).1.response := by
  rw [dmaStart_zero, dmaStart_zero]
  rfl

/-- A loop whose first `m` blocks end `OK` goes on from where they leave it (R286). -/
theorem State.dmaBlocks_add {s t : State} {src dst : Word} {lcIsSrc : Bool} {k done c : Nat} {via v : Bool} {m : Nat}
    (first : s.dmaBlocks (dmaStart src k) (dmaStart dst k) lcIsSrc done via m = (⟨.ok, c, v⟩, t)) (r : Nat) :
    s.dmaBlocks (dmaStart src k) (dmaStart dst k) lcIsSrc done via (m + r) =
      t.dmaBlocks (dmaStart src (k + m)) (dmaStart dst (k + m)) lcIsSrc c v r := by
  induction m generalizing s k done via with
  | zero =>
    cases first
    rw [Nat.zero_add, Nat.add_zero]
  | succ m ih =>
    rw [Nat.add_right_comm m 1 r]
    rw [State.dmaBlocks] at first ⊢
    rcases block : s.dmaBlock (dmaStart src k) (dmaStart dst k) lcIsSrc with _ | ⟨h, u⟩ <;> rw [block] at first
    · cases first
    · dsimp only at first ⊢
      rw [dmaStart_succ, dmaStart_succ] at first ⊢
      rw [ih first, Nat.add_right_comm k 1 m, Nat.add_assoc k m 1]

section
variable {s : State} {src dst : Word} {lcIsSrc : Bool} {n : Nat}

/-- The whole loop over good blocks (R286). -/
theorem State.dmaBlocks_of_good (good : ∀ k < n, dmaBlockOk s.cfg src dst lcIsSrc k = true) :
    s.dmaBlocks (dmaStart src 0) (dmaStart dst 0) lcIsSrc 0 false n =
      (⟨.ok, n, dmaViaHandler s.cfg src dst n⟩, s.copiedBlocks src dst n) := by
  rw [s.dmaBlocks_copied src dst lcIsSrc 0 false n fun k _ below => good k (by omega)]
  simp only [Nat.zero_add, Bool.false_or]
  rfl

theorem State.copiedBlocks_cfg (good : ∀ k < n, dmaBlockOk s.cfg src dst lcIsSrc k = true) :
    (s.copiedBlocks src dst n).cfg = s.cfg := by
  have kept := (s.dmaBlocks_stores (dmaStart src 0) (dmaStart dst 0) lcIsSrc 0 false n).1.cfg
  rwa [State.dmaBlocks_of_good good] at kept

/-- The loop at its first bad block (R286): the good blocks before it are copied and counted. -/
theorem State.dmaBlocks_of_bad {k : Nat} (below : k < n) (good : ∀ j < k, dmaBlockOk s.cfg src dst lcIsSrc j = true)
    (bad : dmaBlockOk s.cfg src dst lcIsSrc k = false) :
    s.dmaBlocks (dmaStart src 0) (dmaStart dst 0) lcIsSrc 0 false n =
      (⟨.busError, k, dmaViaHandler s.cfg src dst k⟩, s.copiedBlocks src dst k) := by
  obtain ⟨r, rfl⟩ : ∃ r, n = k + (r + 1) := ⟨n - k - 1, by omega⟩
  rw [State.dmaBlocks_add (State.dmaBlocks_of_good good), Nat.zero_add, State.dmaBlocks, State.dmaBlock_copied,
    State.copiedBlocks_cfg good, bad]
  rfl

end

theorem DmaStop.response_ok (n : BitVec 16) (via : Bool) :
    DmaStop.response ⟨.ok, n.toNat, via⟩ =
      { Response.zero with len := n, flags := { Flags.none with mmio := via } } := by
  rw [DmaStop.response, BitVec.ofNat_toNat, BitVec.setWidth_eq]
  rfl

theorem DmaStop.response_busError (n : BitVec 16) (via : Bool) :
    DmaStop.response ⟨.busError, n.toNat, via⟩ = { Response.only .busError with len := n } := by
  rw [DmaStop.response, BitVec.ofNat_toNat, BitVec.setWidth_eq]
  rfl

/-! ### Blocks that lie in RAM -/

theorem State.unitsRead_ram (s : State) {n : Nat} {pas : List Word}
    (ram : ∀ p ∈ pas, inOne s.cfg.ramRegions p n = true) :
    s.unitsRead n pas = (pas.map fun p => Memory.readBE s.mem p n, s) := by
  induction pas with
  | nil => rfl
  | cons p ps ih =>
    rw [State.unitsRead, if_pos (ram p (by simp)), ih fun q hq => ram q (by simp [hq])]
    rfl

theorem State.unitsWritten_ram (s : State) {n : Nat} {ws : List (Word × DWord)}
    (ram : ∀ w ∈ ws, inOne s.cfg.ramRegions w.1 n = true) :
    s.unitsWritten n ws =
      s.withMem (Memory.putBytes s.mem (ws.flatMap fun w => (byteRun w.1 n).zip (beBytes n w.2))) := by
  induction ws generalizing s with
  | nil => rfl
  | cons w ws ih =>
    rw [State.unitsWritten, if_pos (ram w (by simp)),
      ih (s.withMem (Memory.writeBE s.mem w.1 n w.2)) fun q hq => ram q (by simp [hq]), List.flatMap_cons,
      Memory.putBytes_append]
    rfl

/-- The 32 bytes at `src` copied to `dst`. -/
def Memory.lineCopied (m : Memory) (src dst : Word) : Memory :=
  Memory.putBytes m (runWrites dst 32 fun i => m.byte (src + BitVec.ofNat 32 i))

/-- The four eight-byte writes of a block are its 32 byte writes (R286). -/
theorem dmaPieces_writes (m : Memory) (src dst : Word) :
    (((dmaPieces dst).zip ((dmaPieces src).map fun p => Memory.readBE m p 8)).flatMap
        fun w => (byteRun w.1 8).zip (beBytes 8 w.2)) =
      runWrites dst 32 fun i => m.byte (src + BitVec.ofNat 32 i) := by
  have piece (j : Nat) : (byteRun (dst + BitVec.ofNat 32 (8 * j)) 8).zip
      (beBytes 8 (Memory.readBE m (src + BitVec.ofNat 32 (8 * j)) 8)) =
        (List.range 8).map fun i =>
          (dst + BitVec.ofNat 32 (8 * j + i), m.byte (src + BitVec.ofNat 32 (8 * j + i))) := by
    rw [zip_beBytes_readBE (by omega) m, runWrites]
    simp only [BitVec.add_assoc, ← BitVec.ofNat_add]
  rw [dmaPieces, dmaPieces, List.map_map, List.zip_map', List.flatMap_map]
  simp only [Function.comp_apply, piece]
  rfl

theorem State.copiedBlock_ram {s : State} {src dst : Word} {k : Nat}
    (ram : ∀ p ∈ dmaPieces (dmaStart src k) ++ dmaPieces (dmaStart dst k), inOne s.cfg.ramRegions p 8 = true) :
    s.copiedBlock src dst k = s.withMem (s.mem.lineCopied (dmaStart src k) (dmaStart dst k)) := by
  rw [State.copiedBlock, s.unitsRead_ram fun p hp => ram p (List.mem_append_left _ hp)]
  dsimp only
  rw [s.unitsWritten_ram fun w hw => ram w.1 (List.mem_append_right _ (List.of_mem_zip hw).1), dmaPieces_writes,
    Memory.lineCopied]

/-- The first `n` lines of a DMA command copied, in ascending order. -/
def Memory.linesCopied (m : Memory) (src dst : Word) (n : Nat) : Memory :=
  (List.range n).foldl (fun m k => m.lineCopied (dmaStart src k) (dmaStart dst k)) m

theorem Memory.linesCopied_succ (m : Memory) (src dst : Word) (n : Nat) :
    m.linesCopied src dst (n + 1) = (m.linesCopied src dst n).lineCopied (dmaStart src n) (dmaStart dst n) := by
  rw [Memory.linesCopied, List.range_succ, List.foldl_append, List.foldl_cons, List.foldl_nil, Memory.linesCopied]

theorem State.copiedBlocks_succ (s : State) (src dst : Word) (n : Nat) :
    s.copiedBlocks src dst (n + 1) = (s.copiedBlocks src dst n).copiedBlock src dst n := by
  rw [State.copiedBlocks, List.range_succ, List.foldl_append, List.foldl_cons, List.foldl_nil, State.copiedBlocks]

theorem dmaAllRam_iff {c : Config} {src dst : Word} {n : Nat} :
    dmaAllRam c src dst n = true ↔
      ∀ k < n, ∀ p ∈ dmaPieces (dmaStart src k) ++ dmaPieces (dmaStart dst k), inOne c.ramRegions p 8 = true := by
  simp only [dmaAllRam, List.all_eq_true, List.mem_range, beq_iff_eq, route_eq_ram]

theorem dmaViaHandler_of_allRam {c : Config} {src dst : Word} {n : Nat} (ram : dmaAllRam c src dst n = true) :
    dmaViaHandler c src dst n = false := by
  rw [dmaViaHandler, List.any_eq_false]
  intro k below
  rw [Bool.not_eq_true, List.any_eq_false]
  intro p piece
  rw [dmaAllRam_iff.1 ram k (List.mem_range.1 below) p piece]
  simp

theorem State.copiedBlocks_ram {s : State} {src dst : Word} {n : Nat} (ram : dmaAllRam s.cfg src dst n = true) :
    s.copiedBlocks src dst n = s.withMem (s.mem.linesCopied src dst n) := by
  rw [dmaAllRam_iff] at ram
  induction n with
  | zero => rfl
  | succ n ih =>
    rw [State.copiedBlocks_succ, ih fun k below => ram k (by omega),
      State.copiedBlock_ram (s := s.withMem (s.mem.linesCopied src dst n)) (ram n (by omega)), Memory.linesCopied_succ]
    rfl

/-! ### The bytes of the copy -/

section
variable {m : Memory} (wf : Memory.wf m) {src dst : Word} {n : Nat}
include wf

theorem Memory.linesCopied_wf : Memory.wf (m.linesCopied src dst n) := by
  induction n with
  | zero => exact wf
  | succ n ih =>
    rw [Memory.linesCopied_succ]
    exact Memory.putBytes_wf ih _

theorem Memory.byte_linesCopied_of_not_mem {b : Word} (outside : b ∉ byteRun (lineAddress dst) (32 * n)) :
    (m.linesCopied src dst n).byte b = m.byte b := by
  induction n with
  | zero => rfl
  | succ n ih =>
    have before : b ∉ byteRun (lineAddress dst) (32 * n) := fun hb => by
      obtain ⟨i, hi, rfl⟩ := mem_byteRun.1 hb
      exact outside (mem_byteRun.2 ⟨i, by omega, rfl⟩)
    have last : b ∉ byteRun (dmaStart dst n) 32 := fun hb => by
      obtain ⟨i, hi, rfl⟩ := mem_byteRun.1 hb
      exact outside (mem_byteRun.2 ⟨32 * n + i, by omega, by rw [dmaStart, BitVec.add_assoc, BitVec.ofNat_add]⟩)
    rw [Memory.linesCopied_succ, Memory.lineCopied,
      Memory.byte_putBytes_runWrites_of_not_mem (Memory.linesCopied_wf wf) _ last, ih before]

/-- Where no block writes to the source of a later one, each destination byte is its source byte as it was. -/
theorem Memory.byte_linesCopied (small : 32 * n ≤ 2 ^ 32)
    (unwritten : ∀ k j, 32 * k ≤ j → j < 32 * n →
      lineAddress src + BitVec.ofNat 32 j ∉ byteRun (lineAddress dst) (32 * k))
    {j : Nat} (inside : j < 32 * n) :
    (m.linesCopied src dst n).byte (lineAddress dst + BitVec.ofNat 32 j) =
      m.byte (lineAddress src + BitVec.ofNat 32 j) := by
  induction n with
  | zero => omega
  | succ n ih =>
    rw [Memory.linesCopied_succ, Memory.lineCopied]
    by_cases earlier : j < 32 * n
    · have untouched : lineAddress dst + BitVec.ofNat 32 j ∉ byteRun (dmaStart dst n) 32 := fun hb => by
        obtain ⟨i, hi, same⟩ := mem_byteRun.1 hb
        rw [dmaStart, BitVec.add_assoc, ← BitVec.ofNat_add] at same
        have := add_ofNat_inj (by omega) (by omega) same
        omega
      rw [Memory.byte_putBytes_runWrites_of_not_mem (Memory.linesCopied_wf wf) _ untouched]
      exact ih (by omega) (fun k j later upTo => unwritten k j later (by omega)) earlier
    · obtain ⟨i, rfl⟩ : ∃ i, j = 32 * n + i := ⟨j - 32 * n, by omega⟩
      have place (a : Word) : lineAddress a + BitVec.ofNat 32 (32 * n + i) = dmaStart a n + BitVec.ofNat 32 i := by
        rw [dmaStart, BitVec.add_assoc, BitVec.ofNat_add]
      have source := Memory.byte_linesCopied_of_not_mem (src := src) wf
        (unwritten n (32 * n + i) (by omega) inside)
      rw [place] at source
      rw [place, place, Memory.byte_putBytes_runWrites (Memory.linesCopied_wf wf) _ (by omega) (by omega), source]

end

/-- Ranges apart, or one and the same: no block writes to the source of a later one. -/
theorem dmaSource_unwritten {src dst : Word} {n : Nat} (small : 32 * n ≤ 2 ^ 32)
    (ranges : lineAddress src = lineAddress dst ∨
      ∀ b ∈ byteRun (lineAddress src) (32 * n), b ∉ byteRun (lineAddress dst) (32 * n))
    {k j : Nat} (later : 32 * k ≤ j) (inside : j < 32 * n) :
    lineAddress src + BitVec.ofNat 32 j ∉ byteRun (lineAddress dst) (32 * k) := by
  intro written
  obtain ⟨i, hi, same⟩ := mem_byteRun.1 written
  rcases ranges with equal | apart
  · rw [equal] at same
    have := add_ofNat_inj (by omega) (by omega) same
    omega
  · exact apart _ (mem_byteRun.2 ⟨j, inside, rfl⟩) (mem_byteRun.2 ⟨i, by omega, same⟩)

end Sys2Proof.Machine

open Sys2Proof Sys2Proof.Machine

/-- Settles O43: the loop over good blocks is the fold of the copies; over RAM that fold is a fold of byte writes, none
of them to a source byte still to be read. -/
theorem dmaCopiesEveryBlock : Obligations.DmaCopiesEveryBlock := by
  intro s n i src dst lcIsSrc command good
  have copied : exec i s = .next ((s.copiedBlocks src dst n.toNat).respond .g { Response.zero with
      len := n
      flags := { Flags.none with mmio := dmaViaHandler s.cfg src dst n.toNat } }) := by
    rw [exec_dmaCommands command, State.dmaCopy_eq, State.dmaBlocks_of_good good, DmaStop.response_ok]
  refine ⟨copied, fun wf ram ranges => ?_⟩
  rw [dmaViaHandler_of_allRam ram, State.copiedBlocks_ram ram] at copied
  have small : 32 * n.toNat ≤ 2 ^ 32 := by have := n.isLt; omega
  exact ⟨_, copied,
    fun j inside => Memory.byte_linesCopied wf small
      (fun k j later upTo => dmaSource_unwritten small ranges later upTo) inside,
    fun b outside => Memory.byte_linesCopied_of_not_mem wf outside⟩

/-- Settles O44: the loop is cut at the bad block, and its first part is the loop of the shorter command. -/
theorem dmaStopsAtBadBlock : Obligations.DmaStopsAtBadBlock := by
  intro s n k i ik src dst lcIsSrc command shorter
  refine ⟨fun noBlocks => ?_, fun below good bad => ?_⟩
  · subst noBlocks
    rw [exec_dmaCommands command]
    rfl
  · have copied := (dmaCopiesEveryBlock s k ik src dst lcIsSrc shorter good).1
    refine ⟨_, copied, rfl, rfl, ?_⟩
    rw [exec_dmaCommands command, State.dmaCopy_eq, State.dmaBlocks_of_bad (BitVec.lt_def.1 below) good bad,
      DmaStop.response_busError]
    rfl
end

section
/-! The requested address space of a host command, and the plan of a host access (`44_host_jit.md` R310): a host
translation changes nothing, so the plan is made in one state. -/

namespace Sys2Proof.Machine

/-! ### The requested address space (R122, R310) -/

section
variable {sp : Space}

theorem inLegalSpace_of_legal (legal : sp.isLegal = true) (run : State → State) (s : State) :
    inLegalSpace sp run s = .next (run s) := if_pos legal

theorem inLegalSpace_of_illegal (illegal : sp.isLegal = false) (run : State → State) (s : State) :
    inLegalSpace sp run s = .next (s.abort .h .badSpace) := if_neg (Bool.eq_false_iff.1 illegal)

end

/-- With translation on, virtual-only forces nothing (R172). -/
theorem State.translate_of_on {s : State} {m : Mode} (on : s.translationOn m.side = true) (ea : Word) (v : Bool) :
    s.translate m ea v = s.translate m ea false := by
  unfold State.translate
  simp only [on, if_true]

/-- A command is ill formed only through the address space it names, and then it is a host command. -/
theorem exec_of_illFormed {i : Instr} (illFormed : i.wellFormed = false) (s : State) :
    i.port = .h ∧ exec i s = .next (s.abort .h .badSpace) := by
  cases i with
  | hostRead8 sp | hostRead16 sp | hostRead32 sp | hostRead64 sp
  | hostTryRead8 sp | hostTryRead16 sp | hostTryRead32 sp | hostTryRead64 sp
  | hostWrite8 sp | hostWrite16 sp | hostWrite32 sp | hostWrite64 sp
  | hostTryWrite8 sp | hostTryWrite16 sp | hostTryWrite32 sp | hostTryWrite64 sp
  | hostIsRam sp | hostIsIram sp | hostGetString sp _ | hostGetU16String sp _ =>
    exact ⟨rfl, inLegalSpace_of_illegal illFormed _ s⟩
  | _ => cases illFormed

/-! ### The plan (R310) -/

section
variable {s : State} {sp : Space}

theorem hostTranslator_sameOffset {m : Mode} {a pa : Word} (config : configOk s.cfg = true)
    (success : (hostTranslator sp m a s).1.address = some pa) : sameOffset pa a := by
  cases sp with
  | effective => exact pageOffsetPreserved s m a pa false config success
  | physical => cases success; rfl
  | virtual => exact pageOffsetPreserved s m a pa true config success
  | reserved => cases success

variable {side : Side} {ea pa1 pa2 : Word} {n : Nat}

theorem hostTranslator_hostMode (s : State) (sp : Space) (side : Side) (a : Word) :
    hostTranslator sp side.hostMode a s = ((hostTranslator sp side.hostMode a s).1, s) :=
  Prod.ext rfl (hostTranslator_pure s sp side.hostMode_pure a)

theorem State.hostPlan_onePage (width : 0 < n ∧ n ≤ 8) (config : configOk s.cfg = true)
    (within : samePage ea (lastByte ea n) = true)
    (success : (hostTranslator sp side.hostMode ea s).1.address = some pa1) :
    s.hostPlan sp side ea n = (.ok ⟨byteRun pa1 n, [(hostTranslator sp side.hostMode ea s).1]⟩, s) :=
  planAccess_onePage width.1 (by omega) within (hostTranslator_hostMode s sp side ea) success
    (hostTranslator_sameOffset config success)

theorem State.hostPlan_firstFails (failure : (hostTranslator sp side.hostMode ea s).1.address = none) :
    s.hostPlan sp side ea n = (.fail ea (hostTranslator sp side.hostMode ea s).1, s) :=
  planAccess_firstFails (hostTranslator_hostMode s sp side ea) failure

section
variable (crosses : samePage ea (lastByte ea n) = false)
include crosses

theorem State.hostPlan_eitherFails
    (failure : (hostTranslator sp side.hostMode ea s).1.address = none ∨
      (hostTranslator sp side.hostMode (secondPage ea n) s).1.address = none) :
    ∃ eaF x, s.hostPlan sp side ea n = (.fail eaF x, s) := by
  rcases first : (hostTranslator sp side.hostMode ea s).1.address with _ | pa1
  · exact ⟨_, _, State.hostPlan_firstFails first⟩
  · have second := failure.resolve_left (by rw [first]; exact Option.some_ne_none pa1)
    exact ⟨_, _, planAccess_secondFails crosses (hostTranslator_hostMode s sp side ea) first
      (hostTranslator_hostMode s sp side _) second⟩

theorem State.hostPlan_twoPages (width : 0 < n ∧ n ≤ 8) (config : configOk s.cfg = true)
    (success1 : (hostTranslator sp side.hostMode ea s).1.address = some pa1)
    (success2 : (hostTranslator sp side.hostMode (secondPage ea n) s).1.address = some pa2) :
    s.hostPlan sp side ea n = (.ok ⟨twoFrames ea n pa1 pa2, [(hostTranslator sp side.hostMode ea s).1,
      (hostTranslator sp side.hostMode (secondPage ea n) s).1]⟩, s) :=
  planAccess_twoPages width.1 (by omega) crosses (hostTranslator_hostMode s sp side ea) success1
    (hostTranslator_sameOffset config success1) (hostTranslator_hostMode s sp side _) success2
    (hostTranslator_sameOffset config success2)

end

end

end Sys2Proof.Machine

open Sys2Proof Sys2Proof.Machine

/-- Settles O45: one branch of the translator per space, and the check that comes before every host command. -/
theorem hostSpaces : Obligations.HostSpaces := by
  refine ⟨fun m a s => ⟨rfl, rfl, fun off => ?_, fun on => ?_⟩, fun s i illFormed => exec_of_illFormed illFormed s⟩
  · exact State.translate_of_off off true
  · exact State.translate_of_on on a true
end

section
/-! Host reads and writes (`44_host_jit.md` R312 to R327): what a command answers from its plan.  Where the plan goes to
RAM the plain and the `TRY` form are one command; where it does not, the `TRY` form is `ABSENT`. -/

namespace Sys2Proof.Machine

/-! ### The commands of one shape -/

section
variable {sp : Space} {n : Nat} {ih it iw iv : Instr}

theorem hostReads_width (command : (n, ih) ∈ hostReads sp) : 0 < n ∧ n ≤ 8 := by
  simp only [hostReads, List.mem_cons, Prod.mk.injEq, List.not_mem_nil, or_false] at command
  omega

theorem hostWrites_width (command : (n, iw) ∈ hostWrites sp) : 0 < n ∧ n ≤ 8 := by
  simp only [hostWrites, List.mem_cons, Prod.mk.injEq, List.not_mem_nil, or_false] at command
  omega

theorem hostTryWrites_width (command : (n, iv) ∈ hostTryWrites sp) : 0 < n ∧ n ≤ 8 := by
  simp only [hostTryWrites, List.mem_cons, Prod.mk.injEq, List.not_mem_nil, or_false] at command
  omega

variable (legal : sp.isLegal = true) (s : State)
include legal

theorem exec_of_mem_hostReads (command : (n, ih) ∈ hostReads sp) :
    exec ih s = .next (State.hostRead sp n false s) := by
  simp only [hostReads, List.mem_cons, Prod.mk.injEq, List.not_mem_nil, or_false] at command
  rcases command with ⟨rfl, rfl⟩ | ⟨rfl, rfl⟩ | ⟨rfl, rfl⟩ | ⟨rfl, rfl⟩ <;> exact inLegalSpace_of_legal legal _ s

theorem exec_of_mem_hostTryReads (command : (n, it) ∈ hostTryReads sp) :
    exec it s = .next (State.hostRead sp n true s) := by
  simp only [hostTryReads, List.mem_cons, Prod.mk.injEq, List.not_mem_nil, or_false] at command
  rcases command with ⟨rfl, rfl⟩ | ⟨rfl, rfl⟩ | ⟨rfl, rfl⟩ | ⟨rfl, rfl⟩ <;> exact inLegalSpace_of_legal legal _ s

theorem exec_of_mem_hostWrites (command : (n, iw) ∈ hostWrites sp) :
    exec iw s = .next (State.hostWrite sp n false s) := by
  simp only [hostWrites, List.mem_cons, Prod.mk.injEq, List.not_mem_nil, or_false] at command
  rcases command with ⟨rfl, rfl⟩ | ⟨rfl, rfl⟩ | ⟨rfl, rfl⟩ | ⟨rfl, rfl⟩ <;> exact inLegalSpace_of_legal legal _ s

theorem exec_of_mem_hostTryWrites (command : (n, iv) ∈ hostTryWrites sp) :
    exec iv s = .next (State.hostWrite sp n true s) := by
  simp only [hostTryWrites, List.mem_cons, Prod.mk.injEq, List.not_mem_nil, or_false] at command
  rcases command with ⟨rfl, rfl⟩ | ⟨rfl, rfl⟩ | ⟨rfl, rfl⟩ | ⟨rfl, rfl⟩ <;> exact inLegalSpace_of_legal legal _ s

/-- Either form of the read. -/
theorem exec_hostReadForms (read : (n, ih) ∈ hostReads sp) (tryRead : (n, it) ∈ hostTryReads sp) {i : Instr}
    (command : i ∈ [ih, it]) : ∃ ramOnly, exec i s = .next (State.hostRead sp n ramOnly s) := by
  simp only [List.mem_cons, List.not_mem_nil, or_false] at command
  rcases command with rfl | rfl
  · exact ⟨false, exec_of_mem_hostReads legal s read⟩
  · exact ⟨true, exec_of_mem_hostTryReads legal s tryRead⟩

/-- Either form of the write. -/
theorem exec_hostWriteForms (write : (n, iw) ∈ hostWrites sp) (tryWrite : (n, iv) ∈ hostTryWrites sp) {i : Instr}
    (command : i ∈ [iw, iv]) : ∃ ramOnly, exec i s = .next (State.hostWrite sp n ramOnly s) := by
  simp only [List.mem_cons, List.not_mem_nil, or_false] at command
  rcases command with rfl | rfl
  · exact ⟨false, exec_of_mem_hostWrites legal s write⟩
  · exact ⟨true, exec_of_mem_hostTryWrites legal s tryWrite⟩

end

/-! ### Plans that do not go to RAM -/

theorem not_goesToRam_byteRun {c : Config} {pa : Word} {n : Nat} (width : 0 < n)
    (elsewhere : route c pa n ≠ some .ram) : ¬ GoesToRam c (byteRun pa n) := fun ⟨_, routed⟩ => by
  have ram := routed (isContiguous_byteRun pa n)
  rw [byteRun_head pa width, byteRun_length] at ram
  exact elsewhere ram

/-- Bytes of RAM fail the plan only as one access over the seam of two regions (R84; log entry 22). -/
theorem route_of_not_goesToRam {c : Config} (config : configOk c = true) {pas : List Word}
    (length : 0 < pas.length ∧ pas.length ≤ 8) (ram : ∀ b ∈ pas, isRam c b = true) (notRam : ¬ GoesToRam c pas) :
    isContiguous pas = true ∧ route c (pas.headD 0#32) pas.length = none := by
  obtain ⟨contiguous, elsewhere⟩ : isContiguous pas = true ∧ route c (pas.headD 0#32) pas.length ≠ some .ram := by
    by_contra goes
    exact notRam ⟨ram, fun contiguous => by_contra fun elsewhere => goes ⟨contiguous, elsewhere⟩⟩
  have first : pas.headD 0#32 ∈ pas := by
    cases pas with
    | nil => exact absurd length.1 (Nat.lt_irrefl 0)
    | cons p ps => exact List.mem_cons_self
  refine ⟨contiguous, route_eq_none.2 ⟨?_, ?_⟩⟩
  · exact Bool.eq_false_iff.2 (mt route_eq_ram.2 elsewhere)
  · by_contra device
    rw [Bool.not_eq_false] at device
    have mmio := inOne_part device (i := 0) (k := 1) (by omega) (by omega) (by omega)
    rw [inOne_mmio_one, BitVec.add_zero] at mmio
    exact not_ram_and_mmio config _ ⟨ram _ first, mmio⟩

theorem allRam_eq_true {c : Config} {pas : List Word} : allRam c pas = true ↔ ∀ b ∈ pas, isRam c b = true :=
  List.all_eq_true

/-! ### Loads (R312, R316) -/

section
variable {s t : State} {sp : Space} {n : Nat} {a eaF : Word} {x : Translation} {p : Plan} {ramOnly : Bool}

theorem State.hostLoad_of_fail (planned : s.hostPlan sp .data a n = (.fail eaF x, s)) :
    s.hostLoad sp n a ramOnly = (none, s) := by
  unfold State.hostLoad
  rw [planned]

section
variable (planned : s.hostPlan sp .data a n = (.ok p, s))
include planned

/-- A planned load: nothing for a `TRY` form with a byte that is not RAM, else the read of the plan. -/
theorem State.hostLoad_of_plan :
    s.hostLoad sp n a ramOnly =
      if ramOnly && !allRam s.cfg p.pas then (none, s)
      else ((s.performRead p.pas).1.map fun l => (l.value, p.pas.headD 0#32, accessFlags p.pages l.viaHandler),
        (s.performRead p.pas).2) := by
  unfold State.hostLoad
  rw [planned]
  dsimp only
  split
  · rfl
  · rcases s.performRead p.pas with ⟨_ | l, t⟩ <;> rfl

/-- A read of RAM is the same in both forms. -/
theorem State.hostLoad_of_ram (ram : GoesToRam s.cfg p.pas) :
    s.hostLoad sp n a ramOnly =
      (some (beValue (p.pas.map s.mem.byte), p.pas.headD 0#32, accessFlags p.pages false), s) := by
  rw [State.hostLoad_of_plan planned, allRam_eq_true.2 ram.1, s.performRead_ram ram, Bool.not_true, Bool.and_false]
  rfl

theorem State.hostLoad_try_of_not_ram (config : configOk s.cfg = true) (width : 0 < n ∧ n ≤ 8)
    (notRam : ¬ GoesToRam s.cfg p.pas) : s.hostLoad sp n a true = (none, s) := by
  have length := planAccess_length planned
  rw [State.hostLoad_of_plan planned]
  cases bytes : allRam s.cfg p.pas
  · rfl
  · obtain ⟨contiguous, bus⟩ := route_of_not_goesToRam config (by omega) (allRam_eq_true.1 bytes) notRam
    rw [State.performRead, if_pos contiguous, s.memRead_bus bus]
    rfl

end

theorem State.hostRead_of_none (loaded : s.hostLoad sp n s.h.req.a ramOnly = (none, t)) :
    State.hostRead sp n ramOnly s = t.respond .h (Response.only .absent) := by
  unfold State.hostRead
  rw [show (s.req .h).a = s.h.req.a from rfl, loaded]

theorem State.hostRead_of_some {v : DWord} {pa0 : Word} {flags : Flags}
    (loaded : s.hostLoad sp n s.h.req.a ramOnly = (some (v, pa0, flags), t)) :
    State.hostRead sp n ramOnly s = t.respond .h (Response.done flags v pa0) := by
  unfold State.hostRead
  rw [show (s.req .h).a = s.h.req.a from rfl, loaded]
  rfl

end

/-! ### Stores (R320, R324) -/

section
variable {s t : State} {sp : Space} {n : Nat} {a eaF : Word} {x : Translation} {p : Plan} {ramOnly : Bool} {v : DWord}

theorem State.hostStore_of_fail (planned : s.hostPlan sp .data a n = (.fail eaF x, s)) :
    s.hostStore sp n a v ramOnly = (none, s) := by
  unfold State.hostStore
  rw [planned]

section
variable (planned : s.hostPlan sp .data a n = (.ok p, s))
include planned

/-- A planned store: nothing for a `TRY` form with a byte that is not RAM, else the write of the plan. -/
theorem State.hostStore_of_plan :
    s.hostStore sp n a v ramOnly =
      if ramOnly && !allRam s.cfg p.pas then (none, s)
      else ((s.performWrite p.pas v).1.map fun via => (p.pas.headD 0#32, accessFlags p.pages via),
        (s.performWrite p.pas v).2) := by
  unfold State.hostStore
  rw [planned]
  dsimp only
  split
  · rfl
  · rcases s.performWrite p.pas v with ⟨_ | via, t⟩ <;> rfl

/-- A write to RAM is the same in both forms. -/
theorem State.hostStore_of_ram (ram : GoesToRam s.cfg p.pas) :
    s.hostStore sp n a v ramOnly = (some (p.pas.headD 0#32, accessFlags p.pages false),
      s.withMem (Memory.putBytes s.mem (p.pas.zip (beBytes p.pas.length v)))) := by
  rw [State.hostStore_of_plan planned, allRam_eq_true.2 ram.1, s.performWrite_ram v ram, Bool.not_true, Bool.and_false]
  rfl

theorem State.hostStore_try_of_not_ram (config : configOk s.cfg = true) (width : 0 < n ∧ n ≤ 8)
    (notRam : ¬ GoesToRam s.cfg p.pas) : s.hostStore sp n a v true = (none, s) := by
  have length := planAccess_length planned
  rw [State.hostStore_of_plan planned]
  cases bytes : allRam s.cfg p.pas
  · rfl
  · obtain ⟨contiguous, bus⟩ := route_of_not_goesToRam config (by omega) (allRam_eq_true.1 bytes) notRam
    rw [State.performWrite, if_pos contiguous, s.memWrite_bus v bus]
    rfl

end

theorem State.hostWrite_of_none
    (stored : s.hostStore sp n s.h.req.a (writeData n s.h.req.d) ramOnly = (none, t)) :
    State.hostWrite sp n ramOnly s = t.respond .h (Response.only .absent) := by
  unfold State.hostWrite
  rw [show s.req .h = s.h.req from rfl, stored]

theorem State.hostWrite_of_some {pa0 : Word} {flags : Flags}
    (stored : s.hostStore sp n s.h.req.a (writeData n s.h.req.d) ramOnly = (some (pa0, flags), t)) :
    State.hostWrite sp n ramOnly s = t.respond .h (Response.done flags 0#64 pa0) := by
  unfold State.hostWrite
  rw [show s.req .h = s.h.req from rfl, stored]
  rfl

end

end Sys2Proof.Machine
end

section
/-! The answers of host reads and writes (`44_host_jit.md` R312 to R327), by where the plan goes (`20_memory.md` R84,
R88), and what a host write leaves unchanged. -/

namespace Sys2Proof.Machine

/-! ### Reads (R312, R316) -/

section
variable {s s2 : State} {sp : Space} {n : Nat} {eaF pa : Word} {x : Translation} {pas : List Word}
  {pages : List Translation} {ramOnly : Bool}

theorem State.hostRead_of_fail (planned : s.hostPlan sp .data s.h.req.a n = (.fail eaF x, s)) :
    State.hostRead sp n ramOnly s = s.respond .h (Response.only .absent) :=
  State.hostRead_of_none (State.hostLoad_of_fail planned)

section
variable (planned : s.hostPlan sp .data s.h.req.a n = (.ok ⟨pas, pages⟩, s))
include planned

theorem State.hostRead_of_ram (ram : GoesToRam s.cfg pas) :
    State.hostRead sp n ramOnly s = s.respond .h
      (Response.done (accessFlags pages false) (beValue (pas.map s.mem.byte)) (pas.headD 0#32)) :=
  State.hostRead_of_some (State.hostLoad_of_ram planned ram)

theorem State.hostRead_try_of_not_ram (config : configOk s.cfg = true) (width : 0 < n ∧ n ≤ 8)
    (notRam : ¬ GoesToRam s.cfg pas) :
    State.hostRead sp n true s = s.respond .h (Response.only .absent) :=
  State.hostRead_of_none (State.hostLoad_try_of_not_ram planned config width notRam)

theorem State.hostRead_of_performed {l : Loaded} (performed : s.performRead pas = (some l, s2)) :
    State.hostRead sp n false s =
      s2.respond .h (Response.done (accessFlags pages l.viaHandler) l.value (pas.headD 0#32)) :=
  State.hostRead_of_some (by rw [State.hostLoad_of_plan planned, performed]; rfl)

theorem State.hostRead_of_bus (performed : s.performRead pas = (none, s2)) :
    State.hostRead sp n false s = s2.respond .h (Response.only .absent) :=
  State.hostRead_of_none (by rw [State.hostLoad_of_plan planned, performed]; rfl)

end

/-- A read over a run of bytes goes where the dispatch sends it; a `TRY` form goes to RAM only. -/
theorem State.hostRead_run (config : configOk s.cfg = true) (width : 0 < n ∧ n ≤ 8)
    (planned : s.hostPlan sp .data s.h.req.a n = (.ok ⟨byteRun pa n, pages⟩, s)) :
    (route s.cfg pa n = some .ram → ∀ ramOnly, State.hostRead sp n ramOnly s =
      s.respond .h (Response.done (accessFlags pages false) (Memory.readBE s.mem pa n) pa)) ∧
    (route s.cfg pa n = some .mmio →
      State.hostRead sp n false s = (s.mmioRead pa n).2.respond .h
        (Response.done (accessFlags pages true) (s.mmioRead pa n).1 pa) ∧
      State.hostRead sp n true s = s.respond .h (Response.only .absent)) ∧
    (route s.cfg pa n = none → ∀ ramOnly, State.hostRead sp n ramOnly s =
      s.respond .h (Response.only .absent)) := by
  have oneAccess := s.performRead_run pa width.1
  have head := byteRun_head pa width.1
  have tryForm (elsewhere : route s.cfg pa n ≠ some .ram) :=
    State.hostRead_try_of_not_ram planned config width (not_goesToRam_byteRun width.1 elsewhere)
  refine ⟨fun ram ramOnly => ?_, fun mmio => ⟨?_, tryForm (by simp [mmio])⟩, fun bus ramOnly => ?_⟩
  · rw [State.hostRead_of_ram planned (goesToRam_byteRun width ram), head]
    rfl
  · rw [State.hostRead_of_performed planned (oneAccess.trans (s.memRead_mmio mmio)), head]
  · cases ramOnly
    · exact State.hostRead_of_bus planned (oneAccess.trans (s.memRead_bus bus))
    · exact tryForm (by simp [bus])

end

/-! ### Writes (R320, R324) -/

section
variable {s s2 : State} {sp : Space} {n : Nat} {eaF pa : Word} {x : Translation} {pas : List Word}
  {pages : List Translation} {ramOnly : Bool}

theorem State.hostWrite_of_fail (planned : s.hostPlan sp .data s.h.req.a n = (.fail eaF x, s)) :
    State.hostWrite sp n ramOnly s = s.respond .h (Response.only .absent) :=
  State.hostWrite_of_none (State.hostStore_of_fail planned)

section
variable (planned : s.hostPlan sp .data s.h.req.a n = (.ok ⟨pas, pages⟩, s))
include planned

theorem State.hostWrite_try_of_not_ram (config : configOk s.cfg = true) (width : 0 < n ∧ n ≤ 8)
    (notRam : ¬ GoesToRam s.cfg pas) :
    State.hostWrite sp n true s = s.respond .h (Response.only .absent) :=
  State.hostWrite_of_none (State.hostStore_try_of_not_ram planned config width notRam)

theorem State.hostWrite_of_performed {via : Bool}
    (performed : s.performWrite pas (writeData n s.h.req.d) = (some via, s2)) :
    State.hostWrite sp n false s =
      s2.respond .h (Response.done (accessFlags pages via) 0#64 (pas.headD 0#32)) :=
  State.hostWrite_of_some (by rw [State.hostStore_of_plan planned, performed]; rfl)

theorem State.hostWrite_of_bus (performed : s.performWrite pas (writeData n s.h.req.d) = (none, s2)) :
    State.hostWrite sp n false s = s2.respond .h (Response.only .absent) :=
  State.hostWrite_of_none (by rw [State.hostStore_of_plan planned, performed]; rfl)

/-- A write to RAM, of either form, puts each byte of the data at its place in the plan and touches no other byte. -/
theorem State.hostWrite_of_ram (width : 0 < n ∧ n ≤ 8) (wf : Memory.wf s.mem) (ram : GoesToRam s.cfg pas) :
    ∃ mem, (∀ ramOnly, State.hostWrite sp n ramOnly s =
        (s.withMem mem).respond .h (Response.done (accessFlags pages false) 0#64 (pas.headD 0#32))) ∧
      (∀ (j : Nat) (hj : j < pas.length), Memory.byte mem pas[j] = beByte n s.h.req.d j) ∧
      (∀ b, b ∉ pas → Memory.byte mem b = s.mem.byte b) := by
  have distinct : pas.Nodup := planAccess_nodup (by omega) planned
  refine ⟨_, fun ramOnly => State.hostWrite_of_some (State.hostStore_of_ram planned ram), fun j hj => ?_,
    fun b outside => Memory.byte_putBytes_zip_of_not_mem wf _ outside⟩
  have length : pas.length = n := planAccess_length planned
  rw [Memory.byte_putBytes_zip wf distinct _ hj, length, writeData, beByte_lowBytes width.2 (by omega)]

end

/-- A write over a run of bytes goes where the dispatch sends it; RAM is `State.hostWrite_of_ram`. -/
theorem State.hostWrite_run (config : configOk s.cfg = true) (width : 0 < n ∧ n ≤ 8)
    (planned : s.hostPlan sp .data s.h.req.a n = (.ok ⟨byteRun pa n, pages⟩, s)) :
    (route s.cfg pa n = some .mmio →
      State.hostWrite sp n false s = (s.mmioWrite pa n s.h.req.d).respond .h
        (Response.done (accessFlags pages true) 0#64 pa) ∧
      State.hostWrite sp n true s = s.respond .h (Response.only .absent)) ∧
    (route s.cfg pa n = none → ∀ ramOnly, State.hostWrite sp n ramOnly s =
      s.respond .h (Response.only .absent)) := by
  have oneAccess := s.performWrite_run pa (writeData n s.h.req.d) width.1
  have tryForm (elsewhere : route s.cfg pa n ≠ some .ram) :=
    State.hostWrite_try_of_not_ram planned config width (not_goesToRam_byteRun width.1 elsewhere)
  refine ⟨fun mmio => ⟨?_, tryForm (by simp [mmio])⟩, fun bus ramOnly => ?_⟩
  · rw [State.hostWrite_of_performed planned (oneAccess.trans (s.memWrite_mmio _ mmio)), byteRun_head pa width.1,
      writeData_mmioWrite]
  · cases ramOnly
    · exact State.hostWrite_of_bus planned (oneAccess.trans (s.memWrite_bus _ bus))
    · exact tryForm (by simp [bus])

end

end Sys2Proof.Machine

open Sys2Proof Sys2Proof.Machine

/-- Settles O46: the plan of one page is one run of bytes. -/
theorem hostReadWithinPage : Obligations.HostReadWithinPage := by
  intro sp legal n ih it read tryRead s config within
  have width := hostReads_width read
  have forms {i : Instr} (command : i ∈ [ih, it]) := exec_hostReadForms legal s read tryRead command
  refine ⟨fun failure i command => ?_, fun pa success => ?_⟩
  · obtain ⟨ramOnly, run⟩ := forms command
    rw [run, State.hostRead_of_fail (State.hostPlan_firstFails failure)]
  · obtain ⟨ram, mmio, bus⟩ :=
      State.hostRead_run config width (State.hostPlan_onePage (side := .data) width config within success)
    simp only [accessFlags_one] at ram mmio
    rw [exec_of_mem_hostReads legal s read, exec_of_mem_hostTryReads legal s tryRead]
    refine ⟨fun routed i command => ?_, fun routed => ?_, fun routed i command => ?_⟩
    · obtain ⟨ramOnly, run⟩ := forms command
      exact run.trans (congrArg _ (ram routed ramOnly))
    · exact (mmio routed).imp (congrArg _) (congrArg _)
    · obtain ⟨ramOnly, run⟩ := forms command
      exact run.trans (congrArg _ (bus routed ramOnly))

/-- Settles O47: the plan of one page is one run of bytes. -/
theorem hostWriteWithinPage : Obligations.HostWriteWithinPage := by
  intro sp legal n iw iv write tryWrite s config wf within
  have width := hostWrites_width write
  have forms {i : Instr} (command : i ∈ [iw, iv]) := exec_hostWriteForms legal s write tryWrite command
  refine ⟨fun failure i command => ?_, fun pa success => ?_⟩
  · obtain ⟨ramOnly, run⟩ := forms command
    rw [run, State.hostWrite_of_fail (State.hostPlan_firstFails failure)]
  · have planned := State.hostPlan_onePage (side := .data) width config within success
    obtain ⟨mmio, bus⟩ := State.hostWrite_run config width planned
    simp only [accessFlags_one] at mmio
    rw [exec_of_mem_hostWrites legal s write, exec_of_mem_hostTryWrites legal s tryWrite]
    refine ⟨fun routed i command => ?_, fun routed => ?_, fun routed i command => ?_⟩
    · obtain ⟨ramOnly, run⟩ := forms command
      obtain ⟨mem, answer, bytes, outside⟩ :=
        State.hostWrite_of_ram planned width wf (goesToRam_byteRun width routed)
      rw [accessFlags_one, byteRun_head pa width.1] at answer
      refine ⟨mem, run.trans (congrArg _ (answer ramOnly)), fun j hj => ?_, outside⟩
      rw [← beByte_eq_shift, ← bytes j (by simpa using hj), byteRun_getElem]
    · exact (mmio routed).imp (congrArg _) (congrArg _)
    · obtain ⟨ramOnly, run⟩ := forms command
      exact run.trans (congrArg _ (bus routed ramOnly))
end

section
/-! Host accesses that cross a page, the frame of a host write, and the two predicates (`44_host_jit.md` R310 to
R329). -/

namespace Sys2Proof.Machine

/-! ### Byte by byte: the bytes of the plan are no run (R88) -/

section
variable {s : State} {sp : Space} {n : Nat} {pas : List Word} {pages : List Translation}
  (split : isContiguous pas = false) (planned : s.hostPlan sp .data s.h.req.a n = (.ok ⟨pas, pages⟩, s))
include split planned

theorem State.hostRead_split_units (config : configOk s.cfg = true) (noHole : ∀ b ∈ pas, isHole s.cfg b = false) :
    State.hostRead sp n false s = (s.unitsRead 1 pas).2.respond .h (Response.done
      (accessFlags pages (pas.any (isMmio s.cfg))) (beValue ((s.unitsRead 1 pas).1.map (·.setWidth 8)))
      (pas.headD 0#32)) :=
  State.hostRead_of_performed planned (s.performRead_units config split noHole)

theorem State.hostRead_split_hole {pre post : List Word} {b : Word} (parts : pas = pre ++ b :: post)
    (before : ∀ c ∈ pre, isHole s.cfg c = false) (hole : isHole s.cfg b = true) :
    State.hostRead sp n false s = (s.unitsRead 1 pre).2.respond .h (Response.only .absent) := by
  subst parts
  exact State.hostRead_of_bus planned (s.performRead_hole split before hole)

theorem State.hostWrite_split_units (config : configOk s.cfg = true) (width : 0 < n ∧ n ≤ 8)
    (noHole : ∀ b ∈ pas, isHole s.cfg b = false) :
    State.hostWrite sp n false s = (s.unitsWritten 1 (pas.zip (byteValues n s.h.req.d))).respond .h
      (Response.done (accessFlags pages (pas.any (isMmio s.cfg))) 0#64 (pas.headD 0#32)) := by
  have length : pas.length = n := planAccess_length planned
  subst length
  exact State.hostWrite_of_performed planned (s.performWrite_units config s.h.req.d width.2 split noHole)

theorem State.hostWrite_split_hole (hole : ∃ b ∈ pas, isHole s.cfg b = true) :
    State.hostWrite sp n false s = s.respond .h (Response.only .absent) := by
  obtain ⟨b, hb, hole⟩ := hole
  have unmapped : isRam s.cfg b = false ∧ isMmio s.cfg b = false := by simpa [isHole] using hole
  exact State.hostWrite_of_bus planned (s.performWrite_split_bus _ split ⟨b, hb, unmapped⟩)

end

theorem not_goesToRam_of_mem {c : Config} {pas : List Word} (notRam : ∃ b ∈ pas, isRam c b = false) :
    ¬ GoesToRam c pas := fun ⟨ram, _⟩ => by
  obtain ⟨b, hb, notRam⟩ := notRam
  rw [ram b hb] at notRam
  cases notRam

theorem goesToRam_split {c : Config} {pas : List Word} (split : isContiguous pas = false)
    (ram : ∀ b ∈ pas, isRam c b = true) : GoesToRam c pas :=
  ⟨ram, fun contiguous => by rw [split] at contiguous; cases contiguous⟩

/-! ### The frame of a write (R320, R324) -/

/-- What a performed store leaves in the frame of its plan. -/
theorem Stores.hostFrame {s t : State} {pas : List Word} (stored : Stores s pas t) (r : Response) :
    t.respond .h r = { s with
      h := { s.h with rsp := r }
      mem := t.mem
      handlerCalls := t.handlerCalls
      trace := t.trace } := by
  obtain ⟨fields, -⟩ := stored.calls
  rw [fields]
  rfl

/-- A store of a `TRY` form calls no handler: it goes to RAM, or nothing is done. -/
theorem State.hostStore_try_quiet {s : State} {sp : Space} {n : Nat} (config : configOk s.cfg = true)
    (width : 0 < n ∧ n ≤ 8) (a : Word) (v : DWord) :
    (s.hostStore sp n a v true).2.handlerCalls = s.handlerCalls ∧ (s.hostStore sp n a v true).2.trace = s.trace := by
  have unchanged := s.hostPlan_snd sp .data a n
  rcases planned : s.hostPlan sp .data a n with ⟨p | ⟨eaF, x⟩, s1⟩ <;> rw [planned] at unchanged <;>
    obtain rfl : s1 = s := unchanged
  · by_cases ram : GoesToRam s1.cfg p.pas
    · rw [State.hostStore_of_ram planned ram]
      exact ⟨rfl, rfl⟩
    · rw [State.hostStore_try_of_not_ram planned config width ram]
      exact ⟨rfl, rfl⟩
  · rw [State.hostStore_of_fail planned]
    exact ⟨rfl, rfl⟩

/-- A host write is one store and one response; a failed store is `ABSENT`. -/
theorem State.hostWrite_eq (s : State) (sp : Space) (n : Nat) (ramOnly : Bool) :
    ∃ r, State.hostWrite sp n ramOnly s =
        (s.hostStore sp n s.h.req.a (writeData n s.h.req.d) ramOnly).2.respond .h r ∧
      (r.status ≠ .ok → r = Response.only .absent ∧
        (s.hostStore sp n s.h.req.a (writeData n s.h.req.d) ramOnly).1 = none) := by
  rcases stored : s.hostStore sp n s.h.req.a (writeData n s.h.req.d) ramOnly with ⟨_ | ⟨pa0, flags⟩, t⟩
  · exact ⟨_, State.hostWrite_of_none stored, fun _ => ⟨rfl, rfl⟩⟩
  · exact ⟨_, State.hostWrite_of_some stored, fun failed => absurd rfl failed⟩

theorem State.hostWrite_frame {s : State} {sp : Space} {n : Nat} (ramOnly : Bool) (width : 0 < n ∧ n ≤ 8)
    (wf : Memory.wf s.mem) :
    State.hostWrite sp n ramOnly s = { s with
        h := { s.h with rsp := (State.hostWrite sp n ramOnly s).h.rsp }
        mem := (State.hostWrite sp n ramOnly s).mem
        handlerCalls := (State.hostWrite sp n ramOnly s).handlerCalls
        trace := (State.hostWrite sp n ramOnly s).trace } ∧
      (∀ b, b ∉ s.hostTargets sp s.h.req.a n → (State.hostWrite sp n ramOnly s).mem.byte b = s.mem.byte b) ∧
      ((State.hostWrite sp n ramOnly s).h.rsp.status ≠ .ok →
        State.hostWrite sp n ramOnly s = s.respond .h (Response.only .absent)) := by
  obtain ⟨stored, failure⟩ := s.hostStore_stores sp width.2 s.h.req.a (writeData n s.h.req.d) ramOnly
  obtain ⟨r, answer, absent⟩ := s.hostWrite_eq sp n ramOnly
  rw [answer]
  refine ⟨stored.hostFrame r, stored.outside wf, fun failed => ?_⟩
  obtain ⟨rfl, nothing⟩ := absent failed
  rw [failure nothing]

/-! ### The predicates (R311, R328, R329) -/

theorem boolData_eq (b : Bool) : boolData b = if b then 1#64 else 0#64 := by cases b <;> rfl

theorem State.hostPredicate_eq (s : State) (config : configOk s.cfg = true) (sp : Space) (side : Side) :
    State.hostPredicate sp side s = s.respond .h { Response.zero with
      data :=
        match (hostTranslator sp side.hostMode s.h.req.a s).1.address with
        | some pa => if isRam s.cfg pa then 1#64 else 0#64
        | none => 0#64 } := by
  have within : samePage s.h.req.a (lastByte s.h.req.a 1) = true :=
    (onePage_iff (by omega) (by omega)).2 (by omega)
  unfold State.hostPredicate State.hostIsRam
  rw [show (s.req .h).a = s.h.req.a from rfl]
  rcases result : (hostTranslator sp side.hostMode s.h.req.a s).1.address with _ | pa
  · rw [State.hostPlan_firstFails result]
    rfl
  · rw [State.hostPlan_onePage (by omega) config within result]
    dsimp only
    rw [byteRun_head pa (by omega), Response.answer, boolData_eq]

end Sys2Proof.Machine

open Sys2Proof Sys2Proof.Machine

/-- Settles O48: the plan of two pages is one run when the frames are adjacent and goes byte by byte when they are
not. -/
theorem hostAccessAcrossPages : Obligations.HostAccessAcrossPages := by
  intro sp legal n ih it iw iv read tryRead write tryWrite s config wf crosses second t1 t2
  have width := hostReads_width read
  have reads {i : Instr} (command : i ∈ [ih, it]) := exec_hostReadForms legal s read tryRead command
  have writes {i : Instr} (command : i ∈ [iw, iv]) := exec_hostWriteForms legal s write tryWrite command
  have runRead := exec_of_mem_hostReads legal s read
  have runTryRead := exec_of_mem_hostTryReads legal s tryRead
  have runWrite := exec_of_mem_hostWrites legal s write
  have runTryWrite := exec_of_mem_hostTryWrites legal s tryWrite
  refine ⟨fun failure => ?_, fun pa1 pa2 success1 success2 => ?_⟩
  · obtain ⟨eaF, x, planned⟩ := State.hostPlan_eitherFails (side := .data) crosses failure
    simp [runRead, runTryRead, runWrite, runTryWrite, State.hostRead_of_fail planned, State.hostWrite_of_fail planned]
  · have planned : s.hostPlan sp .data s.h.req.a n = (.ok ⟨twoFrames s.h.req.a n pa1 pa2, [t1, t2]⟩, s) :=
      State.hostPlan_twoPages (side := .data) crosses width config success1 success2
    have contiguous := isContiguous_twoFrames width crosses pa1 pa2
    have head := twoFrames_head s.h.req.a n pa1 pa2
    have length := twoFrames_length width crosses pa1 pa2
    dsimp only
    rw [← twoFrames]
    refine ⟨fun adjacent => ?_, fun apart => ?_, fun ram oneRegion i command => ?_⟩
    · subst adjacent
      rw [twoFrames_adjacent width crosses] at planned
      obtain ⟨ram, mmio, bus⟩ := State.hostRead_run config width planned
      obtain ⟨mmioWrite, busWrite⟩ := State.hostWrite_run config width planned
      simp only [accessFlags_two] at ram mmio mmioWrite
      refine ⟨fun routed i command => ?_, fun routed => ?_, fun routed => ?_⟩
      · obtain ⟨ramOnly, run⟩ := reads command
        exact run.trans (congrArg _ (ram routed ramOnly))
      · obtain ⟨called, absent⟩ := mmio routed
        obtain ⟨calledWrite, absentWrite⟩ := mmioWrite routed
        refine ⟨runRead.trans (congrArg _ called), runWrite.trans (congrArg _ calledWrite), ?_⟩
        simp [runTryRead, runTryWrite, absent, absentWrite]
      · simp [runRead, runTryRead, runWrite, runTryWrite, bus routed, busWrite routed]
    · have split : isContiguous (twoFrames s.h.req.a n pa1 pa2) = false := by rwa [← Bool.not_eq_true, contiguous]
      refine ⟨fun ram i command => ?_, fun notRam => ?_, fun noHole => ?_, fun hole => ?_,
        fun pre b post parts before hole => ?_⟩
      · obtain ⟨ramOnly, run⟩ := reads command
        rw [run, State.hostRead_of_ram planned (goesToRam_split split ram), accessFlags_two, head]
      · have notRam := not_goesToRam_of_mem notRam
        simp [runTryRead, runTryWrite, State.hostRead_try_of_not_ram planned config width notRam,
          State.hostWrite_try_of_not_ram planned config width notRam]
      · rw [runRead, runWrite, State.hostRead_split_units split planned config noHole,
          State.hostWrite_split_units split planned config width noHole, accessFlags_two, head]
        exact ⟨rfl, rfl⟩
      · rw [runWrite, State.hostWrite_split_hole split planned hole]
      · rw [runRead, State.hostRead_split_hole split planned parts before hole]
    · have inside := firstPart_lt width crosses
      have goes : GoesToRam s.cfg (twoFrames s.h.req.a n pa1 pa2) :=
        ⟨ram, fun run => by rw [head, length]; exact oneRegion (contiguous.1 run)⟩
      obtain ⟨ramOnly, run⟩ := writes command
      obtain ⟨mem, answer, written, outside⟩ := State.hostWrite_of_ram planned width wf goes
      rw [accessFlags_two, head] at answer
      refine ⟨mem, run.trans (congrArg _ (answer ramOnly)), fun j hj => ?_, fun j hj => ?_, outside⟩
      · have placed := written j (by omega)
        rwa [twoFrames_getElem_first pa1 pa2 hj, beByte_eq_shift] at placed
      · have placed := written (firstPart s.h.req.a + j) (by omega)
        rwa [twoFrames_getElem_second, beByte_eq_shift, Nat.sub_add_eq] at placed

/-- Settles O49: a host write is one store, which has the frame of its plan, and one response. -/
theorem hostWriteFrame : Obligations.HostWriteFrame := by
  intro sp legal n i command s t config wf run
  have form : ∃ ramOnly, 0 < n ∧ n ≤ 8 ∧ exec i s = .next (State.hostWrite sp n ramOnly s) := by
    rcases List.mem_append.1 command with plain | tryForm
    · exact ⟨false, (hostWrites_width plain).1, (hostWrites_width plain).2, exec_of_mem_hostWrites legal s plain⟩
    · exact ⟨true, (hostTryWrites_width tryForm).1, (hostTryWrites_width tryForm).2,
        exec_of_mem_hostTryWrites legal s tryForm⟩
  obtain ⟨ramOnly, positive, small, answer⟩ := form
  rw [answer, Host.Outcome.next.injEq] at run
  subst run
  obtain ⟨fields, bytes, failure⟩ := State.hostWrite_frame ramOnly ⟨positive, small⟩ wf
  refine ⟨fields, bytes, failure, fun tryForm => ?_⟩
  rw [exec_of_mem_hostTryWrites legal s tryForm, Host.Outcome.next.injEq] at answer
  obtain ⟨r, stored, -⟩ := s.hostWrite_eq sp n true
  rw [← answer, stored]
  exact State.hostStore_try_quiet config ⟨positive, small⟩ _ _

/-- Settles O50: one byte is always on one page. -/
theorem hostPredicatesAnswer : Obligations.HostPredicatesAnswer := by
  intro sp legal i m command s config
  simp only [List.mem_cons, Prod.mk.injEq, List.not_mem_nil, or_false] at command
  rcases command with ⟨rfl, rfl⟩ | ⟨rfl, rfl⟩
  · exact (inLegalSpace_of_legal legal _ s).trans (congrArg _ (s.hostPredicate_eq config sp .data))
  · exact (inLegalSpace_of_legal legal _ s).trans (congrArg _ (s.hostPredicate_eq config sp .instruction))
end

section
/-! The JIT queries (`44_host_jit.md` R340 to R350), and why a true answer of `OPT_RAM.n` can be relied on: the PHYSICAL
flag of a rebuilt entry says that its whole block is RAM, and where no two regions touch, bytes of RAM in a row lie in
one region. -/

namespace Sys2Proof.Machine

/-! ### What the queries answer -/

theorem State.translateQuery_eq (s : State) {m : Mode} (pure : m.mutates = false) :
    s.translateQuery m = s.respond .g (((s.translate m s.g.req.a false).1.address.map
      (Response.done (s.translate m s.g.req.a false).1.flags 0#64)).getD (Response.only .absent)) := by
  have unchanged := (s.translate_owned m s.g.req.a false).2 pure
  unfold State.translateQuery
  rw [show (s.req .g).a = s.g.req.a from rfl]
  rcases e : s.translate m s.g.req.a false with ⟨t, s1⟩
  rw [e] at unchanged
  obtain rfl : s1 = s := unchanged
  dsimp only
  cases t.address <;> rfl

section
variable {n : Nat} {i : Instr}

theorem optRams_width (command : (n, i) ∈ optRams) : 0 < n ∧ n ≤ 8 := by
  simp only [optRams, List.mem_cons, Prod.mk.injEq, List.not_mem_nil, or_false] at command
  omega

theorem exec_optRams (command : (n, i) ∈ optRams) (s : State) :
    exec i s = .next (s.respond .g (Response.answer (s.optRam n s.g.req.a))) := by
  simp only [optRams, List.mem_cons, Prod.mk.injEq, List.not_mem_nil, or_false] at command
  rcases command with ⟨rfl, rfl⟩ | ⟨rfl, rfl⟩ | ⟨rfl, rfl⟩ | ⟨rfl, rfl⟩ <;> rfl

theorem exec_optMmios (command : (n, i) ∈ optMmios) (s : State) : exec i s = .next (s.optMmioQuery n) := by
  simp only [optMmios, List.mem_cons, Prod.mk.injEq, List.not_mem_nil, or_false] at command
  rcases command with ⟨rfl, rfl⟩ | ⟨rfl, rfl⟩ | ⟨rfl, rfl⟩ | ⟨rfl, rfl⟩ <;> rfl

end

theorem Response.answer_eq (b : Bool) :
    Response.answer b = { Response.zero with data := if b then 1#64 else 0#64 } := by
  rw [Response.answer, boolData_eq]

theorem boolData_eq_one {b : Bool} : boolData b = 1#64 ↔ b = true := by cases b <;> decide

/-! ### Regions that do not touch (U13, R342) -/

section
variable {c : Config} (separated : ramSeparated c = true)
include separated

/-- Neighbouring bytes of RAM lie in one region. -/
theorem region_eq_of_next {r q : Region} (hr : r ∈ c.ramRegions) (hq : q ∈ c.ramRegions) {b : Word}
    (inFirst : inRegion r b = true) (inSecond : inRegion q (b + 1#32) = true) : r = q := by
  simp only [ramSeparated, List.all_eq_true, Bool.or_eq_true, beq_iff_eq, Bool.not_eq_true'] at separated
  refine (separated r hr q hq).resolve_right fun apart => ?_
  simp only [regionsTouch, regionsMeet, inRegion, Bool.and_eq_false_iff, Bool.or_eq_false_iff, decide_eq_false_iff_not,
    bne_eq_false_iff_eq, decide_eq_true_eq] at apart inFirst inSecond
  rcases apart with (empty | empty) | ⟨outside, outside'⟩
  · omega
  · omega
  · bv_omega

/-- Bytes of RAM in a row lie in one region. -/
theorem inOne_of_isRam {pa : Word} {n : Nat} (h0 : 0 < n) (hn : n ≤ 2 ^ 32)
    (ram : ∀ i < n, isRam c (pa + BitVec.ofNat 32 i) = true) : inOne c.ramRegions pa n = true := by
  obtain ⟨r, hr, first⟩ := List.any_eq_true.1 (ram 0 h0)
  refine List.any_eq_true.2 ⟨r, hr, (regionHolds_iff r pa h0 hn).2 fun i => ?_⟩
  induction i with
  | zero => exact fun _ => first
  | succ i ih =>
    intro below
    obtain ⟨q, hq, inNext⟩ := List.any_eq_true.1 (ram (i + 1) below)
    rw [BitVec.ofNat_add, ← BitVec.add_assoc] at inNext ⊢
    rwa [region_eq_of_next separated hr hq (ih (by omega)) inNext]

/-- Bytes of RAM are a plan that goes to RAM. -/
theorem goesToRam_of_isRam {pas : List Word} (length : 0 < pas.length ∧ pas.length ≤ 8)
    (ram : ∀ b ∈ pas, isRam c b = true) : GoesToRam c pas := by
  refine ⟨ram, fun contiguous => route_eq_ram.2 (inOne_of_isRam separated length.1 (by omega) fun i hi => ram _ ?_)⟩
  rw [isContiguous_eq contiguous, byteRun_head _ length.1]
  exact mem_byteRun.2 ⟨i, hi, rfl⟩

end

/-! ### The PHYSICAL flag (R139, R213) -/

/-- `S` is at least 12, so a page has one descriptor. -/
theorem State.descriptor_of_samePage {s : State} (config : configOk s.cfg = true) (d : Side) {a b : Word}
    (page : samePage a b = true) : s.descriptor d a = s.descriptor d b := by
  have index (x : Word) : x.toNat >>> s.cfg.s = x.toNat / 4096 / 2 ^ (s.cfg.s - 12) := by
    rw [Nat.shiftRight_eq_div_pow, Nat.div_div_eq_div_mul, show 4096 = 2 ^ 12 from rfl, ← Nat.pow_add,
      Nat.add_sub_cancel' (configOk_shift config).1]
  rw [State.descriptor, State.descriptor, index, index, (samePage_iff a b).1 page]

theorem samePage_secondPage (ea : Word) (n : Nat) : samePage (secondPage ea n) (lastByte ea n) = true := by
  have page : secondPage ea n = byteAddress (lastByte ea n) 0#32 := by simp [secondPage, byteAddress]
  rw [samePage_iff, page, byteAddress_toNat]
  simp

section
variable {s : State} {a : Word} (config : configOk s.cfg = true) (rebuilt : Rebuilt s.cfg s.dbatTable)
  (physical : descPhysical (s.descriptor .data a) = true)
include config rebuilt physical

/-- A descriptor with PHYSICAL set is that of a block whose frame is RAM. -/
theorem State.descriptor_of_physical : ∃ pb wi, isRamBlock s.cfg pb = true ∧
    s.descriptor .data a = blockDescriptor s.cfg pb wi (subBlock s.cfg.s a) := by
  obtain ⟨pairs, table⟩ := rebuilt
  have entry := State.descriptor_of_rebuilt (side := .data) config table a
  rw [rebuiltEntry] at entry
  rcases decided : blockDecision s.cfg pairs (a.extractLsb' 17 15) with _ | ⟨pb, wi⟩ <;> rw [decided] at entry
  · have empty : s.descriptor .data a = 0#32 := entry
    rw [empty] at physical
    exact absurd physical (by decide)
  · rw [entry, descPhysical_blockDescriptor (configOk_shift config).1, Bool.and_eq_true] at physical
    exact ⟨pb, wi, physical.2, entry⟩

theorem State.descMapped_of_physical : descMapped (s.descriptor .data a) = true := by
  obtain ⟨pb, wi, -, entry⟩ := State.descriptor_of_physical config rebuilt physical
  rw [entry]
  exact descMapped_blockDescriptor pb wi _

/-- The rest of the page goes to RAM too. -/
theorem State.isRam_of_physical {j : Nat} (onPage : a.toNat % 4096 + j < 4096) :
    isRam s.cfg (batAddress s.cfg.s (s.descriptor .data a) a + BitVec.ofNat 32 j) = true := by
  obtain ⟨pb, wi, block, entry⟩ := State.descriptor_of_physical config rebuilt physical
  obtain ⟨low, high⟩ := configOk_shift config
  have place : (pb ++ a.extractLsb' 0 17 : Word) + BitVec.ofNat 32 j =
      (pb ++ 0#17 : Word) + BitVec.ofNat 32 (a.toNat % 2 ^ 17 + j) := by
    have frame (x : BitVec 17) : (pb ++ x : Word).toNat = pb.toNat * 2 ^ 17 + x.toNat := by
      rw [BitVec.toNat_append, ← Nat.shiftLeft_add_eq_or_of_lt x.isLt, Nat.shiftLeft_eq]
    rw [← BitVec.toNat_inj, BitVec.toNat_add, BitVec.toNat_add, frame, frame, BitVec.extractLsb'_toNat]
    simp only [BitVec.toNat_ofNat, Nat.shiftRight_zero]
    omega
  rw [entry, batAddress_blockDescriptor low high, place]
  exact isRam_of_inOne block (by omega) (by omega)

end

/-! ### A true answer of `OPT_RAM.n` (R342 to R345) -/

section
variable {s : State} {n : Nat} {ea : Word} (width : 0 < n ∧ n ≤ 8) (config : configOk s.cfg = true)
  (rebuilt : Rebuilt s.cfg s.dbatTable) (answer : s.optRam n ea = true)
include width config rebuilt answer

/-- The plan goes through the BAT table alone, to bytes of RAM. -/
theorem State.plan_of_optRam {m : Mode} (side : m.side = .data) :
    ∃ p, s.plan m ea n false = (.ok p, s) ∧ p.pages.all Translation.isFromBat = true ∧
      ∀ b ∈ p.pas, isRam s.cfg b = true := by
  rw [State.optRam, Bool.and_eq_true, Bool.and_eq_true] at answer
  obtain ⟨⟨on, first⟩, last⟩ := answer
  have translated {a : Word} (physical : descPhysical (s.descriptor .data a) = true) :
      s.translate m a false = (.batTranslated (batAddress s.cfg.s (s.descriptor .data a) a)
        (descWi (s.descriptor .data a)), s) := by
    have mapped := State.descMapped_of_physical config rebuilt physical
    rw [← side] at mapped ⊢
    exact State.translate_of_mapped (by rw [side]; exact on) mapped false
  have run {a : Word} (physical : descPhysical (s.descriptor .data a) = true) {k : Nat}
      (onPage : a.toNat % 4096 + k ≤ 4096) :
      ∀ b ∈ byteRun (batAddress s.cfg.s (s.descriptor .data a) a) k, isRam s.cfg b = true := fun b hb => by
    obtain ⟨j, hj, rfl⟩ := mem_byteRun.1 hb
    exact State.isRam_of_physical config rebuilt physical (by omega)
  cases within : samePage ea (lastByte ea n)
  · have second : descPhysical (s.descriptor .data (secondPage ea n)) = true := by
      rwa [State.descriptor_of_samePage config .data (samePage_secondPage ea n)]
    refine ⟨_, State.plan_twoPages within (translated first) rfl (translated second) width config rfl, rfl,
      fun b hb => ?_⟩
    have offset := eaOffset_toNat ea
    have start := secondPage_toNat width.1 (by omega) within
    rcases List.mem_append.1 hb with hb | hb
    · exact run first (by rw [firstPart, offset]; omega) b hb
    · exact run second (by omega) b hb
  · exact ⟨_, State.plan_onePage width config within (translated first) rfl, rfl,
      run first ((onePage_iff width.1 (by omega)).1 within)⟩

end

end Sys2Proof.Machine

open Sys2Proof Sys2Proof.Machine

/-- Settles O52: both commands are one query, whose translation changes nothing. -/
theorem translateQueriesAnswer : Obligations.TranslateQueriesAnswer := by
  refine ⟨decode_encode .jitTranslate, decode_encode .getTranslated, rfl, rfl, fun i m command s => ?_⟩
  have query : exec i s = .next (s.translateQuery m) ∧ m.mutates = false := by
    simp only [List.mem_cons, Prod.mk.injEq, List.not_mem_nil, or_false] at command
    rcases command with ⟨rfl, rfl⟩ | ⟨rfl, rfl⟩ <;> exact ⟨rfl, rfl⟩
  obtain ⟨run, pure⟩ := query
  rw [s.translateQuery_eq pure] at run
  split
  next failure => rwa [failure] at run
  next pa success => rwa [success] at run

/-- Settles O53: each condition is the one of the pseudocode, its answer in bit 0. -/
theorem optQueriesAnswer : Obligations.OptQueriesAnswer := by
  refine ⟨decode_encode .optGather, fun s => ⟨fun n i command => ?_, fun n i command => ?_, ?_⟩⟩
  · rw [exec_optRams command, Response.answer_eq]
    rfl
  · rw [exec_optMmios command, State.optMmioQuery, Response.answer_eq]
    rfl
  · exact congrArg (fun r => Host.Outcome.next (s.respond .g r)) (Response.answer_eq (s.optGather s.g.req.a))

/-- Settles O54: the access plans bytes of RAM through the BAT table alone, and with no two regions touching such a plan
goes to RAM. -/
theorem optRamAnswerIsSound : Obligations.OptRamAnswerIsSound := by
  intro n iq ir iw query read write s u config separated rebuilt run one i command
  have width := optRams_width query
  rw [exec_optRams query, Host.Outcome.next.injEq] at run
  subst run
  have answer : s.optRam n s.g.req.a = true := boolData_eq_one.1 one
  have goes {m : Mode} (side : m.side = .data) : ∃ p, s.plan m s.g.req.a n false = (.ok p, s) ∧
      p.pages.all Translation.isFromBat = true ∧ GoesToRam s.cfg p.pas := by
    obtain ⟨p, planned, fromBat, ram⟩ := State.plan_of_optRam width config rebuilt answer side
    have length := planAccess_length planned
    exact ⟨p, planned, fromBat, goesToRam_of_isRam separated (by omega) ram⟩
  simp only [List.mem_cons, List.not_mem_nil, or_false] at command
  rcases command with rfl | rfl
  · obtain ⟨p, planned, fromBat, ram⟩ := goes (m := .read) rfl
    have loaded := State.guestRead_of_loaded planned (s.performRead_ram ram)
    exact ⟨_, (exec_guestReads read s).trans (congrArg _ loaded), rfl, fromBat, rfl, rfl, rfl⟩
  · obtain ⟨p, planned, fromBat, ram⟩ := goes (m := .write) rfl
    have stored := State.guestWrite_of_stored planned (s.performWrite_ram _ ram)
    exact ⟨_, (exec_guestWrites write s).trans (congrArg _ stored), rfl, fromBat, rfl, rfl, rfl⟩
end

section
/-! Host strings (`44_host_jit.md` R330, R331): each element is one `HOST_TRY_READ`, which does not see the request
registers, and the reason a string ended is the true one. -/

namespace Sys2Proof.Machine

/-! ### A host read does not see the request registers (R36) -/

/-- A store mutates (R170). -/
theorem Mode.isStore_of_pure {m : Mode} (pure : m.mutates = false) : m.isStore = false :=
  Bool.eq_false_iff.2 fun store => by
    rw [Mode.isStore_iff.1 store] at pure
    cases pure

section
variable (s : State) (q : Request)

theorem State.walk_setReq {m : Mode} (pure : m.mutates = false) (ea : Word) :
    (s.setReq .h q).walk m ea = ((s.walk m ea).1, s.setReq .h q) := by
  rcases State.walk_cases (Prod.mk.eta (p := s.walk m ea)).symm with
    ⟨missing, result, -⟩ | ⟨pte, found, ⟨denied, result, -⟩ | ⟨granted, result, -⟩⟩
  · rw [result]
    exact State.walk_of_miss (s := s.setReq .h q) missing
  · rw [result]
    exact State.walk_of_denied (s := s.setReq .h q) found denied
  · rw [result]
    exact State.walk_of_granted_pure (s := s.setReq .h q) found granted pure

theorem State.tlbSet_setReq (d : Side) (k : Nat) : (s.setReq .h q).tlbSet d k = s.tlbSet d k := by cases d <;> rfl

theorem State.translatePage_setReq {m : Mode} (pure : m.mutates = false) (ea : Word) :
    (s.setReq .h q).translatePage m ea = ((s.translatePage m ea).1, s.setReq .h q) := by
  have notStore := Mode.isStore_of_pure pure
  rcases s.translatePage_cases m ea with
    ⟨direct, e⟩ | ⟨notDirect, fetch, noExecute, e⟩ | ⟨openPath, noWay, e⟩ | ⟨openPath, w, hit, path⟩
  · rw [e]
    exact State.translatePage_of_directStore (s := s.setReq .h q) direct
  · rw [e]
    exact State.translatePage_of_noExecute (s := s.setReq .h q) notDirect fetch noExecute
  · rw [e, ← s.walk_setReq q pure]
    exact State.translatePage_of_noWay (s := s.setReq .h q) openPath (by rwa [State.tlbSet_setReq])
  · rw [← State.tlbSet_setReq s q] at hit path
    rcases path with ⟨denied, e⟩ | ⟨-, isStore, -⟩ | ⟨granted, -, e⟩
    · rw [e]
      exact State.translatePage_of_denied (s := s.setReq .h q) openPath hit denied
    · rw [notStore] at isStore; cases isStore
    · rw [e]
      refine (State.translatePage_of_granted (s := s.setReq .h q) openPath hit granted (by simp [notStore])).trans ?_
      rw [pure]
      rfl

theorem State.translate_setReq {m : Mode} (pure : m.mutates = false) (ea : Word) (v : Bool) :
    (s.setReq .h q).translate m ea v = ((s.translate m ea v).1, s.setReq .h q) := by
  have on_eq (d : Side) : (s.setReq .h q).translationOn d = s.translationOn d := by cases d <;> rfl
  have entry (d : Side) : (s.setReq .h q).descriptor d ea = s.descriptor d ea := by cases d <;> rfl
  rcases s.translate_cases m ea v with ⟨off, e⟩ | ⟨on, mapped, e⟩ | ⟨on, unmapped, e⟩ <;> rw [e]
  · exact State.translate_of_off (s := s.setReq .h q) (by rwa [on_eq]) v
  · rw [← entry] at mapped ⊢
    exact State.translate_of_mapped (s := s.setReq .h q) (by rwa [on_eq]) mapped v
  · rw [← entry] at unmapped
    rw [← s.translatePage_setReq q pure]
    exact State.translate_of_unmapped (s := s.setReq .h q) (by rwa [on_eq]) unmapped v

theorem State.hostPlan_setReq {sp : Space} {side : Side} {a : Word} {n : Nat} {r : Planned}
    (planned : s.hostPlan sp side a n = (r, s)) : (s.setReq .h q).hostPlan sp side a n = (r, s.setReq .h q) := by
  have alike (b : Word) : ∃ x, hostTranslator sp side.hostMode b s = (x, s) ∧
      hostTranslator sp side.hostMode b (s.setReq .h q) = (x, s.setReq .h q) := by
    refine ⟨_, hostTranslator_hostMode s sp side b, ?_⟩
    cases sp with
    | effective => exact s.translate_setReq q side.hostMode_pure b false
    | physical => rfl
    | virtual => exact s.translate_setReq q side.hostMode_pure b true
    | reserved => rfl
  exact (planAccess_of_same (alike a) (fun _ => alike _) planned).2

/-- A load of the `TRY` forms answers the same whatever the request registers hold. -/
theorem State.hostLoad_try_setReq (config : configOk s.cfg = true) {sp : Space} {n : Nat} (width : 0 < n ∧ n ≤ 8)
    (a : Word) : (s.setReq .h q).hostLoad sp n a true = ((s.hostLoad sp n a true).1, s.setReq .h q) := by
  have unchanged := s.hostPlan_snd sp .data a n
  rcases planned : s.hostPlan sp .data a n with ⟨p | ⟨eaF, x⟩, s1⟩ <;> rw [planned] at unchanged <;>
    obtain rfl : s1 = s := unchanged
  · have planned' := s1.hostPlan_setReq q planned
    by_cases ram : GoesToRam s1.cfg p.pas
    · rw [State.hostLoad_of_ram planned ram]
      exact State.hostLoad_of_ram planned' ram
    · rw [State.hostLoad_try_of_not_ram planned config width ram]
      exact State.hostLoad_try_of_not_ram planned' config width ram
  · rw [State.hostLoad_of_fail planned]
    exact State.hostLoad_of_fail (s1.hostPlan_setReq q planned)

end

/-! ### One element (R330) -/

/-- The value `HOST_TRY_READ` of `w` bytes gives at `a`, if it can be read (R316). -/
def State.element (s : State) (sp : Space) (w : Nat) (a : Word) : Option DWord :=
  (s.hostLoad sp w a true).1.map Prod.fst

section
variable {s : State} (config : configOk s.cfg = true) {sp : Space} {w : Nat} (width : 0 < w ∧ w ≤ 8) {a : Word}
include config width

/-- `HOST_TRY_READ` with `a` in its operand register answers that element (R316). -/
theorem State.hostRead_of_element_some {v : DWord} (readable : s.element sp w a = some v) :
    (State.hostRead sp w true (s.setReq .h { s.h.req with a := a })).h.rsp.status = .ok ∧
      (State.hostRead sp w true (s.setReq .h { s.h.req with a := a })).h.rsp.data = v := by
  obtain ⟨⟨v', pa0, flags⟩, loaded, rfl⟩ := Option.map_eq_some_iff.1 readable
  have load := s.hostLoad_try_setReq { s.h.req with a := a } config (sp := sp) width a
  rw [loaded] at load
  rw [State.hostRead_of_some load]
  exact ⟨rfl, rfl⟩

theorem State.hostRead_of_element_none (unreadable : s.element sp w a = none) :
    (State.hostRead sp w true (s.setReq .h { s.h.req with a := a })).h.rsp.status = .absent := by
  have load := s.hostLoad_try_setReq { s.h.req with a := a } config (sp := sp) width a
  rw [Option.map_eq_none_iff.1 unreadable] at load
  rw [State.hostRead_of_none load]
  rfl

end

/-! ### The loop (R330) -/

/-- The loop's next turn: what it does with the element at `a` when there is room for another. -/
theorem State.hostString_succ {s : State} (config : configOk s.cfg = true) {sp : Space} {w : Nat}
    (width : 0 < w ∧ w ≤ 8) (a : Word) (n : Nat) :
    (s.hostString sp w a (n + 1)).1 =
      match s.element sp w a with
      | none => ([], .unreadable)
      | some v =>
        if v = s.cfg.strTerminator.setWidth 64 then ([], .terminator)
        else
          (v.setWidth 16 :: (s.hostString sp w (a + BitVec.ofNat 32 w) n).1.1,
            (s.hostString sp w (a + BitVec.ofNat 32 w) n).1.2) := by
  have unchanged := s.hostLoad_try config sp width.1 width.2 a
  rw [State.hostString, State.element]
  rcases loaded : s.hostLoad sp w a true with ⟨_ | ⟨v, rest⟩, t⟩ <;> rw [loaded] at unchanged <;>
    obtain rfl : t = s := unchanged
  · rfl
  · dsimp only [Option.map_some]
    split <;> rfl

/-- The reason a string that stopped at `a` ended, with room for `room` more elements (R330). -/
def State.stopsFor (s : State) (sp : Space) (w : Nat) (a : Word) (room : Nat) : StringEnd → Prop
  | .maximum => room = 0
  | .terminator => 0 < room ∧ s.element sp w a = some (s.cfg.strTerminator.setWidth 64)
  | .unreadable => 0 < room ∧ s.element sp w a = none

/-- What a string is: so many readable elements, none the terminator, and the reason it ended there. -/
structure State.IsString (s : State) (sp : Space) (w : Nat) (a : Word) (max : Nat) (es : List (BitVec 16))
    (why : StringEnd) : Prop where
  short : es.length ≤ max
  elements : ∀ k < es.length, ∃ v, s.element sp w (a + BitVec.ofNat 32 (w * k)) = some v ∧
    v ≠ s.cfg.strTerminator.setWidth 64 ∧ es.getD k 0#16 = v.setWidth 16
  stops : s.stopsFor sp w (a + BitVec.ofNat 32 (w * es.length)) (max - es.length) why

/-- Elements count from the first address. -/
theorem elementAddress_succ (a : Word) (w k : Nat) :
    a + BitVec.ofNat 32 (w * (k + 1)) = a + BitVec.ofNat 32 w + BitVec.ofNat 32 (w * k) := by
  rw [Nat.mul_succ, Nat.add_comm, BitVec.ofNat_add, BitVec.add_assoc]

section
variable {s : State} {sp : Space} {w : Nat} {a : Word}

theorem State.isString_nil {max : Nat} {why : StringEnd} (stops : s.stopsFor sp w a max why) :
    s.IsString sp w a max [] why :=
  ⟨Nat.zero_le _, fun _ below => absurd below (Nat.not_lt_zero _), by simpa using stops⟩

theorem State.IsString.cons {max : Nat} {es : List (BitVec 16)} {why : StringEnd} {v : DWord}
    (rest : s.IsString sp w (a + BitVec.ofNat 32 w) max es why) (readable : s.element sp w a = some v)
    (other : v ≠ s.cfg.strTerminator.setWidth 64) : s.IsString sp w a (max + 1) (v.setWidth 16 :: es) why := by
  refine ⟨Nat.succ_le_succ rest.short, fun k below => ?_, ?_⟩
  · cases k with
    | zero => exact ⟨v, by simpa using readable, other, rfl⟩
    | succ k =>
      rw [elementAddress_succ, List.getD_cons_succ]
      exact rest.elements k (Nat.lt_of_succ_lt_succ below)
  · rw [List.length_cons, elementAddress_succ, Nat.add_sub_add_right]
    exact rest.stops

/-- The loop makes a string of the elements from `a` on. -/
theorem State.hostString_isString (config : configOk s.cfg = true) (width : 0 < w ∧ w ≤ 8) (max : Nat) :
    s.IsString sp w a max (s.hostString sp w a max).1.1 (s.hostString sp w a max).1.2 := by
  induction max generalizing a with
  | zero => exact State.isString_nil rfl
  | succ max ih =>
    rw [State.hostString_succ config width]
    rcases next : s.element sp w a with _ | v
    · exact State.isString_nil ⟨Nat.succ_pos _, next⟩
    · dsimp only
      split
      next terminator => exact State.isString_nil ⟨Nat.succ_pos _, by rw [next, terminator]⟩
      next other => exact ih.cons next other

end

end Sys2Proof.Machine

open Sys2Proof Sys2Proof.Machine

/-- Settles O51: the loop makes a string, and each of its elements is the answer of one `HOST_TRY_READ`. -/
theorem hostStringReads : Obligations.HostStringReads := by
  refine ⟨fun sp max => ⟨decode_encode (.hostGetString sp max), decode_encode (.hostGetU16String sp max)⟩, ?_⟩
  intro sp legal max w i it command s config
  have forms : (0 < w ∧ w ≤ 8) ∧ exec i s = .next (State.hostGetString sp w max s) ∧
      ∀ u, exec it u = .next (State.hostRead sp w true u) := by
    simp only [List.mem_cons, Prod.mk.injEq, List.not_mem_nil, or_false] at command
    rcases command with ⟨rfl, rfl, rfl⟩ | ⟨rfl, rfl, rfl⟩ <;>
      exact ⟨by omega, inLegalSpace_of_legal legal _ _, fun u => inLegalSpace_of_legal legal _ u⟩
  obtain ⟨width, run, tryRead⟩ := forms
  have string := State.hostString_isString (sp := sp) (a := s.h.req.a) config width max.toNat
  have unchanged := s.hostString_snd config sp width.1 width.2 s.h.req.a max.toNat
  rcases looped : s.hostString sp w s.h.req.a max.toNat with ⟨⟨es, why⟩, t⟩
  rw [looped] at string unchanged
  obtain rfl : t = s := unchanged
  obtain ⟨short, elements, stops⟩ := string
  refine ⟨es.length, why, Sparse.ofListFrom 0#16 0 es, ?_, short, fun k below => ?_, fun k past => ?_, ?_⟩
  · rw [run, State.hostGetString, show (t.req .h).a = t.h.req.a from rfl, looped]
    rfl
  · obtain ⟨v, readable, other, placed⟩ := elements k below
    obtain ⟨ok, data⟩ := State.hostRead_of_element_some config width readable
    rw [← data] at other placed
    refine ⟨_, tryRead _, ok, other, ?_⟩
    rw [Sparse.get_ofListFrom, if_pos (Nat.zero_le k), Nat.sub_zero, placed]
  · rw [Sparse.get_ofListFrom, if_pos (Nat.zero_le k), Nat.sub_zero, List.getD_eq_default _ _ past]
  · cases why with
    | maximum => exact Nat.le_antisymm short (Nat.sub_eq_zero_iff_le.1 stops)
    | terminator =>
      obtain ⟨room, readable⟩ := stops
      obtain ⟨ok, data⟩ := State.hostRead_of_element_some config width readable
      exact ⟨Nat.lt_of_sub_pos room, _, tryRead _, ok, data⟩
    | unreadable =>
      obtain ⟨room, unreadable⟩ := stops
      exact ⟨Nat.lt_of_sub_pos room, _, tryRead _, State.hostRead_of_element_none config width unreadable⟩
end

section
/-! How a command ends (`60_exceptions.md` R370, R375, R384): all that a command does before its last write is silent, and
its last write is a response, one fault message with its response, or an abort of the state the command found. -/

namespace Sys2Proof.Machine

/-! ### Silent work: no fault message, `FATAL` as it was -/

/-- From `s` to `t` no fault message was sent and `FATAL` was left alone. -/
structure Silent (s t : State) : Prop where
  fatal : t.fatal = s.fatal
  sent : ∃ sent : List Event, t.trace = s.trace ++ sent ∧ sent.filterMap Event.faultMsg = []

namespace Silent

variable {s t u : State}

theorem of_trace (fatal : t.fatal = s.fatal) (trace : t.trace = s.trace) : Silent s t :=
  ⟨fatal, [], by rw [trace, List.append_nil], rfl⟩

theorem refl : Silent s s := of_trace rfl rfl

theorem trans (first : Silent s t) (second : Silent t u) : Silent s u := by
  obtain ⟨xs, trace, quiet⟩ := first.sent
  obtain ⟨ys, trace', quiet'⟩ := second.sent
  exact ⟨second.fatal.trans first.fatal, xs ++ ys, by rw [trace', trace, List.append_assoc],
    by rw [List.filterMap_append, quiet, quiet']; rfl⟩

theorem calls (calls : HandlerCalls s t) : Silent s t := by
  obtain ⟨fields, sent⟩ := calls
  exact ⟨by rw [fields], sent⟩

theorem stores {pas : List Word} (stored : Stores s pas t) : Silent s t := by
  obtain ⟨fatal, sent⟩ := Silent.calls stored.calls
  exact ⟨fatal, sent⟩

end Silent

section
variable (s : State) (m : Mode) (ea : Word)

theorem State.translate_silent (v : Bool) : Silent s (s.translate m ea v).2 := by
  obtain ⟨⟨tlb, mem, moved⟩, -⟩ := s.translate_owned m ea v
  rw [moved]
  exact .of_trace (by simp) (by simp)

theorem planAccess_silent {tr : Word → State → Translation × State} (silent : ∀ a s, Silent s (tr a s).2) (n : Nat) :
    Silent s (planAccess tr ea n s).2 := by
  have first := silent ea s
  unfold planAccess
  rcases e1 : tr ea s with ⟨t1, s1⟩
  rw [e1] at first
  dsimp only
  split
  · exact first
  · split
    · exact first
    · have second := first.trans (silent (secondPage ea n) s1)
      rcases e2 : tr (secondPage ea n) s1 with ⟨t2, s2⟩
      rw [e2] at second
      dsimp only
      split <;> exact second

theorem State.plan_silent (n : Nat) : Silent s (s.plan m ea n false).2 :=
  planAccess_silent s ea (fun a s => s.translate_silent m a false) n

theorem State.readHW_silent (n : Nat) : Silent s (s.readHW m n ea false).2 := by
  have planned := s.plan_silent m ea n
  unfold State.readHW
  rcases e : s.plan m ea n false with ⟨p | ⟨eaF, x⟩, s1⟩ <;> rw [e] at planned <;> dsimp only
  · have performed := planned.trans (.calls (s1.performRead_calls p.pas))
    rcases e' : s1.performRead p.pas with ⟨_ | l, s2⟩ <;> rw [e'] at performed <;> exact performed
  · exact planned

theorem State.writeHW_silent {n : Nat} (width : n ≤ 8) (v : DWord) : Silent s (s.writeHW m n ea v false).2 := by
  have planned := s.plan_silent m ea n
  unfold State.writeHW
  rcases e : s.plan m ea n false with ⟨p | ⟨eaF, x⟩, s1⟩ <;> rw [e] at planned <;> dsimp only
  · have length := planAccess_length e
    have performed := planned.trans (.stores (s1.performWrite_stores (pas := p.pas) v (by omega)).1)
    rcases e' : s1.performWrite p.pas v with ⟨_ | via, s2⟩ <;> rw [e'] at performed <;> exact performed
  · exact planned

theorem State.tryFetch_silent : Silent s (s.tryFetch ea).2 := by
  have translated := s.translate_silent .opcode ea false
  unfold State.tryFetch
  rcases e : s.translate .opcode ea false with ⟨x, s1⟩
  rw [e] at translated
  dsimp only
  split
  · exact translated
  · split <;> exact translated

end

/-! ### The ends of R370 and R384 -/

/-- Command `i` may answer this status with a response alone (the table of R370). -/
def Listed (i : Instr) : Status → Prop
  | .ok => True
  | .absent => mayBeAbsent i = true
  | .busError => mayBusError i = true
  | .dsi | .isi | .abort => False

/-- Command `i` may send this fault message (R370 to R372). -/
def MayRaise (i : Instr) (msg : FaultMsg) : Prop :=
  match msg.kind with
  | .dsi => mayRaiseDsi i = true
  | .isi => msg.write = false ∧ i = .readOpcode

/-- Command `i`, once accepted, violates the contract in state `s` for this reason (R384). -/
def Violates (i : Instr) (s : State) : AbortReason → Prop
  | .badSpace => i.wellFormed = false
  | .misalignedFetch => s.g.req.a.extractLsb' 0 2 ≠ 0#2 ∧ (i = .readOpcode ∨ i = .tryReadInst)
  | .badSnapshot => i = .stateRestore ∧ snapshotOk s.cfg s.h.req.snapIn = false
  | .illegalCommand | .wrongPort => False

/-- How command `i` may end when it starts in `s`. -/
inductive Ends (i : Instr) (s : State) : State → Prop where
  | answer {t : State} {r : Response} (silent : Silent s t) (listed : Listed i r.status) : Ends i s (t.respond i.port r)
  | raise {t : State} {msg : FaultMsg} (silent : Silent s t) (listed : MayRaise i msg) : Ends i s (t.raise i.port msg)
  | abort {why : AbortReason} (violates : Violates i s why) : Ends i s (s.abort i.port why)

theorem Ends.fatal_kept_or_abort {i : Instr} {s t : State} (ends : Ends i s t) :
    t.fatal = s.fatal ∨ ∃ why, Violates i s why ∧ t = s.abort i.port why := by
  cases ends with
  | answer silent => exact .inl (by rw [State.respond_fatal, silent.fatal])
  | raise silent => exact .inl (by rw [State.raise_fatal, silent.fatal])
  | abort violates => exact .inr ⟨_, violates, rfl⟩

/-! ### Commands of port G -/

section
variable {i : Instr} {s : State}

theorem State.endAccess_ends (port : i.port = .g) (dsi : mayRaiseDsi i = true) (bus : mayBusError i = true)
    (write : Bool) {r : Access × State} (silent : Silent s r.2) : Ends i s (State.endAccess write r) := by
  obtain ⟨_ | _ | _, t⟩ := r <;> unfold State.endAccess <;> rw [← port]
  case done => exact .answer silent trivial
  case fault => exact .raise silent dsi
  case bus => exact .answer silent bus

theorem exec_fetch_ends (fetch : i ∈ [Instr.readOpcode, Instr.tryReadInst]) (s : State) :
    ∃ t, exec i s = .next t ∧ Ends i s t := by
  have command : i = .readOpcode ∨ i = .tryReadInst := by simpa using fetch
  have port : i.port = .g := by rcases command with rfl | rfl <;> rfl
  by_cases aligned : s.g.req.a.extractLsb' 0 2 = 0#2
  · have silent := s.tryFetch_silent s.g.req.a
    rcases found : s.tryFetch s.g.req.a with ⟨⟨hex, pa, flags⟩ | x | _, t⟩ <;> rw [found] at silent
    · exact ⟨_, exec_fetch_of_inst aligned fetch found, port ▸ .answer silent trivial⟩
    · rcases command with rfl | rfl
      · exact ⟨_, exec_readOpcode_of_invalid aligned found, .raise (i := .readOpcode) silent ⟨rfl, rfl⟩⟩
      · exact ⟨_, exec_tryReadInst_of_invalid aligned found, .answer (i := .tryReadInst) silent rfl⟩
    · have bus : mayBusError i = true := by rcases command with rfl | rfl <;> rfl
      exact ⟨_, exec_fetch_of_bus aligned fetch found, port ▸ .answer silent bus⟩
  · exact ⟨_, exec_fetch_of_misaligned fetch aligned, port ▸ .abort ⟨aligned, command⟩⟩

theorem State.lineStore_ends (port : i.port = .g) (dsi : mayRaiseDsi i = true)
    {body : Word → Translation → State → State} (ends : ∀ pa x t, Silent s t → Ends i s (body pa x t)) :
    Ends i s (s.lineStore body) := by
  have translated := s.translate_silent .write (lineAddress s.g.req.a) false
  unfold State.lineStore
  rw [State.req_g]
  dsimp only
  rcases e : s.translate .write (lineAddress s.g.req.a) false with ⟨x, t⟩
  rw [e] at translated
  dsimp only
  split
  · rw [← port]
    exact .raise translated dsi
  · exact ends _ x t translated

theorem linePassThrough_ends (port : i.port = .g) (pa : Word) (x : Translation) (t : State) (silent : Silent s t) :
    Ends i s (linePassThrough pa x t) := by
  unfold linePassThrough
  rw [← port]
  exact .answer silent trivial

theorem lineZeroFill_ends (pa : Word) (x : Translation) (t : State) (silent : Silent s t) :
    Ends .dclClear s (lineZeroFill pa x t) := by
  unfold lineZeroFill
  split
  next ram => exact .answer (i := .dclClear) (silent.trans (.stores (zeroLine_stores t ram))) trivial
  next => exact .answer (i := .dclClear) silent (by rw [Response.ended_status]; rfl)

theorem State.dmaCopy_ends (port : i.port = .g) (bus : mayBusError i = true) (src dst : Word) (lcIsSrc : Bool)
    (n : Nat) : Ends i s (s.dmaCopy src dst lcIsSrc n) := by
  obtain ⟨copied, status⟩ := s.dmaBlocks_stores (lineAddress src) (lineAddress dst) lcIsSrc 0 false n
  unfold State.dmaCopy
  rw [← port]
  refine .answer (.stores copied) ?_
  rw [DmaStop.response_status]
  rcases status with ok | busError
  · rw [ok]
    trivial
  · rw [busError]
    exact bus

/-- The maintenance commands work in silence and answer `OK` (R215 to R218). -/
theorem ends_ok (port : i.port = .g) {t : State} (silent : Silent s t) : Ends i s (t.respond .g Response.zero) := by
  rw [← port]
  exact .answer silent trivial

end

/-- A query of port G only responds (R285, R340 to R350). -/
theorem exec_guestQuery {i : Instr} (query : isQuery i = true) (port : i.port = .g) (s : State) :
    ∃ r, exec i s = .next (s.respond .g r) ∧ Listed i r.status := by
  have translateQuery {m : Mode} (pure : m.mutates = false) (absent : mayBeAbsent i = true) :
      ∃ r, Host.Outcome.next (s.translateQuery m) = (.next (s.respond .g r) : Result) ∧ Listed i r.status := by
    refine ⟨_, congrArg _ (s.translateQuery_eq pure), ?_⟩
    cases (s.translate m s.g.req.a false).1.address with
    | none => exact absent
    | some pa => trivial
  cases i with
  | dclTouch =>
    have touch := touchChangesNothing.2 s
    split at touch <;> exact ⟨_, touch, trivial⟩
  | jitTranslate => exact translateQuery (m := .opcodeNoException) rfl rfl
  | getTranslated => exact translateQuery (m := .noException) rfl rfl
  | optRam8 | optRam16 | optRam32 | optRam64 | optMmio8 | optMmio16 | optMmio32 | optMmio64 | optGather =>
    exact ⟨_, rfl, trivial⟩
  | hostTryRead8 | hostTryRead16 | hostTryRead32 | hostTryRead64 | hostIsRam | hostIsIram | hostGetString
  | hostGetU16String | stateSave => cases port
  | _ => cases query

/-! ### Commands of port H -/

/-- How a port H command other than `STATE_RESTORE` ends when its address space is legal: at most one access of the
store, none for a query, and a response (R310, R383). -/
inductive HostEnds (i : Instr) (s : State) : State → Prop where
  | answer {t : State} {pas : List Word} {r : Response} (stored : Stores s pas t) (listed : Listed i r.status)
      (query : isQuery i = true → configOk s.cfg = true → t = s) : HostEnds i s (t.respond .h r)

section
variable {i : Instr} {s : State} {sp : Space}

theorem State.hostRead_ends {n : Nat} {ramOnly : Bool} (absent : mayBeAbsent i = true)
    (tryForm : isQuery i = true → ramOnly = true) (width : 0 < n ∧ n ≤ 8) :
    HostEnds i s (State.hostRead sp n ramOnly s) := by
  have stored := (s.hostLoad_calls sp n s.h.req.a ramOnly).stores []
  have query (isQuery : isQuery i = true) (config : configOk s.cfg = true) :
      (s.hostLoad sp n s.h.req.a ramOnly).2 = s := by
    rw [tryForm isQuery]
    exact s.hostLoad_try config sp width.1 width.2 s.h.req.a
  rcases loaded : s.hostLoad sp n s.h.req.a ramOnly with ⟨_ | ⟨v, pa0, flags⟩, t⟩ <;> rw [loaded] at stored query
  · rw [State.hostRead_of_none loaded]
    exact .answer stored absent query
  · rw [State.hostRead_of_some loaded]
    exact .answer stored trivial query

theorem State.hostWrite_ends {n : Nat} {ramOnly : Bool} (absent : mayBeAbsent i = true) (effect : isQuery i = false)
    (width : n ≤ 8) : HostEnds i s (State.hostWrite sp n ramOnly s) := by
  obtain ⟨stored, -⟩ := s.hostStore_stores sp width s.h.req.a (writeData n s.h.req.d) ramOnly
  obtain ⟨r, answer, failure⟩ := s.hostWrite_eq sp n ramOnly
  have listed : Listed i r.status := by
    by_cases ok : r.status = .ok
    · rw [ok]
      trivial
    · rw [(failure ok).1]
      exact absent
  rw [answer]
  exact .answer stored listed fun query => by rw [effect] at query; cases query

theorem State.hostPredicate_ends {side : Side} : HostEnds i s (State.hostPredicate sp side s) := by
  have unchanged := s.hostPlan_snd sp side s.h.req.a 1
  unfold State.hostPredicate State.hostIsRam
  rw [show (s.req .h).a = s.h.req.a from rfl]
  rcases planned : s.hostPlan sp side s.h.req.a 1 with ⟨_ | _, t⟩ <;> rw [planned] at unchanged <;>
    obtain rfl : t = s := unchanged <;> exact .answer (.refl t []) trivial fun _ _ => rfl

theorem State.hostGetString_ends {w : Nat} {max : BitVec 16} (width : 0 < w ∧ w ≤ 8) :
    HostEnds i s (State.hostGetString sp w max s) :=
  .answer ((s.hostString_calls sp w s.h.req.a max.toNat).stores []) trivial fun _ config =>
    s.hostString_snd config sp width.1 width.2 s.h.req.a max.toNat

theorem hostEnds_of_legal {run : State → State} (legal : sp.isLegal = true) (ends : HostEnds i s (run s)) :
    ∃ t, inLegalSpace sp run s = .next t ∧ HostEnds i s t := ⟨_, inLegalSpace_of_legal legal run s, ends⟩

end

theorem exec_hostCommand {i : Instr} (port : i.port = .h) (notRestore : i ≠ .stateRestore)
    (wellFormed : i.wellFormed = true) (s : State) : ∃ t, exec i s = .next t ∧ HostEnds i s t := by
  cases i with
  | hostRead8 | hostRead16 | hostRead32 | hostRead64 =>
    exact hostEnds_of_legal wellFormed (State.hostRead_ends rfl (fun query => by cases query) (by decide))
  | hostTryRead8 | hostTryRead16 | hostTryRead32 | hostTryRead64 =>
    exact hostEnds_of_legal wellFormed (State.hostRead_ends rfl (fun _ => rfl) (by decide))
  | hostWrite8 | hostWrite16 | hostWrite32 | hostWrite64
  | hostTryWrite8 | hostTryWrite16 | hostTryWrite32 | hostTryWrite64 =>
    exact hostEnds_of_legal wellFormed (State.hostWrite_ends rfl rfl (by decide))
  | hostIsRam | hostIsIram => exact hostEnds_of_legal wellFormed State.hostPredicate_ends
  | hostGetString | hostGetU16String => exact hostEnds_of_legal wellFormed (State.hostGetString_ends (by decide))
  | stateSave => exact ⟨_, rfl, .answer (.refl s []) trivial fun _ _ => rfl⟩
  | stateRestore => exact absurd rfl notRestore
  | _ => cases port

theorem exec_stateRestore_ends (s : State) : ∃ t, exec .stateRestore s = .next t ∧ Ends .stateRestore s t := by
  cases wellFormed : snapshotOk s.cfg s.h.req.snapIn
  · exact ⟨_, if_neg (Bool.eq_false_iff.1 wellFormed), .abort (i := .stateRestore) ⟨rfl, wellFormed⟩⟩
  · have silent : Silent s ((s.loadCaches s.h.req.snapIn).latchLocator.rebuildBoth) :=
      .of_trace (by simp) (by simp)
    exact ⟨_, if_pos wellFormed, .answer (i := .stateRestore) silent trivial⟩

/-! ### Every command -/

/-- Every command ends as R370 and R384 list it. -/
theorem exec_ends (i : Instr) (s : State) : ∃ t, exec i s = .next t ∧ Ends i s t := by
  by_cases query : isQuery i = true ∧ i.port = .g
  · obtain ⟨r, run, listed⟩ := exec_guestQuery query.1 query.2 s
    exact ⟨_, run, query.2 ▸ .answer .refl listed⟩
  by_cases host : i.port = .h ∧ i ≠ .stateRestore
  · cases wellFormed : i.wellFormed
    · obtain ⟨port, run⟩ := exec_of_illFormed wellFormed s
      exact ⟨_, run, port ▸ .abort wellFormed⟩
    · obtain ⟨_, run, stored, listed, -⟩ := exec_hostCommand host.1 host.2 wellFormed s
      exact ⟨_, run, host.1 ▸ .answer (.stores stored) listed⟩
  cases i with
  | read8 | read16 | read32 | read64 =>
    exact ⟨_, rfl, State.endAccess_ends rfl rfl rfl false (s.readHW_silent _ _ _)⟩
  | write8 | write16 | write32 | write64 =>
    exact ⟨_, rfl, State.endAccess_ends rfl rfl rfl true (s.writeHW_silent _ _ (by decide) _)⟩
  | readOpcode | tryReadInst => exact exec_fetch_ends (by simp) s
  | dclClear => exact ⟨_, rfl, State.lineStore_ends rfl rfl lineZeroFill_ends⟩
  | dclStore | dclInvalidate | dclFlush => exact ⟨_, rfl, State.lineStore_ends rfl rfl (linePassThrough_ends rfl)⟩
  | dmaLcToMem | dmaMemToLc => exact ⟨_, rfl, State.dmaCopy_ends rfl rfl _ _ _ _⟩
  | sdrUpdated | dbatUpdated | ibatUpdated | tlbInvalidateEntry =>
    exact ⟨_, rfl, ends_ok rfl (.of_trace (by simp) (by simp))⟩
  | stateRestore => exact exec_stateRestore_ends s
  | dclTouch | jitTranslate | getTranslated | optRam8 | optRam16 | optRam32 | optRam64 | optMmio8 | optMmio16
  | optMmio32 | optMmio64 | optGather => exact absurd ⟨rfl, rfl⟩ query
  | _ => exact absurd ⟨rfl, by simp⟩ host

end Sys2Proof.Machine

open Sys2Proof Sys2Proof.Machine

/-- Settles O55: the three ends of a command are the rows of the table. -/
theorem outcomeTable : Obligations.OutcomeTable := by
  intro i s
  obtain ⟨_, run, ends⟩ := exec_ends i s
  cases ends with
  | @answer u r silent listed =>
    obtain ⟨fatal, sent, trace, quiet⟩ := silent
    refine ⟨_, sent, run, (u.respond_trace _ r).trans trace, ?_⟩
    rw [State.respond_rsp, State.respond_fatal]
    revert listed
    cases r.status with
    | ok => exact fun _ => ⟨quiet, fatal⟩
    | absent | busError => exact fun listed => ⟨quiet, fatal, listed⟩
    | dsi | isi | abort => exact False.elim
  | @raise u msg silent listed =>
    obtain ⟨fatal, sent, trace, quiet⟩ := silent
    have one : (sent ++ [Event.fault msg]).filterMap Event.faultMsg = [msg] := by
      rw [List.filterMap_append, quiet]
      rfl
    refine ⟨_, sent ++ [.fault msg], run, by rw [State.raise_trace, trace, List.append_assoc], ?_⟩
    rw [State.raise_rsp, State.raise_fatal]
    unfold MayRaise at listed
    cases kind : msg.kind <;> rw [kind] at listed
    · exact ⟨⟨msg, one, kind⟩, fatal, listed⟩
    · exact ⟨⟨msg, one, kind, listed.1⟩, fatal, listed.2⟩
  | @abort why violates =>
    refine ⟨_, [], run, by rw [State.abort_trace, List.append_nil], ?_⟩
    rw [State.abort_rsp]
    exact ⟨rfl, s.abort_fatal _ why⟩
end

section
/-! What a command that only looks leaves alone (`20_memory.md` R94, `60_exceptions.md` R383): the queries, the port H
commands, and a fetch whose translation fails. -/

namespace Sys2Proof.Machine

/-- A query changes nothing but its response, on either port. -/
theorem exec_query {i : Instr} (query : isQuery i = true) (wellFormed : i.wellFormed = true) {s : State}
    (config : configOk s.cfg = true) : ∃ r, exec i s = .next (s.respond i.port r) := by
  cases port : i.port with
  | g =>
    obtain ⟨r, run, -⟩ := exec_guestQuery query port s
    exact ⟨r, run⟩
  | h =>
    have notRestore : i ≠ .stateRestore := by
      rintro rfl
      cases query
    obtain ⟨_, run, -, -, unchanged⟩ := exec_hostCommand port notRestore wellFormed s
    rw [unchanged query config] at run
    exact ⟨_, run⟩

/-- The tables, the caches and the locator of `t` are those of `s`. -/
structure TranslationKept (s t : State) : Prop where
  itlb : t.itlb = s.itlb
  dtlb : t.dtlb = s.dtlb
  ibatTable : t.ibatTable = s.ibatTable
  dbatTable : t.dbatTable = s.dbatTable
  ptBase : t.ptBase = s.ptBase
  ptHashMask : t.ptHashMask = s.ptHashMask

namespace TranslationKept

variable {s t : State}

theorem stores {pas : List Word} (stored : Stores s pas t) : TranslationKept s t := by
  obtain ⟨fields, -⟩ := stored.calls
  rw [fields]
  exact ⟨rfl, rfl, rfl, rfl, rfl, rfl⟩

theorem respond (kept : TranslationKept s t) (p : Port) (r : Response) : TranslationKept s (t.respond p r) := by
  cases p <;> exact { kept with }

theorem abort (p : Port) (why : AbortReason) : TranslationKept s (s.abort p why) := by
  cases p <;> exact ⟨rfl, rfl, rfl, rfl, rfl, rfl⟩

end TranslationKept

theorem exec_hostCommand_translationKept {i : Instr} (port : i.port = .h) (notRestore : i ≠ .stateRestore)
    {s t : State} (run : exec i s = .next t) : TranslationKept s t := by
  cases wellFormed : i.wellFormed
  · rw [(exec_of_illFormed wellFormed s).2] at run
    cases run
    exact .abort .h .badSpace
  · obtain ⟨_, answer, stored, -, -⟩ := exec_hostCommand port notRestore wellFormed s
    rw [answer] at run
    cases run
    exact (TranslationKept.stores stored).respond .h _

/-- A walk that fails changes nothing, whatever its mode (R182, R183). -/
theorem State.walk_of_failure {s : State} {m : Mode} {ea : Word} (failure : (s.walk m ea).1.address = none) :
    (s.walk m ea).2 = s := by
  rcases State.walk_cases (Prod.mk.eta (p := s.walk m ea)).symm with
    ⟨-, -, e⟩ | ⟨pte, -, ⟨-, -, e⟩ | ⟨-, success, -⟩⟩
  · exact e
  · exact e
  · rw [success] at failure
    cases failure

/-- Only a store that fails may have dropped a way (R179); any other failed translation changes nothing. -/
theorem State.translatePage_of_failure {s : State} {m : Mode} {ea : Word} (load : m.isStore = false)
    (failure : (s.translatePage m ea).1.address = none) : (s.translatePage m ea).2 = s := by
  rcases s.translatePage_cases m ea with
    ⟨-, e⟩ | ⟨-, -, -, e⟩ | ⟨-, -, e⟩ | ⟨-, w, -, ⟨-, e⟩ | ⟨-, store, -⟩ | ⟨-, -, e⟩⟩
  · rw [e]
  · rw [e]
  · rw [e] at failure ⊢
    exact State.walk_of_failure failure
  · rw [e]
  · rw [load] at store
    cases store
  · rw [e] at failure
    cases failure

theorem State.translate_of_failure {s : State} {m : Mode} {ea : Word} {v : Bool} (load : m.isStore = false)
    (failure : (s.translate m ea v).1.address = none) : (s.translate m ea v).2 = s := by
  rcases s.translate_cases m ea v with ⟨-, e⟩ | ⟨-, -, e⟩ | ⟨-, -, e⟩
  · rw [e]
  · rw [e]
  · rw [e] at failure ⊢
    exact State.translatePage_of_failure load failure

/-- A fetch that found no address left the state as it was. -/
theorem State.tryFetch_of_invalid {s t : State} {ea : Word} {x : Translation}
    (found : s.tryFetch ea = (.invalid x, t)) : t = s := by
  rcases translated : s.translate .opcode ea false with ⟨y, s1⟩
  rcases result : y.address with _ | pa
  · have unchanged := State.translate_of_failure (s := s) (m := .opcode) (ea := ea) (v := false) rfl
    rw [translated] at unchanged
    rw [State.tryFetch_of_fail translated result] at found
    cases found
    exact unchanged result
  · cases ram : inOne s1.cfg.ramRegions pa 4
    · rw [State.tryFetch_of_bus translated result ram] at found
      cases found
    · rw [State.tryFetch_of_ram translated result ram] at found
      cases found

/-- `TRY_READ_INST` answers `ABSENT` only for a failed translation, which changed nothing (R252). -/
theorem exec_tryReadInst_of_absent {s t : State} (run : exec .tryReadInst s = .next t)
    (absent : t.g.rsp.status = .absent) : t = s.respond .g (Response.only .absent) := by
  by_cases aligned : s.g.req.a.extractLsb' 0 2 = 0#2
  · rcases found : s.tryFetch s.g.req.a with ⟨⟨hex, pa, flags⟩ | x | _, u⟩
    · rw [exec_fetch_of_inst aligned (by simp) found] at run
      cases run
      cases absent
    · rw [exec_tryReadInst_of_invalid aligned found, State.tryFetch_of_invalid found] at run
      cases run
      rfl
    · rw [exec_fetch_of_bus aligned (by simp) found] at run
      cases run
      cases absent
  · rw [exec_fetch_of_misaligned (by simp) aligned] at run
    cases run
    cases absent

end Sys2Proof.Machine

open Sys2Proof Sys2Proof.Machine

/-- Settles O56: a query is one response; a port H command is an abort, or one access of the store and a response; a load
translation that fails leaves the state as it was. -/
theorem queriesDisturbNothing : Obligations.QueriesDisturbNothing := by
  refine ⟨fun i s t config query wellFormed run => ?_, fun i s t port notRestore run => ?_, fun s t =>
    exec_tryReadInst_of_absent⟩
  · obtain ⟨r, answer⟩ := exec_query query wellFormed config
    rw [answer] at run
    cases run
    rw [State.respond_rsp]
  · obtain ⟨itlb, dtlb, ibatTable, dbatTable, ptBase, ptHashMask⟩ :=
      exec_hostCommand_translationKept port notRestore run
    exact ⟨itlb, dtlb, ibatTable, dbatTable, ptBase, ptHashMask⟩
end

section
/-! Acceptance, outcome by outcome (`60_exceptions.md` R378, R384, R389): which command of the live port it lets run, and
why it turns one away. -/

namespace Sys2Proof.Machine

section
variable {s : State}

theorem State.livePort_park (parked : Bool) : (s.park parked).livePort = if parked then .h else .g := rfl

theorem State.park_req (parked : Bool) (p : Port) : (s.park parked).req p = s.req p := by cases p <;> rfl

/-! ### What acceptance answers -/

theorem State.accept_of_notPending (nothing : (s.req s.livePort).pending = false) : s.accept = .idle :=
  if_neg (Bool.eq_false_iff.1 nothing)

theorem State.accept_of_wrongPort {i : Instr} (noFatal : s.fatal = false)
    (pending : (s.req s.livePort).pending = true) (word : decode (s.req s.livePort).cmd = .ok i)
    (other : i.port ≠ s.livePort) : s.accept = .violation s.livePort .wrongPort := by
  unfold State.accept
  rw [if_pos pending, noFatal, word]
  exact if_neg other

/-- What an outcome of acceptance says about the command presented on the live port. -/
def State.Accepts (s : State) : Accepted → Prop
  | .idle => True
  | .dead _ => s.fatal = true
  | .violation p reason => p = s.livePort ∧
      ((reason = .illegalCommand ∧ ∃ why, decode (s.req s.livePort).cmd = .error why) ∨
        (reason = .wrongPort ∧ ∃ i, decode (s.req s.livePort).cmd = .ok i ∧ i.port ≠ s.livePort))
  | .run i => decode (s.req s.livePort).cmd = .ok i ∧ i.port = s.livePort

theorem State.accepts_accept (s : State) : s.Accepts s.accept := by
  unfold State.accept
  dsimp only
  split
  · split
    next fatal => exact fatal
    next =>
      split
      next why word => exact ⟨rfl, .inl ⟨rfl, why, word⟩⟩
      next i word =>
        split
        next own => exact ⟨word, own⟩
        next other => exact ⟨rfl, .inr ⟨rfl, i, word, other⟩⟩
  · trivial

/-! ### The step that nothing moves, and the step that aborts -/

theorem step_of_accept_idle (config : configOk s.cfg = true) (noReset : s.resetRequested = false)
    (idle : s.accept = .idle) : step s = .next s := by
  unfold step
  rw [if_pos config, noReset, idle]
  rfl

/-- A step that sets `FATAL` turned the command away at acceptance, or ran a command that violated the contract; either
way it is an abort and nothing else. -/
theorem step_sets_fatal {t : State} (run : step s = .next t) (alive : s.fatal = false) (fatal : t.fatal = true) :
    ∃ reason, t = (s.take s.livePort).abort s.livePort reason ∧
      (s.Accepts (.violation s.livePort reason) ∨
        ∃ i, s.Accepts (.run i) ∧ Violates i (s.take s.livePort) reason) := by
  have accepts := s.accepts_accept
  unfold step at run
  split at run
  · split at run
    next =>
      cases run
      cases fatal
    next =>
      split at run
      next idle =>
        cases run
        rw [alive] at fatal
        cases fatal
      next p dead =>
        rw [dead] at accepts
        exact absurd accepts (Bool.eq_false_iff.1 alive)
      next p reason violation =>
        rw [violation] at accepts
        obtain ⟨rfl, why⟩ := accepts
        cases run
        exact ⟨reason, rfl, .inl ⟨rfl, why⟩⟩
      next i accepted =>
        rw [accepted] at accepts
        obtain ⟨u, answer, ends⟩ := exec_ends i (s.take i.port)
        rw [answer] at run
        cases run
        rcases ends.fatal_kept_or_abort with kept | ⟨why, violates, aborted⟩
        · rw [kept, State.take_fatal, alive] at fatal
          cases fatal
        · rw [accepts.2] at violates aborted
          exact ⟨why, aborted, .inr ⟨i, accepts, violates⟩⟩
  · cases run

end

end Sys2Proof.Machine

open Sys2Proof Sys2Proof.Machine

/-- Settles O7: acceptance looks at the live port only, and no update writes `cpu_parked` (O58). -/
theorem portArbitration : Obligations.PortArbitration := by
  refine ⟨fun s => rfl, fun s config noReset nothing => ?_,
    fun s i parked config noReset noFatal pending word phase => ?_,
    fun s i config noReset noFatal pending word other => ?_, fun s t run => ?_⟩
  · exact step_of_accept_idle config noReset (State.accept_of_notPending nothing)
  · have live : (s.park parked).livePort = i.port := by
      rw [State.livePort_park]
      cases parked <;> cases port : i.port <;> simp [port] at phase ⊢
    rw [← s.park_req parked i.port] at pending word
    exact step_of_accept_run (s := s.park parked) config noReset (State.accept_of_decode live noFatal pending word)
  · exact step_of_accept_violation config noReset (State.accept_of_wrongPort noFatal pending word other)
  · obtain ⟨-, -, cpuParked, -⟩ := borrowedStateIsReadOnly s t run
    exact cpuParked

/-- Settles O57: acceptance gives the first two reasons, and an abort of a command that ran gives the other three. -/
theorem onlyViolationsAbort : Obligations.OnlyViolationsAbort := by
  intro s t run alive fatal
  obtain ⟨reason, aborted, turnedAway | ⟨i, ⟨word, live⟩, violates⟩⟩ := step_sets_fatal run alive fatal
  · obtain ⟨-, ⟨rfl, why⟩ | ⟨rfl, wrong⟩⟩ := turnedAway
    · exact ⟨_, aborted, why⟩
    · exact ⟨_, aborted, wrong⟩
  · refine ⟨reason, aborted, ?_⟩
    cases reason with
    | illegalCommand | wrongPort => cases violates
    | badSpace => exact ⟨i, word, violates⟩
    | misalignedFetch =>
      obtain ⟨misaligned, rfl | rfl⟩ := violates <;> rw [← live] at word misaligned
      · exact ⟨misaligned, .inl word⟩
      · exact ⟨misaligned, .inr word⟩
    | badSnapshot =>
      obtain ⟨rfl, malformed⟩ := violates
      rw [← live] at word malformed
      exact ⟨word, malformed⟩
end

section
/-! The reset sequence field by field (`70_reset_and_hazards.md` R410). -/

namespace Sys2Proof.Machine

/-- A rebuild of both tables is two fields: writing the first table changes no register that the second reads (R216). -/
theorem State.rebuildBoth_eq (s : State) :
    s.rebuildBoth =
      { s with
        ibatTable := updateBats s.cfg (s.batPairs .instruction)
        dbatTable := updateBats s.cfg (s.batPairs .data) } := rfl

/-- The rebuild, which comes last, reads the platform and the BAT registers, and the locator reads `SDR1`; nothing
before them in the sequence writes these, so both are functions of the state the reset finds. -/
theorem State.releaseReset_eq (s : State) :
    s.releaseReset =
      { s with
        resetRequested := false
        fatal := false
        abortReason := none
        g := { s.g with rsp := Response.zero }
        h := { s.h with rsp := Response.zero }
        itlb := []
        dtlb := []
        ptBase := sdr1PtBase s.cpu.sdr1
        ptHashMask := sdr1HashMask s.cpu.sdr1
        ibatTable := updateBats s.cfg (s.batPairs .instruction)
        dbatTable := updateBats s.cfg (s.batPairs .data) } :=
  State.rebuildBoth_eq _

/-- A requested reset comes before any command, presented or not. -/
theorem step_of_resetRequested {s : State} (config : configOk s.cfg = true) (reset : s.resetRequested = true) :
    step s = .next s.releaseReset := by
  unfold step
  rw [if_pos config, if_pos reset]

/-- Only a reset clears `FATAL`: a step without one keeps it (O8). -/
theorem resetRequested_of_fatal_cleared {s t : State} (fatal : s.fatal = true) (run : step s = .next t)
    (cleared : t.fatal = false) : s.resetRequested = true := by
  obtain ⟨-, -, -, sticky, -⟩ := fatalIsSticky
  by_contra noReset
  have kept : t.fatal = true := sticky s t fatal run (Bool.eq_false_iff.2 noReset)
  rw [cleared] at kept
  cases kept

end Sys2Proof.Machine

open Sys2Proof Sys2Proof.Machine

/-- Settles O9: a step without a reset keeps `FATAL`, and a step with one is the reset sequence. -/
theorem resetSequence : Obligations.ResetSequence := by
  refine ⟨fun s t fatal run cleared => resetRequested_of_fatal_cleared fatal run cleared,
    fun s config reset => ?_⟩
  rw [step_of_resetRequested config reset, State.releaseReset_eq]
  rfl
end
